-- ==== Sys2Proof/Word.lean ====
section
/-! DEFINITION. The word types and the two plain containers everything else is built from: eight-lane
vectors (R151, R164) and sorted key lists. -/
namespace Sys2Proof

/-- One 32-bit lane. -/
abbrev W := BitVec 32
/-- A byte of memory. -/
abbrev Byte := BitVec 8
/-- One bit per lane: a predicate, a lane-valid mask, a set of active lanes. -/
abbrev Mask := BitVec 8

/-- Eight values, one per lane (or one per any other family of eight). -/
structure Oct (α : Type) where
  l0 : α
  l1 : α
  l2 : α
  l3 : α
  l4 : α
  l5 : α
  l6 : α
  l7 : α
  deriving DecidableEq, Repr

namespace Oct
variable {α β γ : Type}

def rep (x : α) : Oct α := ⟨x, x, x, x, x, x, x, x⟩

/-- Lane l; lanes are numbered 0 to 7, and a number above 7 names lane 7. -/
def get (o : Oct α) : Nat → α
  | 0 => o.l0 | 1 => o.l1 | 2 => o.l2 | 3 => o.l3
  | 4 => o.l4 | 5 => o.l5 | 6 => o.l6 | _ => o.l7

def set (o : Oct α) : Nat → α → Oct α
  | 0, x => { o with l0 := x }
  | 1, x => { o with l1 := x }
  | 2, x => { o with l2 := x }
  | 3, x => { o with l3 := x }
  | 4, x => { o with l4 := x }
  | 5, x => { o with l5 := x }
  | 6, x => { o with l6 := x }
  | _, x => { o with l7 := x }

/-- The vector whose lane l is f l. -/
def of (f : Nat → α) : Oct α := ⟨f 0, f 1, f 2, f 3, f 4, f 5, f 6, f 7⟩

def map (f : α → β) (o : Oct α) : Oct β :=
  ⟨f o.l0, f o.l1, f o.l2, f o.l3, f o.l4, f o.l5, f o.l6, f o.l7⟩

def zip (f : α → β → γ) (a : Oct α) (b : Oct β) : Oct γ :=
  ⟨f a.l0 b.l0, f a.l1 b.l1, f a.l2 b.l2, f a.l3 b.l3,
   f a.l4 b.l4, f a.l5 b.l5, f a.l6 b.l6, f a.l7 b.l7⟩

def toList (o : Oct α) : List α := [o.l0, o.l1, o.l2, o.l3, o.l4, o.l5, o.l6, o.l7]

end Oct

/-- The lane numbers, in ascending order. -/
def lanes : List Nat := [0, 1, 2, 3, 4, 5, 6, 7]

/-- A list of key and value pairs with keys strictly rising. A key that is not listed has no entry. -/
abbrev SMap (α : Type) := List (Nat × α)

namespace SMap
variable {α : Type}

def get? : SMap α → Nat → Option α
  | [], _ => none
  | (k, v) :: m, i => if k = i then some v else get? m i

def getD (m : SMap α) (i : Nat) (d : α) : α := (get? m i).getD d

/-- Insert in key order, replacing an entry of the same key. -/
def put : SMap α → Nat → α → SMap α
  | [], i, x => [(i, x)]
  | (k, v) :: m, i, x =>
    if i < k then (i, x) :: (k, v) :: m
    else if i = k then (i, x) :: m
    else (k, v) :: put m i x

def del : SMap α → Nat → SMap α
  | [], _ => []
  | (k, v) :: m, i => if k = i then m else (k, v) :: del m i

/-- Every key of the list is above n. -/
def above (n : Nat) : SMap α → Bool
  | [] => true
  | (k, _) :: m => decide (n < k) && above n m

/-- The canonical form: keys strictly rising. -/
def wf : SMap α → Bool
  | [] => true
  | (k, _) :: m => above k m && wf m

end SMap

end Sys2Proof
end

