-- ==== Sys2Proof/Syntax.lean ====
section
/-! DEFINITION. The operand types and the one inductive of the opcode table: 189 instructions of R33, one
constructor each with its decoded fields, and the 127 steps of the table that no operation word encodes
(95_what_each_step_holds.md), one constructor each with the data that names the thing the step acts on. -/
namespace Sys2Proof

/-- Source operand codes of R29. -/
inductive Src where
  | v (n : Fin 16)   -- 0-15
  | i (n : Fin 6)    -- 16-21, the head token
  | t0 | t1          -- 22, 23
  | zr | ln          -- 24, 25
  | k (n : Fin 4)    -- 26-29
  deriving DecidableEq, Repr

/-- Destination operand codes of R29. -/
inductive Dst where
  | v (n : Fin 16)
  | o (n : Fin 6)
  | zr
  deriving DecidableEq, Repr

/-- SZ of the integer and lane classes (R27). -/
inductive ISz where | w32 | w16 | w8
  deriving DecidableEq, Repr

/-- SZ of the floating-point classes (R27). -/
inductive FSz where | f32 | f16 | bf16
  deriving DecidableEq, Repr

/-- MOD as a rounding mode (R27, R182). -/
inductive Rm where | rn | rz | rd | ru
  deriving DecidableEq, Repr

/-- PU 1, 2, 3 (R28). -/
inductive PuOp where | set | and | or
  deriving DecidableEq, Repr

/-- A predicate update: PU and PD. -/
structure Pu where
  op : PuOp
  p  : Fin 8
  deriving DecidableEq, Repr

/-- Format tags (R152). -/
inductive Tag where | fp32 | fp16 | bf16 | e4m3 | e5m2 | int32 | int8 | raw
  deriving DecidableEq, Repr

/-- SENDT's choice: a tag, or CFG for one of K0-K3 (R171). -/
inductive SendMode where
  | tag (t : Tag)
  | cfg (k : Fin 4)
  deriving DecidableEq, Repr

/-- SHI's KIND (R208). -/
inductive ShKind where | shl | shr | sar | rol
  deriving DecidableEq, Repr

/-- MOD of LSUMI (R212). -/
inductive SumMode where | wrap | sat | uwrap | usat
  deriving DecidableEq, Repr

/-- MOD of LSCANI (R212). -/
inductive ScanMode where | wrap | sat | usat
  deriving DecidableEq, Repr

/-- SZ and MOD of LMAX and LMIN (R212, R213). -/
inductive MmKind where
  | s (z : ISz) | u (z : ISz) | f (z : FSz)
  deriving DecidableEq, Repr

/-- V of ST and STS (R94). -/
inductive Width where | word | half | byte
  deriving DecidableEq, Repr

/-- V of PREF (R98). -/
inductive PrefLevel where | home | visit | fabric
  deriving DecidableEq, Repr

/-- V of REDC (R113). -/
inductive RedArith where | i32 | i32s | f32 | bf16 | f16
  deriving DecidableEq, Repr

/-- PWRH's hint (R324). -/
inductive Hint where | normal | low | high
  deriving DecidableEq, Repr

/-- The two kinds of plane of an element: the working plane (A or B, which alternate) and plane S (R164). -/
inductive Plane where | work | s
  deriving DecidableEq, Repr

/-- Where an uncorrectable error strikes (R311). -/
inductive ErrSite where
  | committed (pa : Nat)                 -- committed data of a line
  | tileRow (key : Nat)                  -- a committed row of tile memory, by its byte key
  | uncommitted (region : Nat) (pa : Nat) (tile : Nat)   -- in that tile's arrays; from 2^52 on, no address
  | restoring (region : Nat) (tile : Nat)  -- the last cut's save half, the undo area or the round log, in that tile
  deriving DecidableEq, Repr

/-- What the two ends of a Ronilawin link tell each other when they have trained (R353): the peer's package, protocol
version and domain. -/
structure LinkPeer where
  pkg     : Nat
  version : Nat
  domain  : Nat
  deriving DecidableEq, Repr

/-- What an SPDM requester sends with CHALLENGE, and with GET_MEASUREMENTS: the index, a nonce where it asks for a
signature, and its context (R356). -/
structure ChallengeRequest where
  nonce   : Nat
  context : Nat
  deriving DecidableEq, Repr
structure MeasurementRequest where
  index   : Nat
  sign    : Option Nat
  context : Nat
  deriving DecidableEq, Repr

/-- What a control core or the host does at a physical address (R52, R53). -/
inductive CoreOp where
  | load (bytes : Nat)
  | store (bytes : Nat) (value : BitVec 64)
  deriving DecidableEq, Repr

inductive Instr where
  -- class 0x0 (R171)
  | nop
  | send (d : Option (Fin 6)) (a : Src) (pu : Option Pu)
  | sendt (o : Fin 6) (a : Src) (m : SendMode)
  | sende (o : Fin 6) (a : Src) (imm : BitVec 14)
  | sendh (o : Fin 6) (a : Src)
  | pass (d : Option (Fin 6)) (j : Fin 6)
  | steer (o : Fin 3) (a : Src) (p : Fin 8)
  | tagq (p : Fin 8) (a : Src) (tags : BitVec 8)
  | pset (p : Fin 8) (mask : BitVec 8)
  | plog (p pa pb : Fin 8) (fn : BitVec 4) (mask : BitVec 8)
  | pget (d : Dst) (p : Fin 8) (pu : Option Pu)
  | pput (p : Fin 8) (a : Src)
  | pcnt (p pa : Fin 8) (n : Fin 9) (mask : BitVec 8)
  | ende
  -- class 0x1 (R201 to R203)
  | add (d : Dst) (a b : Src) (pu : Option Pu) (z : ISz)
  | sub (d : Dst) (a b : Src) (pu : Option Pu) (z : ISz)
  | adds (d : Dst) (a b : Src) (pu : Option Pu) (z : ISz)
  | addus (d : Dst) (a b : Src) (pu : Option Pu) (z : ISz)
  | subs (d : Dst) (a b : Src) (pu : Option Pu) (z : ISz)
  | subus (d : Dst) (a b : Src) (pu : Option Pu) (z : ISz)
  | mul (d : Dst) (a b : Src) (pu : Option Pu) (z : ISz)
  | mulh (d : Dst) (a b : Src) (pu : Option Pu) (z : ISz)
  | mulhu (d : Dst) (a b : Src) (pu : Option Pu) (z : ISz)
  | mad (d : Fin 16) (a b : Src) (pu : Option Pu) (z : ISz)
  | neg (d : Dst) (a : Src) (pu : Option Pu) (z : ISz)
  | abs (d : Dst) (a : Src) (pu : Option Pu) (z : ISz)
  | addc (d : Fin 16) (a b : Src) (pu : Pu) (nc : Bool)
  | subb (d : Fin 16) (a b : Src) (pu : Pu) (nc : Bool)
  | div (d : Dst) (a b : Src) (pu : Option Pu) (z : ISz)
  | divu (d : Dst) (a b : Src) (pu : Option Pu) (z : ISz)
  -- class 0x2 (R204 to R206)
  | and (d : Dst) (a b : Src) (pu : Option Pu)
  | or (d : Dst) (a b : Src) (pu : Option Pu)
  | xor (d : Dst) (a b : Src) (pu : Option Pu)
  | andn (d : Dst) (a b : Src) (pu : Option Pu)
  | not (d : Dst) (a : Src) (pu : Option Pu)
  | shl (d : Dst) (a b : Src) (pu : Option Pu) (z : ISz)
  | shr (d : Dst) (a b : Src) (pu : Option Pu) (z : ISz)
  | sar (d : Dst) (a b : Src) (pu : Option Pu) (z : ISz)
  | rol (d : Dst) (a b : Src) (pu : Option Pu) (z : ISz)
  | clz (d : Dst) (a : Src) (pu : Option Pu) (z : ISz)
  | ctz (d : Dst) (a : Src) (pu : Option Pu) (z : ISz)
  | popc (d : Dst) (a : Src) (pu : Option Pu) (z : ISz)
  | brev (d : Dst) (a : Src) (pu : Option Pu) (z : ISz)
  | bfx (d : Dst) (a : Src) (pos len1 : Fin 32) (sx : Bool)
  | bfi (d : Fin 16) (a : Src) (pos len1 : Fin 32)
  | sel (d : Dst) (a b : Src) (p : Fin 8)
  -- class 0x3 (R207, R208)
  | cmpeq (d : Dst) (a b : Src) (pu : Option Pu) (z : ISz)
  | cmpne (d : Dst) (a b : Src) (pu : Option Pu) (z : ISz)
  | cmplt (d : Dst) (a b : Src) (pu : Option Pu) (z : ISz)
  | cmple (d : Dst) (a b : Src) (pu : Option Pu) (z : ISz)
  | cmpltu (d : Dst) (a b : Src) (pu : Option Pu) (z : ISz)
  | cmpleu (d : Dst) (a b : Src) (pu : Option Pu) (z : ISz)
  | min (d : Dst) (a b : Src) (pu : Option Pu) (z : ISz)
  | max (d : Dst) (a b : Src) (pu : Option Pu) (z : ISz)
  | minu (d : Dst) (a b : Src) (pu : Option Pu) (z : ISz)
  | maxu (d : Dst) (a b : Src) (pu : Option Pu) (z : ISz)
  | addi (d : Dst) (a : Src) (imm : BitVec 14)
  | muli (d : Dst) (a : Src) (imm : BitVec 14)
  | andi (d : Dst) (a : Src) (imm : BitVec 14)
  | ori (d : Dst) (a : Src) (imm : BitVec 14)
  | xori (d : Dst) (a : Src) (imm : BitVec 14)
  | shi (d : Dst) (a : Src) (kind : ShKind) (c : Fin 32)
  -- class 0x4 (R222 to R227)
  | fadd (d : Dst) (a b : Src) (pu : Option Pu) (z : FSz) (rm : Rm)
  | fsub (d : Dst) (a b : Src) (pu : Option Pu) (z : FSz) (rm : Rm)
  | fmul (d : Dst) (a b : Src) (pu : Option Pu) (z : FSz) (rm : Rm)
  | fma (d : Fin 16) (a b : Src) (pu : Option Pu) (z : FSz) (rm : Rm)
  | fms (d : Fin 16) (a b : Src) (pu : Option Pu) (z : FSz) (rm : Rm)
  | fnma (d : Fin 16) (a b : Src) (pu : Option Pu) (z : FSz) (rm : Rm)
  | fdiv (d : Dst) (a b : Src) (pu : Option Pu) (z : FSz) (rm : Rm)
  | frcp (d : Dst) (a : Src) (pu : Option Pu) (z : FSz) (rm : Rm)
  | fsqrt (d : Dst) (a : Src) (pu : Option Pu) (z : FSz) (rm : Rm)
  | frsq (d : Dst) (a : Src) (pu : Option Pu) (z : FSz) (rm : Rm)
  | fneg (d : Dst) (a : Src) (pu : Option Pu) (z : FSz)
  | fabs (d : Dst) (a : Src) (pu : Option Pu) (z : FSz)
  | fmin (d : Dst) (a b : Src) (pu : Option Pu) (z : FSz)
  | fmax (d : Dst) (a b : Src) (pu : Option Pu) (z : FSz)
  | fscale (d : Dst) (a b : Src) (pu : Option Pu) (z : FSz) (rm : Rm)
  | fcpys (d : Dst) (a b : Src) (pu : Option Pu) (z : FSz)
  -- class 0x5 (R228 to R233)
  | fexp (d : Dst) (a : Src) (pu : Option Pu) (z : FSz) (rm : Rm)
  | fexp2 (d : Dst) (a : Src) (pu : Option Pu) (z : FSz) (rm : Rm)
  | flog (d : Dst) (a : Src) (pu : Option Pu) (z : FSz) (rm : Rm)
  | flog2 (d : Dst) (a : Src) (pu : Option Pu) (z : FSz) (rm : Rm)
  | fsin (d : Dst) (a : Src) (pu : Option Pu) (z : FSz) (rm : Rm)
  | fcos (d : Dst) (a : Src) (pu : Option Pu) (z : FSz) (rm : Rm)
  | fsincos (d : Fin 16) (a : Src) (pu : Option Pu) (z : FSz) (rm : Rm)
  | ftanh (d : Dst) (a : Src) (pu : Option Pu) (z : FSz) (rm : Rm)
  | fsigm (d : Dst) (a : Src) (pu : Option Pu) (z : FSz) (rm : Rm)
  | ferf (d : Dst) (a : Src) (pu : Option Pu) (z : FSz) (rm : Rm)
  | fpowi (d : Dst) (a b : Src) (pu : Option Pu) (z : FSz) (rm : Rm)
  | flog1p (d : Dst) (a : Src) (pu : Option Pu) (z : FSz) (rm : Rm)
  | fexpm1 (d : Dst) (a : Src) (pu : Option Pu) (z : FSz) (rm : Rm)
  -- class 0x6 (R234 to R239)
  | fcmpeq (d : Dst) (a b : Src) (pu : Option Pu) (z : FSz)
  | fcmplt (d : Dst) (a b : Src) (pu : Option Pu) (z : FSz)
  | fcmple (d : Dst) (a b : Src) (pu : Option Pu) (z : FSz)
  | fcmpun (d : Dst) (a b : Src) (pu : Option Pu) (z : FSz)
  | fclass (d : Dst) (a : Src) (pu : Option Pu) (z : FSz)
  | cvtf (d : Dst) (a : Src) (pu : Option Pu) (z : FSz) (rm : Rm)
  | cvtfi (d : Dst) (a : Src) (pu : Option Pu) (z : FSz) (rm : Rm)
  | cvtif (d : Dst) (a : Src) (pu : Option Pu) (z : FSz) (rm : Rm)
  | qnt (d : Dst) (a b : Src) (pu : Option Pu) (z : FSz) (rm : Rm)
  | dqnt (d : Dst) (a b : Src) (pu : Option Pu) (i : Fin 4)
  | frnd (d : Dst) (a : Src) (pu : Option Pu) (z : FSz) (rm : Rm)
  | pack (d : Dst) (a b : Src) (pu : Option Pu) (bf : Bool) (rm : Rm)
  | unpk (d : Dst) (a : Src) (pu : Option Pu) (i : Fin 4)
  -- class 0x7 (R240 to R244)
  | jord (k : Fin 4)
  | jseed (d : Dst) (a b : Src) (pu : Option Pu) (z : FSz)
  | jconst (d : Dst) (a : Src) (pu : Option Pu) (z : FSz)
  | jext (d : Dst) (a : Src) (j : Fin 4)
  | jins (d : Fin 16) (a : Src) (j : Fin 4)
  | jdiff (d : Dst) (a : Src) (pu : Option Pu) (z : FSz) (rm : Rm)
  | jintg (d : Dst) (a b : Src) (pu : Option Pu) (z : FSz) (rm : Rm)
  | jeval (d : Dst) (a b : Src) (pu : Option Pu) (z : FSz) (rm : Rm)
  | jmov (d : Dst) (a : Src) (pu : Option Pu)
  | jscal (d : Dst) (a b : Src) (pu : Option Pu) (z : FSz) (rm : Rm)
  | jtrnc (d : Dst) (a : Src) (m : Fin 4)
  | jflag (d : Dst) (cmask : BitVec 4) (fmask : BitVec 5)
  -- class 0x8 (R209 to R213)
  | lbc (d : Dst) (a : Src) (k : Fin 8)
  | lshf (d : Dst) (a : Src) (n7 : Fin 15)
  | lrot (d : Dst) (a : Src) (n : Fin 8)
  | lsum (d : Dst) (a : Src) (pu : Option Pu) (z : FSz) (rm : Rm)
  | lsumi (d : Dst) (a : Src) (pu : Option Pu) (z : ISz) (m : SumMode)
  | lmax (d : Dst) (a : Src) (pu : Option Pu) (k : MmKind)
  | lmin (d : Dst) (a : Src) (pu : Option Pu) (k : MmKind)
  | lscan (d : Dst) (a : Src) (pu : Option Pu) (z : FSz) (rm : Rm)
  | lscani (d : Dst) (a : Src) (pu : Option Pu) (z : ISz) (m : ScanMode)
  | lcmpr (d : Dst) (a : Src) (p : Fin 8) (pu : Option Pu)
  | lexpd (d : Dst) (a : Src) (p : Fin 8) (pu : Option Pu)
  | ldot (d : Dst) (a b : Src) (pu : Option Pu) (z : FSz) (rm : Rm)
  -- class 0x9 (R173, R166)
  | mov (d : Dst) (a : Src) (pu : Option Pu)
  | movi (d : Dst) (imm : BitVec 14)
  | movl (d : Fin 16) (t : Tag) (imm : BitVec 16)
  | movh (d : Fin 16) (t : Tag) (imm : BitVec 16)
  | mfs (d : Dst) (n : Fin 15)
  | mts (n : Fin 15) (a : Src)
  -- class 0xA (R94 to R98)
  | ld (s : Fin 8) (m : BitVec 8) (a : Src) (r : Fin 32) (t : Tag)
  | ldb (s : Fin 8) (m : BitVec 8) (a : Src) (r : Fin 32) (t : Tag)
  | st (s : Fin 8) (m : BitVec 8) (a d : Src) (w : Width)
  | stb (s : Fin 8) (m : BitVec 8) (a d : Src)
  | lds (s : Fin 8) (m : BitVec 8) (a : Src) (r : Fin 32) (t : Tag)
  | sts (s : Fin 8) (m : BitVec 8) (a d : Src) (w : Width)
  | ldf (s : Fin 8) (m : BitVec 8) (a : Src) (r : Fin 32) (t : Tag)
  | ldfe (s : Fin 8) (m : BitVec 8) (a : Src) (r : Fin 32) (t : Tag)
  | ste (s : Fin 8) (m : BitVec 8) (a d : Src)
  | stff (s : Fin 8) (m : BitVec 8) (a d : Src)
  | pref (s : Fin 8) (m : BitVec 8) (a : Src) (l : PrefLevel)
  -- class 0xB (R99, R100)
  | aadd (s : Fin 8) (m : BitVec 8) (a d : Src) (r : Option (Fin 7))
  | aadds (s : Fin 8) (m : BitVec 8) (a d : Src) (r : Option (Fin 7))
  | afadd (s : Fin 8) (m : BitVec 8) (a d : Src) (r : Option (Fin 7))
  | amin (s : Fin 8) (m : BitVec 8) (a d : Src) (r : Option (Fin 7))
  | amax (s : Fin 8) (m : BitVec 8) (a d : Src) (r : Option (Fin 7))
  | aminu (s : Fin 8) (m : BitVec 8) (a d : Src) (r : Option (Fin 7))
  | amaxu (s : Fin 8) (m : BitVec 8) (a d : Src) (r : Option (Fin 7))
  | aand (s : Fin 8) (m : BitVec 8) (a d : Src) (r : Option (Fin 7))
  | aor (s : Fin 8) (m : BitVec 8) (a d : Src) (r : Option (Fin 7))
  | axor (s : Fin 8) (m : BitVec 8) (a d : Src) (r : Option (Fin 7))
  | axch (s : Fin 8) (m : BitVec 8) (a d : Src) (r : Option (Fin 7))
  | acas (s : Fin 8) (m : BitVec 8) (a : Src) (d : Fin 15) (r : Option (Fin 7))
  | atas (s : Fin 8) (m : BitVec 8) (a d : Src) (r : Option (Fin 7))
  | aincw (s : Fin 8) (m : BitVec 8) (a d : Src) (r : Option (Fin 7))
  -- class 0xC (R102)
  | copy (s : Fin 8) (m : BitVec 8) (g : Fin 16) (q : Fin 32)
  | copy2d (s : Fin 8) (m : BitVec 8) (g : Fin 16) (q : Fin 32)
  | gath (s : Fin 8) (m : BitVec 8) (g : Fin 16) (q : Fin 32) (e : Fin 5)
  | scat (s : Fin 8) (m : BitVec 8) (g : Fin 16) (q : Fin 32) (e : Fin 5)
  | strm (s : Fin 8) (m : BitVec 8) (g : Fin 16) (q : Fin 32) (chan : Bool)
  | mxmm (s : Fin 8) (m : BitVec 8) (g : Fin 16) (q : Fin 32)
  | mxsort (s : Fin 8) (m : BitVec 8) (g : Fin 16) (q : Fin 32)
  | ringi (s : Fin 8) (m : BitVec 8) (g : Fin 16)
  | ringa (s : Fin 8) (m : BitVec 8) (g : Fin 16) (tail : Bool)
  | spill (s : Fin 8) (m : BitVec 8) (g : Fin 16) (ch : Fin 6)
  | echk (g : Fin 16) (p : Fin 8) (upd : Option PuOp)
  | ecan (g : Fin 16)
  | linkx (s : Fin 8) (m : BitVec 8) (g : Fin 16) (q : Fin 32)
  | redc (s : Fin 8) (m : BitVec 8) (g : Fin 16) (q : Fin 32) (f : RedArith)
  -- class 0xD (R137, R174 to R176)
  | spawn (a b c : Src) (jc : Fin 512)
  | tdone (jc : Fin 512)
  | jarm (a : Src) (jc : Fin 512)
  | watch (a b d : Src) (pu : Option Pu)
  | unwatch (a d : Src) (pu : Option Pu)
  | pginc (c : Fin 4) (a : Src) (imm : BitVec 14)
  | pgset (c : Fin 4) (a : Src) (imm : BitVec 14)
  | isect (o a b : Fin 6)
  | union (o a b : Fin 6)
  -- class 0xE (R320 to R324)
  | trap (code : BitVec 14)
  | brk (code : BitVec 14)
  | cutrq
  | evnt (e : BitVec 8) (irq : Bool)
  | l1wb (s : Fin 8) (m : BitVec 8) (a d : Src) (visit : Bool)
  | l1inv (s : Fin 8) (m : BitVec 8) (a d : Src) (visit : Bool)
  | pwrh (h : Hint)
  -- steps of the element and the channels
  | instructionComplete (e k : Nat)
  | tokenArrive (k : Nat)
  | spillRefill (e vc ch : Nat)
  | creditReturn (k : Nat)
  | cfgTokenApply (e vc ch : Nat)
  | taskPacketDeliver (k : Nat)
  | joinUnitCycle (rg : Nat)
  -- steps of the memory system
  | nodeRequestAccept (op lane : Nat)
  | arbiterBeat (port : Nat)
  | memoryOpPerform (op : Nat)
  | replySend (op : Nat)
  | feDeferredServe (pa : Nat)
  | feLoadReissue (op lane : Nat)
  | tlbLookup (op lane : Nat)
  | pageWalk (k : Nat)
  | translationFault (die : Nat)
  | shootdownComplete (die : Nat)
  | migrationMove (die asid vpn frame : Nat)
  | viscfgChangeDone (die : Nat)
  | streamNodeStart (tile node : Nat)
  | streamNodeSend (tile node : Nat)
  -- steps of the engines
  | commandAccept (unit : Nat)
  | commandStart (cmd : Nat)
  | engineBeat (cmd : Nat)
  | commandFinish (cmd : Nat)
  | completionTokenSend (cmd : Nat)
  | tenderBlockWrite (cmd : Nat)
  | tenderTokenSend (cmd : Nat)
  | islandBLoadDone (cmd : Nat)
  | islandTileBegin (cmd : Nat)
  | islandTileEnd (cmd : Nat)
  | ringaApply (cmd : Nat)
  | spillRingChange (cmd : Nat)
  | scaleEntryDeliver (rg : Nat)
  -- counters, arbiters, power
  | rateWindowEnd (die : Nat)
  | beaconSend (e c : Nat)
  | beaconApply (k : Nat)
  | beaconSubscribe (k : Nat)
  | powerRefill (die : Nat)
  -- the shunter
  | launchWrite (die prio : Nat) (value : BitVec 64)
  | walkStart (die : Nat)
  | consistRecord (w : Nat)
  | armRecord (w : Nat)
  | waitRecord (w : Nat)
  | waitPoll (w : Nat)
  | waitRelease (w : Nat)
  | cutRecord (w : Nat)
  | signalRecord (w : Nat)
  | branchRecord (w : Nat)
  | callRecord (w : Nat)
  | returnRecord (w : Nat)
  | endRecord (w : Nat)
  | placementAttempt (w : Nat)
  | gangReserve (w mem : Nat)
  | gangCommit (w : Nat)
  | imagePrefetch (w : Nat)
  | planeReady (e : Nat)
  | consistComplete (rg : Nat)
  | completionTokenPass (rg tile : Nat)
  | planeSwap (e : Nat)
  | bankTokenGrant (rg tile bank : Nat)
  | startTokenArrive (rg tile : Nat)
  | gabort (die : Nat) (run : W)
  | urgentLaunch (die : Nat) (value : W)
  | planeSSwitch (e : Nat)
  -- cuts, rounds and traps
  | roundTimerExpiry (rg : Nat)
  | cutStart (rg : Nat)
  | elementSave (e : Nat)
  | cutComplete (rg : Nat)
  | cutTimeout (rg : Nat)
  | roundVoid (rg : Nat)
  | deadlockEvent (rg : Nat)
  | stallTrapRecord (die : Nat)
  | uncorrectableError (site : ErrSite)
  | undervoltStep (die q events : Nat)
  -- register accesses with a behaviour of their own
  | fresumeRetry (die tag : Nat)
  | fresumeAbort (die tag : Nat)
  | fqheadWrite (die : Nat) (v : W)
  | fqctlWrite (die : Nat) (v : W)
  | feretryRead (die : Nat)
  | viscfgWrite (die : Nat) (v : W)
  | sdctlWrite (die : Nat) (v : W)
  | lstatWrite (die : Nat) (v : W)
  | tqheadWrite (die : Nat) (v : W)
  | tqctlWrite (die : Nat) (v : W)
  | tresumeResume (die tag : Nat)
  | tresumeClearPoison (die tag : Nat)
  | tresumeVoid (die tag : Nat)
  | tresumeAbort (die tag : Nat)
  | preempt (die : Nat)
  | restore (die : Nat)
  | dump (die : Nat)
  | pctlVoid (die : Nat)
  | debugHalt (die : Nat)
  | debugResume (die : Nat)
  | stallWalk (die : Nat) (v : W)
  | stallWalkHop (die : Nat)
  | trdropRead (die : Nat)
  | sketchClear (die j : Nat) (v : W)
  | spineWrite (die n : Nat) (v : W)
  | spineChangeDone (die n : Nat)
  | tclkWrite (die m : Nat) (v : W)
  | tileClockSwitchDone (die tile : Nat)
  | uvctlWrite (die q : Nat) (v : W)
  | cacheWayGate (die : Nat)
  | cacheWayEnable (die : Nat)
  | clusterGate (die : Nat)
  | clusterWake (die : Nat)
  | shunterGate (die : Nat)
  | shunterWake (die : Nat)
  | ptpMessage (offset : Int)
  | linkUp (port : Nat) (peer : LinkPeer)
  | linkDown (port : Nat)
  | rlstatRead (port : Nat)
  | moduleReset
  | bootPhaseComplete (ok : Bool)
  | spdmGetVersion
  | spdmGetCapabilities
  | spdmNegotiateAlgorithms
  | spdmGetDigests
  | spdmGetCertificate
  | spdmChallenge (req : ChallengeRequest)
  | spdmGetMeasurements (req : MeasurementRequest)
  | coreAccessFault (die core pa : Nat)
  | registerWrite (die off : Nat) (v : BitVec 64)
  | controlCoreAccess (die core pa : Nat) (op : CoreOp)
  | linkHaltReport (port : Nat) (halted : Bool)
  deriving DecidableEq, Repr

end Sys2Proof
end

