-- ==== Sys2Proof/Config.lean ====
section
/-! DEFINITION. What one module fixes for good, and the free values: constants without a body, which nothing can
evaluate. Log entries 2, 3, 30 to 32, 34 and 97. -/
namespace Sys2Proof.Config

/-- The package this model is (R9). See log entry 3 (DESIGN CHOICE). -/
def pkg : Nat := 0

/-- Free values (log entry 2): one 64-bit value per number drawn. -/
opaque freeValue : Nat → BitVec 64

/-- The boot stages of phase 2, the measurement register each extends, and the digest of the stage after it (R355): the
firmware's. Log entry 30. -/
opaque bootStages : Nat
opaque bootRegister : Nat → Fin 8
opaque bootDigest : Nat → BitVec 384
/-- The fused P-384 public key and its certificate (R356), as bytes of a message. Log entry 31. -/
opaque spdmCertificate : List (BitVec 8)
/-- The ECDSA P-384 signature of a message under the package's identity key (R356). Log entry 32. -/
opaque spdmSign : List (BitVec 8) → List (BitVec 8)
/-- The protocol version and the domain of this package's Ronilawin ports (R353): not given by the spec. Log entry 97. -/
opaque linkVersion : Nat
opaque linkDomain : Nat
/-- The order in which the shunter gives free wheel indices (R144: not architected). Log entry 34. -/
opaque wheelPhase : Nat → Nat

end Sys2Proof.Config
end

