-- ==== Sys2Proof/WellFormed.lean ====
section
/-! DEFINITION. Which operands an instruction names, and the checks on an instruction that its types do not
already make: R30 (plane S), R205 (BFX and BFI fields), R176 (ISECT and UNION channels). -/
namespace Sys2Proof

/-- The reasons of R43. -/
inductive Reason where
  | image | shape | fetch | opcode | rsvField | rsvOpnd | destCode | shadowReg | chanName
  | noChan | descReg | reply | link | table
  deriving DecidableEq, Repr

/-- The codes of R43. -/
def Reason.code : Reason → Nat
  | .image => 0x01 | .shape => 0x02 | .fetch => 0x03 | .opcode => 0x10 | .rsvField => 0x11
  | .rsvOpnd => 0x12 | .destCode => 0x13 | .shadowReg => 0x14 | .chanName => 0x15
  | .noChan => 0x16 | .descReg => 0x17 | .reply => 0x18 | .link => 0x20 | .table => 0x21

/-- The two registers of ACAS: the expected value Vn and the new value Vn+1 (R100). -/
def casLo (d : Fin 15) : Fin 16 := ⟨d.val, by omega⟩
def casHi (d : Fin 15) : Fin 16 := ⟨d.val + 1, by omega⟩

/-- STEER's first output: O0, O2 or O4 (R171). -/
def steerOut (o : Fin 3) : Fin 6 := ⟨2 * o.val, by omega⟩
/-- STEER's other output. -/
def steerOut2 (o : Fin 3) : Fin 6 := ⟨2 * o.val + 1, by omega⟩

/-- A destination that is an output or is discarded. -/
def outz : Option (Fin 6) → Dst
  | some o => .o o
  | none => .zr

/-- The source operands of an instruction, each with whether it is read as a jet group (R32, R216, R222, R234,
R240). A destination that is also read stands here too, and so does a descriptor register. -/
def Instr.srcs : Instr → List (Src × Bool)
  | .send _ a _ => [(a, false)]
  | .sendt _ a _ => [(a, false)]
  | .sende _ a _ => [(a, false)]
  | .sendh _ a => [(a, false)]
  | .pass _ j => [(.i j, false)]
  | .steer _ a _ => [(a, false)]
  | .tagq _ a _ => [(a, false)]
  | .pput _ a => [(a, false)]
  | .add _ a b _ _ => [(a, false), (b, false)]
  | .sub _ a b _ _ => [(a, false), (b, false)]
  | .adds _ a b _ _ => [(a, false), (b, false)]
  | .addus _ a b _ _ => [(a, false), (b, false)]
  | .subs _ a b _ _ => [(a, false), (b, false)]
  | .subus _ a b _ _ => [(a, false), (b, false)]
  | .mul _ a b _ _ => [(a, false), (b, false)]
  | .mulh _ a b _ _ => [(a, false), (b, false)]
  | .mulhu _ a b _ _ => [(a, false), (b, false)]
  | .mad d a b _ _ => [(.v d, false), (a, false), (b, false)]
  | .neg _ a _ _ => [(a, false)]
  | .abs _ a _ _ => [(a, false)]
  | .addc d a b _ _ => [(.v d, false), (a, false), (b, false)]
  | .subb d a b _ _ => [(.v d, false), (a, false), (b, false)]
  | .div _ a b _ _ => [(a, false), (b, false)]
  | .divu _ a b _ _ => [(a, false), (b, false)]
  | .and _ a b _ => [(a, false), (b, false)]
  | .or _ a b _ => [(a, false), (b, false)]
  | .xor _ a b _ => [(a, false), (b, false)]
  | .andn _ a b _ => [(a, false), (b, false)]
  | .not _ a _ => [(a, false)]
  | .shl _ a b _ _ => [(a, false), (b, false)]
  | .shr _ a b _ _ => [(a, false), (b, false)]
  | .sar _ a b _ _ => [(a, false), (b, false)]
  | .rol _ a b _ _ => [(a, false), (b, false)]
  | .clz _ a _ _ => [(a, false)]
  | .ctz _ a _ _ => [(a, false)]
  | .popc _ a _ _ => [(a, false)]
  | .brev _ a _ _ => [(a, false)]
  | .bfx _ a _ _ _ => [(a, false)]
  | .bfi d a _ _ => [(.v d, false), (a, false)]
  | .sel _ a b _ => [(a, false), (b, false)]
  | .cmpeq _ a b _ _ => [(a, false), (b, false)]
  | .cmpne _ a b _ _ => [(a, false), (b, false)]
  | .cmplt _ a b _ _ => [(a, false), (b, false)]
  | .cmple _ a b _ _ => [(a, false), (b, false)]
  | .cmpltu _ a b _ _ => [(a, false), (b, false)]
  | .cmpleu _ a b _ _ => [(a, false), (b, false)]
  | .min _ a b _ _ => [(a, false), (b, false)]
  | .max _ a b _ _ => [(a, false), (b, false)]
  | .minu _ a b _ _ => [(a, false), (b, false)]
  | .maxu _ a b _ _ => [(a, false), (b, false)]
  | .addi _ a _ => [(a, false)]
  | .muli _ a _ => [(a, false)]
  | .andi _ a _ => [(a, false)]
  | .ori _ a _ => [(a, false)]
  | .xori _ a _ => [(a, false)]
  | .shi _ a _ _ => [(a, false)]
  | .fadd _ a b _ _ _ => [(a, true), (b, true)]
  | .fsub _ a b _ _ _ => [(a, true), (b, true)]
  | .fmul _ a b _ _ _ => [(a, true), (b, true)]
  | .fma d a b _ _ _ => [(.v d, true), (a, true), (b, true)]
  | .fms d a b _ _ _ => [(.v d, true), (a, true), (b, true)]
  | .fnma d a b _ _ _ => [(.v d, true), (a, true), (b, true)]
  | .fdiv _ a b _ _ _ => [(a, true), (b, true)]
  | .frcp _ a _ _ _ => [(a, true)]
  | .fsqrt _ a _ _ _ => [(a, true)]
  | .frsq _ a _ _ _ => [(a, true)]
  | .fneg _ a _ _ => [(a, true)]
  | .fabs _ a _ _ => [(a, true)]
  | .fmin _ a b _ _ => [(a, true), (b, true)]
  | .fmax _ a b _ _ => [(a, true), (b, true)]
  | .fscale _ a b _ _ _ => [(a, true), (b, false)]
  | .fcpys _ a b _ _ => [(a, true), (b, false)]
  | .fexp _ a _ _ _ => [(a, true)]
  | .fexp2 _ a _ _ _ => [(a, true)]
  | .flog _ a _ _ _ => [(a, true)]
  | .flog2 _ a _ _ _ => [(a, true)]
  | .fsin _ a _ _ _ => [(a, true)]
  | .fcos _ a _ _ _ => [(a, true)]
  | .fsincos _ a _ _ _ => [(a, true)]
  | .ftanh _ a _ _ _ => [(a, true)]
  | .fsigm _ a _ _ _ => [(a, true)]
  | .ferf _ a _ _ _ => [(a, true)]
  | .fpowi _ a b _ _ _ => [(a, true), (b, false)]
  | .flog1p _ a _ _ _ => [(a, true)]
  | .fexpm1 _ a _ _ _ => [(a, true)]
  | .fcmpeq _ a b _ _ => [(a, true), (b, true)]
  | .fcmplt _ a b _ _ => [(a, true), (b, true)]
  | .fcmple _ a b _ _ => [(a, true), (b, true)]
  | .fcmpun _ a b _ _ => [(a, true), (b, true)]
  | .fclass _ a _ _ => [(a, true)]
  | .cvtf _ a _ _ _ => [(a, true)]
  | .cvtfi _ a _ _ _ => [(a, true)]
  | .cvtif _ a _ _ _ => [(a, true)]
  | .qnt _ a b _ _ _ => [(a, true), (b, false)]
  | .dqnt _ a b _ _ => [(a, true), (b, false)]
  | .frnd _ a _ _ _ => [(a, true)]
  | .pack _ a b _ _ _ => [(a, false), (b, false)]
  | .unpk _ a _ _ => [(a, false)]
  | .jseed _ a b _ _ => [(a, false), (b, false)]
  | .jconst _ a _ _ => [(a, false)]
  | .jext _ a _ => [(a, true)]
  | .jins d a _ => [(.v d, true), (a, false)]
  | .jdiff _ a _ _ _ => [(a, true)]
  | .jintg _ a b _ _ _ => [(a, true), (b, false)]
  | .jeval _ a b _ _ _ => [(a, true), (b, false)]
  | .jmov _ a _ => [(a, true)]
  | .jscal _ a b _ _ _ => [(a, true), (b, false)]
  | .jtrnc _ a _ => [(a, true)]
  | .lbc _ a _ => [(a, false)]
  | .lshf _ a _ => [(a, false)]
  | .lrot _ a _ => [(a, false)]
  | .lsum _ a _ _ _ => [(a, false)]
  | .lsumi _ a _ _ _ => [(a, false)]
  | .lmax _ a _ _ => [(a, false)]
  | .lmin _ a _ _ => [(a, false)]
  | .lscan _ a _ _ _ => [(a, false)]
  | .lscani _ a _ _ _ => [(a, false)]
  | .lcmpr _ a _ _ => [(a, false)]
  | .lexpd _ a _ _ => [(a, false)]
  | .ldot _ a b _ _ _ => [(a, false), (b, false)]
  | .mov _ a _ => [(a, false)]
  | .movh d _ _ => [(.v d, false)]
  | .mts _ a => [(a, false)]
  | .ld _ _ a _ _ => [(a, false)]
  | .ldb _ _ a _ _ => [(a, false)]
  | .st _ _ a d _ => [(a, false), (d, false)]
  | .stb _ _ a d => [(a, false), (d, false)]
  | .lds _ _ a _ _ => [(a, false)]
  | .sts _ _ a d _ => [(a, false), (d, false)]
  | .ldf _ _ a _ _ => [(a, false)]
  | .ldfe _ _ a _ _ => [(a, false)]
  | .ste _ _ a d => [(a, false), (d, false)]
  | .stff _ _ a d => [(a, false), (d, false)]
  | .pref _ _ a _ => [(a, false)]
  | .aadd _ _ a d _ => [(a, false), (d, false)]
  | .aadds _ _ a d _ => [(a, false), (d, false)]
  | .afadd _ _ a d _ => [(a, false), (d, false)]
  | .amin _ _ a d _ => [(a, false), (d, false)]
  | .amax _ _ a d _ => [(a, false), (d, false)]
  | .aminu _ _ a d _ => [(a, false), (d, false)]
  | .amaxu _ _ a d _ => [(a, false), (d, false)]
  | .aand _ _ a d _ => [(a, false), (d, false)]
  | .aor _ _ a d _ => [(a, false), (d, false)]
  | .axor _ _ a d _ => [(a, false), (d, false)]
  | .axch _ _ a d _ => [(a, false), (d, false)]
  | .acas _ _ a d _ => [(a, false), (.v (casLo d), false), (.v (casHi d), false)]
  | .atas _ _ a d _ => [(a, false), (d, false)]
  | .aincw _ _ a d _ => [(a, false), (d, false)]
  | .copy _ _ g _ => [(.v g, false)]
  | .copy2d _ _ g _ => [(.v g, false)]
  | .gath _ _ g _ _ => [(.v g, false)]
  | .scat _ _ g _ _ => [(.v g, false)]
  | .strm _ _ g _ _ => [(.v g, false)]
  | .mxmm _ _ g _ => [(.v g, false)]
  | .mxsort _ _ g _ => [(.v g, false)]
  | .ringi _ _ g => [(.v g, false)]
  | .ringa _ _ g _ => [(.v g, false)]
  | .spill _ _ g _ => [(.v g, false)]
  | .echk g _ _ => [(.v g, false)]
  | .ecan g => [(.v g, false)]
  | .linkx _ _ g _ => [(.v g, false)]
  | .redc _ _ g _ _ => [(.v g, false)]
  | .spawn a b c _ => [(a, false), (b, false), (c, false)]
  | .jarm a _ => [(a, false)]
  | .watch a b d _ => [(d, false), (a, false), (b, false)]
  | .unwatch a d _ => [(d, false), (a, false)]
  | .pginc _ a _ => [(a, false)]
  | .pgset _ a _ => [(a, false)]
  | .isect _ a b => [(.i a, false), (.i b, false)]
  | .union _ a b => [(.i a, false), (.i b, false)]
  | .l1wb _ _ a d _ => [(a, false), (d, false)]
  | .l1inv _ _ a d _ => [(a, false), (d, false)]
  | _ => []

/-- The destination of an instruction, with whether it is a jet group. -/
def Instr.dst : Instr → Option (Dst × Bool)
  | .send d _ _ => some (outz d, false)
  | .sendt o _ _ => some (.o o, false)
  | .sende o _ _ => some (.o o, false)
  | .sendh o _ => some (.o o, false)
  | .pass d _ => some (outz d, false)
  | .steer o _ _ => some (.o (steerOut o), false)
  | .pget d _ _ => some (d, false)
  | .add d _ _ _ _ => some (d, false)
  | .sub d _ _ _ _ => some (d, false)
  | .adds d _ _ _ _ => some (d, false)
  | .addus d _ _ _ _ => some (d, false)
  | .subs d _ _ _ _ => some (d, false)
  | .subus d _ _ _ _ => some (d, false)
  | .mul d _ _ _ _ => some (d, false)
  | .mulh d _ _ _ _ => some (d, false)
  | .mulhu d _ _ _ _ => some (d, false)
  | .mad d _ _ _ _ => some (.v d, false)
  | .neg d _ _ _ => some (d, false)
  | .abs d _ _ _ => some (d, false)
  | .addc d _ _ _ _ => some (.v d, false)
  | .subb d _ _ _ _ => some (.v d, false)
  | .div d _ _ _ _ => some (d, false)
  | .divu d _ _ _ _ => some (d, false)
  | .and d _ _ _ => some (d, false)
  | .or d _ _ _ => some (d, false)
  | .xor d _ _ _ => some (d, false)
  | .andn d _ _ _ => some (d, false)
  | .not d _ _ => some (d, false)
  | .shl d _ _ _ _ => some (d, false)
  | .shr d _ _ _ _ => some (d, false)
  | .sar d _ _ _ _ => some (d, false)
  | .rol d _ _ _ _ => some (d, false)
  | .clz d _ _ _ => some (d, false)
  | .ctz d _ _ _ => some (d, false)
  | .popc d _ _ _ => some (d, false)
  | .brev d _ _ _ => some (d, false)
  | .bfx d _ _ _ _ => some (d, false)
  | .bfi d _ _ _ => some (.v d, false)
  | .sel d _ _ _ => some (d, false)
  | .cmpeq d _ _ _ _ => some (d, false)
  | .cmpne d _ _ _ _ => some (d, false)
  | .cmplt d _ _ _ _ => some (d, false)
  | .cmple d _ _ _ _ => some (d, false)
  | .cmpltu d _ _ _ _ => some (d, false)
  | .cmpleu d _ _ _ _ => some (d, false)
  | .min d _ _ _ _ => some (d, false)
  | .max d _ _ _ _ => some (d, false)
  | .minu d _ _ _ _ => some (d, false)
  | .maxu d _ _ _ _ => some (d, false)
  | .addi d _ _ => some (d, false)
  | .muli d _ _ => some (d, false)
  | .andi d _ _ => some (d, false)
  | .ori d _ _ => some (d, false)
  | .xori d _ _ => some (d, false)
  | .shi d _ _ _ => some (d, false)
  | .fadd d _ _ _ _ _ => some (d, true)
  | .fsub d _ _ _ _ _ => some (d, true)
  | .fmul d _ _ _ _ _ => some (d, true)
  | .fma d _ _ _ _ _ => some (.v d, true)
  | .fms d _ _ _ _ _ => some (.v d, true)
  | .fnma d _ _ _ _ _ => some (.v d, true)
  | .fdiv d _ _ _ _ _ => some (d, true)
  | .frcp d _ _ _ _ => some (d, true)
  | .fsqrt d _ _ _ _ => some (d, true)
  | .frsq d _ _ _ _ => some (d, true)
  | .fneg d _ _ _ => some (d, true)
  | .fabs d _ _ _ => some (d, true)
  | .fmin d _ _ _ _ => some (d, true)
  | .fmax d _ _ _ _ => some (d, true)
  | .fscale d _ _ _ _ _ => some (d, true)
  | .fcpys d _ _ _ _ => some (d, true)
  | .fexp d _ _ _ _ => some (d, true)
  | .fexp2 d _ _ _ _ => some (d, true)
  | .flog d _ _ _ _ => some (d, true)
  | .flog2 d _ _ _ _ => some (d, true)
  | .fsin d _ _ _ _ => some (d, true)
  | .fcos d _ _ _ _ => some (d, true)
  | .fsincos d _ _ _ _ => some (.v d, true)
  | .ftanh d _ _ _ _ => some (d, true)
  | .fsigm d _ _ _ _ => some (d, true)
  | .ferf d _ _ _ _ => some (d, true)
  | .fpowi d _ _ _ _ _ => some (d, true)
  | .flog1p d _ _ _ _ => some (d, true)
  | .fexpm1 d _ _ _ _ => some (d, true)
  | .fcmpeq d _ _ _ _ => some (d, false)
  | .fcmplt d _ _ _ _ => some (d, false)
  | .fcmple d _ _ _ _ => some (d, false)
  | .fcmpun d _ _ _ _ => some (d, false)
  | .fclass d _ _ _ => some (d, true)
  | .cvtf d _ _ _ _ => some (d, true)
  | .cvtfi d _ _ _ _ => some (d, true)
  | .cvtif d _ _ _ _ => some (d, true)
  | .qnt d _ _ _ _ _ => some (d, true)
  | .dqnt d _ _ _ _ => some (d, true)
  | .frnd d _ _ _ _ => some (d, true)
  | .pack d _ _ _ _ _ => some (d, false)
  | .unpk d _ _ _ => some (d, false)
  | .jseed d _ _ _ _ => some (d, true)
  | .jconst d _ _ _ => some (d, true)
  | .jext d _ _ => some (d, false)
  | .jins d _ _ => some (.v d, true)
  | .jdiff d _ _ _ _ => some (d, true)
  | .jintg d _ _ _ _ _ => some (d, true)
  | .jeval d _ _ _ _ _ => some (d, false)
  | .jmov d _ _ => some (d, true)
  | .jscal d _ _ _ _ _ => some (d, true)
  | .jtrnc d _ _ => some (d, true)
  | .jflag d _ _ => some (d, false)
  | .lbc d _ _ => some (d, false)
  | .lshf d _ _ => some (d, false)
  | .lrot d _ _ => some (d, false)
  | .lsum d _ _ _ _ => some (d, false)
  | .lsumi d _ _ _ _ => some (d, false)
  | .lmax d _ _ _ => some (d, false)
  | .lmin d _ _ _ => some (d, false)
  | .lscan d _ _ _ _ => some (d, false)
  | .lscani d _ _ _ _ => some (d, false)
  | .lcmpr d _ _ _ => some (d, false)
  | .lexpd d _ _ _ => some (d, false)
  | .ldot d _ _ _ _ _ => some (d, false)
  | .mov d _ _ => some (d, false)
  | .movi d _ => some (d, false)
  | .movl d _ _ => some (.v d, false)
  | .movh d _ _ => some (.v d, false)
  | .mfs d _ => some (d, false)
  | .isect o _ _ => some (.o o, false)
  | .union o _ _ => some (.o o, false)
  | .echk g _ _ => some (.v g, false)
  | _ => none

/-- The predicates an instruction reads as operands (R167). -/
def Instr.predsRead : Instr → List (Fin 8)
  | .steer _ _ p => [p]
  | .plog _ pa pb _ _ => [pa, pb]
  | .pget _ p _ => [p]
  | .pcnt _ pa _ _ => [pa]
  | .addc _ _ _ pu nc => if nc then [] else [pu.p]
  | .subb _ _ _ pu nc => if nc then [] else [pu.p]
  | .sel _ _ _ p => [p]
  | .lcmpr _ _ p _ => [p]
  | .lexpd _ _ p _ => [p]
  | _ => []

/-- The instruction takes jet groups (R32): some operand is one. -/
def Instr.takesGroups (i : Instr) : Bool :=
  i.srcs.any (·.2) || (match i.dst with | some (_, g) => g | none => false)

def Src.inPlane : Plane → Src → Bool
  | .s, .v n => decide (n.val < 4)
  | _, _ => true

def Dst.inPlane : Plane → Dst → Bool
  | .s, .v n => decide (n.val < 4)
  | _, _ => true

/-- A well-formed instruction of a plane. Everything else that R25 to R31 and the entries ask of the fields of one
operation word is in the types of the operands. -/
def Instr.wf (pl : Plane) (i : Instr) : Bool :=
  i.srcs.all (fun x => x.1.inPlane pl) &&
  (match i.dst with | some (d, _) => d.inPlane pl | none => true) &&
  (match i with
   | .bfx _ _ pos len1 _ => decide (pos.val + len1.val + 1 ≤ 32)
   | .bfi _ _ pos len1 => decide (pos.val + len1.val + 1 ≤ 32)
   | .isect _ a b => decide (a ≠ b)
   | .union _ a b => decide (a ≠ b)
   | _ => true)

end Sys2Proof
end

