-- ==== Sys2Proof/Decode.lean ====
section
/-! DEFINITION. The operation word of a slot read as an instruction, every breach rejected by the reason R43 gives
it, the trigger word (R22, R25, R31), and the encoder. -/
namespace Sys2Proof

/-- The outcome of reading a field or a word: a value, or the reason it is rejected with. -/
inductive Chk (α : Type) where
  | ok (x : α)
  | bad (r : Reason)
  deriving DecidableEq, Repr

/-- Of two reasons the one with the lower code is reported (R43). -/
def Reason.first (a b : Reason) : Reason := if b.code < a.code then b else a

def Chk.ap {α β : Type} (f : Chk (α → β)) (x : Chk α) : Chk β :=
  match f, x with
  | .ok g, .ok y => .ok (g y)
  | .ok _, .bad r => .bad r
  | .bad r, .ok _ => .bad r
  | .bad r, .bad q => .bad (r.first q)

/-- A condition whose breach is RSVFIELD (R27). -/
def Chk.also {α : Type} (x : Chk α) (ok : Bool) : Chk α :=
  if ok then x else
    match x with
    | .ok _ => .bad .rsvField
    | .bad r => .bad (r.first .rsvField)

def Chk.toOption {α : Type} : Chk α → Option α
  | .ok x => some x
  | .bad _ => none

/-- Field of `len` bits from bit `lo`. -/
def fld (w lo len : Nat) : Nat := w / 2 ^ lo % 2 ^ len

namespace D

def fin (n v : Nat) : Chk (Fin n) := if h : v < n then .ok ⟨v, h⟩ else .bad .rsvField

/-- A vector register code in a plane (R30). -/
def vreg (pl : Plane) (n : Nat) : Chk (Fin 16) :=
  if h : n < 16 then
    (match pl with
     | .work => .ok ⟨n, h⟩
     | .s => if n < 4 then .ok ⟨n, h⟩ else .bad .shadowReg)
  else .bad .rsvField

/-- Any source code of R29. See log entry 10 (DEDUCED). -/
def src (pl : Plane) (n : Nat) : Chk Src :=
  if n < 16 then (Chk.ok Src.v).ap (vreg pl n)
  else if h : n - 16 < 6 then .ok (.i ⟨n - 16, h⟩)
  else if n = 22 then .ok .t0
  else if n = 23 then .ok .t1
  else if n = 24 then .ok .zr
  else if n = 25 then .ok .ln
  else if h : n - 26 < 4 then .ok (.k ⟨n - 26, h⟩)
  else .bad .rsvOpnd

/-- The reason of a code that a destination field does not admit (R43). -/
def notDst (pl : Plane) (n : Nat) : Reason :=
  if 30 ≤ n then .rsvOpnd
  else if n = 22 ∨ n = 23 ∨ (25 ≤ n ∧ n ≤ 29) then .destCode
  else if n < 16 ∧ 4 ≤ n ∧ pl = .s then .shadowReg
  else .rsvField

/-- Any destination code of R29. See log entry 10 (DEDUCED). -/
def dst (pl : Plane) (n : Nat) : Chk Dst :=
  if n < 16 then (Chk.ok Dst.v).ap (vreg pl n)
  else if h : n - 16 < 6 then .ok (.o ⟨n - 16, h⟩)
  else if n = 24 then .ok .zr
  else .bad (notDst pl n)

/-- A destination that admits only vector registers (R173, R201, R219). -/
def vdst (pl : Plane) (n : Nat) : Chk (Fin 16) :=
  if n < 16 then vreg pl n else .bad (notDst pl n)

/-- A destination that admits only outputs. -/
def out (pl : Plane) (n : Nat) : Chk (Fin 6) :=
  if h : 16 ≤ n ∧ n - 16 < 6 then .ok ⟨n - 16, h.2⟩ else .bad (notDst pl n)

/-- A destination that admits outputs and ZR (R171). -/
def outz (pl : Plane) (n : Nat) : Chk (Option (Fin 6)) :=
  if n = 24 then .ok none
  else if h : 16 ≤ n ∧ n - 16 < 6 then .ok (some ⟨n - 16, h.2⟩)
  else .bad (notDst pl n)

def steer (pl : Plane) (n : Nat) : Chk (Fin 3) :=
  match n with
  | 16 => .ok 0
  | 18 => .ok 1
  | 20 => .ok 2
  | _ => .bad (notDst pl n)

/-- The reason of a code that a source field does not admit. -/
def notSrc (pl : Plane) (n : Nat) : Reason :=
  if 30 ≤ n then .rsvOpnd
  else if n < 16 ∧ 4 ≤ n ∧ pl = .s then .shadowReg
  else .rsvField

/-- PASS reads a channel (R171). -/
def chan (pl : Plane) (n : Nat) : Chk (Fin 6) :=
  if h : 16 ≤ n ∧ n - 16 < 6 then .ok ⟨n - 16, h.2⟩ else .bad (notSrc pl n)

/-- ISECT and UNION read a channel, and any other source code is a breach of their channel rule (R176). -/
def xch (pl : Plane) (n : Nat) : Chk (Fin 6) :=
  if h : 16 ≤ n ∧ n - 16 < 6 then .ok ⟨n - 16, h.2⟩
  else if 30 ≤ n then .bad .rsvOpnd
  else if n < 16 ∧ 4 ≤ n ∧ pl = .s then .bad .shadowReg
  else .bad .chanName

/-- ACAS's D (R100): a register whose successor exists too. -/
def casd (pl : Plane) (n : Nat) : Chk (Fin 15) :=
  if h : n < 15 then
    (match pl with
     | .work => .ok ⟨n, h⟩
     | .s => if n < 3 then .ok ⟨n, h⟩ else .bad .shadowReg)
  else .bad (notSrc pl n)

/-- The descriptor register of format E (R102). -/
def descg (pl : Plane) (n : Nat) : Chk (Fin 16) :=
  if n < 16 then vreg pl n else .bad .descReg

def pred (n : Nat) : Chk (Fin 8) := fin 8 n
def g4 (n : Nat) : Chk (Fin 4) := fin 4 n
def p3 (n : Nat) : Chk (Fin 8) := .ok (Fin.ofNat 8 n)
def s3 (n : Nat) : Chk (Fin 8) := .ok (Fin.ofNat 8 n)
def m8 (n : Nat) : Chk (BitVec 8) := .ok (BitVec.ofNat 8 n)
def fn4 (n : Nat) : Chk (BitVec 4) := .ok (BitVec.ofNat 4 n)
def cnt9 (n : Nat) : Chk (Fin 9) := fin 9 n
def imm14 (n : Nat) : Chk (BitVec 14) := .ok (BitVec.ofNat 14 n)
def imm16 (n : Nat) : Chk (BitVec 16) := .ok (BitVec.ofNat 16 n)
def rep (n : Nat) : Chk (Fin 32) := .ok (Fin.ofNat 32 n)
def jc (n : Nat) : Chk (Fin 512) := .ok (Fin.ofNat 512 n)
def fin4 (n : Nat) : Chk (Fin 4) := .ok (Fin.ofNat 4 n)
def st15 (n : Nat) : Chk (Fin 15) := fin 15 n
def i2 (n : Nat) : Chk (Fin 4) := fin 4 n
def i3 (n : Nat) : Chk (Fin 8) := fin 8 n
def q8 (n : Nat) : Chk (Fin 8) := fin 8 n
def ch6 (n : Nat) : Chk (Fin 6) := fin 6 n
def esz (n : Nat) : Chk (Fin 5) := fin 5 n
def imm8 (n : Nat) : Chk (BitVec 8) := if n < 256 then .ok (BitVec.ofNat 8 n) else .bad .rsvField

def tagOf : Nat → Tag
  | 0 => .fp32 | 1 => .fp16 | 2 => .bf16 | 3 => .e4m3
  | 4 => .e5m2 | 5 => .int32 | 6 => .int8 | _ => .raw
def tag (n : Nat) : Chk Tag := .ok (tagOf n)

/-- The predicate update: PU at [1:0], PD at [4:2] of the five bits [8:4] (R26, R28). -/
def pu (n : Nat) : Chk (Option Pu) :=
  match n % 4 with
  | 0 => if n = 0 then .ok none else .bad .rsvField
  | 1 => .ok (some ⟨.set, Fin.ofNat 8 (n / 4)⟩)
  | 2 => .ok (some ⟨.and, Fin.ofNat 8 (n / 4)⟩)
  | _ => .ok (some ⟨.or, Fin.ofNat 8 (n / 4)⟩)

/-- PU must be 1, 2 or 3 (R202). -/
def pu1 (n : Nat) : Chk Pu :=
  match pu n with
  | .ok (some u) => .ok u
  | .ok none => .bad .rsvField
  | .bad r => .bad r

/-- SEL's selecting predicate in PD, with PU 0 (R206). -/
def selp (n : Nat) : Chk (Fin 8) :=
  if n % 4 = 0 then .ok (Fin.ofNat 8 (n / 4)) else .bad .rsvField

def bool2 (n : Nat) : Chk Bool := match n with | 0 => .ok false | 1 => .ok true | _ => .bad .rsvField
def bool3 (n : Nat) : Chk Bool := match n with | 0 => .ok false | 1 => .ok true | _ => .bad .rsvField
def isz (n : Nat) : Chk ISz :=
  match n with | 0 => .ok .w32 | 1 => .ok .w16 | 2 => .ok .w8 | _ => .bad .rsvField
def fsz (n : Nat) : Chk FSz :=
  match n with | 0 => .ok .f32 | 1 => .ok .f16 | 2 => .ok .bf16 | _ => .bad .rsvField
/-- PACK's SZ is 1 or 2 (R234). -/
def hsz (n : Nat) : Chk Bool := match n with | 1 => .ok false | 2 => .ok true | _ => .bad .rsvField
def rm (n : Nat) : Chk Rm := match n with | 0 => .ok .rn | 1 => .ok .rz | 2 => .ok .rd | _ => .ok .ru
def summ (n : Nat) : Chk SumMode :=
  match n with | 0 => .ok .wrap | 1 => .ok .sat | 2 => .ok .uwrap | _ => .ok .usat
def scanm (n : Nat) : Chk ScanMode :=
  match n with | 0 => .ok .wrap | 1 => .ok .sat | 2 => .ok .usat | _ => .bad .rsvField
/-- SZ and MOD of LMAX and LMIN: MOD at [1:0], SZ at [3:2] (R212, R213). -/
def mm (n : Nat) : Chk MmKind :=
  match n % 4 with
  | 0 => (Chk.ok MmKind.s).ap (isz (n / 4))
  | 1 => (Chk.ok MmKind.u).ap (isz (n / 4))
  | 2 => (Chk.ok MmKind.f).ap (fsz (n / 4))
  | _ => .bad .rsvField
/-- SENDT's IMM14: [2:0] TAG, [3] CFG, [13:4] 0; with CFG, TAG[2] = 0 (R171). -/
def sendm (n : Nat) : Chk SendMode :=
  if n < 8 then .ok (.tag (tagOf n))
  else if h : n - 8 < 4 then .ok (.cfg ⟨n - 8, h⟩)
  else .bad .rsvField
/-- BFX's IMM14: [4:0] pos, [9:5] len − 1, [10] SX (R205). -/
def bfx (n : Nat) : Chk (Fin 32 × Fin 32 × Bool) :=
  if n < 2048 ∧ n % 32 + n / 32 % 32 + 1 ≤ 32 then
    .ok (Fin.ofNat 32 n, Fin.ofNat 32 (n / 32), decide (1024 ≤ n))
  else .bad .rsvField
def bfi (n : Nat) : Chk (Fin 32 × Fin 32) :=
  if n < 1024 ∧ n % 32 + n / 32 % 32 + 1 ≤ 32 then .ok (Fin.ofNat 32 n, Fin.ofNat 32 (n / 32))
  else .bad .rsvField
def shKind : Nat → ShKind | 0 => .shl | 1 => .shr | 2 => .sar | _ => .rol
/-- SHI's IMM14: [4:0] count, [6:5] KIND (R208). -/
def shi (n : Nat) : Chk (ShKind × Fin 32) :=
  if n < 128 then .ok (shKind (n / 32), Fin.ofNat 32 n) else .bad .rsvField
/-- JFLAG's IMM14: [3:0] cmask, [8:4] fmask (R240). -/
def jfl (n : Nat) : Chk (BitVec 4 × BitVec 5) :=
  if n < 512 then .ok (BitVec.ofNat 4 n, BitVec.ofNat 5 (n / 16)) else .bad .rsvField
/-- LSHF's count, −7 to 7 in two's complement, kept as the count plus 7 (R210). -/
def shf (n : Nat) : Chk (Fin 15) :=
  if h : n < 8 then .ok ⟨n + 7, by omega⟩
  else if h : 16377 ≤ n ∧ n - 16377 < 7 then .ok ⟨n - 16377, by omega⟩
  else .bad .rsvField
def width (n : Nat) : Chk Width :=
  match n with | 0 => .ok .word | 1 => .ok .half | 2 => .ok .byte | _ => .bad .rsvField
def plev (n : Nat) : Chk PrefLevel :=
  match n with | 0 => .ok .home | 1 => .ok .visit | 2 => .ok .fabric | _ => .bad .rsvField
/-- V of an atomic: reply entry 0-6, or 7 for none (R26, R99). -/
def arep (n : Nat) : Chk (Option (Fin 7)) := if h : n < 7 then .ok (some ⟨n, h⟩) else .ok none
def upd4 (n : Nat) : Chk (Option PuOp) :=
  match n with
  | 0 => .ok none | 1 => .ok (some .set) | 2 => .ok (some .and) | 3 => .ok (some .or)
  | _ => .bad .rsvField
def redv (n : Nat) : Chk RedArith :=
  match n with
  | 0 => .ok .i32 | 1 => .ok .i32s | 2 => .ok .f32 | 3 => .ok .bf16 | 4 => .ok .f16
  | _ => .bad .rsvField
/-- EVNT's IMM14: [7:0] e, [8] IRQ (R322). -/
def evt (n : Nat) : Chk (BitVec 8 × Bool) :=
  if n < 512 then .ok (BitVec.ofNat 8 n, decide (256 ≤ n)) else .bad .rsvField
def hint (n : Nat) : Chk Hint :=
  match n with | 0 => .ok .normal | 1 => .ok .low | 2 => .ok .high | _ => .bad .rsvField

end D

/-- Class 0x0 of the opcode map (R33). -/
def decodeClass0 (pl : Plane) (w lo : Nat) : Chk Instr :=
  match lo with
  | 0 => ((Chk.ok Instr.nop).also (fld w 19 5 == 0 && fld w 14 5 == 0 && fld w 9 5 == 0 && fld w 4 5 == 0 && fld w 2 2 == 0 && fld w 0 2 == 0))
  | 1 => (((((Chk.ok (fun d => fun a => fun pu => Instr.send d a pu)).ap (D.outz pl (fld w 19 5))).ap (D.src pl (fld w 14 5))).ap (D.pu (fld w 4 5))).also (fld w 9 5 == 0 && fld w 2 2 == 0 && fld w 0 2 == 0))
  | 2 => ((((Chk.ok (fun o => fun a => fun m => Instr.sendt o a m)).ap (D.out pl (fld w 19 5))).ap (D.src pl (fld w 14 5))).ap (D.sendm (fld w 0 14)))
  | 3 => ((((Chk.ok (fun o => fun a => fun imm => Instr.sende o a imm)).ap (D.out pl (fld w 19 5))).ap (D.src pl (fld w 14 5))).ap (D.imm14 (fld w 0 14)))
  | 4 => ((((Chk.ok (fun o => fun a => Instr.sendh o a)).ap (D.out pl (fld w 19 5))).ap (D.src pl (fld w 14 5))).also (fld w 9 5 == 0 && fld w 4 5 == 0 && fld w 2 2 == 0 && fld w 0 2 == 0))
  | 5 => ((((Chk.ok (fun d => fun j => Instr.pass d j)).ap (D.outz pl (fld w 19 5))).ap (D.chan pl (fld w 14 5))).also (fld w 9 5 == 0 && fld w 4 5 == 0 && fld w 2 2 == 0 && fld w 0 2 == 0))
  | 6 => (((((Chk.ok (fun o => fun a => fun p => Instr.steer o a p)).ap (D.steer pl (fld w 19 5))).ap (D.src pl (fld w 14 5))).ap (D.pred (fld w 9 5))).also (fld w 4 5 == 0 && fld w 2 2 == 0 && fld w 0 2 == 0))
  | 7 => ((((Chk.ok (fun p => fun a => fun tags => Instr.tagq p a tags)).ap (D.pred (fld w 19 5))).ap (D.src pl (fld w 14 5))).ap (D.imm8 (fld w 0 14)))
  | 8 => ((((Chk.ok (fun p => fun mask => Instr.pset p mask)).ap (D.p3 (fld w 21 3))).ap (D.m8 (fld w 3 8))).also (fld w 18 3 == 0 && fld w 15 3 == 0 && fld w 11 4 == 0 && fld w 0 3 == 0))
  | 9 => (((((((Chk.ok (fun p => fun pa => fun pb => fun fn => fun mask => Instr.plog p pa pb fn mask)).ap (D.p3 (fld w 21 3))).ap (D.p3 (fld w 18 3))).ap (D.p3 (fld w 15 3))).ap (D.fn4 (fld w 11 4))).ap (D.m8 (fld w 3 8))).also (fld w 0 3 == 0))
  | 10 => (((((Chk.ok (fun d => fun p => fun pu => Instr.pget d p pu)).ap (D.dst pl (fld w 19 5))).ap (D.pred (fld w 14 5))).ap (D.pu (fld w 4 5))).also (fld w 9 5 == 0 && fld w 2 2 == 0 && fld w 0 2 == 0))
  | 11 => ((((Chk.ok (fun p => fun a => Instr.pput p a)).ap (D.pred (fld w 19 5))).ap (D.src pl (fld w 14 5))).also (fld w 9 5 == 0 && fld w 4 5 == 0 && fld w 2 2 == 0 && fld w 0 2 == 0))
  | 12 => ((((((Chk.ok (fun p => fun pa => fun n => fun mask => Instr.pcnt p pa n mask)).ap (D.p3 (fld w 21 3))).ap (D.p3 (fld w 18 3))).ap (D.cnt9 (fld w 11 4))).ap (D.m8 (fld w 3 8))).also (fld w 15 3 == 0 && fld w 0 3 == 0))
  | 13 => ((Chk.ok Instr.ende).also (fld w 19 5 == 0 && fld w 14 5 == 0 && fld w 9 5 == 0 && fld w 4 5 == 0 && fld w 2 2 == 0 && fld w 0 2 == 0))
  | _ => .bad .opcode

/-- Class 0x1 of the opcode map (R33). -/
def decodeClass1 (pl : Plane) (w lo : Nat) : Chk Instr :=
  match lo with
  | 0 => (((((((Chk.ok (fun d => fun a => fun b => fun pu => fun z => Instr.add d a b pu z)).ap (D.dst pl (fld w 19 5))).ap (D.src pl (fld w 14 5))).ap (D.src pl (fld w 9 5))).ap (D.pu (fld w 4 5))).ap (D.isz (fld w 2 2))).also (fld w 0 2 == 0))
  | 1 => (((((((Chk.ok (fun d => fun a => fun b => fun pu => fun z => Instr.sub d a b pu z)).ap (D.dst pl (fld w 19 5))).ap (D.src pl (fld w 14 5))).ap (D.src pl (fld w 9 5))).ap (D.pu (fld w 4 5))).ap (D.isz (fld w 2 2))).also (fld w 0 2 == 0))
  | 2 => (((((((Chk.ok (fun d => fun a => fun b => fun pu => fun z => Instr.adds d a b pu z)).ap (D.dst pl (fld w 19 5))).ap (D.src pl (fld w 14 5))).ap (D.src pl (fld w 9 5))).ap (D.pu (fld w 4 5))).ap (D.isz (fld w 2 2))).also (fld w 0 2 == 0))
  | 3 => (((((((Chk.ok (fun d => fun a => fun b => fun pu => fun z => Instr.addus d a b pu z)).ap (D.dst pl (fld w 19 5))).ap (D.src pl (fld w 14 5))).ap (D.src pl (fld w 9 5))).ap (D.pu (fld w 4 5))).ap (D.isz (fld w 2 2))).also (fld w 0 2 == 0))
  | 4 => (((((((Chk.ok (fun d => fun a => fun b => fun pu => fun z => Instr.subs d a b pu z)).ap (D.dst pl (fld w 19 5))).ap (D.src pl (fld w 14 5))).ap (D.src pl (fld w 9 5))).ap (D.pu (fld w 4 5))).ap (D.isz (fld w 2 2))).also (fld w 0 2 == 0))
  | 5 => (((((((Chk.ok (fun d => fun a => fun b => fun pu => fun z => Instr.subus d a b pu z)).ap (D.dst pl (fld w 19 5))).ap (D.src pl (fld w 14 5))).ap (D.src pl (fld w 9 5))).ap (D.pu (fld w 4 5))).ap (D.isz (fld w 2 2))).also (fld w 0 2 == 0))
  | 6 => (((((((Chk.ok (fun d => fun a => fun b => fun pu => fun z => Instr.mul d a b pu z)).ap (D.dst pl (fld w 19 5))).ap (D.src pl (fld w 14 5))).ap (D.src pl (fld w 9 5))).ap (D.pu (fld w 4 5))).ap (D.isz (fld w 2 2))).also (fld w 0 2 == 0))
  | 7 => (((((((Chk.ok (fun d => fun a => fun b => fun pu => fun z => Instr.mulh d a b pu z)).ap (D.dst pl (fld w 19 5))).ap (D.src pl (fld w 14 5))).ap (D.src pl (fld w 9 5))).ap (D.pu (fld w 4 5))).ap (D.isz (fld w 2 2))).also (fld w 0 2 == 0))
  | 8 => (((((((Chk.ok (fun d => fun a => fun b => fun pu => fun z => Instr.mulhu d a b pu z)).ap (D.dst pl (fld w 19 5))).ap (D.src pl (fld w 14 5))).ap (D.src pl (fld w 9 5))).ap (D.pu (fld w 4 5))).ap (D.isz (fld w 2 2))).also (fld w 0 2 == 0))
  | 9 => (((((((Chk.ok (fun d => fun a => fun b => fun pu => fun z => Instr.mad d a b pu z)).ap (D.vdst pl (fld w 19 5))).ap (D.src pl (fld w 14 5))).ap (D.src pl (fld w 9 5))).ap (D.pu (fld w 4 5))).ap (D.isz (fld w 2 2))).also (fld w 0 2 == 0))
  | 10 => ((((((Chk.ok (fun d => fun a => fun pu => fun z => Instr.neg d a pu z)).ap (D.dst pl (fld w 19 5))).ap (D.src pl (fld w 14 5))).ap (D.pu (fld w 4 5))).ap (D.isz (fld w 2 2))).also (fld w 9 5 == 0 && fld w 0 2 == 0))
  | 11 => ((((((Chk.ok (fun d => fun a => fun pu => fun z => Instr.abs d a pu z)).ap (D.dst pl (fld w 19 5))).ap (D.src pl (fld w 14 5))).ap (D.pu (fld w 4 5))).ap (D.isz (fld w 2 2))).also (fld w 9 5 == 0 && fld w 0 2 == 0))
  | 12 => (((((((Chk.ok (fun d => fun a => fun b => fun pu => fun nc => Instr.addc d a b pu nc)).ap (D.vdst pl (fld w 19 5))).ap (D.src pl (fld w 14 5))).ap (D.src pl (fld w 9 5))).ap (D.pu1 (fld w 4 5))).ap (D.bool2 (fld w 0 2))).also (fld w 2 2 == 0))
  | 13 => (((((((Chk.ok (fun d => fun a => fun b => fun pu => fun nc => Instr.subb d a b pu nc)).ap (D.vdst pl (fld w 19 5))).ap (D.src pl (fld w 14 5))).ap (D.src pl (fld w 9 5))).ap (D.pu1 (fld w 4 5))).ap (D.bool2 (fld w 0 2))).also (fld w 2 2 == 0))
  | 14 => (((((((Chk.ok (fun d => fun a => fun b => fun pu => fun z => Instr.div d a b pu z)).ap (D.dst pl (fld w 19 5))).ap (D.src pl (fld w 14 5))).ap (D.src pl (fld w 9 5))).ap (D.pu (fld w 4 5))).ap (D.isz (fld w 2 2))).also (fld w 0 2 == 0))
  | 15 => (((((((Chk.ok (fun d => fun a => fun b => fun pu => fun z => Instr.divu d a b pu z)).ap (D.dst pl (fld w 19 5))).ap (D.src pl (fld w 14 5))).ap (D.src pl (fld w 9 5))).ap (D.pu (fld w 4 5))).ap (D.isz (fld w 2 2))).also (fld w 0 2 == 0))
  | _ => .bad .opcode

/-- Class 0x2 of the opcode map (R33). -/
def decodeClass2 (pl : Plane) (w lo : Nat) : Chk Instr :=
  match lo with
  | 0 => ((((((Chk.ok (fun d => fun a => fun b => fun pu => Instr.and d a b pu)).ap (D.dst pl (fld w 19 5))).ap (D.src pl (fld w 14 5))).ap (D.src pl (fld w 9 5))).ap (D.pu (fld w 4 5))).also (fld w 2 2 == 0 && fld w 0 2 == 0))
  | 1 => ((((((Chk.ok (fun d => fun a => fun b => fun pu => Instr.or d a b pu)).ap (D.dst pl (fld w 19 5))).ap (D.src pl (fld w 14 5))).ap (D.src pl (fld w 9 5))).ap (D.pu (fld w 4 5))).also (fld w 2 2 == 0 && fld w 0 2 == 0))
  | 2 => ((((((Chk.ok (fun d => fun a => fun b => fun pu => Instr.xor d a b pu)).ap (D.dst pl (fld w 19 5))).ap (D.src pl (fld w 14 5))).ap (D.src pl (fld w 9 5))).ap (D.pu (fld w 4 5))).also (fld w 2 2 == 0 && fld w 0 2 == 0))
  | 3 => ((((((Chk.ok (fun d => fun a => fun b => fun pu => Instr.andn d a b pu)).ap (D.dst pl (fld w 19 5))).ap (D.src pl (fld w 14 5))).ap (D.src pl (fld w 9 5))).ap (D.pu (fld w 4 5))).also (fld w 2 2 == 0 && fld w 0 2 == 0))
  | 4 => (((((Chk.ok (fun d => fun a => fun pu => Instr.not d a pu)).ap (D.dst pl (fld w 19 5))).ap (D.src pl (fld w 14 5))).ap (D.pu (fld w 4 5))).also (fld w 9 5 == 0 && fld w 2 2 == 0 && fld w 0 2 == 0))
  | 5 => (((((((Chk.ok (fun d => fun a => fun b => fun pu => fun z => Instr.shl d a b pu z)).ap (D.dst pl (fld w 19 5))).ap (D.src pl (fld w 14 5))).ap (D.src pl (fld w 9 5))).ap (D.pu (fld w 4 5))).ap (D.isz (fld w 2 2))).also (fld w 0 2 == 0))
  | 6 => (((((((Chk.ok (fun d => fun a => fun b => fun pu => fun z => Instr.shr d a b pu z)).ap (D.dst pl (fld w 19 5))).ap (D.src pl (fld w 14 5))).ap (D.src pl (fld w 9 5))).ap (D.pu (fld w 4 5))).ap (D.isz (fld w 2 2))).also (fld w 0 2 == 0))
  | 7 => (((((((Chk.ok (fun d => fun a => fun b => fun pu => fun z => Instr.sar d a b pu z)).ap (D.dst pl (fld w 19 5))).ap (D.src pl (fld w 14 5))).ap (D.src pl (fld w 9 5))).ap (D.pu (fld w 4 5))).ap (D.isz (fld w 2 2))).also (fld w 0 2 == 0))
  | 8 => (((((((Chk.ok (fun d => fun a => fun b => fun pu => fun z => Instr.rol d a b pu z)).ap (D.dst pl (fld w 19 5))).ap (D.src pl (fld w 14 5))).ap (D.src pl (fld w 9 5))).ap (D.pu (fld w 4 5))).ap (D.isz (fld w 2 2))).also (fld w 0 2 == 0))
  | 9 => ((((((Chk.ok (fun d => fun a => fun pu => fun z => Instr.clz d a pu z)).ap (D.dst pl (fld w 19 5))).ap (D.src pl (fld w 14 5))).ap (D.pu (fld w 4 5))).ap (D.isz (fld w 2 2))).also (fld w 9 5 == 0 && fld w 0 2 == 0))
  | 10 => ((((((Chk.ok (fun d => fun a => fun pu => fun z => Instr.ctz d a pu z)).ap (D.dst pl (fld w 19 5))).ap (D.src pl (fld w 14 5))).ap (D.pu (fld w 4 5))).ap (D.isz (fld w 2 2))).also (fld w 9 5 == 0 && fld w 0 2 == 0))
  | 11 => ((((((Chk.ok (fun d => fun a => fun pu => fun z => Instr.popc d a pu z)).ap (D.dst pl (fld w 19 5))).ap (D.src pl (fld w 14 5))).ap (D.pu (fld w 4 5))).ap (D.isz (fld w 2 2))).also (fld w 9 5 == 0 && fld w 0 2 == 0))
  | 12 => ((((((Chk.ok (fun d => fun a => fun pu => fun z => Instr.brev d a pu z)).ap (D.dst pl (fld w 19 5))).ap (D.src pl (fld w 14 5))).ap (D.pu (fld w 4 5))).ap (D.isz (fld w 2 2))).also (fld w 9 5 == 0 && fld w 0 2 == 0))
  | 13 => ((((Chk.ok (fun d => fun a => fun (x : Fin 32 × Fin 32 × Bool) => Instr.bfx d a x.1 x.2.1 x.2.2)).ap (D.dst pl (fld w 19 5))).ap (D.src pl (fld w 14 5))).ap (D.bfx (fld w 0 14)))
  | 14 => ((((Chk.ok (fun d => fun a => fun (x : Fin 32 × Fin 32) => Instr.bfi d a x.1 x.2)).ap (D.vdst pl (fld w 19 5))).ap (D.src pl (fld w 14 5))).ap (D.bfi (fld w 0 14)))
  | 15 => ((((((Chk.ok (fun d => fun a => fun b => fun p => Instr.sel d a b p)).ap (D.dst pl (fld w 19 5))).ap (D.src pl (fld w 14 5))).ap (D.src pl (fld w 9 5))).ap (D.selp (fld w 4 5))).also (fld w 2 2 == 0 && fld w 0 2 == 0))
  | _ => .bad .opcode

/-- Class 0x3 of the opcode map (R33). -/
def decodeClass3 (pl : Plane) (w lo : Nat) : Chk Instr :=
  match lo with
  | 0 => (((((((Chk.ok (fun d => fun a => fun b => fun pu => fun z => Instr.cmpeq d a b pu z)).ap (D.dst pl (fld w 19 5))).ap (D.src pl (fld w 14 5))).ap (D.src pl (fld w 9 5))).ap (D.pu (fld w 4 5))).ap (D.isz (fld w 2 2))).also (fld w 0 2 == 0))
  | 1 => (((((((Chk.ok (fun d => fun a => fun b => fun pu => fun z => Instr.cmpne d a b pu z)).ap (D.dst pl (fld w 19 5))).ap (D.src pl (fld w 14 5))).ap (D.src pl (fld w 9 5))).ap (D.pu (fld w 4 5))).ap (D.isz (fld w 2 2))).also (fld w 0 2 == 0))
  | 2 => (((((((Chk.ok (fun d => fun a => fun b => fun pu => fun z => Instr.cmplt d a b pu z)).ap (D.dst pl (fld w 19 5))).ap (D.src pl (fld w 14 5))).ap (D.src pl (fld w 9 5))).ap (D.pu (fld w 4 5))).ap (D.isz (fld w 2 2))).also (fld w 0 2 == 0))
  | 3 => (((((((Chk.ok (fun d => fun a => fun b => fun pu => fun z => Instr.cmple d a b pu z)).ap (D.dst pl (fld w 19 5))).ap (D.src pl (fld w 14 5))).ap (D.src pl (fld w 9 5))).ap (D.pu (fld w 4 5))).ap (D.isz (fld w 2 2))).also (fld w 0 2 == 0))
  | 4 => (((((((Chk.ok (fun d => fun a => fun b => fun pu => fun z => Instr.cmpltu d a b pu z)).ap (D.dst pl (fld w 19 5))).ap (D.src pl (fld w 14 5))).ap (D.src pl (fld w 9 5))).ap (D.pu (fld w 4 5))).ap (D.isz (fld w 2 2))).also (fld w 0 2 == 0))
  | 5 => (((((((Chk.ok (fun d => fun a => fun b => fun pu => fun z => Instr.cmpleu d a b pu z)).ap (D.dst pl (fld w 19 5))).ap (D.src pl (fld w 14 5))).ap (D.src pl (fld w 9 5))).ap (D.pu (fld w 4 5))).ap (D.isz (fld w 2 2))).also (fld w 0 2 == 0))
  | 6 => (((((((Chk.ok (fun d => fun a => fun b => fun pu => fun z => Instr.min d a b pu z)).ap (D.dst pl (fld w 19 5))).ap (D.src pl (fld w 14 5))).ap (D.src pl (fld w 9 5))).ap (D.pu (fld w 4 5))).ap (D.isz (fld w 2 2))).also (fld w 0 2 == 0))
  | 7 => (((((((Chk.ok (fun d => fun a => fun b => fun pu => fun z => Instr.max d a b pu z)).ap (D.dst pl (fld w 19 5))).ap (D.src pl (fld w 14 5))).ap (D.src pl (fld w 9 5))).ap (D.pu (fld w 4 5))).ap (D.isz (fld w 2 2))).also (fld w 0 2 == 0))
  | 8 => (((((((Chk.ok (fun d => fun a => fun b => fun pu => fun z => Instr.minu d a b pu z)).ap (D.dst pl (fld w 19 5))).ap (D.src pl (fld w 14 5))).ap (D.src pl (fld w 9 5))).ap (D.pu (fld w 4 5))).ap (D.isz (fld w 2 2))).also (fld w 0 2 == 0))
  | 9 => (((((((Chk.ok (fun d => fun a => fun b => fun pu => fun z => Instr.maxu d a b pu z)).ap (D.dst pl (fld w 19 5))).ap (D.src pl (fld w 14 5))).ap (D.src pl (fld w 9 5))).ap (D.pu (fld w 4 5))).ap (D.isz (fld w 2 2))).also (fld w 0 2 == 0))
  | 10 => ((((Chk.ok (fun d => fun a => fun imm => Instr.addi d a imm)).ap (D.dst pl (fld w 19 5))).ap (D.src pl (fld w 14 5))).ap (D.imm14 (fld w 0 14)))
  | 11 => ((((Chk.ok (fun d => fun a => fun imm => Instr.muli d a imm)).ap (D.dst pl (fld w 19 5))).ap (D.src pl (fld w 14 5))).ap (D.imm14 (fld w 0 14)))
  | 12 => ((((Chk.ok (fun d => fun a => fun imm => Instr.andi d a imm)).ap (D.dst pl (fld w 19 5))).ap (D.src pl (fld w 14 5))).ap (D.imm14 (fld w 0 14)))
  | 13 => ((((Chk.ok (fun d => fun a => fun imm => Instr.ori d a imm)).ap (D.dst pl (fld w 19 5))).ap (D.src pl (fld w 14 5))).ap (D.imm14 (fld w 0 14)))
  | 14 => ((((Chk.ok (fun d => fun a => fun imm => Instr.xori d a imm)).ap (D.dst pl (fld w 19 5))).ap (D.src pl (fld w 14 5))).ap (D.imm14 (fld w 0 14)))
  | 15 => ((((Chk.ok (fun d => fun a => fun (x : ShKind × Fin 32) => Instr.shi d a x.1 x.2)).ap (D.dst pl (fld w 19 5))).ap (D.src pl (fld w 14 5))).ap (D.shi (fld w 0 14)))
  | _ => .bad .opcode

/-- Class 0x4 of the opcode map (R33). -/
def decodeClass4 (pl : Plane) (w lo : Nat) : Chk Instr :=
  match lo with
  | 0 => (((((((Chk.ok (fun d => fun a => fun b => fun pu => fun z => fun rm => Instr.fadd d a b pu z rm)).ap (D.dst pl (fld w 19 5))).ap (D.src pl (fld w 14 5))).ap (D.src pl (fld w 9 5))).ap (D.pu (fld w 4 5))).ap (D.fsz (fld w 2 2))).ap (D.rm (fld w 0 2)))
  | 1 => (((((((Chk.ok (fun d => fun a => fun b => fun pu => fun z => fun rm => Instr.fsub d a b pu z rm)).ap (D.dst pl (fld w 19 5))).ap (D.src pl (fld w 14 5))).ap (D.src pl (fld w 9 5))).ap (D.pu (fld w 4 5))).ap (D.fsz (fld w 2 2))).ap (D.rm (fld w 0 2)))
  | 2 => (((((((Chk.ok (fun d => fun a => fun b => fun pu => fun z => fun rm => Instr.fmul d a b pu z rm)).ap (D.dst pl (fld w 19 5))).ap (D.src pl (fld w 14 5))).ap (D.src pl (fld w 9 5))).ap (D.pu (fld w 4 5))).ap (D.fsz (fld w 2 2))).ap (D.rm (fld w 0 2)))
  | 3 => (((((((Chk.ok (fun d => fun a => fun b => fun pu => fun z => fun rm => Instr.fma d a b pu z rm)).ap (D.vdst pl (fld w 19 5))).ap (D.src pl (fld w 14 5))).ap (D.src pl (fld w 9 5))).ap (D.pu (fld w 4 5))).ap (D.fsz (fld w 2 2))).ap (D.rm (fld w 0 2)))
  | 4 => (((((((Chk.ok (fun d => fun a => fun b => fun pu => fun z => fun rm => Instr.fms d a b pu z rm)).ap (D.vdst pl (fld w 19 5))).ap (D.src pl (fld w 14 5))).ap (D.src pl (fld w 9 5))).ap (D.pu (fld w 4 5))).ap (D.fsz (fld w 2 2))).ap (D.rm (fld w 0 2)))
  | 5 => (((((((Chk.ok (fun d => fun a => fun b => fun pu => fun z => fun rm => Instr.fnma d a b pu z rm)).ap (D.vdst pl (fld w 19 5))).ap (D.src pl (fld w 14 5))).ap (D.src pl (fld w 9 5))).ap (D.pu (fld w 4 5))).ap (D.fsz (fld w 2 2))).ap (D.rm (fld w 0 2)))
  | 6 => (((((((Chk.ok (fun d => fun a => fun b => fun pu => fun z => fun rm => Instr.fdiv d a b pu z rm)).ap (D.dst pl (fld w 19 5))).ap (D.src pl (fld w 14 5))).ap (D.src pl (fld w 9 5))).ap (D.pu (fld w 4 5))).ap (D.fsz (fld w 2 2))).ap (D.rm (fld w 0 2)))
  | 7 => (((((((Chk.ok (fun d => fun a => fun pu => fun z => fun rm => Instr.frcp d a pu z rm)).ap (D.dst pl (fld w 19 5))).ap (D.src pl (fld w 14 5))).ap (D.pu (fld w 4 5))).ap (D.fsz (fld w 2 2))).ap (D.rm (fld w 0 2))).also (fld w 9 5 == 0))
  | 8 => (((((((Chk.ok (fun d => fun a => fun pu => fun z => fun rm => Instr.fsqrt d a pu z rm)).ap (D.dst pl (fld w 19 5))).ap (D.src pl (fld w 14 5))).ap (D.pu (fld w 4 5))).ap (D.fsz (fld w 2 2))).ap (D.rm (fld w 0 2))).also (fld w 9 5 == 0))
  | 9 => (((((((Chk.ok (fun d => fun a => fun pu => fun z => fun rm => Instr.frsq d a pu z rm)).ap (D.dst pl (fld w 19 5))).ap (D.src pl (fld w 14 5))).ap (D.pu (fld w 4 5))).ap (D.fsz (fld w 2 2))).ap (D.rm (fld w 0 2))).also (fld w 9 5 == 0))
  | 10 => ((((((Chk.ok (fun d => fun a => fun pu => fun z => Instr.fneg d a pu z)).ap (D.dst pl (fld w 19 5))).ap (D.src pl (fld w 14 5))).ap (D.pu (fld w 4 5))).ap (D.fsz (fld w 2 2))).also (fld w 9 5 == 0 && fld w 0 2 == 0))
  | 11 => ((((((Chk.ok (fun d => fun a => fun pu => fun z => Instr.fabs d a pu z)).ap (D.dst pl (fld w 19 5))).ap (D.src pl (fld w 14 5))).ap (D.pu (fld w 4 5))).ap (D.fsz (fld w 2 2))).also (fld w 9 5 == 0 && fld w 0 2 == 0))
  | 12 => (((((((Chk.ok (fun d => fun a => fun b => fun pu => fun z => Instr.fmin d a b pu z)).ap (D.dst pl (fld w 19 5))).ap (D.src pl (fld w 14 5))).ap (D.src pl (fld w 9 5))).ap (D.pu (fld w 4 5))).ap (D.fsz (fld w 2 2))).also (fld w 0 2 == 0))
  | 13 => (((((((Chk.ok (fun d => fun a => fun b => fun pu => fun z => Instr.fmax d a b pu z)).ap (D.dst pl (fld w 19 5))).ap (D.src pl (fld w 14 5))).ap (D.src pl (fld w 9 5))).ap (D.pu (fld w 4 5))).ap (D.fsz (fld w 2 2))).also (fld w 0 2 == 0))
  | 14 => (((((((Chk.ok (fun d => fun a => fun b => fun pu => fun z => fun rm => Instr.fscale d a b pu z rm)).ap (D.dst pl (fld w 19 5))).ap (D.src pl (fld w 14 5))).ap (D.src pl (fld w 9 5))).ap (D.pu (fld w 4 5))).ap (D.fsz (fld w 2 2))).ap (D.rm (fld w 0 2)))
  | 15 => (((((((Chk.ok (fun d => fun a => fun b => fun pu => fun z => Instr.fcpys d a b pu z)).ap (D.dst pl (fld w 19 5))).ap (D.src pl (fld w 14 5))).ap (D.src pl (fld w 9 5))).ap (D.pu (fld w 4 5))).ap (D.fsz (fld w 2 2))).also (fld w 0 2 == 0))
  | _ => .bad .opcode

/-- Class 0x5 of the opcode map (R33). -/
def decodeClass5 (pl : Plane) (w lo : Nat) : Chk Instr :=
  match lo with
  | 0 => (((((((Chk.ok (fun d => fun a => fun pu => fun z => fun rm => Instr.fexp d a pu z rm)).ap (D.dst pl (fld w 19 5))).ap (D.src pl (fld w 14 5))).ap (D.pu (fld w 4 5))).ap (D.fsz (fld w 2 2))).ap (D.rm (fld w 0 2))).also (fld w 9 5 == 0))
  | 1 => (((((((Chk.ok (fun d => fun a => fun pu => fun z => fun rm => Instr.fexp2 d a pu z rm)).ap (D.dst pl (fld w 19 5))).ap (D.src pl (fld w 14 5))).ap (D.pu (fld w 4 5))).ap (D.fsz (fld w 2 2))).ap (D.rm (fld w 0 2))).also (fld w 9 5 == 0))
  | 2 => (((((((Chk.ok (fun d => fun a => fun pu => fun z => fun rm => Instr.flog d a pu z rm)).ap (D.dst pl (fld w 19 5))).ap (D.src pl (fld w 14 5))).ap (D.pu (fld w 4 5))).ap (D.fsz (fld w 2 2))).ap (D.rm (fld w 0 2))).also (fld w 9 5 == 0))
  | 3 => (((((((Chk.ok (fun d => fun a => fun pu => fun z => fun rm => Instr.flog2 d a pu z rm)).ap (D.dst pl (fld w 19 5))).ap (D.src pl (fld w 14 5))).ap (D.pu (fld w 4 5))).ap (D.fsz (fld w 2 2))).ap (D.rm (fld w 0 2))).also (fld w 9 5 == 0))
  | 4 => (((((((Chk.ok (fun d => fun a => fun pu => fun z => fun rm => Instr.fsin d a pu z rm)).ap (D.dst pl (fld w 19 5))).ap (D.src pl (fld w 14 5))).ap (D.pu (fld w 4 5))).ap (D.fsz (fld w 2 2))).ap (D.rm (fld w 0 2))).also (fld w 9 5 == 0))
  | 5 => (((((((Chk.ok (fun d => fun a => fun pu => fun z => fun rm => Instr.fcos d a pu z rm)).ap (D.dst pl (fld w 19 5))).ap (D.src pl (fld w 14 5))).ap (D.pu (fld w 4 5))).ap (D.fsz (fld w 2 2))).ap (D.rm (fld w 0 2))).also (fld w 9 5 == 0))
  | 6 => (((((((Chk.ok (fun d => fun a => fun pu => fun z => fun rm => Instr.fsincos d a pu z rm)).ap (D.vdst pl (fld w 19 5))).ap (D.src pl (fld w 14 5))).ap (D.pu (fld w 4 5))).ap (D.fsz (fld w 2 2))).ap (D.rm (fld w 0 2))).also (fld w 9 5 == 0))
  | 7 => (((((((Chk.ok (fun d => fun a => fun pu => fun z => fun rm => Instr.ftanh d a pu z rm)).ap (D.dst pl (fld w 19 5))).ap (D.src pl (fld w 14 5))).ap (D.pu (fld w 4 5))).ap (D.fsz (fld w 2 2))).ap (D.rm (fld w 0 2))).also (fld w 9 5 == 0))
  | 8 => (((((((Chk.ok (fun d => fun a => fun pu => fun z => fun rm => Instr.fsigm d a pu z rm)).ap (D.dst pl (fld w 19 5))).ap (D.src pl (fld w 14 5))).ap (D.pu (fld w 4 5))).ap (D.fsz (fld w 2 2))).ap (D.rm (fld w 0 2))).also (fld w 9 5 == 0))
  | 9 => (((((((Chk.ok (fun d => fun a => fun pu => fun z => fun rm => Instr.ferf d a pu z rm)).ap (D.dst pl (fld w 19 5))).ap (D.src pl (fld w 14 5))).ap (D.pu (fld w 4 5))).ap (D.fsz (fld w 2 2))).ap (D.rm (fld w 0 2))).also (fld w 9 5 == 0))
  | 10 => (((((((Chk.ok (fun d => fun a => fun b => fun pu => fun z => fun rm => Instr.fpowi d a b pu z rm)).ap (D.dst pl (fld w 19 5))).ap (D.src pl (fld w 14 5))).ap (D.src pl (fld w 9 5))).ap (D.pu (fld w 4 5))).ap (D.fsz (fld w 2 2))).ap (D.rm (fld w 0 2)))
  | 11 => (((((((Chk.ok (fun d => fun a => fun pu => fun z => fun rm => Instr.flog1p d a pu z rm)).ap (D.dst pl (fld w 19 5))).ap (D.src pl (fld w 14 5))).ap (D.pu (fld w 4 5))).ap (D.fsz (fld w 2 2))).ap (D.rm (fld w 0 2))).also (fld w 9 5 == 0))
  | 12 => (((((((Chk.ok (fun d => fun a => fun pu => fun z => fun rm => Instr.fexpm1 d a pu z rm)).ap (D.dst pl (fld w 19 5))).ap (D.src pl (fld w 14 5))).ap (D.pu (fld w 4 5))).ap (D.fsz (fld w 2 2))).ap (D.rm (fld w 0 2))).also (fld w 9 5 == 0))
  | _ => .bad .opcode

/-- Class 0x6 of the opcode map (R33). -/
def decodeClass6 (pl : Plane) (w lo : Nat) : Chk Instr :=
  match lo with
  | 0 => (((((((Chk.ok (fun d => fun a => fun b => fun pu => fun z => Instr.fcmpeq d a b pu z)).ap (D.dst pl (fld w 19 5))).ap (D.src pl (fld w 14 5))).ap (D.src pl (fld w 9 5))).ap (D.pu (fld w 4 5))).ap (D.fsz (fld w 2 2))).also (fld w 0 2 == 0))
  | 1 => (((((((Chk.ok (fun d => fun a => fun b => fun pu => fun z => Instr.fcmplt d a b pu z)).ap (D.dst pl (fld w 19 5))).ap (D.src pl (fld w 14 5))).ap (D.src pl (fld w 9 5))).ap (D.pu (fld w 4 5))).ap (D.fsz (fld w 2 2))).also (fld w 0 2 == 0))
  | 2 => (((((((Chk.ok (fun d => fun a => fun b => fun pu => fun z => Instr.fcmple d a b pu z)).ap (D.dst pl (fld w 19 5))).ap (D.src pl (fld w 14 5))).ap (D.src pl (fld w 9 5))).ap (D.pu (fld w 4 5))).ap (D.fsz (fld w 2 2))).also (fld w 0 2 == 0))
  | 3 => (((((((Chk.ok (fun d => fun a => fun b => fun pu => fun z => Instr.fcmpun d a b pu z)).ap (D.dst pl (fld w 19 5))).ap (D.src pl (fld w 14 5))).ap (D.src pl (fld w 9 5))).ap (D.pu (fld w 4 5))).ap (D.fsz (fld w 2 2))).also (fld w 0 2 == 0))
  | 4 => ((((((Chk.ok (fun d => fun a => fun pu => fun z => Instr.fclass d a pu z)).ap (D.dst pl (fld w 19 5))).ap (D.src pl (fld w 14 5))).ap (D.pu (fld w 4 5))).ap (D.fsz (fld w 2 2))).also (fld w 9 5 == 0 && fld w 0 2 == 0))
  | 5 => (((((((Chk.ok (fun d => fun a => fun pu => fun z => fun rm => Instr.cvtf d a pu z rm)).ap (D.dst pl (fld w 19 5))).ap (D.src pl (fld w 14 5))).ap (D.pu (fld w 4 5))).ap (D.fsz (fld w 2 2))).ap (D.rm (fld w 0 2))).also (fld w 9 5 == 0))
  | 6 => (((((((Chk.ok (fun d => fun a => fun pu => fun z => fun rm => Instr.cvtfi d a pu z rm)).ap (D.dst pl (fld w 19 5))).ap (D.src pl (fld w 14 5))).ap (D.pu (fld w 4 5))).ap (D.fsz (fld w 2 2))).ap (D.rm (fld w 0 2))).also (fld w 9 5 == 0))
  | 7 => (((((((Chk.ok (fun d => fun a => fun pu => fun z => fun rm => Instr.cvtif d a pu z rm)).ap (D.dst pl (fld w 19 5))).ap (D.src pl (fld w 14 5))).ap (D.pu (fld w 4 5))).ap (D.fsz (fld w 2 2))).ap (D.rm (fld w 0 2))).also (fld w 9 5 == 0))
  | 8 => (((((((Chk.ok (fun d => fun a => fun b => fun pu => fun z => fun rm => Instr.qnt d a b pu z rm)).ap (D.dst pl (fld w 19 5))).ap (D.src pl (fld w 14 5))).ap (D.src pl (fld w 9 5))).ap (D.pu (fld w 4 5))).ap (D.fsz (fld w 2 2))).ap (D.rm (fld w 0 2)))
  | 9 => (((((((Chk.ok (fun d => fun a => fun b => fun pu => fun i => Instr.dqnt d a b pu i)).ap (D.dst pl (fld w 19 5))).ap (D.src pl (fld w 14 5))).ap (D.src pl (fld w 9 5))).ap (D.pu (fld w 4 5))).ap (D.fin4 (fld w 0 2))).also (fld w 2 2 == 0))
  | 10 => (((((((Chk.ok (fun d => fun a => fun pu => fun z => fun rm => Instr.frnd d a pu z rm)).ap (D.dst pl (fld w 19 5))).ap (D.src pl (fld w 14 5))).ap (D.pu (fld w 4 5))).ap (D.fsz (fld w 2 2))).ap (D.rm (fld w 0 2))).also (fld w 9 5 == 0))
  | 11 => (((((((Chk.ok (fun d => fun a => fun b => fun pu => fun bf => fun rm => Instr.pack d a b pu bf rm)).ap (D.dst pl (fld w 19 5))).ap (D.src pl (fld w 14 5))).ap (D.src pl (fld w 9 5))).ap (D.pu (fld w 4 5))).ap (D.hsz (fld w 2 2))).ap (D.rm (fld w 0 2)))
  | 12 => ((((((Chk.ok (fun d => fun a => fun pu => fun i => Instr.unpk d a pu i)).ap (D.dst pl (fld w 19 5))).ap (D.src pl (fld w 14 5))).ap (D.pu (fld w 4 5))).ap (D.fin4 (fld w 0 2))).also (fld w 9 5 == 0 && fld w 2 2 == 0))
  | _ => .bad .opcode

/-- Class 0x7 of the opcode map (R33). -/
def decodeClass7 (pl : Plane) (w lo : Nat) : Chk Instr :=
  match lo with
  | 0 => (((Chk.ok (fun k => Instr.jord k)).ap (D.i2 (fld w 0 14))).also (fld w 19 5 == 0 && fld w 14 5 == 0))
  | 1 => (((((((Chk.ok (fun d => fun a => fun b => fun pu => fun z => Instr.jseed d a b pu z)).ap (D.dst pl (fld w 19 5))).ap (D.src pl (fld w 14 5))).ap (D.src pl (fld w 9 5))).ap (D.pu (fld w 4 5))).ap (D.fsz (fld w 2 2))).also (fld w 0 2 == 0))
  | 2 => ((((((Chk.ok (fun d => fun a => fun pu => fun z => Instr.jconst d a pu z)).ap (D.dst pl (fld w 19 5))).ap (D.src pl (fld w 14 5))).ap (D.pu (fld w 4 5))).ap (D.fsz (fld w 2 2))).also (fld w 9 5 == 0 && fld w 0 2 == 0))
  | 3 => ((((Chk.ok (fun d => fun a => fun j => Instr.jext d a j)).ap (D.dst pl (fld w 19 5))).ap (D.src pl (fld w 14 5))).ap (D.i2 (fld w 0 14)))
  | 4 => ((((Chk.ok (fun d => fun a => fun j => Instr.jins d a j)).ap (D.vdst pl (fld w 19 5))).ap (D.src pl (fld w 14 5))).ap (D.i2 (fld w 0 14)))
  | 5 => (((((((Chk.ok (fun d => fun a => fun pu => fun z => fun rm => Instr.jdiff d a pu z rm)).ap (D.dst pl (fld w 19 5))).ap (D.src pl (fld w 14 5))).ap (D.pu (fld w 4 5))).ap (D.fsz (fld w 2 2))).ap (D.rm (fld w 0 2))).also (fld w 9 5 == 0))
  | 6 => (((((((Chk.ok (fun d => fun a => fun b => fun pu => fun z => fun rm => Instr.jintg d a b pu z rm)).ap (D.dst pl (fld w 19 5))).ap (D.src pl (fld w 14 5))).ap (D.src pl (fld w 9 5))).ap (D.pu (fld w 4 5))).ap (D.fsz (fld w 2 2))).ap (D.rm (fld w 0 2)))
  | 7 => (((((((Chk.ok (fun d => fun a => fun b => fun pu => fun z => fun rm => Instr.jeval d a b pu z rm)).ap (D.dst pl (fld w 19 5))).ap (D.src pl (fld w 14 5))).ap (D.src pl (fld w 9 5))).ap (D.pu (fld w 4 5))).ap (D.fsz (fld w 2 2))).ap (D.rm (fld w 0 2)))
  | 8 => (((((Chk.ok (fun d => fun a => fun pu => Instr.jmov d a pu)).ap (D.dst pl (fld w 19 5))).ap (D.src pl (fld w 14 5))).ap (D.pu (fld w 4 5))).also (fld w 9 5 == 0 && fld w 2 2 == 0 && fld w 0 2 == 0))
  | 9 => (((((((Chk.ok (fun d => fun a => fun b => fun pu => fun z => fun rm => Instr.jscal d a b pu z rm)).ap (D.dst pl (fld w 19 5))).ap (D.src pl (fld w 14 5))).ap (D.src pl (fld w 9 5))).ap (D.pu (fld w 4 5))).ap (D.fsz (fld w 2 2))).ap (D.rm (fld w 0 2)))
  | 10 => ((((Chk.ok (fun d => fun a => fun m => Instr.jtrnc d a m)).ap (D.dst pl (fld w 19 5))).ap (D.src pl (fld w 14 5))).ap (D.i2 (fld w 0 14)))
  | 11 => ((((Chk.ok (fun d => fun (x : BitVec 4 × BitVec 5) => Instr.jflag d x.1 x.2)).ap (D.dst pl (fld w 19 5))).ap (D.jfl (fld w 0 14))).also (fld w 14 5 == 0))
  | _ => .bad .opcode

/-- Class 0x8 of the opcode map (R33). -/
def decodeClass8 (pl : Plane) (w lo : Nat) : Chk Instr :=
  match lo with
  | 0 => ((((Chk.ok (fun d => fun a => fun k => Instr.lbc d a k)).ap (D.dst pl (fld w 19 5))).ap (D.src pl (fld w 14 5))).ap (D.i3 (fld w 0 14)))
  | 1 => ((((Chk.ok (fun d => fun a => fun n7 => Instr.lshf d a n7)).ap (D.dst pl (fld w 19 5))).ap (D.src pl (fld w 14 5))).ap (D.shf (fld w 0 14)))
  | 2 => ((((Chk.ok (fun d => fun a => fun n => Instr.lrot d a n)).ap (D.dst pl (fld w 19 5))).ap (D.src pl (fld w 14 5))).ap (D.i3 (fld w 0 14)))
  | 3 => (((((((Chk.ok (fun d => fun a => fun pu => fun z => fun rm => Instr.lsum d a pu z rm)).ap (D.dst pl (fld w 19 5))).ap (D.src pl (fld w 14 5))).ap (D.pu (fld w 4 5))).ap (D.fsz (fld w 2 2))).ap (D.rm (fld w 0 2))).also (fld w 9 5 == 0))
  | 4 => (((((((Chk.ok (fun d => fun a => fun pu => fun z => fun m => Instr.lsumi d a pu z m)).ap (D.dst pl (fld w 19 5))).ap (D.src pl (fld w 14 5))).ap (D.pu (fld w 4 5))).ap (D.isz (fld w 2 2))).ap (D.summ (fld w 0 2))).also (fld w 9 5 == 0))
  | 5 => ((((((Chk.ok (fun d => fun a => fun pu => fun k => Instr.lmax d a pu k)).ap (D.dst pl (fld w 19 5))).ap (D.src pl (fld w 14 5))).ap (D.pu (fld w 4 5))).ap (D.mm (fld w 0 4))).also (fld w 9 5 == 0))
  | 6 => ((((((Chk.ok (fun d => fun a => fun pu => fun k => Instr.lmin d a pu k)).ap (D.dst pl (fld w 19 5))).ap (D.src pl (fld w 14 5))).ap (D.pu (fld w 4 5))).ap (D.mm (fld w 0 4))).also (fld w 9 5 == 0))
  | 7 => (((((((Chk.ok (fun d => fun a => fun pu => fun z => fun rm => Instr.lscan d a pu z rm)).ap (D.dst pl (fld w 19 5))).ap (D.src pl (fld w 14 5))).ap (D.pu (fld w 4 5))).ap (D.fsz (fld w 2 2))).ap (D.rm (fld w 0 2))).also (fld w 9 5 == 0))
  | 8 => (((((((Chk.ok (fun d => fun a => fun pu => fun z => fun m => Instr.lscani d a pu z m)).ap (D.dst pl (fld w 19 5))).ap (D.src pl (fld w 14 5))).ap (D.pu (fld w 4 5))).ap (D.isz (fld w 2 2))).ap (D.scanm (fld w 0 2))).also (fld w 9 5 == 0))
  | 9 => ((((((Chk.ok (fun d => fun a => fun p => fun pu => Instr.lcmpr d a p pu)).ap (D.dst pl (fld w 19 5))).ap (D.src pl (fld w 14 5))).ap (D.pred (fld w 9 5))).ap (D.pu (fld w 4 5))).also (fld w 2 2 == 0 && fld w 0 2 == 0))
  | 10 => ((((((Chk.ok (fun d => fun a => fun p => fun pu => Instr.lexpd d a p pu)).ap (D.dst pl (fld w 19 5))).ap (D.src pl (fld w 14 5))).ap (D.pred (fld w 9 5))).ap (D.pu (fld w 4 5))).also (fld w 2 2 == 0 && fld w 0 2 == 0))
  | 11 => (((((((Chk.ok (fun d => fun a => fun b => fun pu => fun z => fun rm => Instr.ldot d a b pu z rm)).ap (D.dst pl (fld w 19 5))).ap (D.src pl (fld w 14 5))).ap (D.src pl (fld w 9 5))).ap (D.pu (fld w 4 5))).ap (D.fsz (fld w 2 2))).ap (D.rm (fld w 0 2)))
  | _ => .bad .opcode

/-- Class 0x9 of the opcode map (R33). -/
def decodeClass9 (pl : Plane) (w lo : Nat) : Chk Instr :=
  match lo with
  | 0 => (((((Chk.ok (fun d => fun a => fun pu => Instr.mov d a pu)).ap (D.dst pl (fld w 19 5))).ap (D.src pl (fld w 14 5))).ap (D.pu (fld w 4 5))).also (fld w 9 5 == 0 && fld w 2 2 == 0 && fld w 0 2 == 0))
  | 1 => ((((Chk.ok (fun d => fun imm => Instr.movi d imm)).ap (D.dst pl (fld w 19 5))).ap (D.imm14 (fld w 0 14))).also (fld w 14 5 == 0))
  | 2 => ((((Chk.ok (fun d => fun t => fun imm => Instr.movl d t imm)).ap (D.vdst pl (fld w 19 5))).ap (D.tag (fld w 16 3))).ap (D.imm16 (fld w 0 16)))
  | 3 => ((((Chk.ok (fun d => fun t => fun imm => Instr.movh d t imm)).ap (D.vdst pl (fld w 19 5))).ap (D.tag (fld w 16 3))).ap (D.imm16 (fld w 0 16)))
  | 4 => ((((Chk.ok (fun d => fun n => Instr.mfs d n)).ap (D.dst pl (fld w 19 5))).ap (D.st15 (fld w 0 14))).also (fld w 14 5 == 0))
  | 5 => ((((Chk.ok (fun a => fun n => Instr.mts n a)).ap (D.src pl (fld w 14 5))).ap (D.st15 (fld w 0 14))).also (fld w 19 5 == 0))
  | _ => .bad .opcode

/-- Class 0xA of the opcode map (R33). -/
def decodeClassA (pl : Plane) (w lo : Nat) : Chk Instr :=
  match lo with
  | 0 => ((((((Chk.ok (fun s => fun m => fun a => fun r => fun t => Instr.ld s m a r t)).ap (D.s3 (fld w 21 3))).ap (D.m8 (fld w 13 8))).ap (D.src pl (fld w 8 5))).ap (D.rep (fld w 3 5))).ap (D.tag (fld w 0 3)))
  | 1 => ((((((Chk.ok (fun s => fun m => fun a => fun r => fun t => Instr.ldb s m a r t)).ap (D.s3 (fld w 21 3))).ap (D.m8 (fld w 13 8))).ap (D.src pl (fld w 8 5))).ap (D.rep (fld w 3 5))).ap (D.tag (fld w 0 3)))
  | 2 => ((((((Chk.ok (fun s => fun m => fun a => fun d => fun w => Instr.st s m a d w)).ap (D.s3 (fld w 21 3))).ap (D.m8 (fld w 13 8))).ap (D.src pl (fld w 8 5))).ap (D.src pl (fld w 3 5))).ap (D.width (fld w 0 3)))
  | 3 => ((((((Chk.ok (fun s => fun m => fun a => fun d => Instr.stb s m a d)).ap (D.s3 (fld w 21 3))).ap (D.m8 (fld w 13 8))).ap (D.src pl (fld w 8 5))).ap (D.src pl (fld w 3 5))).also (fld w 0 3 == 0))
  | 4 => ((((((Chk.ok (fun s => fun m => fun a => fun r => fun t => Instr.lds s m a r t)).ap (D.s3 (fld w 21 3))).ap (D.m8 (fld w 13 8))).ap (D.src pl (fld w 8 5))).ap (D.rep (fld w 3 5))).ap (D.tag (fld w 0 3)))
  | 5 => ((((((Chk.ok (fun s => fun m => fun a => fun d => fun w => Instr.sts s m a d w)).ap (D.s3 (fld w 21 3))).ap (D.m8 (fld w 13 8))).ap (D.src pl (fld w 8 5))).ap (D.src pl (fld w 3 5))).ap (D.width (fld w 0 3)))
  | 6 => ((((((Chk.ok (fun s => fun m => fun a => fun r => fun t => Instr.ldf s m a r t)).ap (D.s3 (fld w 21 3))).ap (D.m8 (fld w 13 8))).ap (D.src pl (fld w 8 5))).ap (D.rep (fld w 3 5))).ap (D.tag (fld w 0 3)))
  | 7 => ((((((Chk.ok (fun s => fun m => fun a => fun r => fun t => Instr.ldfe s m a r t)).ap (D.s3 (fld w 21 3))).ap (D.m8 (fld w 13 8))).ap (D.src pl (fld w 8 5))).ap (D.rep (fld w 3 5))).ap (D.tag (fld w 0 3)))
  | 8 => ((((((Chk.ok (fun s => fun m => fun a => fun d => Instr.ste s m a d)).ap (D.s3 (fld w 21 3))).ap (D.m8 (fld w 13 8))).ap (D.src pl (fld w 8 5))).ap (D.src pl (fld w 3 5))).also (fld w 0 3 == 0))
  | 9 => ((((((Chk.ok (fun s => fun m => fun a => fun d => Instr.stff s m a d)).ap (D.s3 (fld w 21 3))).ap (D.m8 (fld w 13 8))).ap (D.src pl (fld w 8 5))).ap (D.src pl (fld w 3 5))).also (fld w 0 3 == 0))
  | 10 => ((((((Chk.ok (fun s => fun m => fun a => fun l => Instr.pref s m a l)).ap (D.s3 (fld w 21 3))).ap (D.m8 (fld w 13 8))).ap (D.src pl (fld w 8 5))).ap (D.plev (fld w 0 3))).also (fld w 3 5 == 0))
  | _ => .bad .opcode

/-- Class 0xB of the opcode map (R33). -/
def decodeClassB (pl : Plane) (w lo : Nat) : Chk Instr :=
  match lo with
  | 0 => ((((((Chk.ok (fun s => fun m => fun a => fun d => fun r => Instr.aadd s m a d r)).ap (D.s3 (fld w 21 3))).ap (D.m8 (fld w 13 8))).ap (D.src pl (fld w 8 5))).ap (D.src pl (fld w 3 5))).ap (D.arep (fld w 0 3)))
  | 1 => ((((((Chk.ok (fun s => fun m => fun a => fun d => fun r => Instr.aadds s m a d r)).ap (D.s3 (fld w 21 3))).ap (D.m8 (fld w 13 8))).ap (D.src pl (fld w 8 5))).ap (D.src pl (fld w 3 5))).ap (D.arep (fld w 0 3)))
  | 2 => ((((((Chk.ok (fun s => fun m => fun a => fun d => fun r => Instr.afadd s m a d r)).ap (D.s3 (fld w 21 3))).ap (D.m8 (fld w 13 8))).ap (D.src pl (fld w 8 5))).ap (D.src pl (fld w 3 5))).ap (D.arep (fld w 0 3)))
  | 3 => ((((((Chk.ok (fun s => fun m => fun a => fun d => fun r => Instr.amin s m a d r)).ap (D.s3 (fld w 21 3))).ap (D.m8 (fld w 13 8))).ap (D.src pl (fld w 8 5))).ap (D.src pl (fld w 3 5))).ap (D.arep (fld w 0 3)))
  | 4 => ((((((Chk.ok (fun s => fun m => fun a => fun d => fun r => Instr.amax s m a d r)).ap (D.s3 (fld w 21 3))).ap (D.m8 (fld w 13 8))).ap (D.src pl (fld w 8 5))).ap (D.src pl (fld w 3 5))).ap (D.arep (fld w 0 3)))
  | 5 => ((((((Chk.ok (fun s => fun m => fun a => fun d => fun r => Instr.aminu s m a d r)).ap (D.s3 (fld w 21 3))).ap (D.m8 (fld w 13 8))).ap (D.src pl (fld w 8 5))).ap (D.src pl (fld w 3 5))).ap (D.arep (fld w 0 3)))
  | 6 => ((((((Chk.ok (fun s => fun m => fun a => fun d => fun r => Instr.amaxu s m a d r)).ap (D.s3 (fld w 21 3))).ap (D.m8 (fld w 13 8))).ap (D.src pl (fld w 8 5))).ap (D.src pl (fld w 3 5))).ap (D.arep (fld w 0 3)))
  | 7 => ((((((Chk.ok (fun s => fun m => fun a => fun d => fun r => Instr.aand s m a d r)).ap (D.s3 (fld w 21 3))).ap (D.m8 (fld w 13 8))).ap (D.src pl (fld w 8 5))).ap (D.src pl (fld w 3 5))).ap (D.arep (fld w 0 3)))
  | 8 => ((((((Chk.ok (fun s => fun m => fun a => fun d => fun r => Instr.aor s m a d r)).ap (D.s3 (fld w 21 3))).ap (D.m8 (fld w 13 8))).ap (D.src pl (fld w 8 5))).ap (D.src pl (fld w 3 5))).ap (D.arep (fld w 0 3)))
  | 9 => ((((((Chk.ok (fun s => fun m => fun a => fun d => fun r => Instr.axor s m a d r)).ap (D.s3 (fld w 21 3))).ap (D.m8 (fld w 13 8))).ap (D.src pl (fld w 8 5))).ap (D.src pl (fld w 3 5))).ap (D.arep (fld w 0 3)))
  | 10 => ((((((Chk.ok (fun s => fun m => fun a => fun d => fun r => Instr.axch s m a d r)).ap (D.s3 (fld w 21 3))).ap (D.m8 (fld w 13 8))).ap (D.src pl (fld w 8 5))).ap (D.src pl (fld w 3 5))).ap (D.arep (fld w 0 3)))
  | 11 => ((((((Chk.ok (fun s => fun m => fun a => fun d => fun r => Instr.acas s m a d r)).ap (D.s3 (fld w 21 3))).ap (D.m8 (fld w 13 8))).ap (D.src pl (fld w 8 5))).ap (D.casd pl (fld w 3 5))).ap (D.arep (fld w 0 3)))
  | 12 => ((((((Chk.ok (fun s => fun m => fun a => fun d => fun r => Instr.atas s m a d r)).ap (D.s3 (fld w 21 3))).ap (D.m8 (fld w 13 8))).ap (D.src pl (fld w 8 5))).ap (D.src pl (fld w 3 5))).ap (D.arep (fld w 0 3)))
  | 13 => ((((((Chk.ok (fun s => fun m => fun a => fun d => fun r => Instr.aincw s m a d r)).ap (D.s3 (fld w 21 3))).ap (D.m8 (fld w 13 8))).ap (D.src pl (fld w 8 5))).ap (D.src pl (fld w 3 5))).ap (D.arep (fld w 0 3)))
  | _ => .bad .opcode

/-- Class 0xC of the opcode map (R33). -/
def decodeClassC (pl : Plane) (w lo : Nat) : Chk Instr :=
  match lo with
  | 0 => ((((((Chk.ok (fun s => fun m => fun g => fun q => Instr.copy s m g q)).ap (D.s3 (fld w 21 3))).ap (D.m8 (fld w 13 8))).ap (D.descg pl (fld w 8 5))).ap (D.rep (fld w 3 5))).also (fld w 0 3 == 0))
  | 1 => ((((((Chk.ok (fun s => fun m => fun g => fun q => Instr.copy2d s m g q)).ap (D.s3 (fld w 21 3))).ap (D.m8 (fld w 13 8))).ap (D.descg pl (fld w 8 5))).ap (D.rep (fld w 3 5))).also (fld w 0 3 == 0))
  | 2 => ((((((Chk.ok (fun s => fun m => fun g => fun q => fun e => Instr.gath s m g q e)).ap (D.s3 (fld w 21 3))).ap (D.m8 (fld w 13 8))).ap (D.descg pl (fld w 8 5))).ap (D.rep (fld w 3 5))).ap (D.esz (fld w 0 3)))
  | 3 => ((((((Chk.ok (fun s => fun m => fun g => fun q => fun e => Instr.scat s m g q e)).ap (D.s3 (fld w 21 3))).ap (D.m8 (fld w 13 8))).ap (D.descg pl (fld w 8 5))).ap (D.rep (fld w 3 5))).ap (D.esz (fld w 0 3)))
  | 4 => ((((((Chk.ok (fun s => fun m => fun g => fun q => fun chan => Instr.strm s m g q chan)).ap (D.s3 (fld w 21 3))).ap (D.m8 (fld w 13 8))).ap (D.descg pl (fld w 8 5))).ap (D.rep (fld w 3 5))).ap (D.bool3 (fld w 0 3)))
  | 5 => ((((((Chk.ok (fun s => fun m => fun g => fun q => Instr.mxmm s m g q)).ap (D.s3 (fld w 21 3))).ap (D.m8 (fld w 13 8))).ap (D.descg pl (fld w 8 5))).ap (D.rep (fld w 3 5))).also (fld w 0 3 == 0))
  | 6 => ((((((Chk.ok (fun s => fun m => fun g => fun q => Instr.mxsort s m g q)).ap (D.s3 (fld w 21 3))).ap (D.m8 (fld w 13 8))).ap (D.descg pl (fld w 8 5))).ap (D.rep (fld w 3 5))).also (fld w 0 3 == 0))
  | 7 => (((((Chk.ok (fun s => fun m => fun g => Instr.ringi s m g)).ap (D.s3 (fld w 21 3))).ap (D.m8 (fld w 13 8))).ap (D.descg pl (fld w 8 5))).also (fld w 3 5 == 0 && fld w 0 3 == 0))
  | 8 => ((((((Chk.ok (fun s => fun m => fun g => fun tail => Instr.ringa s m g tail)).ap (D.s3 (fld w 21 3))).ap (D.m8 (fld w 13 8))).ap (D.descg pl (fld w 8 5))).ap (D.bool3 (fld w 0 3))).also (fld w 3 5 == 0))
  | 9 => ((((((Chk.ok (fun s => fun m => fun g => fun ch => Instr.spill s m g ch)).ap (D.s3 (fld w 21 3))).ap (D.m8 (fld w 13 8))).ap (D.descg pl (fld w 8 5))).ap (D.ch6 (fld w 3 5))).also (fld w 0 3 == 0))
  | 10 => (((((Chk.ok (fun g => fun p => fun upd => Instr.echk g p upd)).ap (D.descg pl (fld w 8 5))).ap (D.q8 (fld w 3 5))).ap (D.upd4 (fld w 0 3))).also (fld w 21 3 == 0 && fld w 13 8 == 0))
  | 11 => (((Chk.ok (fun g => Instr.ecan g)).ap (D.descg pl (fld w 8 5))).also (fld w 21 3 == 0 && fld w 13 8 == 0 && fld w 3 5 == 0 && fld w 0 3 == 0))
  | 12 => ((((((Chk.ok (fun s => fun m => fun g => fun q => Instr.linkx s m g q)).ap (D.s3 (fld w 21 3))).ap (D.m8 (fld w 13 8))).ap (D.descg pl (fld w 8 5))).ap (D.rep (fld w 3 5))).also (fld w 0 3 == 0))
  | 13 => ((((((Chk.ok (fun s => fun m => fun g => fun q => fun f => Instr.redc s m g q f)).ap (D.s3 (fld w 21 3))).ap (D.m8 (fld w 13 8))).ap (D.descg pl (fld w 8 5))).ap (D.rep (fld w 3 5))).ap (D.redv (fld w 0 3)))
  | _ => .bad .opcode

/-- Class 0xD of the opcode map (R33). -/
def decodeClassD (pl : Plane) (w lo : Nat) : Chk Instr :=
  match lo with
  | 0 => (((((Chk.ok (fun a => fun b => fun c => fun jc => Instr.spawn a b c jc)).ap (D.src pl (fld w 19 5))).ap (D.src pl (fld w 14 5))).ap (D.src pl (fld w 9 5))).ap (D.jc (fld w 0 9)))
  | 1 => (((Chk.ok (fun jc => Instr.tdone jc)).ap (D.jc (fld w 0 9))).also (fld w 19 5 == 0 && fld w 14 5 == 0 && fld w 9 5 == 0))
  | 2 => ((((Chk.ok (fun a => fun jc => Instr.jarm a jc)).ap (D.src pl (fld w 19 5))).ap (D.jc (fld w 0 9))).also (fld w 14 5 == 0 && fld w 9 5 == 0))
  | 3 => ((((((Chk.ok (fun d => fun a => fun b => fun pu => Instr.watch a b d pu)).ap (D.src pl (fld w 19 5))).ap (D.src pl (fld w 14 5))).ap (D.src pl (fld w 9 5))).ap (D.pu (fld w 4 5))).also (fld w 2 2 == 0 && fld w 0 2 == 0))
  | 4 => (((((Chk.ok (fun d => fun a => fun pu => Instr.unwatch a d pu)).ap (D.src pl (fld w 19 5))).ap (D.src pl (fld w 14 5))).ap (D.pu (fld w 4 5))).also (fld w 9 5 == 0 && fld w 2 2 == 0 && fld w 0 2 == 0))
  | 5 => ((((Chk.ok (fun c => fun a => fun imm => Instr.pginc c a imm)).ap (D.g4 (fld w 19 5))).ap (D.src pl (fld w 14 5))).ap (D.imm14 (fld w 0 14)))
  | 6 => ((((Chk.ok (fun c => fun a => fun imm => Instr.pgset c a imm)).ap (D.g4 (fld w 19 5))).ap (D.src pl (fld w 14 5))).ap (D.imm14 (fld w 0 14)))
  | 7 => (((((Chk.ok (fun o => fun a => fun b => Instr.isect o a b)).ap (D.out pl (fld w 19 5))).ap (D.xch pl (fld w 14 5))).ap (D.xch pl (fld w 9 5))).also (fld w 4 5 == 0 && fld w 2 2 == 0 && fld w 0 2 == 0))
  | 8 => (((((Chk.ok (fun o => fun a => fun b => Instr.union o a b)).ap (D.out pl (fld w 19 5))).ap (D.xch pl (fld w 14 5))).ap (D.xch pl (fld w 9 5))).also (fld w 4 5 == 0 && fld w 2 2 == 0 && fld w 0 2 == 0))
  | _ => .bad .opcode

/-- Class 0xE of the opcode map (R33). -/
def decodeClassE (pl : Plane) (w lo : Nat) : Chk Instr :=
  match lo with
  | 0 => (((Chk.ok (fun code => Instr.trap code)).ap (D.imm14 (fld w 0 14))).also (fld w 19 5 == 0 && fld w 14 5 == 0))
  | 1 => (((Chk.ok (fun code => Instr.brk code)).ap (D.imm14 (fld w 0 14))).also (fld w 19 5 == 0 && fld w 14 5 == 0))
  | 2 => ((Chk.ok Instr.cutrq).also (fld w 19 5 == 0 && fld w 14 5 == 0 && fld w 0 14 == 0))
  | 3 => (((Chk.ok (fun (x : BitVec 8 × Bool) => Instr.evnt x.1 x.2)).ap (D.evt (fld w 0 14))).also (fld w 19 5 == 0 && fld w 14 5 == 0))
  | 4 => ((((((Chk.ok (fun s => fun m => fun a => fun d => fun visit => Instr.l1wb s m a d visit)).ap (D.s3 (fld w 21 3))).ap (D.m8 (fld w 13 8))).ap (D.src pl (fld w 8 5))).ap (D.src pl (fld w 3 5))).ap (D.bool3 (fld w 0 3)))
  | 5 => ((((((Chk.ok (fun s => fun m => fun a => fun d => fun visit => Instr.l1inv s m a d visit)).ap (D.s3 (fld w 21 3))).ap (D.m8 (fld w 13 8))).ap (D.src pl (fld w 8 5))).ap (D.src pl (fld w 3 5))).ap (D.bool3 (fld w 0 3)))
  | 6 => (((Chk.ok (fun h => Instr.pwrh h)).ap (D.hint (fld w 0 14))).also (fld w 19 5 == 0 && fld w 14 5 == 0))
  | _ => .bad .opcode

def decodeNat (pl : Plane) (w : Nat) : Chk Instr :=
  let lo := fld w 24 4
  match fld w 28 4 with
  | 0 => decodeClass0 pl w lo
  | 1 => decodeClass1 pl w lo
  | 2 => decodeClass2 pl w lo
  | 3 => decodeClass3 pl w lo
  | 4 => decodeClass4 pl w lo
  | 5 => decodeClass5 pl w lo
  | 6 => decodeClass6 pl w lo
  | 7 => decodeClass7 pl w lo
  | 8 => decodeClass8 pl w lo
  | 9 => decodeClass9 pl w lo
  | 10 => decodeClassA pl w lo
  | 11 => decodeClassB pl w lo
  | 12 => decodeClassC pl w lo
  | 13 => decodeClassD pl w lo
  | 14 => decodeClassE pl w lo
  | _ => .bad .opcode

/-- Reads the operation word of a slot of a plane. -/
def decodeIn (pl : Plane) (w : BitVec 32) : Chk Instr := decodeNat pl w.toNat

/-- Reads the operation word of a working-plane slot. -/
def decode (w : BitVec 32) : Chk Instr := decodeIn .work w

/-- The operation word that four bytes of a slot hold, the lowest address first (R1, R21). -/
def wordOfBytes (b0 b1 b2 b3 : Byte) : BitVec 32 := b3 ++ b2 ++ b1 ++ b0

/-- The decoder on one row of the opcode table, its bits numbered from bit 0 of the operation word: the word is laid
out as the four bytes a slot stores and read back from them. -/
def decodeTableWord (nbits w : Nat) : Option Instr :=
  let v := w % 2 ^ nbits
  (decode (wordOfBytes (BitVec.ofNat 8 v) (BitVec.ofNat 8 (v / 2 ^ 8)) (BitVec.ofNat 8 (v / 2 ^ 16))
    (BitVec.ofNat 8 (v / 2 ^ 24)))).toOption

namespace E

def src : Src → Nat
  | .v n => n.val | .i n => 16 + n.val | .t0 => 22 | .t1 => 23 | .zr => 24 | .ln => 25 | .k n => 26 + n.val
def dst : Dst → Nat
  | .v n => n.val | .o n => 16 + n.val | .zr => 24
def vdst (n : Fin 16) : Nat := n.val
def out (n : Fin 6) : Nat := 16 + n.val
def outz : Option (Fin 6) → Nat | some n => 16 + n.val | none => 24
def steer (n : Fin 3) : Nat := 16 + 2 * n.val
def chan (n : Fin 6) : Nat := 16 + n.val
def xch (n : Fin 6) : Nat := 16 + n.val
def casd (n : Fin 15) : Nat := n.val
def descg (n : Fin 16) : Nat := n.val
def pred (n : Fin 8) : Nat := n.val
def g4 (n : Fin 4) : Nat := n.val
def p3 (n : Fin 8) : Nat := n.val
def s3 (n : Fin 8) : Nat := n.val
def m8 (x : BitVec 8) : Nat := x.toNat
def fn4 (x : BitVec 4) : Nat := x.toNat
def cnt9 (n : Fin 9) : Nat := n.val
def imm14 (x : BitVec 14) : Nat := x.toNat
def imm16 (x : BitVec 16) : Nat := x.toNat
def rep (n : Fin 32) : Nat := n.val
def jc (n : Fin 512) : Nat := n.val
def fin4 (n : Fin 4) : Nat := n.val
def st15 (n : Fin 15) : Nat := n.val
def i2 (n : Fin 4) : Nat := n.val
def i3 (n : Fin 8) : Nat := n.val
def q8 (n : Fin 8) : Nat := n.val
def ch6 (n : Fin 6) : Nat := n.val
def esz (n : Fin 5) : Nat := n.val
def imm8 (x : BitVec 8) : Nat := x.toNat
def tag : Tag → Nat
  | .fp32 => 0 | .fp16 => 1 | .bf16 => 2 | .e4m3 => 3 | .e5m2 => 4 | .int32 => 5 | .int8 => 6 | .raw => 7
def puOp : PuOp → Nat | .set => 1 | .and => 2 | .or => 3
def pu1 (u : Pu) : Nat := 4 * u.p.val + puOp u.op
def pu : Option Pu → Nat | none => 0 | some u => pu1 u
def selp (n : Fin 8) : Nat := 4 * n.val
def bool2 (b : Bool) : Nat := if b then 1 else 0
def bool3 (b : Bool) : Nat := if b then 1 else 0
def isz : ISz → Nat | .w32 => 0 | .w16 => 1 | .w8 => 2
def fsz : FSz → Nat | .f32 => 0 | .f16 => 1 | .bf16 => 2
def hsz (b : Bool) : Nat := if b then 2 else 1
def rm : Rm → Nat | .rn => 0 | .rz => 1 | .rd => 2 | .ru => 3
def summ : SumMode → Nat | .wrap => 0 | .sat => 1 | .uwrap => 2 | .usat => 3
def scanm : ScanMode → Nat | .wrap => 0 | .sat => 1 | .usat => 2
def mm : MmKind → Nat | .s z => 4 * isz z | .u z => 4 * isz z + 1 | .f z => 4 * fsz z + 2
def sendm : SendMode → Nat | .tag t => tag t | .cfg k => 8 + k.val
def bfx (pos len1 : Fin 32) (sx : Bool) : Nat := pos.val + 32 * len1.val + (if sx then 1024 else 0)
def bfi (pos len1 : Fin 32) : Nat := pos.val + 32 * len1.val
def shKind : ShKind → Nat | .shl => 0 | .shr => 1 | .sar => 2 | .rol => 3
def shi (k : ShKind) (c : Fin 32) : Nat := c.val + 32 * shKind k
def jfl (c : BitVec 4) (f : BitVec 5) : Nat := c.toNat + 16 * f.toNat
def shf (n : Fin 15) : Nat := if n.val < 7 then 16377 + n.val else n.val - 7
def width : Width → Nat | .word => 0 | .half => 1 | .byte => 2
def plev : PrefLevel → Nat | .home => 0 | .visit => 1 | .fabric => 2
def arep : Option (Fin 7) → Nat | some n => n.val | none => 7
def upd4 : Option PuOp → Nat | none => 0 | some o => puOp o
def redv : RedArith → Nat | .i32 => 0 | .i32s => 1 | .f32 => 2 | .bf16 => 3 | .f16 => 4
def evt (e : BitVec 8) (irq : Bool) : Nat := e.toNat + (if irq then 256 else 0)
def hint : Hint → Nat | .normal => 0 | .low => 1 | .high => 2

/-- The operand fields of the formats of R26, below the opcode byte. -/
def fmtA (d a b p z m : Nat) : Nat := 2 ^ 19 * d + 2 ^ 14 * a + 2 ^ 9 * b + 2 ^ 4 * p + 2 ^ 2 * z + m
def fmtI (d a imm : Nat) : Nat := 2 ^ 19 * d + 2 ^ 14 * a + imm
def fmtL (d t imm : Nat) : Nat := 2 ^ 19 * d + 2 ^ 16 * t + imm
def fmtM (s m a r v : Nat) : Nat := 2 ^ 21 * s + 2 ^ 13 * m + 2 ^ 8 * a + 2 ^ 3 * r + v
def fmtP (p pa pb fn m : Nat) : Nat := 2 ^ 21 * p + 2 ^ 18 * pa + 2 ^ 15 * pb + 2 ^ 11 * fn + 2 ^ 3 * m
def fmtT (a b c jc : Nat) : Nat := 2 ^ 19 * a + 2 ^ 14 * b + 2 ^ 9 * c + jc

end E

def enc (opc tail : Nat) : BitVec 32 := BitVec.ofNat 32 (2 ^ 24 * opc + tail)

/-- The operation word of an instruction, from the formats of R26; none for the steps of the table, which no
operation word encodes. -/
def encode : Instr → Option (BitVec 32)
  | .nop => some (enc 0x00 (E.fmtI 0 0 0))
  | .send d a pu => some (enc 0x01 (E.fmtA (E.outz d) (E.src a) 0 (E.pu pu) 0 0))
  | .sendt o a m => some (enc 0x02 (E.fmtI (E.out o) (E.src a) (E.sendm m)))
  | .sende o a imm => some (enc 0x03 (E.fmtI (E.out o) (E.src a) (E.imm14 imm)))
  | .sendh o a => some (enc 0x04 (E.fmtI (E.out o) (E.src a) 0))
  | .pass d j => some (enc 0x05 (E.fmtI (E.outz d) (E.chan j) 0))
  | .steer o a p => some (enc 0x06 (E.fmtA (E.steer o) (E.src a) (E.pred p) 0 0 0))
  | .tagq p a tags => some (enc 0x07 (E.fmtI (E.pred p) (E.src a) (E.imm8 tags)))
  | .pset p mask => some (enc 0x08 (E.fmtP (E.p3 p) 0 0 0 (E.m8 mask)))
  | .plog p pa pb fn mask => some (enc 0x09 (E.fmtP (E.p3 p) (E.p3 pa) (E.p3 pb) (E.fn4 fn) (E.m8 mask)))
  | .pget d p pu => some (enc 0x0A (E.fmtA (E.dst d) (E.pred p) 0 (E.pu pu) 0 0))
  | .pput p a => some (enc 0x0B (E.fmtI (E.pred p) (E.src a) 0))
  | .pcnt p pa n mask => some (enc 0x0C (E.fmtP (E.p3 p) (E.p3 pa) 0 (E.cnt9 n) (E.m8 mask)))
  | .ende => some (enc 0x0D (E.fmtI 0 0 0))
  | .add d a b pu z => some (enc 0x10 (E.fmtA (E.dst d) (E.src a) (E.src b) (E.pu pu) (E.isz z) 0))
  | .sub d a b pu z => some (enc 0x11 (E.fmtA (E.dst d) (E.src a) (E.src b) (E.pu pu) (E.isz z) 0))
  | .adds d a b pu z => some (enc 0x12 (E.fmtA (E.dst d) (E.src a) (E.src b) (E.pu pu) (E.isz z) 0))
  | .addus d a b pu z => some (enc 0x13 (E.fmtA (E.dst d) (E.src a) (E.src b) (E.pu pu) (E.isz z) 0))
  | .subs d a b pu z => some (enc 0x14 (E.fmtA (E.dst d) (E.src a) (E.src b) (E.pu pu) (E.isz z) 0))
  | .subus d a b pu z => some (enc 0x15 (E.fmtA (E.dst d) (E.src a) (E.src b) (E.pu pu) (E.isz z) 0))
  | .mul d a b pu z => some (enc 0x16 (E.fmtA (E.dst d) (E.src a) (E.src b) (E.pu pu) (E.isz z) 0))
  | .mulh d a b pu z => some (enc 0x17 (E.fmtA (E.dst d) (E.src a) (E.src b) (E.pu pu) (E.isz z) 0))
  | .mulhu d a b pu z => some (enc 0x18 (E.fmtA (E.dst d) (E.src a) (E.src b) (E.pu pu) (E.isz z) 0))
  | .mad d a b pu z => some (enc 0x19 (E.fmtA (E.vdst d) (E.src a) (E.src b) (E.pu pu) (E.isz z) 0))
  | .neg d a pu z => some (enc 0x1A (E.fmtA (E.dst d) (E.src a) 0 (E.pu pu) (E.isz z) 0))
  | .abs d a pu z => some (enc 0x1B (E.fmtA (E.dst d) (E.src a) 0 (E.pu pu) (E.isz z) 0))
  | .addc d a b pu nc => some (enc 0x1C (E.fmtA (E.vdst d) (E.src a) (E.src b) (E.pu1 pu) 0 (E.bool2 nc)))
  | .subb d a b pu nc => some (enc 0x1D (E.fmtA (E.vdst d) (E.src a) (E.src b) (E.pu1 pu) 0 (E.bool2 nc)))
  | .div d a b pu z => some (enc 0x1E (E.fmtA (E.dst d) (E.src a) (E.src b) (E.pu pu) (E.isz z) 0))
  | .divu d a b pu z => some (enc 0x1F (E.fmtA (E.dst d) (E.src a) (E.src b) (E.pu pu) (E.isz z) 0))
  | .and d a b pu => some (enc 0x20 (E.fmtA (E.dst d) (E.src a) (E.src b) (E.pu pu) 0 0))
  | .or d a b pu => some (enc 0x21 (E.fmtA (E.dst d) (E.src a) (E.src b) (E.pu pu) 0 0))
  | .xor d a b pu => some (enc 0x22 (E.fmtA (E.dst d) (E.src a) (E.src b) (E.pu pu) 0 0))
  | .andn d a b pu => some (enc 0x23 (E.fmtA (E.dst d) (E.src a) (E.src b) (E.pu pu) 0 0))
  | .not d a pu => some (enc 0x24 (E.fmtA (E.dst d) (E.src a) 0 (E.pu pu) 0 0))
  | .shl d a b pu z => some (enc 0x25 (E.fmtA (E.dst d) (E.src a) (E.src b) (E.pu pu) (E.isz z) 0))
  | .shr d a b pu z => some (enc 0x26 (E.fmtA (E.dst d) (E.src a) (E.src b) (E.pu pu) (E.isz z) 0))
  | .sar d a b pu z => some (enc 0x27 (E.fmtA (E.dst d) (E.src a) (E.src b) (E.pu pu) (E.isz z) 0))
  | .rol d a b pu z => some (enc 0x28 (E.fmtA (E.dst d) (E.src a) (E.src b) (E.pu pu) (E.isz z) 0))
  | .clz d a pu z => some (enc 0x29 (E.fmtA (E.dst d) (E.src a) 0 (E.pu pu) (E.isz z) 0))
  | .ctz d a pu z => some (enc 0x2A (E.fmtA (E.dst d) (E.src a) 0 (E.pu pu) (E.isz z) 0))
  | .popc d a pu z => some (enc 0x2B (E.fmtA (E.dst d) (E.src a) 0 (E.pu pu) (E.isz z) 0))
  | .brev d a pu z => some (enc 0x2C (E.fmtA (E.dst d) (E.src a) 0 (E.pu pu) (E.isz z) 0))
  | .bfx d a pos len1 sx => some (enc 0x2D (E.fmtI (E.dst d) (E.src a) (E.bfx pos len1 sx)))
  | .bfi d a pos len1 => some (enc 0x2E (E.fmtI (E.vdst d) (E.src a) (E.bfi pos len1)))
  | .sel d a b p => some (enc 0x2F (E.fmtA (E.dst d) (E.src a) (E.src b) (E.selp p) 0 0))
  | .cmpeq d a b pu z => some (enc 0x30 (E.fmtA (E.dst d) (E.src a) (E.src b) (E.pu pu) (E.isz z) 0))
  | .cmpne d a b pu z => some (enc 0x31 (E.fmtA (E.dst d) (E.src a) (E.src b) (E.pu pu) (E.isz z) 0))
  | .cmplt d a b pu z => some (enc 0x32 (E.fmtA (E.dst d) (E.src a) (E.src b) (E.pu pu) (E.isz z) 0))
  | .cmple d a b pu z => some (enc 0x33 (E.fmtA (E.dst d) (E.src a) (E.src b) (E.pu pu) (E.isz z) 0))
  | .cmpltu d a b pu z => some (enc 0x34 (E.fmtA (E.dst d) (E.src a) (E.src b) (E.pu pu) (E.isz z) 0))
  | .cmpleu d a b pu z => some (enc 0x35 (E.fmtA (E.dst d) (E.src a) (E.src b) (E.pu pu) (E.isz z) 0))
  | .min d a b pu z => some (enc 0x36 (E.fmtA (E.dst d) (E.src a) (E.src b) (E.pu pu) (E.isz z) 0))
  | .max d a b pu z => some (enc 0x37 (E.fmtA (E.dst d) (E.src a) (E.src b) (E.pu pu) (E.isz z) 0))
  | .minu d a b pu z => some (enc 0x38 (E.fmtA (E.dst d) (E.src a) (E.src b) (E.pu pu) (E.isz z) 0))
  | .maxu d a b pu z => some (enc 0x39 (E.fmtA (E.dst d) (E.src a) (E.src b) (E.pu pu) (E.isz z) 0))
  | .addi d a imm => some (enc 0x3A (E.fmtI (E.dst d) (E.src a) (E.imm14 imm)))
  | .muli d a imm => some (enc 0x3B (E.fmtI (E.dst d) (E.src a) (E.imm14 imm)))
  | .andi d a imm => some (enc 0x3C (E.fmtI (E.dst d) (E.src a) (E.imm14 imm)))
  | .ori d a imm => some (enc 0x3D (E.fmtI (E.dst d) (E.src a) (E.imm14 imm)))
  | .xori d a imm => some (enc 0x3E (E.fmtI (E.dst d) (E.src a) (E.imm14 imm)))
  | .shi d a kind c => some (enc 0x3F (E.fmtI (E.dst d) (E.src a) (E.shi kind c)))
  | .fadd d a b pu z rm => some (enc 0x40 (E.fmtA (E.dst d) (E.src a) (E.src b) (E.pu pu) (E.fsz z) (E.rm rm)))
  | .fsub d a b pu z rm => some (enc 0x41 (E.fmtA (E.dst d) (E.src a) (E.src b) (E.pu pu) (E.fsz z) (E.rm rm)))
  | .fmul d a b pu z rm => some (enc 0x42 (E.fmtA (E.dst d) (E.src a) (E.src b) (E.pu pu) (E.fsz z) (E.rm rm)))
  | .fma d a b pu z rm => some (enc 0x43 (E.fmtA (E.vdst d) (E.src a) (E.src b) (E.pu pu) (E.fsz z) (E.rm rm)))
  | .fms d a b pu z rm => some (enc 0x44 (E.fmtA (E.vdst d) (E.src a) (E.src b) (E.pu pu) (E.fsz z) (E.rm rm)))
  | .fnma d a b pu z rm => some (enc 0x45 (E.fmtA (E.vdst d) (E.src a) (E.src b) (E.pu pu) (E.fsz z) (E.rm rm)))
  | .fdiv d a b pu z rm => some (enc 0x46 (E.fmtA (E.dst d) (E.src a) (E.src b) (E.pu pu) (E.fsz z) (E.rm rm)))
  | .frcp d a pu z rm => some (enc 0x47 (E.fmtA (E.dst d) (E.src a) 0 (E.pu pu) (E.fsz z) (E.rm rm)))
  | .fsqrt d a pu z rm => some (enc 0x48 (E.fmtA (E.dst d) (E.src a) 0 (E.pu pu) (E.fsz z) (E.rm rm)))
  | .frsq d a pu z rm => some (enc 0x49 (E.fmtA (E.dst d) (E.src a) 0 (E.pu pu) (E.fsz z) (E.rm rm)))
  | .fneg d a pu z => some (enc 0x4A (E.fmtA (E.dst d) (E.src a) 0 (E.pu pu) (E.fsz z) 0))
  | .fabs d a pu z => some (enc 0x4B (E.fmtA (E.dst d) (E.src a) 0 (E.pu pu) (E.fsz z) 0))
  | .fmin d a b pu z => some (enc 0x4C (E.fmtA (E.dst d) (E.src a) (E.src b) (E.pu pu) (E.fsz z) 0))
  | .fmax d a b pu z => some (enc 0x4D (E.fmtA (E.dst d) (E.src a) (E.src b) (E.pu pu) (E.fsz z) 0))
  | .fscale d a b pu z rm => some (enc 0x4E (E.fmtA (E.dst d) (E.src a) (E.src b) (E.pu pu) (E.fsz z) (E.rm rm)))
  | .fcpys d a b pu z => some (enc 0x4F (E.fmtA (E.dst d) (E.src a) (E.src b) (E.pu pu) (E.fsz z) 0))
  | .fexp d a pu z rm => some (enc 0x50 (E.fmtA (E.dst d) (E.src a) 0 (E.pu pu) (E.fsz z) (E.rm rm)))
  | .fexp2 d a pu z rm => some (enc 0x51 (E.fmtA (E.dst d) (E.src a) 0 (E.pu pu) (E.fsz z) (E.rm rm)))
  | .flog d a pu z rm => some (enc 0x52 (E.fmtA (E.dst d) (E.src a) 0 (E.pu pu) (E.fsz z) (E.rm rm)))
  | .flog2 d a pu z rm => some (enc 0x53 (E.fmtA (E.dst d) (E.src a) 0 (E.pu pu) (E.fsz z) (E.rm rm)))
  | .fsin d a pu z rm => some (enc 0x54 (E.fmtA (E.dst d) (E.src a) 0 (E.pu pu) (E.fsz z) (E.rm rm)))
  | .fcos d a pu z rm => some (enc 0x55 (E.fmtA (E.dst d) (E.src a) 0 (E.pu pu) (E.fsz z) (E.rm rm)))
  | .fsincos d a pu z rm => some (enc 0x56 (E.fmtA (E.vdst d) (E.src a) 0 (E.pu pu) (E.fsz z) (E.rm rm)))
  | .ftanh d a pu z rm => some (enc 0x57 (E.fmtA (E.dst d) (E.src a) 0 (E.pu pu) (E.fsz z) (E.rm rm)))
  | .fsigm d a pu z rm => some (enc 0x58 (E.fmtA (E.dst d) (E.src a) 0 (E.pu pu) (E.fsz z) (E.rm rm)))
  | .ferf d a pu z rm => some (enc 0x59 (E.fmtA (E.dst d) (E.src a) 0 (E.pu pu) (E.fsz z) (E.rm rm)))
  | .fpowi d a b pu z rm => some (enc 0x5A (E.fmtA (E.dst d) (E.src a) (E.src b) (E.pu pu) (E.fsz z) (E.rm rm)))
  | .flog1p d a pu z rm => some (enc 0x5B (E.fmtA (E.dst d) (E.src a) 0 (E.pu pu) (E.fsz z) (E.rm rm)))
  | .fexpm1 d a pu z rm => some (enc 0x5C (E.fmtA (E.dst d) (E.src a) 0 (E.pu pu) (E.fsz z) (E.rm rm)))
  | .fcmpeq d a b pu z => some (enc 0x60 (E.fmtA (E.dst d) (E.src a) (E.src b) (E.pu pu) (E.fsz z) 0))
  | .fcmplt d a b pu z => some (enc 0x61 (E.fmtA (E.dst d) (E.src a) (E.src b) (E.pu pu) (E.fsz z) 0))
  | .fcmple d a b pu z => some (enc 0x62 (E.fmtA (E.dst d) (E.src a) (E.src b) (E.pu pu) (E.fsz z) 0))
  | .fcmpun d a b pu z => some (enc 0x63 (E.fmtA (E.dst d) (E.src a) (E.src b) (E.pu pu) (E.fsz z) 0))
  | .fclass d a pu z => some (enc 0x64 (E.fmtA (E.dst d) (E.src a) 0 (E.pu pu) (E.fsz z) 0))
  | .cvtf d a pu z rm => some (enc 0x65 (E.fmtA (E.dst d) (E.src a) 0 (E.pu pu) (E.fsz z) (E.rm rm)))
  | .cvtfi d a pu z rm => some (enc 0x66 (E.fmtA (E.dst d) (E.src a) 0 (E.pu pu) (E.fsz z) (E.rm rm)))
  | .cvtif d a pu z rm => some (enc 0x67 (E.fmtA (E.dst d) (E.src a) 0 (E.pu pu) (E.fsz z) (E.rm rm)))
  | .qnt d a b pu z rm => some (enc 0x68 (E.fmtA (E.dst d) (E.src a) (E.src b) (E.pu pu) (E.fsz z) (E.rm rm)))
  | .dqnt d a b pu i => some (enc 0x69 (E.fmtA (E.dst d) (E.src a) (E.src b) (E.pu pu) 0 (E.fin4 i)))
  | .frnd d a pu z rm => some (enc 0x6A (E.fmtA (E.dst d) (E.src a) 0 (E.pu pu) (E.fsz z) (E.rm rm)))
  | .pack d a b pu bf rm => some (enc 0x6B (E.fmtA (E.dst d) (E.src a) (E.src b) (E.pu pu) (E.hsz bf) (E.rm rm)))
  | .unpk d a pu i => some (enc 0x6C (E.fmtA (E.dst d) (E.src a) 0 (E.pu pu) 0 (E.fin4 i)))
  | .jord k => some (enc 0x70 (E.fmtI 0 0 (E.i2 k)))
  | .jseed d a b pu z => some (enc 0x71 (E.fmtA (E.dst d) (E.src a) (E.src b) (E.pu pu) (E.fsz z) 0))
  | .jconst d a pu z => some (enc 0x72 (E.fmtA (E.dst d) (E.src a) 0 (E.pu pu) (E.fsz z) 0))
  | .jext d a j => some (enc 0x73 (E.fmtI (E.dst d) (E.src a) (E.i2 j)))
  | .jins d a j => some (enc 0x74 (E.fmtI (E.vdst d) (E.src a) (E.i2 j)))
  | .jdiff d a pu z rm => some (enc 0x75 (E.fmtA (E.dst d) (E.src a) 0 (E.pu pu) (E.fsz z) (E.rm rm)))
  | .jintg d a b pu z rm => some (enc 0x76 (E.fmtA (E.dst d) (E.src a) (E.src b) (E.pu pu) (E.fsz z) (E.rm rm)))
  | .jeval d a b pu z rm => some (enc 0x77 (E.fmtA (E.dst d) (E.src a) (E.src b) (E.pu pu) (E.fsz z) (E.rm rm)))
  | .jmov d a pu => some (enc 0x78 (E.fmtA (E.dst d) (E.src a) 0 (E.pu pu) 0 0))
  | .jscal d a b pu z rm => some (enc 0x79 (E.fmtA (E.dst d) (E.src a) (E.src b) (E.pu pu) (E.fsz z) (E.rm rm)))
  | .jtrnc d a m => some (enc 0x7A (E.fmtI (E.dst d) (E.src a) (E.i2 m)))
  | .jflag d cmask fmask => some (enc 0x7B (E.fmtI (E.dst d) 0 (E.jfl cmask fmask)))
  | .lbc d a k => some (enc 0x80 (E.fmtI (E.dst d) (E.src a) (E.i3 k)))
  | .lshf d a n7 => some (enc 0x81 (E.fmtI (E.dst d) (E.src a) (E.shf n7)))
  | .lrot d a n => some (enc 0x82 (E.fmtI (E.dst d) (E.src a) (E.i3 n)))
  | .lsum d a pu z rm => some (enc 0x83 (E.fmtA (E.dst d) (E.src a) 0 (E.pu pu) (E.fsz z) (E.rm rm)))
  | .lsumi d a pu z m => some (enc 0x84 (E.fmtA (E.dst d) (E.src a) 0 (E.pu pu) (E.isz z) (E.summ m)))
  | .lmax d a pu k => some (enc 0x85 (E.fmtA (E.dst d) (E.src a) 0 (E.pu pu) 0 (E.mm k)))
  | .lmin d a pu k => some (enc 0x86 (E.fmtA (E.dst d) (E.src a) 0 (E.pu pu) 0 (E.mm k)))
  | .lscan d a pu z rm => some (enc 0x87 (E.fmtA (E.dst d) (E.src a) 0 (E.pu pu) (E.fsz z) (E.rm rm)))
  | .lscani d a pu z m => some (enc 0x88 (E.fmtA (E.dst d) (E.src a) 0 (E.pu pu) (E.isz z) (E.scanm m)))
  | .lcmpr d a p pu => some (enc 0x89 (E.fmtA (E.dst d) (E.src a) (E.pred p) (E.pu pu) 0 0))
  | .lexpd d a p pu => some (enc 0x8A (E.fmtA (E.dst d) (E.src a) (E.pred p) (E.pu pu) 0 0))
  | .ldot d a b pu z rm => some (enc 0x8B (E.fmtA (E.dst d) (E.src a) (E.src b) (E.pu pu) (E.fsz z) (E.rm rm)))
  | .mov d a pu => some (enc 0x90 (E.fmtA (E.dst d) (E.src a) 0 (E.pu pu) 0 0))
  | .movi d imm => some (enc 0x91 (E.fmtI (E.dst d) 0 (E.imm14 imm)))
  | .movl d t imm => some (enc 0x92 (E.fmtL (E.vdst d) (E.tag t) (E.imm16 imm)))
  | .movh d t imm => some (enc 0x93 (E.fmtL (E.vdst d) (E.tag t) (E.imm16 imm)))
  | .mfs d n => some (enc 0x94 (E.fmtI (E.dst d) 0 (E.st15 n)))
  | .mts n a => some (enc 0x95 (E.fmtI 0 (E.src a) (E.st15 n)))
  | .ld s m a r t => some (enc 0xA0 (E.fmtM (E.s3 s) (E.m8 m) (E.src a) (E.rep r) (E.tag t)))
  | .ldb s m a r t => some (enc 0xA1 (E.fmtM (E.s3 s) (E.m8 m) (E.src a) (E.rep r) (E.tag t)))
  | .st s m a d w => some (enc 0xA2 (E.fmtM (E.s3 s) (E.m8 m) (E.src a) (E.src d) (E.width w)))
  | .stb s m a d => some (enc 0xA3 (E.fmtM (E.s3 s) (E.m8 m) (E.src a) (E.src d) 0))
  | .lds s m a r t => some (enc 0xA4 (E.fmtM (E.s3 s) (E.m8 m) (E.src a) (E.rep r) (E.tag t)))
  | .sts s m a d w => some (enc 0xA5 (E.fmtM (E.s3 s) (E.m8 m) (E.src a) (E.src d) (E.width w)))
  | .ldf s m a r t => some (enc 0xA6 (E.fmtM (E.s3 s) (E.m8 m) (E.src a) (E.rep r) (E.tag t)))
  | .ldfe s m a r t => some (enc 0xA7 (E.fmtM (E.s3 s) (E.m8 m) (E.src a) (E.rep r) (E.tag t)))
  | .ste s m a d => some (enc 0xA8 (E.fmtM (E.s3 s) (E.m8 m) (E.src a) (E.src d) 0))
  | .stff s m a d => some (enc 0xA9 (E.fmtM (E.s3 s) (E.m8 m) (E.src a) (E.src d) 0))
  | .pref s m a l => some (enc 0xAA (E.fmtM (E.s3 s) (E.m8 m) (E.src a) 0 (E.plev l)))
  | .aadd s m a d r => some (enc 0xB0 (E.fmtM (E.s3 s) (E.m8 m) (E.src a) (E.src d) (E.arep r)))
  | .aadds s m a d r => some (enc 0xB1 (E.fmtM (E.s3 s) (E.m8 m) (E.src a) (E.src d) (E.arep r)))
  | .afadd s m a d r => some (enc 0xB2 (E.fmtM (E.s3 s) (E.m8 m) (E.src a) (E.src d) (E.arep r)))
  | .amin s m a d r => some (enc 0xB3 (E.fmtM (E.s3 s) (E.m8 m) (E.src a) (E.src d) (E.arep r)))
  | .amax s m a d r => some (enc 0xB4 (E.fmtM (E.s3 s) (E.m8 m) (E.src a) (E.src d) (E.arep r)))
  | .aminu s m a d r => some (enc 0xB5 (E.fmtM (E.s3 s) (E.m8 m) (E.src a) (E.src d) (E.arep r)))
  | .amaxu s m a d r => some (enc 0xB6 (E.fmtM (E.s3 s) (E.m8 m) (E.src a) (E.src d) (E.arep r)))
  | .aand s m a d r => some (enc 0xB7 (E.fmtM (E.s3 s) (E.m8 m) (E.src a) (E.src d) (E.arep r)))
  | .aor s m a d r => some (enc 0xB8 (E.fmtM (E.s3 s) (E.m8 m) (E.src a) (E.src d) (E.arep r)))
  | .axor s m a d r => some (enc 0xB9 (E.fmtM (E.s3 s) (E.m8 m) (E.src a) (E.src d) (E.arep r)))
  | .axch s m a d r => some (enc 0xBA (E.fmtM (E.s3 s) (E.m8 m) (E.src a) (E.src d) (E.arep r)))
  | .acas s m a d r => some (enc 0xBB (E.fmtM (E.s3 s) (E.m8 m) (E.src a) (E.casd d) (E.arep r)))
  | .atas s m a d r => some (enc 0xBC (E.fmtM (E.s3 s) (E.m8 m) (E.src a) (E.src d) (E.arep r)))
  | .aincw s m a d r => some (enc 0xBD (E.fmtM (E.s3 s) (E.m8 m) (E.src a) (E.src d) (E.arep r)))
  | .copy s m g q => some (enc 0xC0 (E.fmtM (E.s3 s) (E.m8 m) (E.descg g) (E.rep q) 0))
  | .copy2d s m g q => some (enc 0xC1 (E.fmtM (E.s3 s) (E.m8 m) (E.descg g) (E.rep q) 0))
  | .gath s m g q e => some (enc 0xC2 (E.fmtM (E.s3 s) (E.m8 m) (E.descg g) (E.rep q) (E.esz e)))
  | .scat s m g q e => some (enc 0xC3 (E.fmtM (E.s3 s) (E.m8 m) (E.descg g) (E.rep q) (E.esz e)))
  | .strm s m g q chan => some (enc 0xC4 (E.fmtM (E.s3 s) (E.m8 m) (E.descg g) (E.rep q) (E.bool3 chan)))
  | .mxmm s m g q => some (enc 0xC5 (E.fmtM (E.s3 s) (E.m8 m) (E.descg g) (E.rep q) 0))
  | .mxsort s m g q => some (enc 0xC6 (E.fmtM (E.s3 s) (E.m8 m) (E.descg g) (E.rep q) 0))
  | .ringi s m g => some (enc 0xC7 (E.fmtM (E.s3 s) (E.m8 m) (E.descg g) 0 0))
  | .ringa s m g tail => some (enc 0xC8 (E.fmtM (E.s3 s) (E.m8 m) (E.descg g) 0 (E.bool3 tail)))
  | .spill s m g ch => some (enc 0xC9 (E.fmtM (E.s3 s) (E.m8 m) (E.descg g) (E.ch6 ch) 0))
  | .echk g p upd => some (enc 0xCA (E.fmtM 0 0 (E.descg g) (E.q8 p) (E.upd4 upd)))
  | .ecan g => some (enc 0xCB (E.fmtM 0 0 (E.descg g) 0 0))
  | .linkx s m g q => some (enc 0xCC (E.fmtM (E.s3 s) (E.m8 m) (E.descg g) (E.rep q) 0))
  | .redc s m g q f => some (enc 0xCD (E.fmtM (E.s3 s) (E.m8 m) (E.descg g) (E.rep q) (E.redv f)))
  | .spawn a b c jc => some (enc 0xD0 (E.fmtT (E.src a) (E.src b) (E.src c) (E.jc jc)))
  | .tdone jc => some (enc 0xD1 (E.fmtT 0 0 0 (E.jc jc)))
  | .jarm a jc => some (enc 0xD2 (E.fmtT (E.src a) 0 0 (E.jc jc)))
  | .watch a b d pu => some (enc 0xD3 (E.fmtA (E.src d) (E.src a) (E.src b) (E.pu pu) 0 0))
  | .unwatch a d pu => some (enc 0xD4 (E.fmtA (E.src d) (E.src a) 0 (E.pu pu) 0 0))
  | .pginc c a imm => some (enc 0xD5 (E.fmtI (E.g4 c) (E.src a) (E.imm14 imm)))
  | .pgset c a imm => some (enc 0xD6 (E.fmtI (E.g4 c) (E.src a) (E.imm14 imm)))
  | .isect o a b => some (enc 0xD7 (E.fmtA (E.out o) (E.xch a) (E.xch b) 0 0 0))
  | .union o a b => some (enc 0xD8 (E.fmtA (E.out o) (E.xch a) (E.xch b) 0 0 0))
  | .trap code => some (enc 0xE0 (E.fmtI 0 0 (E.imm14 code)))
  | .brk code => some (enc 0xE1 (E.fmtI 0 0 (E.imm14 code)))
  | .cutrq => some (enc 0xE2 (E.fmtI 0 0 0))
  | .evnt e irq => some (enc 0xE3 (E.fmtI 0 0 (E.evt e irq)))
  | .l1wb s m a d visit => some (enc 0xE4 (E.fmtM (E.s3 s) (E.m8 m) (E.src a) (E.src d) (E.bool3 visit)))
  | .l1inv s m a d visit => some (enc 0xE5 (E.fmtM (E.s3 s) (E.m8 m) (E.src a) (E.src d) (E.bool3 visit)))
  | .pwrh h => some (enc 0xE6 (E.fmtI 0 0 (E.hint h)))
  | _ => none


/-- A trigger word (R22). A head test on no channel is `none`. -/
structure HeadTest where
  ch : Nat        -- 0-5 for I0-I5, 6 for T
  test : Nat      -- TSTA or TSTB; for T the handler
  deq : Bool
  deriving DecidableEq, Repr

structure Trig where
  pmask : BitVec 8
  pval : BitVec 8
  a : Option HeadTest
  b : Option HeadTest
  all : Bool
  outq : Option Nat
  deriving DecidableEq, Repr

def Trig.head (ch test deq : Nat) : Option HeadTest :=
  if ch = 7 then none else some ⟨ch, test, decide (deq = 1)⟩

def Trig.ofWord (w : BitVec 32) : Trig :=
  let n := w.toNat
  { pmask := BitVec.ofNat 8 (fld n 24 8), pval := BitVec.ofNat 8 (fld n 16 8)
    a := Trig.head (fld n 13 3) (fld n 11 2) (fld n 10 1)
    b := Trig.head (fld n 7 3) (fld n 5 2) (fld n 4 1)
    all := decide (fld n 3 1 = 1)
    outq := if fld n 0 3 = 7 then none else some (fld n 0 3) }

/-- The conditions of R25 on a trigger word. -/
def trigOk (w : BitVec 32) : Bool :=
  let n := w.toNat
  (BitVec.ofNat 8 (fld n 16 8) &&& ~~~ (BitVec.ofNat 8 (fld n 24 8)) == 0) &&
  (fld n 13 3 != 7 || (fld n 11 2 == 0 && fld n 10 1 == 0)) &&
  (fld n 7 3 != 7 || (fld n 5 2 == 0 && fld n 4 1 == 0)) &&
  (fld n 13 3 != fld n 7 3 || fld n 13 3 == 7) &&
  fld n 0 3 != 6

/-- A channel code is named by a head test (R31). -/
def Trig.names (t : Trig) (ch : Nat) : Bool :=
  (match t.a with | some h => h.ch == ch | none => false) ||
  (match t.b with | some h => h.ch == ch | none => false)

def Trig.tests (t : Trig) (ch test : Nat) : Bool :=
  (match t.a with | some h => h.ch == ch && h.test == test | none => false) ||
  (match t.b with | some h => h.ch == ch && h.test == test | none => false)

/-- R31, R161 and the channel rule of R176, for one slot of a plane. -/
def chanNameOk (pl : Plane) (t : Trig) (i : Instr) : Bool :=
  i.srcs.all (fun x => match x.1 with
    | .i n => t.names n.val
    | .t0 => t.names 6
    | .t1 => t.names 6
    | _ => true) &&
  (match i.dst with
   | some (.o n, _) => t.outq == some n.val
   | _ => true) &&
  (match pl with | .s => !t.names 6 | .work => true) &&
  (match i with
   | .isect _ a b => a != b && t.tests a.val 0 && t.tests b.val 0
   | .union _ a b => a != b && t.tests a.val 0 && t.tests b.val 0
   | _ => true)

/-- The operation word (bits [31:0]) and trigger word (bits [63:32]) of a slot (R21). -/
def slotOp (s : BitVec 64) : BitVec 32 := s.extractLsb' 0 32
def slotTrig (s : BitVec 64) : BitVec 32 := s.extractLsb' 32 32

/-- Everything one slot alone decides of R43: its instruction, or the reason of lowest code among its breaches. -/
def decodeSlot (pl : Plane) (s : BitVec 64) : Chk Instr :=
  let x := (decodeIn pl (slotOp s)).also (trigOk (slotTrig s))
  match x with
  | .bad r => .bad r
  | .ok i => if chanNameOk pl (Trig.ofWord (slotTrig s)) i then .ok i else .bad .chanName

end Sys2Proof
end

