-- ==== Sys2Proof/Machine/State.lean ====
section
/-! DEFINITION. The state of one package of eight dies as plain data, the reasons a step can stop, and the state
after module reset. Things that exist only while something uses them (an element that no consist holds, a tile with
its reset values, a channel without a record) are entries of sorted lists; an unlisted key holds the value named
beside the list. -/
namespace Sys2Proof.Machine

/-! ## Small types -/

/-- Sixteen values: vector registers, slots, banks. -/
structure Hex (α : Type) where
  lo : Oct α
  hi : Oct α
  deriving DecidableEq, Repr

def Hex.rep {α : Type} (x : α) : Hex α := ⟨Oct.rep x, Oct.rep x⟩
def Hex.get {α : Type} (h : Hex α) (n : Nat) : α := if n < 8 then h.lo.get n else h.hi.get (n - 8)
def Hex.set {α : Type} (h : Hex α) (n : Nat) (x : α) : Hex α :=
  if n < 8 then { h with lo := h.lo.set n x } else { h with hi := h.hi.set (n - 8) x }
def Hex.toList {α : Type} (h : Hex α) : List α := h.lo.toList ++ h.hi.toList

/-- Four values: K registers, progress counters, memory nodes. -/
structure Quad (α : Type) where
  q0 : α
  q1 : α
  q2 : α
  q3 : α
  deriving DecidableEq, Repr

def Quad.rep {α : Type} (x : α) : Quad α := ⟨x, x, x, x⟩
def Quad.get {α : Type} (q : Quad α) : Nat → α
  | 0 => q.q0 | 1 => q.q1 | 2 => q.q2 | _ => q.q3
def Quad.set {α : Type} (q : Quad α) : Nat → α → Quad α
  | 0, x => { q with q0 := x }
  | 1, x => { q with q1 := x }
  | 2, x => { q with q2 := x }
  | _, x => { q with q3 := x }
def Quad.toList {α : Type} (q : Quad α) : List α := [q.q0, q.q1, q.q2, q.q3]

/-- Memory as (key, byte) pairs, keys rising, no entry equal to 0, what an unlisted key reads as (log entry 4). -/
abbrev Mem := List Host.Cell

/-- The kind of a token (R153). -/
inductive Kind where | data | eos | hdr | cfg | mark | recon | poison
  deriving DecidableEq, Repr

/-- A token (R151) and the round it carries in the link layer (R291). -/
structure Tok where
  kind  : Kind
  tag   : Tag
  lvm   : Mask
  data  : Oct W
  stamp : BitVec 16 := 0
  round : Nat := 0
  deriving DecidableEq, Repr

/-- A vector register (R164). -/
structure VReg where
  lane : Oct W
  tag  : Tag
  deriving DecidableEq, Repr

def VReg.zero : VReg := ⟨Oct.rep 0, .int32⟩

/-- Scope of a stream (R248, R250). -/
inductive Scope where | tile | die | package | domain
  deriving DecidableEq, Repr

/-- A task packet (R161). -/
structure Packet where
  label   : Nat
  handler : Nat
  w0      : W
  w1      : W
  two     : Bool
  round   : Nat := 0
  deriving DecidableEq, Repr

/-! ## The element -/

/-- A plane: header and slots (R35). -/
structure PlaneMem where
  order : BitVec 2
  valid : BitVec 16
  slots : Hex (BitVec 64)
  deriving DecidableEq, Repr

def PlaneMem.empty : PlaneMem := ⟨0, 0, Hex.rep 0⟩

/-- A progress counter and its estimator (R134). -/
structure Counter where
  g      : W
  s      : BitVec 22
  rShort : BitVec 24
  rLong  : BitVec 24
  deriving DecidableEq, Repr

/-- A stream (R248). `ahead` lists the ordinals performed beyond PERF; `src` is the producer (element, stream)
of an import stream (R255), and `set` says its gate has been set. -/
structure Stream where
  issued : BitVec 16
  perf   : BitVec 16
  scope  : Scope
  limit  : Nat
  stamp  : BitVec 16
  opened : BitVec 64
  ahead  : List (BitVec 16)
  src    : Option (Nat × Nat)
  set    : Bool
  deriving DecidableEq, Repr

def Stream.reset : Stream := ⟨0, 0, .tile, 64, 0, 0, [], none, false⟩

/-- State of a command (R106). -/
inductive CmdSt where | none | waiting | running | done | cancelled | faulted
  deriving DecidableEq, Repr

/-- Cause of a faulted command (R106). -/
inductive CmdCause where
  | none | desc | spaddr | bounds | ringloc | nounit | codeerr | xlate | abandon | linkdown
  deriving DecidableEq, Repr

/-- What an operation or command waits for before any access: the first `n` operations of a stream of an element, or
for an import its stamp, at the scope of the edge (R253, R255). -/
structure Gate where
  elem   : Nat
  stream : Nat
  n      : BitVec 16
  scope  : Scope
  viaImport : Option Nat      -- the import stream of the waiting element
  deriving DecidableEq, Repr

/-- Bytes read and not yet written by a command: the cycles of its unit's tile since their read was granted (R111, R264),
their destination address. -/
structure Staged where
  age    : Nat            -- cycles since they came
  due    : Int            -- they have crossed links then (R8)
  dst    : Nat
  bytes  : List Byte
  poison : Bool
  setOut : Option Int     -- they have set out, and are at the memory they are for then
  deriving DecidableEq, Repr

/-- Pieces of a run of bytes that an engine moves: those that have asked at their ports, those granted and not yet moved,
and those moved, with what a read piece has brought: its bytes, their poison, and when they are back. -/
structure Pieces where
  asked   : List Nat
  granted : List Nat
  moved   : List (Nat × List Byte × Bool × Int)
  deriving DecidableEq, Repr

def Pieces.empty : Pieces := ⟨[], [], []⟩

/-- A command at a port that its beats pass: the tick at which its first request reached the port (R141), and the beats
that still have to pass it (R110, R140). -/
structure PortUse where
  port : Nat
  age  : Nat
  left : Nat
  deriving DecidableEq, Repr

/-- A command entry (R104) or an armed command (R275). -/
structure Cmd where
  st     : CmdSt
  cause  : CmdCause
  late   : Bool
  nv     : Bool
  ovf    : Bool
  instr  : Instr
  desc   : Oct W
  plane  : Plane
  slot   : Nat
  stream : Nat
  scope  : Scope
  ord    : BitVec 16
  gates  : List Gate
  skipBefore : Option (BitVec 64)
  reply  : Option Nat          -- reply entry of the completion token (R107)
  fires  : W                   -- FIRES and ROUND of the firing (R108)
  round  : Nat
  firedIn : Nat                -- ROUND at the firing (R108, R308)
  ftz    : Bool
  progress : W
  pos    : Nat                 -- a tender: bytes that have passed its read port. A sort: blocks read
  out    : Nat                 -- bytes, elements, blocks or tokens written or sent so far
  tile   : Nat                 -- MXMM: tiles finished. A decoding tender: bytes of output to pass over
  staged : List Staged
  snap   : SMap (Byte × Bool)  -- source bytes and their poison at the start by position, for overlapping copies (R112)
  mem0   : Mem                 -- and physical memory at the start, for source pages that did not translate then
  poison0 : List Nat           -- and its poisoned lines
  owed   : Bool                -- its placeholder has found no room in the round log yet (R300, R301)
  acc    : List Byte           -- bytes held by the unit: B of an island, a decoder's input, keys, indices
  accPz  : List Bool           -- their poison
  dec    : List Byte           -- bytes a tender has decoded and not yet written, or the indices of a sort
  decPz  : List Bool           -- their poison
  tint   : Bool                -- a poisoned byte lies in the operands of an island
  scales : List Byte           -- scales taken from the side band (R194)
  begun  : Bool                -- the B load is over, or the sort network is loaded
  busy   : Bool                -- an island tile is under way
  left   : Nat                 -- cycles until the next unit event
  spare  : List (Nat × Nat)    -- MXMM: cycles of the tile under way in which it leaves a bank alone (R129)
  reached : Bool               -- its predecessors have performed: it is at its unit (R111)
  accepted : Bool              -- it has its place at the unit (R111)
  rd     : Bool                -- a read waits at the read port of a tender, or at the port of a ring
  grR    : Bool                -- it has been granted
  ports  : List PortUse        -- the ports that its beats have asked at
  lateAt : List Nat            -- arbiters that have found it late (R147)
  srcPos : Nat                 -- position of the run whose pieces are read next
  issPos : Nat                 -- position of the next run whose request sets out
  ways   : List Int            -- when the requests of the runs between them are at their memories
  src    : Pieces              -- pieces of the run that is read
  srcRdy : List (List Staged)  -- blocks that have come and wait for a tender's read port
  idx    : Pieces              -- the piece of the index array that is read (R116)
  idxWay : Option Int          -- when its request is at its memory
  wr     : Pieces              -- pieces of the oldest staged bytes on their way into memory
  ackBy  : Option Int          -- when the last acknowledgement of a write is back
  brAsk  : List (Nat × Nat)    -- a tender's blocks and the branches whose ring's port they have asked
  brGot  : List (Nat × Nat)    -- and those whose ring's port has granted them
  performed : Bool
  tokenDue : Bool              -- its completion token has not left
  endStep : Bool               -- cancelled: ends after the work it is in (R132)
  eosSent : Bool
  count  : Nat                 -- MXMM: tiles to compute
  loading : Bool               -- MXMM: the B load is under way
  endSeq : Nat                 -- the order in which commands have ended (R107)
  endRound : Nat               -- the round in which it performed (R291)
  jc     : Option Nat          -- an armed command's join cell (R275)
  logged  : Bool               -- replay answers it from the round log (R109)
  deriving DecidableEq, Repr

/-- A reply-table word (R39). -/
abbrev ReplyWord := BitVec 32

/-- A multi-cycle firing under way (R169): what lands at its completion. -/
structure Inflight where
  left   : Nat                       -- cycles of the tile until completion
  plane  : Plane
  slot   : Nat
  regs   : List (Nat × Mask × Oct W × Tag)   -- register, lanes written, values, new tag
  pred   : Option (Fin 8 × PuOp × Mask × Mask)  -- predicate, mode, lanes updated, values
  outs   : List (Nat × Tok)          -- output, token
  flags  : BitVec 20
  raiser : Bool                      -- a flag raiser of R166
  stamps : Oct (BitVec 16)           -- ISSUED of each stream at the firing (R159)
  fires  : W
  round  : Nat
  deriving DecidableEq, Repr

/-- Why an element stopped, and the tag its record carries (R306). -/
structure StopInfo where
  cause : Nat
  slot  : Nat
  plane : Plane
  tag   : Nat
  deriving DecidableEq, Repr

/-- A vector register file of the working plane, its predicates, JORD and FFLAGS. -/
structure WRegs where
  v : Hex VReg
  p : Oct Mask
  jord : BitVec 2
  fflags : BitVec 20
  deriving DecidableEq, Repr

/-- Plane S's own V0–V3, P0–P7, JORD and FFLAGS (R164). -/
structure SRegs where
  v : Quad VReg
  p : Oct Mask
  jord : BitVec 2
  fflags : BitVec 20
  deriving DecidableEq, Repr

def WRegs.zero : WRegs := ⟨Hex.rep VReg.zero, Oct.rep 0, 0, 0⟩
def SRegs.zero : SRegs := ⟨Quad.rep VReg.zero, Oct.rep 0, 0, 0⟩

/-- An element (R164). -/
structure Elem where
  region  : Option Nat
  index   : Nat                     -- its element record in the image
  planeA  : PlaneMem
  planeB  : PlaneMem
  onB     : Bool                    -- plane B is the active working plane
  planeS  : PlaneMem
  inS     : Bool                    -- plane S is active
  urgent  : Bool                    -- an urgent launch waits to switch it
  wr      : WRegs
  sr      : SRegs
  k       : Quad (Oct W)
  g       : Quad Counter
  streams : Oct Stream
  tport   : List Packet
  sendBuf : List Packet
  sendReady : Nat                   -- packets of sendBuf whose increment reaches the join unit in this cycle (R162)
  reply   : Quad (Oct ReplyWord)
  cmds    : Oct (Option Cmd)
  free    : List Nat                -- command entries in the order in which they were freed
  issuedOrder : List Nat            -- command entries, most recently issued first
  inflight : List Inflight
  estat   : BitVec 8
  latec   : W
  timeh   : Option W                -- captured by the last MFS of TIMEL
  fires   : W
  round   : Nat
  loss    : Hex Nat                 -- loss counts of the working plane's slots (R168)
  lossS   : Hex Nat                 -- and of plane S's
  firings : W                       -- working-plane firings since its consist was loaded, for the samples (R330)
  ended   : Bool
  stopped : Option StopInfo
  trapNow : Bool                    -- it stopped by FPTRAP in this cycle, whose firing still takes place (R215)
  skipBrk : Bool                    -- the first firing after TRESUME is not tested (R333)
  lateQ   : List (Nat × Nat)        -- counter and CTAG of lateness traps not yet taken (R148)
  ready   : Bool                    -- its idle plane holds the next consist's image (R280)
  staged  : Option PlaneMem         -- plane S staged by that image
  savedCut : Option Nat             -- the cut it has saved in
  heldMarks : List (Nat × Nat)      -- (output, channel) MARKs that have not entered their branch (R290)
  cutStopped : Bool                 -- stopped at its save by a cut with stop
  sinceSave : W                     -- working-plane firings since its save in the open cut (R293)
  doneFire : Bool                   -- it has fired in this cycle
  deriving DecidableEq, Repr

/-! ## Channels -/

/-- A channel record in force at a consumer input (R40). -/
structure Branch where
  prod   : Nat                      -- producer element
  out    : Nat                      -- its output
  back   : Bool
  stampS : Option Nat               -- STAMPS when stamped
  imp    : Nat                      -- IMPS
  accept : Mask
  divert : Option Nat
  gateway : Bool
  deriving DecidableEq, Repr

/-- An input channel instance; its key is ((element × 2) + VC) × 8 + channel. -/
structure Port where
  branch : Option Branch
  replyFed : Bool
  nodeFed : Option Nat              -- tile × 4 + node of the streaming node that feeds it
  farFrom : Option Nat              -- the gang member in another package that feeds it (R278)
  queue  : List Tok
  ring   : Option (Nat × Nat)       -- region and ring index of its spill ring (R120)
  spilled : List Nat                -- the rounds of the tokens in its spill ring, oldest first
  win    : Nat                      -- window count (R156)
  known  : Nat                      -- the window count as the producer knows it
  markSeen : Bool                   -- its MARK of the open cut has been consumed
  recording : Bool                  -- R291
  ccMove : Nat
  ccEmpty : Nat
  ccFull : Nat
  dequeued : Bool                   -- a token left it in this cycle
  deriving DecidableEq, Repr

/-- A token on its way (R155). -/
structure Flight where
  port : Nat
  tok  : Tok
  left : Nat                        -- cycles of the consumer's spine
  due  : Int                        -- and not before `clock` comes to this (links)
  ack  : Option (Nat × Nat × BitVec 16)   -- a reply: the operation (element, stream, ordinal) its arrival performs
  src  : Nat := 0                   -- tokens of one source stay in order: 0 the producer of a branch, or `replySrc`
  tile : Nat := 0                   -- the tile it has left (R346)
  deriving DecidableEq, Repr

/-- A freed slot on its way back to the sender (R155). -/
structure Credit where
  port : Nat
  left : Nat
  due  : Int
  deriving DecidableEq, Repr

/-- A task packet in the network (R161). -/
structure PktFlight where
  dest : Nat
  pkt  : Packet
  left : Nat
  src  : Nat
  due  : Int := 0                   -- and not before `clock` comes to this (links)
  deriving DecidableEq, Repr

/-! ## The tile -/

inductive BankRole where | unused | scratch | cache
  deriving DecidableEq, Repr

/-- A bank as the tile map places it (R76), and who owns it (R85). -/
structure Bank where
  role  : BankRole
  node  : Nat
  rsize : Nat
  rbase : Nat
  run   : Option Nat                -- the walk that owned it last
  clean : Bool                      -- that owner completed normally
  token : Bool                      -- the present consist holds its token
  deriving DecidableEq, Repr

inductive NodeMode where | off | random | streaming | ordered
  deriving DecidableEq, Repr

/-- A memory node (R86 to R89). -/
structure MNode where
  mode    : NodeMode
  owner   : Nat
  reply   : Nat
  tag     : Tag
  base    : W
  count   : Nat × Nat × Nat
  stride1 : W
  stride2 : W
  started : Bool
  done    : Bool                    -- EOS sent
  pos     : Nat × Nat × Nat         -- i0, i1, i2 of the next block to deliver
  buf     : List Tok
  held    : Option Nat              -- resume tag of a translation fault
  markDue : Bool                    -- its MARK of the open cut has not left
  stopCut : Bool                    -- stopped after its MARK
  broken  : Bool                    -- stopped by a scratchpad address it cannot read
  busy    : List (Nat × Nat)        -- ordered-update: word keys in flight and cycles left
  deriving DecidableEq, Repr

def MNode.off : MNode :=
  ⟨.off, 0, 0, .fp32, 0, (0, 0, 0), 0, 0, false, false, (0, 0, 0), [], none, false, false, false, []⟩

/-- A TLB entry (R65): a translation as the leaf gave it. -/
structure TlbEnt where
  asid  : Nat
  vpn   : Nat                       -- VA[47:16]; VA[47:29] for a 512 MiB page
  big   : Bool
  leaf  : BitVec 64
  use   : Nat                       -- for replacement
  deriving DecidableEq, Repr

/-- A watch (R163). -/
structure Watch where
  line   : Nat
  mask   : W
  label  : Nat
  region : Nat
  deriving DecidableEq, Repr

/-- A deferred full-empty lane (R68, R97). -/
structure Deferred where
  op   : Nat
  lane : Nat
  pa   : Nat
  seq  : Nat
  deriving DecidableEq, Repr

/-- One update that a round buffer holds: a byte stored, or a REDC update of a word (R114, R298). -/
inductive RndUp where
  | byte (off : Nat) (b : Byte)
  | add (off : Nat) (f : RedArith) (ftz : Bool) (x : W)
  deriving DecidableEq, Repr

/-- A line of a region's round buffer (R298): key by PA, per half. -/
structure RndLine where
  pa     : Nat
  region : Nat
  round  : Nat
  ups    : List RndUp               -- in the order in which they were made
  deriving DecidableEq, Repr

/-- A tile. -/
structure Tile where
  region : Option Nat
  banks  : Hex Bank
  save   : Nat × Nat                -- START and SIZE of the reserved areas (R76)
  log    : Nat × Nat
  undo   : Nat × Nat
  nodes  : Quad MNode
  tlb    : List TlbEnt
  walks  : Nat
  watches : List Watch
  deferred : List Deferred
  rnd    : List RndLine
  tokens : Nat                      -- power-token pool (R344)
  hint   : Hint
  acc    : Nat                      -- clock phase, in units of 1/1,700 tick
  cycle  : Bool                     -- a cycle of its spine ends with this tick
  switching : Nat                   -- cycles left of a spine switch (R346)
  nextSpine : Option Nat
  engine : Nat × Nat                -- bytes its copy engine has moved in this cycle, read and written (R111)
  started : Bool                    -- its start token has arrived (R285)
  startDue : Option Nat
  passed : Bool                     -- the completion token has passed it (R282)
  deriving DecidableEq, Repr

def Bank.none : Bank := ⟨.unused, 0, 0, 0, .none, false, false⟩

/-- A tile after reset. Tick 0 is a refill, so its pool holds the reset grant (R344, R345; log entry 6). -/
def Tile.reset : Tile :=
  { region := none, banks := Hex.rep Bank.none, save := (0, 0), log := (0, 0), undo := (0, 0)
    nodes := Quad.rep MNode.off, tlb := [], walks := 0, watches := [], deferred := [], rnd := []
    tokens := 32768, hint := .normal, acc := 0, cycle := false, switching := 0, nextSpine := none
    engine := (0, 0), started := false, startDue := none, passed := false }

/-- A matrix island and its tender (R121): the power pool, the sequence numbers and the side bands of the two. -/
structure Island where
  pool   : Nat
  iseq   : BitVec 16
  tseq   : BitVec 16
  iband  : List (BitVec 16 × BitVec 8)
  tband  : List (BitVec 16 × BitVec 8)
  deriving DecidableEq, Repr

def Island.reset : Island := ⟨64, 0, 0, [], []⟩

/-- A line held in a fabric cache bank (R80): its bytes lie in the bank. -/
structure FcLine where
  off    : Nat                      -- data-area offset of the line
  pa     : Nat                      -- its address when it was filled
  dirty  : Bool
  mask   : List Nat                 -- offsets of the bytes stored since its last write-back, rising
  round  : Option Nat               -- the open round that dirtied it (R82)
  writers : List Nat                -- element × 8 + stream of the stores it holds
  use    : Nat
  deriving DecidableEq, Repr

/-- A visitor line (R58). -/
structure VLine where
  bytes  : List Byte                -- 64
  dirty  : List Nat                 -- offsets written here
  filled : BitVec 64
  writers : List Nat
  use    : Nat
  deriving DecidableEq, Repr

/-! ## Memory operations, walks and arbiters -/

/-- Where one lane of a memory operation stands. -/
inductive LaneSt where
  | off                             -- does not participate
  | wait                            -- behind the gates
  | xlate                           -- on its way to the TLB slice
  | walking (k : Nat)
  | held (tag : Nat)                -- translation fault under STALL or VOID
  | port (pa : Nat) (leaf : BitVec 64)      -- queued at the L2 slice port of its home, or of a visitor slice
  | node (key : Nat)                -- queued at a memory-node port for this byte of tile memory
  | granted (pa : Nat) (leaf : BitVec 64)   -- may perform
  | deferred (pa : Nat) (leaf : BitVec 64)
  | returned (left : Nat)           -- returned by a full deferral table (R68)
  | full                            -- waits for a full round buffer, log, undo area or cache set (R301, R82)
  | done
  | abandoned
  deriving DecidableEq, Repr

/-- A memory operation of a stream that has not performed (R92). -/
structure MemOp where
  instr  : Instr
  elem   : Nat
  plane  : Plane
  slot   : Nat
  stream : Nat
  ord    : BitVec 16
  scope  : Scope
  skipBefore : Option (BitVec 64)   -- visitor lines filled earlier are skipped (R255, R259)
  gates  : List Gate
  a      : Oct W
  d      : Oct W
  d2     : Oct W                    -- ACAS's new value
  part   : Mask
  ftz    : Bool
  reply  : Option Nat               -- reply entry
  tag    : Tag
  lanes  : Oct LaneSt
  vals   : Oct W
  poison : Option Nat               -- the poisoned address read, if any
  gone   : Mask                     -- abandoned lanes (R91)
  logged : Mask                     -- lanes satisfied from the log
  fires  : W
  round  : Nat
  firedIn : Nat                     -- the element's ROUND at the firing (R308)
  asked  : List (Nat × Nat)         -- ports its beats have asked at, with the tick of the first request there (R141)
  gated  : Bool                     -- the gates have opened
  performed : Bool                  -- every lane has performed; a reply may still wait
  left   : Nat                      -- cycles of latency left (R93)
  due    : Int                      -- and not before `clock` comes to this (links)
  seq    : Nat                      -- fire order
  isWatch : Bool                    -- WATCH or UNWATCH: no operation of a stream
  watchPu : Option (Pu × Mask)
  srv     : Option Nat              -- the tile that has served its lowest lane (R93, R95)
  extra   : Nat                     -- ns its way back takes beyond the mesh (another package)
  far     : Option (Nat × Nat)      -- the farthest of the lanes served: hops, and ns of links on the way back (R93)
  back    : Option (Nat × Int)      -- the acknowledgement is on its way: cycles left, and a value of `clock` (R93, R175)
  owed    : Bool                    -- its placeholder has found no room in the round log yet (R300, R301)
  deriving DecidableEq, Repr

/-- Why a translation is made (R72's ACCESS). -/
inductive Access where
  | load | store | atomic | engRead | engWrite | fetch | feLoad | feStore | node
  deriving DecidableEq, Repr

/-- Who waits for a page walk. -/
inductive Waiter where
  | lane (op lane : Nat)
  | cmd (id : Nat)
  | node (tile node : Nat)
  | shunter (walk : Nat)
  | scales (region : Nat)           -- the shunter's read of a scale list (R194)
  deriving DecidableEq, Repr

inductive XReason where | notvalid | perm | malformed | rsvbits | fekind
  deriving DecidableEq, Repr

/-- A request at a TLB slice (R65, R72): who asks, for what access, at which address, as which element of which region. -/
structure Req where
  who    : Waiter
  acc    : Access
  va     : Nat
  elid   : W
  region : Option Nat
  deriving DecidableEq, Repr

/-- A page walk (R63), or the requests held by a translation fault (R73). Once it has faulted, `va`, `acc`, `elid` and
`region` are those of the first request that failed, which its record names. -/
structure PWalk where
  die    : Nat
  tile   : Nat                      -- owning TLB slice
  asid   : Nat
  va     : Nat
  acc    : Access
  waiters : List Req
  fault  : Option (XReason × Nat × Nat)   -- reason, level, tag
  recorded : Bool                   -- its record is in the queue
  elid   : W
  region : Option Nat
  deriving DecidableEq, Repr

/-- The beats of an engine's runs: of the bytes read, of the index array, of the bytes written. -/
inductive BeatKind where | source | index | write
  deriving DecidableEq, Repr

/-- What a transfer at an arbiter moves. -/
inductive XWhat where
  | lane (op lane : Nat)
  | read (cmd : Nat)                          -- a read at the read port of a tender, or at the port of a ring
  | beat (cmd : Nat) (kind : BeatKind) (piece : Nat)
  | branch (cmd block i : Nat)                -- a block of a tender, into the ring of one of its branches
  deriving DecidableEq, Repr

/-- A pending transfer of an arbiter (R140, R141). -/
structure Xfer where
  what   : XWhat
  region : Option Nat
  needid : Option W
  mark   : W
  n      : Nat
  late   : Bool
  age    : Nat
  inPort : Nat
  deriving DecidableEq, Repr

/-- A beacon-cache entry (R138). -/
structure BeaconEnt where
  needid : W
  got    : Bool
  value  : W
  rLong  : BitVec 24
  rShort : BitVec 24
  use    : Nat
  deriving DecidableEq, Repr

/-- An arbiter. -/
structure Arb where
  cache  : List BeaconEnt
  xfers  : List Xfer
  moved  : Nat                      -- beats it has moved in this cycle of its tile, or in this tick
  deriving DecidableEq, Repr

def Arb.empty : Arb := ⟨[], [], 0⟩

/-- A beacon, or a subscription, on its way (R139). -/
structure BeaconFlight where
  arb    : Nat
  needid : W
  value  : W
  rLong  : BitVec 24
  rShort : BitVec 24
  due    : Nat
  subscribe : Bool
  deriving DecidableEq, Repr

/-! ## Regions, cuts and walks -/

/-- A ring (R83). -/
structure Ring where
  tile : Nat
  bank : Nat
  base : Nat
  size : Nat
  head : W
  tail : W
  hpos : Nat
  spill : Option Nat                -- the input it spills for
  maker : Option Nat                -- the element whose command last took to moving TAIL
  popper : Option Nat               -- and HEAD
  deriving DecidableEq, Repr

/-- A join cell (R162). -/
structure JoinCell where
  val   : W
  arm   : Option Nat                -- label
  newSum : W                        -- sum of the updates of the new round (R293)
  oldArm : Option (Option Nat)      -- the arm of the old round, once the new round has changed it
  deriving DecidableEq, Repr

/-- An arm or an update on its way to the join unit. -/
structure JoinMsg where
  cell  : Nat
  arm   : Option Nat
  delta : W
  isUpdate : Bool
  round : Nat
  deriving DecidableEq, Repr

/-- A recorded operation of a cut (R292, R297 type 3). -/
structure OpRec where
  word   : BitVec 32
  fires  : W
  lanes  : Mask
  reply  : Nat
  aLanes : Oct W
  dLanes : Oct W
  status : W
  progress : W
  entry  : Option Nat
  plane  : Plane
  stream : Nat
  ord    : BitVec 16
  cmd    : Option Cmd              -- the command itself, where the record was not read from an image
  op     : Option MemOp
  deriving DecidableEq, Repr

/-- What an element's save record holds (R290, R296). -/
structure ElemSave where
  wr      : WRegs
  k       : Quad (Oct W)
  g       : Quad W
  streams : Oct Stream
  estat   : BitVec 8
  ended   : Bool
  stopped : Bool
  toks    : List (Nat × Tok)
  pkts    : List Packet
  ops     : List OpRec
  deriving DecidableEq, Repr

/-- A completed cut, the region's restore point (R296, R303). -/
structure Snapshot where
  round  : Nat
  time   : BitVec 64
  elems  : SMap ElemSave
  nodes  : SMap ((Nat × Nat × Nat) × Bool)
  rings  : List Ring
  joins  : SMap JoinCell
  slpos  : Nat
  seqs   : SMap (BitVec 16 × BitVec 16)
  armed  : SMap Cmd                 -- armed commands that had not finished
  deriving DecidableEq, Repr

/-- Who waits for a cut to complete. -/
inductive CutFor where
  | walk (w : Nat) | preempt (die : Nat) | dump (die : Nat) | halt
  deriving DecidableEq, Repr

/-- A cut in progress (R288 to R294). -/
structure Cut where
  start  : Nat
  stop   : Bool
  waits  : List CutFor
  elems  : SMap ElemSave
  nodes  : SMap ((Nat × Nat × Nat) × Bool)
  rings  : List Ring
  time   : BitVec 64
  slpos  : Nat
  seqs   : SMap (BitVec 16 × BitVec 16)   -- side-band uses that lie before it, by island (R195)
  armed  : SMap Cmd
  timedOut : Bool
  full   : Bool                     -- a save area could not hold a record (R294)
  deriving DecidableEq, Repr

/-- An undo record (R299). -/
structure Undo where
  key    : Nat                      -- tile-memory key of the line's first byte
  fc     : Option (Nat × Nat)       -- FC: line key in `fc`, and FCTAG
  mask   : List Nat                 -- FC: the stored bytes of a line that was dirty
  writers : List Nat                -- and who had stored them
  round  : Nat
  bytes  : List Byte
  poison : Nat                      -- poison bits of its two rows
  pos    : Nat                      -- index of the record in the UNDO area
  deriving DecidableEq, Repr

/-- A round-log record (R300). -/
structure LogRec where
  elem   : Nat
  kind   : Nat
  stream : Nat
  round  : Nat
  lanes  : Mask
  ord    : BitVec 16
  opc    : Nat
  tag    : Tag
  vals   : Oct W
  pos    : Nat                      -- index of the record in the LOG area
  deriving DecidableEq, Repr

/-- How far a region is (R280 to R285). -/
inductive Phase where
  | reserved                        -- a gang reservation
  | loading                         -- image being fetched and planes written
  | ready                           -- every plane ready, waiting for the previous consist
  | swapping                        -- RECON released
  | banks                           -- tables set, bank tokens passing
  | starting                        -- start tokens going out
  | running
  | completing                      -- the completion token passes the tiles
  | complete
  deriving DecidableEq, Repr

/-- The consist's fields of its CONSIST record (R273) and image that the region runs with. -/
structure Consist where
  flags  : Nat
  edges  : Nat
  place  : Nat
  image  : Nat
  scount : Nat
  dbase  : Nat                      -- virtual address
  arbw   : W
  slist  : Nat
  gang   : W
  gwoff  : Nat
  deriving DecidableEq, Repr

/-- A parsed image (R37 to R40), as the shunter staged it. -/
structure ImageRec where
  width  : Nat
  height : Nat
  bytes  : List Byte
  map    : List Byte                -- the tile map
  deriving DecidableEq, Repr

/-- A region. -/
structure Region where
  walk   : Nat
  die    : Nat
  trow   : Nat
  tcol   : Nat
  w      : Nat
  h      : Nat
  asid   : Nat
  run    : W
  cons   : Consist
  image  : Option ImageRec
  next   : Option (Consist × ImageRec)    -- prefetched for this region
  phase  : Phase
  rings  : List Ring
  routes : SMap (Nat × Nat)
  joins  : SMap JoinCell
  joinQ  : List JoinMsg
  joinIn : List JoinMsg             -- those that reach the join unit in this cycle (R162)
  events : BitVec 256
  round  : Nat
  cut    : Option Cut
  cutAsked : Option (Nat × Bool × List CutFor)   -- tick it starts at, stop, waiters
  lastCut : Nat                     -- tick at which the previous cut completed, or the start
  snap   : Option Snapshot
  undo   : List Undo
  log    : List LogRec
  replay : List LogRec              -- the log being replayed (R304)
  arms   : List (Nat × Cmd × Nat)   -- commands armed since the last cut: id, as armed, round
  half   : Bool                     -- which save half holds the last completed cut
  slpos  : Nat
  slHeld : Option Nat               -- the tag of a translation fault that holds its scale list (R73, R194)
  halted : Bool
  voidAsked : List (Nat × W × W × Option Nat)  -- causes of a void asked for: INFO0, INFO1, fault tag
  voidTag : Option Nat              -- rolled back, waiting for FRESUME (R73)
  t0     : Nat                      -- tick of the start instant, or from which it can be
  t0At   : Int                      -- and not before `clock` comes to this (R279)
  lastMove : Nat                    -- tick of the last firing, token or operation (R319)
  dlRaised : Bool
  startTime : BitVec 64             -- time base at its start token (R259)
  gangId : Option Nat
  member : Nat
  peers  : List (Nat × Nat)         -- gang members in other packages, and their packages
  gates  : List Nat                 -- packages to which a gateway of its gang leads (R341)
  done   : Nat                      -- consists completed before this one
  wheel  : List Nat                 -- wheel entries owned (R144)
  deriving DecidableEq, Repr

/-- What a walk is doing (R274). -/
inductive WPhase where
  | fetch                           -- at a record
  | placing                         -- waits for a rectangle
  | gang (members : List Nat)       -- reserving
  | loading (region : Nat)
  | prevDone (region : Nat)         -- waits for the previous consist
  | startWait (region : Nat)
  | waiting (polled : Nat) (ready : Bool)
  | cutting
  | ending
  | writing                         -- completion record
  | suspended                       -- pre-empted
  | finished
  deriving DecidableEq, Repr

/-- A walk (R270, R274). -/
structure Walk where
  die    : Nat
  prio   : Nat
  lsn    : Nat × Nat × Nat × Nat
  desc   : Nat
  asid   : Nat
  run    : W
  result : Nat
  pc     : Nat
  stack  : List Nat
  phase  : WPhase
  region : Option Nat
  prev   : Option Nat
  gang   : List Nat                 -- regions of the gang being placed
  consists : Nat
  trail  : Nat
  abandon : Nat
  state  : Nat                      -- 0 running, 1 done, 2 aborted, 3 fetch fault
  cause  : Nat
  reason : Nat
  slot   : Nat
  elem   : Nat
  unit   : Nat
  use    : Nat
  seq    : Nat
  record : List Byte                -- the record being acted on
  gates  : List Byte                -- a gang's gateway list as validated (R278)
  held   : Option Nat
  blocked : Bool                    -- a gang that gave up its reservations and waits for a release (R279)
  deriving DecidableEq, Repr

/-- A launch queued (R270). -/
structure Launch where
  lsn  : Nat × Nat × Nat × Nat
  prio : Nat
  desc : Nat
  deriving DecidableEq, Repr

/-! ## The die -/

/-- A trap record that waits to be written (R308): its 64 bytes but for the tag, and the element it stops. -/
structure TrapRec where
  bytes : List Byte
  tag   : Nat
  deriving DecidableEq, Repr

/-- A page move (R71). -/
structure Move where
  asid  : Nat
  vpn   : Nat
  frame : Nat
  leaf  : Nat                       -- where its leaf entry lies
  deriving DecidableEq, Repr

structure Sketch where
  ctl   : W
  seed  : W                         -- in force
  seedNew : W                       -- written, takes effect with CLR
  total : BitVec 64
  counts : SMap W
  deriving DecidableEq, Repr

/-- The stall walker's walk under way (R336). -/
structure SWalk where
  elem  : Nat
  chain : List Nat
  hops  : Nat
  deriving DecidableEq, Repr

/-- A die's registers (R53 and the chapters that add to it). -/
structure Die where
  vways   : BitVec 2
  visBusy : Bool
  visNew  : BitVec 2
  atbase  : BitVec 64
  sdva    : BitVec 64
  sdctl   : W
  sdWait  : List (Nat × Nat)        -- operation lanes translated by an entry the shootdown removed
  fqbase  : BitVec 64
  fqctl   : W
  fqhead  : W
  fqtail  : W
  migEn   : Bool
  migquota : W
  migUsed : List (Nat × Nat × Nat)  -- near frames used by the migrator: frame, asid, vpn
  migHand : Nat                     -- the near frame at which the migrator's clock sweep stands (R70)
  transit : List Move
  feretry : W
  launchQ : List Launch
  baddesc : Bool
  ovf     : BitVec 4
  launched : W                      -- launches accepted since reset
  lurg    : W
  rampctl : W
  psave   : BitVec 64
  pctlOp  : BitVec 2
  pctlBusy : Bool
  pctlFail : Bool
  prun    : W
  cutcfg  : W
  tqbase  : BitVec 64
  tqctl   : W
  tqhead  : W
  tqtail  : W
  trapQ   : List TrapRec            -- records that wait, in order
  xlateQ  : List Nat                -- faulted walks whose record waits, in order
  dbgrun  : W
  dbgOp   : BitVec 2
  dbgBusy : Bool
  dbgAct  : W                       -- the run that the operation under way halts
  sbpa    : Oct (BitVec 64)
  sbpb    : Oct (BitVec 64)
  dwpa    : Quad (BitVec 64)
  dwpc    : Quad W
  trbase  : BitVec 64
  trctl   : W
  trhead  : W
  trtail  : W
  trdrop  : W
  swctl   : W
  swelid  : W
  swalk   : Option SWalk
  ccsel   : W
  sk0     : Sketch
  sk1     : Sketch
  ptgrant : SMap Nat                -- unlisted: 32,768
  islgrant : SMap Nat               -- unlisted: 64
  spine   : Oct (Nat × Option Nat)  -- MHz, and the frequency being changed to
  tclk    : SMap Nat                -- spine of a tile; unlisted: 0
  uvctl   : Quad W
  uvstat  : Quad (BitVec 64)
  uvTrip  : Quad (Option Int)        -- the time of the last return to nominal (R358)
  clAuto  : Bool
  clMin   : Nat
  clWays  : Nat
  tbGm    : Bool
  coresGated : Bool
  shunterGated : Bool
  idleSince : Int                   -- value of `clock` since which the shunter has had no walk, launch or region (R350)
  coreIrq : Bool                    -- an interrupt to the die's control cores is raised
  accFault : Quad (Option Nat)      -- the RISC-V access fault raised on each core, and its address (R52)
  deriving DecidableEq, Repr

def Sketch.reset : Sketch := ⟨0, 0, 0, 0, []⟩

/-- A die after module reset, as R53, R57 to R73, R269, R295, R307, R314, R329 to R338, R344 to R351 give it. -/
def Die.reset : Die :=
  { vways := 0, visBusy := false, visNew := 0, atbase := 0, sdva := 0, sdctl := 0, sdWait := [], fqbase := 0, fqctl := 0
    fqhead := 0, fqtail := 0, migEn := false, migquota := 0, migUsed := [], migHand := 0, transit := []
    feretry := 0, launchQ := [], baddesc := false, ovf := 0, launched := 0, lurg := 0, rampctl := 4096
    psave := 0, pctlOp := 0, pctlBusy := false, pctlFail := false, prun := 0, cutcfg := 0x00100040
    tqbase := 0, tqctl := 0, tqhead := 0, tqtail := 0, trapQ := [], xlateQ := [], dbgrun := 0, dbgOp := 0
    dbgBusy := false, dbgAct := 0, sbpa := Oct.rep 0, sbpb := Oct.rep 0, dwpa := Quad.rep 0, dwpc := Quad.rep 0
    trbase := 0, trctl := 0, trhead := 0, trtail := 0, trdrop := 0, swctl := 15, swelid := 0, swalk := none
    ccsel := 0, sk0 := Sketch.reset, sk1 := Sketch.reset, ptgrant := [], islgrant := []
    spine := Oct.rep (1700, none), tclk := [], uvctl := Quad.rep 0x00100000, uvstat := Quad.rep 0, uvTrip := Quad.rep none
    clAuto := true, clMin := 16, clWays := 16, tbGm := false, coresGated := false, shunterGated := false, idleSince := 0
    coreIrq := false, accFault := Quad.rep none }

/-! ## The package -/

/-- A Ronilawin port (R353). -/
structure RlPort where
  up    : Bool
  train : Bool
  halt  : Bool                      -- the peer reports a halt
  reports : Bool                    -- this end reports a halt
  peer  : Nat
  retry : Nat
  sent  : List (Nat × Nat × List Byte × Bool)   -- flits of LINKX sent: member, destination, bytes, poison
  deriving DecidableEq, Repr

/-- The boot (R355). -/
structure Boot where
  phase   : Nat
  failure : Nat
  meas    : Oct (BitVec 384)
  deriving DecidableEq, Repr

/-- The SPDM responder (R356). -/
structure Spdm where
  stage    : Nat                    -- 0 none, 1 version, 2 capabilities, 3 algorithms
  vca      : List Byte              -- the exchanges of the negotiation
  certs    : List Byte              -- those of digests and certificates since a challenge
  record   : List Byte              -- those of measurements since a signature
  response : List Byte              -- the last response
  deriving DecidableEq, Repr

/-- Steps that a tick brings and that stand in the agenda under a name of their own: Lean's compiled code numbers at
most 244 constructors that carry data, so it builds no term of Instr beyond them. Each is the constructor of Instr of the
same name, and `Due.run` is the meaning that exec gives it. -/
inductive Due where
  | imagePrefetch (w : Nat)
  | planeReady (e : Nat)
  | consistComplete (rg : Nat)
  | completionTokenPass (rg tile : Nat)
  | planeSwap (e : Nat)
  | bankTokenGrant (rg tile bank : Nat)
  | startTokenArrive (rg tile : Nat)
  | planeSSwitch (e : Nat)
  | roundTimerExpiry (rg : Nat)
  | cutStart (rg : Nat)
  | elementSave (e : Nat)
  | cutComplete (rg : Nat)
  | cutTimeout (rg : Nat)
  | roundVoid (rg : Nat)
  | deadlockEvent (rg : Nat)
  | stallTrapRecord (die : Nat)
  | undervoltStep (die q events : Nat)
  | restore (die : Nat)
  | stallWalkHop (die : Nat)
  | spineChangeDone (die n : Nat)
  | tileClockSwitchDone (die tile : Nat)
  | cacheWayGate (die : Nat)
  | cacheWayEnable (die : Nat)
  | clusterWake (die : Nat)
  | shunterGate (die : Nat)
  | shunterWake (die : Nat)
  | linkDown (port : Nat)
  deriving DecidableEq, Repr

/-- What the machine does next. -/
inductive Todo where
  | fire (elem : Nat) (plane : Plane) (slot : Nat)
  | act (i : Instr)
  | due (d : Due)
  | ports                              -- every port with a request decides its beats
  deriving DecidableEq, Repr

/-- The slot that is firing. -/
structure Firing where
  elem  : Nat
  plane : Plane
  slot  : Nat
  deriving DecidableEq, Repr

structure State where
  tick    : Nat
  timeOff : Int                     -- slewed correction of the time base, in ns
  slew    : Int                     -- correction still to be slewed in (R351), in ns
  synced  : Bool
  firstConsist : Bool               -- the first consist of any run has started (R351)
  dies    : Oct Die
  usable  : Oct (BitVec 256)        -- TILEMAP0–7
  tiles   : SMap Tile
  elems   : SMap Elem
  ports   : SMap Port
  outs    : SMap (List Nat)         -- ((element × 2) + VC) × 8 + output: the ports it feeds
  islands : SMap Island
  regions : SMap Region
  walks   : SMap Walk
  mem     : Mem                     -- physical memory
  spm     : Mem                     -- tile memory
  feEmpty : List Nat                -- word addresses whose presence bit is empty, rising
  poisonLines : List Nat            -- poisoned lines of physical memory, rising
  poisonRows : List Nat             -- poisoned rows of tile memory, rising
  fc      : SMap FcLine             -- ((tile × 16 + bank) × 1,024) + line of the bank
  visitor : SMap VLine              -- die × 2^46 + line address
  flights : SMap Flight
  credits : SMap Credit
  packets : SMap PktFlight
  ops     : SMap MemOp
  armed   : SMap Cmd                -- armed commands, from key 2^20 on
  armedOf : SMap Nat                -- the region of an armed command
  pwalks  : SMap PWalk
  arbs    : SMap Arb
  beacons : SMap BeaconFlight
  subs    : SMap (List Nat)         -- NEEDID: the subscribed arbiters
  unitRun : SMap (List Nat)         -- accepted commands of a copy engine, tender or island, in order (R111)
  unitWait : SMap (List Nat)        -- commands that wait at its entry
  links   : SMap RlPort
  boot    : Boot
  spdm    : Spdm
  agenda  : List Todo
  brkRuns : List W                  -- runs with breakpoints enabled (R320, R329)
  inputs  : List Instr
  cur     : Firing
  lastRead : BitVec 64              -- what the last control-core read returned
  freeCtr : Nat
  nextId  : Nat
  nextTag : Nat                     -- resume tags given so far (R72, R308)
  deriving DecidableEq, Repr

/-- Why the machine stops with a fault. -/
inductive Fault where
  /-- Raised by step when a slot that was chosen to fire does not decode; no validated plane holds such a slot (R34).
  Safe. -/
  | noInstruction (slot : BitVec 64)
  deriving DecidableEq, Repr

/-- Why the machine gives an instruction no meaning. -/
inductive Refusal where
  /-- Raised by the arms of exec that have no meaning yet. Safe. -/
  | notModelled (mnemonic : String)
  deriving DecidableEq, Repr

def Counter.zero : Counter := ⟨0, 0, 0, 0⟩

/-- The loss counts of a plane's slots (R168). -/
def Elem.losses (x : Elem) : Plane → Hex Nat | .work => x.loss | .s => x.lossS
def Elem.setLosses (x : Elem) (pl : Plane) (l : Hex Nat) : Elem :=
  match pl with | .work => { x with loss := l } | .s => { x with lossS := l }

/-- An element that no consist has been loaded onto. -/
def Elem.reset : Elem :=
  { region := none, index := 0, planeA := PlaneMem.empty, planeB := PlaneMem.empty, onB := false
    planeS := PlaneMem.empty, inS := false, urgent := false, wr := WRegs.zero, sr := SRegs.zero
    k := Quad.rep (Oct.rep 0), g := Quad.rep Counter.zero, streams := Oct.rep Stream.reset, tport := []
    sendBuf := [], reply := Quad.rep (Oct.rep 0), cmds := Oct.rep none, free := [0, 1, 2, 3, 4, 5, 6, 7]
    issuedOrder := [], inflight := [], estat := 0, latec := 0, timeh := none, fires := 0, round := 0
    loss := Hex.rep 0, lossS := Hex.rep 0, firings := 0, sendReady := 0, ended := false, stopped := none, trapNow := false, skipBrk := false, lateQ := [], ready := false
    staged := none, savedCut := none, heldMarks := [], cutStopped := false, sinceSave := 0, doneFire := false }

def Port.empty : Port :=
  { branch := none, replyFed := false, nodeFed := none, farFrom := none, queue := [], ring := none, spilled := []
    win := 0, known := 0, markSeen := false, recording := false, ccMove := 0, ccEmpty := 0, ccFull := 0
    dequeued := false }

def RlPort.down : RlPort := ⟨false, false, false, false, 0, 0, []⟩

/-- The machine right after module reset. -/
def State.reset : State :=
  { tick := 0, timeOff := 0, slew := 0, synced := false, firstConsist := false
    dies := Oct.rep Die.reset, usable := Oct.rep (BitVec.allOnes 256)
    tiles := [], elems := [], ports := [], outs := [], islands := [], regions := [], walks := []
    mem := [], spm := [], feEmpty := [], poisonLines := [], poisonRows := [], fc := [], visitor := []
    flights := [], credits := [], packets := [], ops := [], armed := [], armedOf := [], pwalks := []
    arbs := [], beacons := [], subs := [], unitRun := [], unitWait := [], links := []
    boot := ⟨0, 0, Oct.rep 0⟩, spdm := ⟨0, [], [], [], []⟩, agenda := [], brkRuns := [], inputs := [], cur := ⟨0, .work, 0⟩
    lastRead := 0, freeCtr := 0, nextId := 1, nextTag := 1 }

end Sys2Proof.Machine
end

