-- ==== Sys2Proof/Machine/Ops.lean ====
section
/-! DEFINITION. The named operations over memory and the parts of the state, positions and distances, the time base,
free values, trace records, and taking a stall trap (R306 to R309). -/
namespace Sys2Proof.Machine

/-! ## Bytes -/

/-- The byte a memory holds at a key: 0 where nothing is listed (log entry 4). -/
def Mem.get : Mem → Nat → Byte
  | [], _ => 0
  | (k, v) :: m, a => if k = a then v else if a < k then 0 else Mem.get m a

/-- Write one byte, keeping the canonical form: writing 0 removes the entry. -/
def Mem.put : Mem → Nat → Byte → Mem
  | [], a, b => if b = 0 then [] else [(a, b)]
  | (k, v) :: m, a, b =>
    if a < k then (if b = 0 then (k, v) :: m else (a, b) :: (k, v) :: m)
    else if a = k then (if b = 0 then m else (a, b) :: m)
    else (k, v) :: Mem.put m a b

/-- The canonical form: keys strictly rising and no entry equal to 0. -/
def Mem.wf (m : Mem) : Bool := SMap.wf m && m.all (fun c => decide (c.2 ≠ 0))

def Mem.read (m : Mem) (a : Nat) : Nat → List Byte
  | 0 => []
  | n + 1 => m.get a :: m.read (a + 1) n

def Mem.write (m : Mem) (a : Nat) : List Byte → Mem
  | [] => m
  | b :: bs => Mem.write (m.put a b) (a + 1) bs

/-- Little-endian (R1). -/
def leNat : List Byte → Nat
  | [] => 0
  | b :: bs => b.toNat + 256 * leNat bs

/-- The n bytes of a number, the lowest first (R1). -/
def leBytes : Nat → Nat → List Byte
  | 0, _ => []
  | n + 1, x => BitVec.ofNat 8 x :: leBytes n (x / 256)

def Mem.word (m : Mem) (a : Nat) : W := BitVec.ofNat 32 (leNat (m.read a 4))
def Mem.dword (m : Mem) (a : Nat) : BitVec 64 := BitVec.ofNat 64 (leNat (m.read a 8))
def Mem.putWord (m : Mem) (a : Nat) (x : W) : Mem := m.write a (leBytes 4 x.toNat)

/-- Sorted lists of numbers, for presence bits and poison marks. -/
def insertNat (x : Nat) : List Nat → List Nat
  | [] => [x]
  | y :: ys => if x < y then x :: y :: ys else if x = y then y :: ys else y :: insertNat x ys
def removeNat (x : Nat) (l : List Nat) : List Nat := l.filter (· ≠ x)

/-! ## Parts of the state -/

def State.elem (s : State) (e : Nat) : Elem := s.elems.getD e Elem.reset
def State.setElem (s : State) (e : Nat) (x : Elem) : State := { s with elems := s.elems.put e x }
def State.tile (s : State) (t : Nat) : Tile := s.tiles.getD t Tile.reset
def State.setTile (s : State) (t : Nat) (x : Tile) : State := { s with tiles := s.tiles.put t x }
def State.port (s : State) (p : Nat) : Port := s.ports.getD p Port.empty
def State.setPort (s : State) (p : Nat) (x : Port) : State := { s with ports := s.ports.put p x }
def State.die (s : State) (d : Nat) : Die := s.dies.get d
def State.setDie (s : State) (d : Nat) (x : Die) : State := { s with dies := s.dies.set d x }
def State.island (s : State) (i : Nat) : Island := s.islands.getD i Island.reset
def State.setIsland (s : State) (i : Nat) (x : Island) : State := { s with islands := s.islands.put i x }
def State.region? (s : State) (r : Nat) : Option Region := s.regions.get? r
def State.setRegion (s : State) (r : Nat) (x : Region) : State := { s with regions := s.regions.put r x }
def State.arb (s : State) (a : Nat) : Arb := s.arbs.getD a Arb.empty
def State.setArb (s : State) (a : Nat) (x : Arb) : State := { s with arbs := s.arbs.put a x }
def State.link (s : State) (p : Nat) : RlPort := s.links.getD p RlPort.down
def State.outPorts (s : State) (k : Nat) : List Nat := s.outs.getD k []

def State.modElem (s : State) (e : Nat) (f : Elem → Elem) : State := s.setElem e (f (s.elem e))
def State.modTile (s : State) (t : Nat) (f : Tile → Tile) : State := s.setTile t (f (s.tile t))
def State.modPort (s : State) (p : Nat) (f : Port → Port) : State := s.setPort p (f (s.port p))
def State.modDie (s : State) (d : Nat) (f : Die → Die) : State := s.setDie d (f (s.die d))
def State.modIsland (s : State) (i : Nat) (f : Island → Island) : State := s.setIsland i (f (s.island i))
def State.modRegion (s : State) (r : Nat) (f : Region → Region) : State :=
  match s.region? r with
  | some x => s.setRegion r (f x)
  | none => s
def State.modWalk (s : State) (w : Nat) (f : Walk → Walk) : State :=
  match s.walks.get? w with
  | some x => { s with walks := s.walks.put w (f x) }
  | none => s
def State.modOp (s : State) (k : Nat) (f : MemOp → MemOp) : State :=
  match s.ops.get? k with
  | some x => { s with ops := s.ops.put k (f x) }
  | none => s

/-- Run f over the members of a list in order. -/
def forAll {α : Type} (f : State → α → State) : List α → State → State
  | [], s => s
  | x :: xs, s => forAll f xs (f s x)

/-! ## Positions (R7, R11, R13) -/

def tileOf (e : Nat) : Nat := e / 32
def dieOf (e : Nat) : Nat := e / 8192
def dieOfTile (t : Nat) : Nat := t / 256
def elemAt (t er ec : Nat) : Nat := t * 32 + er * 8 + ec
def portKey (e vc ch : Nat) : Nat := (e * 2 + vc) * 8 + ch
def portElem (p : Nat) : Nat := p / 16
def portVc (p : Nat) : Nat := p / 8 % 2
def portCh (p : Nat) : Nat := p % 8

/-- The key of a branch to a gang member in another package (R278), the i-th gateway of its gang: its tokens leave the
package, which shows nothing of what becomes of them. See log entry 28 (DEDUCED). -/
def farKey (member i vc : Nat) : Nat := 2 ^ 40 + member * 2 ^ 20 + i * 16 + vc * 8
def isFar (p : Nat) : Bool := decide (2 ^ 40 ≤ p)
def farMember (p : Nat) : Nat := (p - 2 ^ 40) / 2 ^ 20
/-- The element of the package with which a channel stands: its consumer, or the producer of a branch that leaves. -/
def portHome (p : Nat × Port) : Nat :=
  match p.2.branch with
  | some b => if isFar p.1 then b.prod else portElem p.1
  | none => portElem p.1

def vcOf : Plane → Nat | .work => 0 | .s => 1
def spmKey (t bank off : Nat) : Nat := (t * 16 + bank) * 65536 + off
def absDiff (a b : Nat) : Nat := (a - b) + (b - a)

/-- Package row and column of a tile (R13). -/
def tileRow (t : Nat) : Nat := dieOfTile t / 4 * 16 + t % 256 / 16
def tileCol (t : Nat) : Nat := dieOfTile t % 4 * 16 + t % 16
def linksCrossed (t u : Nat) : Nat :=
  absDiff (dieOfTile t / 4) (dieOfTile u / 4) + absDiff (dieOfTile t % 4) (dieOfTile u % 4)
/-- Tile hop count h (R13). -/
def hops (t u : Nat) : Nat :=
  absDiff (tileRow t) (tileRow u) + absDiff (tileCol t) (tileCol u) - linksCrossed t u

/-- ELID of an element (R165). -/
def elidOf (e : Nat) : W :=
  BitVec.ofNat 32 (Config.pkg * 2 ^ 26 + dieOf e * 2 ^ 23 + tileOf e % 256 / 16 * 2 ^ 19 +
    tileOf e % 16 * 2 ^ 15 + e % 32 / 8 * 2 ^ 12 + e % 8 * 2 ^ 9)
/-- The element an ELID names. -/
def elemOfElid (w : W) : Nat :=
  let n := w.toNat
  elemAt (fld n 23 3 * 256 + fld n 19 4 * 16 + fld n 15 4) (fld n 12 3) (fld n 9 3)

/-! ## Time and free values -/

/-- The time base (R351): nanoseconds of the ticks counted, and the slewed correction. -/
def State.now (s : State) : BitVec 64 := BitVec.ofInt 64 (Int.ofNat (s.tick * 10 / 17) + s.timeOff)

/-- The time base exactly, in units of a seventeenth of a nanosecond: a tick is ten of them. -/
def State.clock (s : State) : Int := 10 * (s.tick : Int) + 17 * s.timeOff
/-- What `clock` comes to n nanoseconds from now (R4). -/
def State.afterNs (s : State) (n : Nat) : Int := s.clock + 17 * n
/-- What `clock` comes to when a way over n nanoseconds of links that begins now is behind it; a way without links has
nothing to wait for. -/
def State.acrossNs (s : State) (n : Nat) : Int := if n = 0 then s.clock - 17 else s.afterNs n
/-- The links of a way were behind it before the cycle that ends now began: its cycles count from then on, so that the
time of the links is added to them (R13, R93, R95). -/
def State.across (s : State) (due : Int) : Bool := decide (due + 10 ≤ s.clock)

/-- Draw a free value (log entry 2). -/
def State.draw (s : State) : BitVec 64 × State :=
  (Config.freeValue s.freeCtr, { s with freeCtr := s.freeCtr + 1 })

/-- A fresh name for a thing of the state. -/
def State.fresh (s : State) : Nat × State := (s.nextId, { s with nextId := s.nextId + 1 })

/-- The resume tags that records name and that still stand: faulted walks, stopped elements, rolled-back regions. -/
def State.liveTags (s : State) : List Nat :=
  s.pwalks.filterMap (fun p => p.2.fault.map fun f => f.2.2) ++
  s.elems.filterMap (fun e => e.2.stopped.map fun x => x.tag) ++ s.regions.filterMap fun r => r.2.voidTag

/-- A fresh resume tag: 30 bits, so that TRESUME and FRESUME can name it (R72, R308), and none that still stands. -/
def State.freshTag (s : State) : Nat × State :=
  let live := s.liveTags
  let n := ((List.range (live.length + 1)).find? fun i => !live.contains ((s.nextTag + i) % 2 ^ 30)).getD 0
  ((s.nextTag + n) % 2 ^ 30, { s with nextTag := s.nextTag + n + 1 })

def State.spineOf (s : State) (t : Nat) : Nat := (s.die (dieOfTile t)).tclk.getD t 0
def State.sameSpine (s : State) (t u : Nat) : Bool :=
  dieOfTile t == dieOfTile u && s.spineOf t == s.spineOf u || (s.spineOf t == 0 && s.spineOf u == 0)

/-- Nanoseconds on the die-to-die links between two tiles (R13). -/
def linkNs (t u : Nat) : Nat := 12 * linksCrossed t u

/-- Cycles from a sending cycle to the arrival (R155), after the time of the links on the way (R278). All of them are
cycles of the consumer's spine. See log entry 87 (DESIGN CHOICE). A freed slot takes the same delay, from the cycle of its
dequeue. See log entry 88 (DEDUCED). -/
def State.delay (s : State) (t u : Nat) : Nat := 1 + hops t u + (if s.sameSpine t u then 0 else 2)

/-! ## Regions -/

def Region.tiles (r : Region) : List Nat :=
  (List.range (r.w * r.h)).map fun k => r.die * 256 + (r.trow + k / r.w) * 16 + r.tcol + k % r.w

/-- The tile of a region tile coordinate. -/
def Region.tileAt (r : Region) (row col : Nat) : Option Nat :=
  if row < r.h ∧ col < r.w then some (r.die * 256 + (r.trow + row) * 16 + r.tcol + col) else none

/-- The element at a region element coordinate. -/
def Region.elemAt (r : Region) (col row : Nat) : Option Nat :=
  (r.tileAt (row / 4) (col / 8)).map fun t => Machine.elemAt t (row % 4) (col % 8)

def State.regionOf (s : State) (e : Nat) : Option (Nat × Region) :=
  match (s.elem e).region with
  | some r => (s.region? r).map fun x => (r, x)
  | none => none

/-- The elements of a region that carry an element record, in key order. -/
def State.regionElems (s : State) (r : Nat) : List Nat :=
  (s.elems.filter fun x => x.2.region == some r).map (·.1)

/-- Something fired, moved or performed in the region (R319). -/
def State.stir (s : State) (r : Option Nat) : State :=
  match r with
  | some r => s.modRegion r fun x => { x with lastMove := s.tick }
  | none => s
/-- An element of the region has fired: the deadlock event can be raised again (R319). -/
def State.stirFired (s : State) (r : Option Nat) : State :=
  match r with
  | some r => s.modRegion r fun x => { x with lastMove := s.tick, dlRaised := false }
  | none => s

/-! ## Sections of an image (R37) -/

def bytesAt (l : List Byte) (off n : Nat) : List Byte := (l.drop off).take n
def natAt (l : List Byte) (off n : Nat) : Nat := leNat (bytesAt l off n)
/-- OFFSET and COUNT of a section. -/
def sectionAt (img : List Byte) (i : Nat) : Nat × Nat := (natAt img (0x10 + 8 * i) 4, natAt img (0x14 + 8 * i) 4)

/-- NODE and LOOPREG of a firing (R328). -/
def nodeOf (img : List Byte) (index : Nat) (pl : Plane) (slot : Nat) : Option (Nat × Nat) :=
  let sec := sectionAt img 6
  ((List.range sec.2).find? fun i =>
      natAt img (sec.1 + 8 * i) 2 == index &&
      natAt img (sec.1 + 8 * i + 2) 1 == (match pl with | .work => 0 | .s => 16) + slot).map
    fun i => (natAt img (sec.1 + 8 * i + 4) 4, natAt img (sec.1 + 8 * i + 3) 1)

def State.nodeNumber (s : State) (e : Nat) (pl : Plane) (slot : Nat) : Nat :=
  match s.regionOf e with
  | some (_, r) =>
    (match r.image with
     | some img => ((nodeOf img.bytes (s.elem e).index pl slot).map (·.1)).getD 0xFFFFFFFF
     | none => 0xFFFFFFFF)
  | none => 0xFFFFFFFF

/-! ## Trace records and sketches (R330, R331, R338) -/

/-- Write a trace record of 32 bytes, or drop it. See log entry 72 (DEDUCED). -/
def State.trace (s : State) (d ty sub : Nat) (elid : W) (node : Nat) (fires : W) (info0 info1 : W) : State :=
  let x := s.die d
  let c := x.trctl.toNat
  if c / 2 ^ 31 = 0 ∨ fld c (15 + ty) 1 = 0 then s
  else
    let log := max 8 (min 24 (fld c 0 5))
    if (x.trtail - x.trhead).toNat = 2 ^ log then
      s.setDie d { x with trdrop := if x.trdrop = BitVec.allOnes 32 then x.trdrop else x.trdrop + 1 }
    else
      let rec' := leBytes 1 ty ++ leBytes 1 sub ++ leBytes 2 0 ++ leBytes 4 elid.toNat ++ leBytes 4 node ++
        leBytes 4 fires.toNat ++ leBytes 8 s.now.toNat ++ leBytes 4 info0.toNat ++ leBytes 4 info1.toNat
      let a := fld x.trbase.toNat 5 47 * 32 + (x.trtail.toNat % 2 ^ log) * 32
      { s.setDie d { x with trtail := x.trtail + 1 } with mem := s.mem.write a rec' }

def rotl32 (x : W) (n : Nat) : W := x.rotateLeft n
def sketchMul : Nat → W
  | 0 => 0x6C8E9CF5 | 1 => 0xB5297A4D | 2 => 0x68E31DA5 | _ => 0x1B56C4E9
def sketchHash (seed k : W) (i : Nat) : Nat := (((k ^^^ rotl32 seed (8 * i)) * sketchMul i).toNat) / 2 ^ 22

def Sketch.count (sk : Sketch) (event : Nat) (node run : W) : Sketch :=
  let c := sk.ctl.toNat
  let key := if fld c 4 2 = 0 then node else run
  if c / 2 ^ 31 = 0 ∨ fld c 0 3 ≠ event ∨ 1 < fld c 4 2 ∨ key = BitVec.allOnes 32 then sk
  else
    let bump (m : SMap W) (i : Nat) : SMap W :=
      let a := i * 1024 + sketchHash sk.seed key i
      let v := m.getD a 0
      m.put a (if v = BitVec.allOnes 32 then v else v + 1)
    { sk with total := sk.total + 1, counts := bump (bump (bump (bump sk.counts 0) 1) 2) 3 }

/-- Count one event in both sketches of a die (R338). -/
def State.sketch (s : State) (d event : Nat) (node run : W) : State :=
  s.modDie d fun x => { x with sk0 := x.sk0.count event node run, sk1 := x.sk1.count event node run }

/-! ## Traps (R306 to R309) -/

/-- The 64 bytes of a trap record. -/
def State.trapBytes (s : State) (e : Option Nat) (region : Option Nat) (cause slot flags : Nat) (fires : W)
    (round node tag : Nat) (info0 info1 : W) : List Byte :=
  let r := match region with | some r => s.region? r | none => none
  leBytes 4 (match e with | some e => (elidOf e).toNat | none => 0) ++ leBytes 1 cause ++ leBytes 1 slot ++
  leBytes 2 flags ++ leBytes 4 (match r with | some r => r.run.toNat | none => 0) ++
  leBytes 4 (match r with | some r => r.done | none => 0) ++ leBytes 4 fires.toNat ++ leBytes 4 round ++
  leBytes 4 node ++ leBytes 4 tag ++ leBytes 4 info0.toNat ++ leBytes 4 info1.toNat ++
  leBytes 8 s.now.toNat ++
  ((match e with
    | some e => (s.elem e).streams.toList.map fun (x : Stream) => x.issued.toNat
    | none => [0, 0, 0, 0, 0, 0, 0, 0]).flatMap (leBytes 2))

/-- Queue a trap record on a die, in order (R307): STALL_TRAP_RECORD writes it. -/
def State.queueTrap (s : State) (d : Nat) (bytes : List Byte) (tag : Nat) (node run : W) : State :=
  (s.modDie d fun x => { x with trapQ := x.trapQ ++ [⟨bytes, tag⟩] }).sketch d 4 node run

def slotByte (pl : Plane) (slot : Nat) : Nat := (match pl with | .work => 0 | .s => 16) + slot

def State.runOf (s : State) (e : Nat) : W :=
  match s.regionOf e with | some (_, r) => r.run | none => 0

/-- TAKING A STALL TRAP (R306): the record is queued with a tag of its own, and the element stops. `slot` is 0x1F
when the record names no firing; `fires` and `round` are those of the firing it names. See log entry 16 (DEDUCED). -/
def State.stall (s : State) (e cause : Nat) (pl : Plane) (slot : Nat) (effect : Bool) (fires : W) (round : Nat)
    (info0 info1 : W) : State :=
  let (tag, s) := s.freshTag
  let node := if slot < 16 then s.nodeNumber e pl slot else 0xFFFFFFFF
  let b := s.trapBytes (some e) (s.elem e).region cause (if slot < 16 then slotByte pl slot else 0x1F)
    (if effect then 2 else 0) fires round node tag info0 info1
  let s := s.queueTrap (dieOf e) b tag (BitVec.ofNat 32 node) (s.runOf e)
  s.modElem e fun x => { x with stopped := some ⟨cause, slot, pl, tag⟩ }

/-- An event record: nothing stops. -/
def State.eventRecord (s : State) (e : Nat) (cause : Nat) (pl : Plane) (slot : Nat) (fires : W) (round : Nat)
    (info0 info1 : W) : State :=
  let (tag, s) := s.freshTag
  let node := if slot < 16 then s.nodeNumber e pl slot else 0xFFFFFFFF
  let b := s.trapBytes (some e) (s.elem e).region cause (if slot < 16 then slotByte pl slot else 0x1F) 4 fires round
    node tag info0 info1
  s.queueTrap (dieOf e) b tag (BitVec.ofNat 32 node) (s.runOf e)

/-- Resuming after a stall trap (R310, R333): the firing that took no effect is evaluated again. -/
def State.unstall (s : State) (e : Nat) : State :=
  s.modElem e fun x => { x with stopped := none, trapNow := false, skipBrk := true }

/-- A void trap record (R306): one for each cause of the void. -/
def State.voidRecord (s : State) (region : Nat) (cause : Nat) (info0 info1 : W) : State :=
  let (tag, s) := s.freshTag
  let d := match s.region? region with | some r => r.die | none => 0
  let run := match s.region? region with | some r => r.run | none => 0
  let round := match s.region? region with | some r => r.round | none => 0
  s.queueTrap d (s.trapBytes none (some region) cause 0x1F 1 0 round 0xFFFFFFFF tag info0 info1) tag
    (BitVec.allOnes 32) run

/-- The regions of a region's gang in this package: the region alone when it is in none. -/
def State.gangRegions (s : State) (r : Nat) : List Nat :=
  match s.region? r with
  | some x =>
    (match x.gangId with
     | some g => (s.regions.filter fun y => y.2.gangId == some g).map (·.1)
     | none => [r])
  | none => []

/-- The nodes of the region stop behind their MARK, and elements that have saved in the cut stop where they are. -/
def State.stopSaved (s : State) (c : Cut) : State :=
  let s := forAll (fun s (x : Nat × ElemSave) => s.modElem x.1 fun y => { y with cutStopped := true }) c.elems s
  forAll (fun s (n : Nat × (Nat × Nat × Nat) × Bool) => s.modTile (n.1 / 4) fun t =>
    { t with nodes := t.nodes.set (n.1 % 4) { t.nodes.get (n.1 % 4) with stopCut := true } }) c.nodes s

/-- Ask for a cut of one region (R288): at most 16 ticks pass until it starts. It is merged with one in progress and
its STOP kept: what has saved before the request stops at once. DESIGN CHOICE, log entry 51. See log entry 52 (DEDUCED). -/
def State.askCutOne (s : State) (r : Nat) (stop : Bool) (who : List CutFor) : State :=
  match s.region? r with
  | none => s
  | some x =>
    let later (s : State) : State :=
      match x.cutAsked with
      | some (t, st, w) => s.setRegion r { x with cutAsked := some (t, st || stop, w ++ who) }
      | none =>
        let (v, s) := s.draw
        s.setRegion r { x with cutAsked := some (s.tick + 1 + v.toNat % 16, stop, who) }
    match x.cut with
    | some c =>
      let s := s.setRegion r { x with cut := some { c with stop := c.stop || stop, waits := c.waits ++ who } }
      if stop then s.stopSaved c else s
    | none => later s

/-- Ask for a cut; a cut of a gang member is a cut of the whole gang. -/
def State.askCut (s : State) (r : Nat) (stop : Bool) (who : List CutFor) : State :=
  forAll (fun s q => s.askCutOne q stop (if q = r then who else [])) (s.gangRegions r) s

end Sys2Proof.Machine
end

