-- ==== Sys2Proof/Machine/Operands.lean ====
section
/-! DEFINITION. What a firing reads: the slot and its trigger, the active lanes (R23), the operand forms of R29, R32,
R154, R216 and R217, and the sending of tokens (R155, R156, R159). -/
namespace Sys2Proof.Machine

/-! ## Masks and lanes -/

def bit (m : Mask) (l : Nat) : Bool := m.getLsbD l
def maskOf (f : Nat → Bool) : Mask :=
  BitVec.ofNat 8 ((if f 0 then 1 else 0) + (if f 1 then 2 else 0) + (if f 2 then 4 else 0) +
    (if f 3 then 8 else 0) + (if f 4 then 16 else 0) + (if f 5 then 32 else 0) + (if f 6 then 64 else 0) +
    (if f 7 then 128 else 0))
def lanesOf (m : Mask) : List Nat := lanes.filter (bit m)
def lowest (m : Mask) : Option Nat := lanes.find? (bit m)
def popcount (m : Mask) : Nat := (lanesOf m).length

/-- The lanes of `m` from x, the others 0. -/
def keep (m : Mask) (x : Oct W) : Oct W := Oct.of fun l => if bit m l then x.get l else 0
/-- The lanes of `m` from x, the others from old. -/
def merge (m : Mask) (x old : Oct W) : Oct W := Oct.of fun l => if bit m l then x.get l else old.get l

/-! ## Registers and predicates of a plane (R30, R164) -/

def Elem.vreg (x : Elem) : Plane → Nat → VReg
  | .work, n => x.wr.v.get n
  | .s, n => x.sr.v.get n

def Elem.setVreg (x : Elem) : Plane → Nat → VReg → Elem
  | .work, n, r => { x with wr := { x.wr with v := x.wr.v.set n r } }
  | .s, n, r => { x with sr := { x.sr with v := x.sr.v.set n r } }

/-- Write lanes of a register; the whole register takes the tag (R154). -/
def Elem.writeV (x : Elem) (pl : Plane) (n : Nat) (m : Mask) (val : Oct W) (tag : Tag) : Elem :=
  x.setVreg pl n ⟨merge m val (x.vreg pl n).lane, tag⟩

def Elem.preds (x : Elem) : Plane → Oct Mask
  | .work => x.wr.p
  | .s => x.sr.p

def Elem.setPreds (x : Elem) : Plane → Oct Mask → Elem
  | .work, p => { x with wr := { x.wr with p := p } }
  | .s, p => { x with sr := { x.sr with p := p } }

def Elem.jord (x : Elem) : Plane → BitVec 2
  | .work => x.wr.jord
  | .s => x.sr.jord

def Elem.setJord (x : Elem) : Plane → BitVec 2 → Elem
  | .work, k => { x with wr := { x.wr with jord := k } }
  | .s, k => { x with sr := { x.sr with jord := k } }

def Elem.fflags (x : Elem) : Plane → BitVec 20
  | .work => x.wr.fflags
  | .s => x.sr.fflags

def Elem.setFflags (x : Elem) : Plane → BitVec 20 → Elem
  | .work, f => { x with wr := { x.wr with fflags := f } }
  | .s, f => { x with sr := { x.sr with fflags := f } }

/-- The predicate update of R28 in the lanes of `m`. -/
def updPred (op : PuOp) (m r old : Mask) : Mask :=
  let v := match op with | .set => r | .and => old &&& r | .or => old ||| r
  (v &&& m) ||| (old &&& ~~~m)

/-- The active working plane, or plane S. -/
def Elem.plane (x : Elem) : Plane → PlaneMem
  | .work => if x.onB then x.planeB else x.planeA
  | .s => x.planeS

/-! ## A firing's context -/

structure Ctx where
  s    : State
  e    : Nat
  pl   : Plane
  slot : Nat
  el   : Elem
  trig : Trig
  act  : Mask
  k    : Nat
  g    : Nat
  ftz  : Bool

/-- The lanes in which the guard holds (R23). -/
def guardLanes (t : Trig) (p : Oct Mask) : Mask :=
  maskOf fun l => (List.range 8).all fun i => !(t.pmask.getLsbD i) || (bit (p.get i) l == t.pval.getLsbD i)

def guardOk (t : Trig) (act : Mask) : Bool := if t.all then act == 0xFF else act != 0

/-- Group size (R216). -/
def groupSize : Nat → Nat | 0 => 1 | 1 => 2 | _ => 4

/-- The context of the slot that is firing. -/
def Ctx.of (s : State) : Ctx :=
  let f := s.cur
  let el := s.elem f.elem
  let t := Trig.ofWord (slotTrig ((el.plane f.plane).slots.get f.slot))
  let k := (el.jord f.plane).toNat
  { s := s, e := f.elem, pl := f.plane, slot := f.slot, el := el, trig := t
    act := guardLanes t (el.preds f.plane), k := k, g := groupSize k, ftz := el.estat.getLsbD 0 }

def Ctx.queue (c : Ctx) (ch : Nat) : List Tok := (c.s.port (portKey c.e (vcOf c.pl) ch)).queue
def Ctx.head (c : Ctx) (ch : Nat) : Option Tok := (c.queue ch).head?
def Ctx.region (c : Ctx) : Option Nat := c.el.region

/-- A single operand (R154): its lanes and tag. -/
def Ctx.src (c : Ctx) : Src → Oct W × Tag
  | .v n => ((c.el.vreg c.pl n).lane, (c.el.vreg c.pl n).tag)
  | .i n => (match c.head n with | some t => (t.data, t.tag) | none => (Oct.rep 0, .int32))
  | .t0 => (Oct.rep (match c.el.tport with | p :: _ => p.w0 | [] => 0), .int32)
  | .t1 => (Oct.rep (match c.el.tport with | p :: _ => p.w1 | [] => 0), .int32)
  | .zr => (Oct.rep 0, .int32)
  | .ln => (⟨0, 1, 2, 3, 4, 5, 6, 7⟩, .int32)
  | .k n => (c.el.k.get n, .raw)

def Ctx.val (c : Ctx) (x : Src) : Oct W := (c.src x).1
def Ctx.tag (c : Ctx) (x : Src) : Tag := (c.src x).2

/-- Coefficient j of a group operand (R216, R217): a register group, g tokens, or a constant jet. At order 2 the
fourth coefficient reads as +0. -/
def Ctx.coef (c : Ctx) (x : Src) (j : Nat) : Oct W × Tag :=
  if j = 0 then c.src x
  else if c.k < j then (Oct.rep 0, (c.src x).2)
  else
    match x with
    | .v n => ((c.el.vreg c.pl (n + j)).lane, (c.el.vreg c.pl (n + j)).tag)
    | .i n => (match (c.queue n)[j]? with | some t => (t.data, t.tag) | none => (Oct.rep 0, .int32))
    | _ => (Oct.rep 0, (c.src x).2)

/-- The lane-valid mask a channel operand brings; all lanes for any other operand. -/
def Ctx.lvm (c : Ctx) : Src → Mask
  | .i n => (match c.head n with | some t => t.lvm | none => 0)
  | _ => 0xFF

/-- Active lanes valid in every channel source (R154, R92, R209). -/
def Ctx.valid (c : Ctx) (xs : List Src) : Mask := xs.foldl (fun m x => m &&& c.lvm x) c.act

/-- The value in the lowest active lane, valid for a channel source (R166, R171). -/
def Ctx.scalar (c : Ctx) (x : Src) : Option W := (lowest (c.valid [x])).map fun l => (c.val x).get l

/-- The round a firing's tokens, replies and packets belong to (R290). -/
def Elem.tokRound (x : Elem) : Nat := if x.savedCut.isSome then x.round + 1 else x.round

/-! ## What a firing does -/

/-- What a firing writes, sends and raises, and its latency. -/
structure Res where
  regs   : List (Nat × Mask × Oct W × Tag) := []
  pred   : Option (Fin 8 × PuOp × Mask × Mask) := none
  outs   : List (Nat × Tok) := []
  flags  : BitVec 20 := 0
  raiser : Bool := false
  lat    : Nat := 1

/-- A token a firing sends (R154): DATA unless said otherwise. -/
def Ctx.tok (c : Ctx) (kind : Kind) (tag : Tag) (lvm : Mask) (data : Oct W) : Tok :=
  { kind := kind, tag := tag, lvm := lvm, data := data, stamp := 0, round := c.el.tokRound }

/-- A result to a destination (R154). -/
def Ctx.put (c : Ctx) (d : Dst) (val : Oct W) (tag : Tag) (lvm : Mask) : Res :=
  match d with
  | .v n => { regs := [(n, c.act, val, tag)] }
  | .o n => { outs := [(n, c.tok .data tag lvm (keep c.act val))] }
  | .zr => {}

/-- A jet to a group destination (R216, R217): at order 2 the fourth register is written as 0 and has c0's tag. -/
def Ctx.putGroup (c : Ctx) (d : Dst) (cs : Nat → Oct W × Tag) (lvm : Mask) : Res :=
  let co (j : Nat) : Oct W × Tag := if c.k < j then (Oct.rep 0, (cs 0).2) else cs j
  match d with
  | .v n => { regs := (List.range c.g).map fun j => (n + j, c.act, (co j).1, (co j).2) }
  | .o n => { outs := (List.range c.g).map fun j => (n, c.tok .data (co j).2 lvm (keep c.act (co j).1)) }
  | .zr => {}

def Res.withPu (r : Res) (c : Ctx) (pu : Option Pu) (m : Mask) : Res :=
  { r with pred := pu.map fun u => (u.p, u.op, c.act, m) }
def Res.late (r : Res) (n : Nat) : Res := { r with lat := n }
def Res.raise (r : Res) (f : BitVec 20) : Res := { r with flags := f, raiser := true }

/-- r(l) of R28 for a result judged bit by bit. -/
def nonzero (v : Oct W) : Mask := maskOf fun l => v.get l != 0

/-! ## Sending (R155, R156, R159) -/

/-- Capacity of a branch (R156). -/
def State.capacity (s : State) (p : Nat) : Nat :=
  match (s.port p).ring with
  | some (r, i) =>
    (match s.region? r with
     | some x => (match x.rings[i]? with | some g => 4 + g.size / 64 | none => 4)
     | none => 4)
  | none => 4

/-- An output has space for n tokens as its element knows it (R155, R156). -/
def State.space (s : State) (e vc o n : Nat) : Bool :=
  let ps := s.outPorts (portKey e vc o)
  !ps.isEmpty && ps.all fun p => decide ((s.port p).known + n ≤ s.capacity p)

/-- Take n free slots on every branch of an output. -/
def State.takeSpace (s : State) (e vc o n : Nat) : State :=
  forAll (fun s p => s.modPort p fun x => { x with win := x.win + n, known := x.known + n })
    (s.outPorts (portKey e vc o)) s

/-- Put a token on its way to an input, `extra` ns beyond the mesh; `ack` names the operation that its arrival performs
(R249). It does not pass a token of the same source to that input (R18, R95, R107). -/
def State.launchFor (s : State) (src extra fromTile p : Nat) (t : Tok) (ack : Option (Nat × Nat × BitVec 16)) : State :=
  let (k, s) := s.fresh
  let t' := tileOf (portElem p)
  let ahead := s.flights.filter fun f => f.2.port == p && f.2.src == src
  let left := ahead.foldl (fun n f => max n f.2.left) (s.delay fromTile t')
  let due := ahead.foldl (fun n f => max n f.2.due) (s.acrossNs (linkNs fromTile t' + extra))
  { s with flights := s.flights.put k ⟨p, t, left, due, ack, src, fromTile⟩ }

/-- Put a token of an output on its way to the input of a branch; one to another package leaves (R278). -/
def State.launch (s : State) (fromTile p : Nat) (t : Tok) : State :=
  if isFar p then s else s.launchFor 0 0 fromTile p t none

/-- The source of the tokens that reach a reply entry of an element (R95, R107), and of a streaming node (R89). -/
def replySrc (e entry : Nat) : Nat := 1 + e * 32 + entry
def nodeSrc (tile node : Nat) : Nat := 2 ^ 40 + tile * 4 + node

/-- Send a token on every branch of an output, each stamped under its own record. -/
def State.emit (s : State) (e vc o : Nat) (t : Tok) (stamps : Oct (BitVec 16)) : State :=
  forAll (fun s p =>
    let st := match (s.port p).branch with
      | some b => (match b.stampS with | some i => stamps.get i | none => 0)
      | none => 0
    s.launch (tileOf e) p (if t.kind = .cfg then t else { t with stamp := st }))
    (s.outPorts (portKey e vc o)) s

/-- A slot of an input has become free: its sender learns of it after the hop delay (R155, R95). -/
def State.credit (s : State) (p : Nat) (toTile : Nat) : State :=
  let (k, s) := s.fresh
  let t := tileOf (portElem p)
  { s with credits := s.credits.put k ⟨p, s.delay t toTile, s.acrossNs (linkNs t toTile)⟩ }

/-- The cycles in which every tile of the package has learned of a freed slot: 1 + h, and h is at most 90 (R13, R95). -/
def agingCycles : Nat := 128
/-- A slot of a reply-fed input has become free: a credit ages until every tile knows of it (R95). -/
def State.agingCredit (s : State) (p : Nat) : State :=
  let (k, s) := s.fresh
  { s with credits := s.credits.put k ⟨p, agingCycles, s.acrossNs 0⟩ }

/-- Take the head token of an input (R24): its window slot is freed, and a stamped token sets the import's STAMP
(R255). -/
def State.dequeue (s : State) (p : Nat) : State :=
  let x := s.port p
  match x.queue with
  | [] => s
  | t :: q =>
    let s := s.setPort p { x with queue := q, win := x.win - 1, dequeued := true }
    let e := portElem p
    match x.branch with
    | some b =>
      let carries : Bool := match t.kind with | .cfg => false | .mark => false | .recon => false | _ => b.stampS.isSome
      let s := if carries then s.modElem e fun y =>
            let z := y.streams.get b.imp
            { y with streams := y.streams.set b.imp { z with stamp := t.stamp, set := true } }
        else s
      s.credit p (tileOf b.prod)
    | none => s.agingCredit p

def State.dequeueN (s : State) (p : Nat) : Nat → State
  | 0 => s
  | n + 1 => (s.dequeue p).dequeueN p n

end Sys2Proof.Machine
end

