-- ==== Sys2Proof/Machine/Fire.lean ====
section
/-! DEFINITION. The firing rule (R24, R44, R167 to R169, R306, R333): whether a slot may fire, which run-time error a
firing raises instead of its effect, and the one commit every firing goes through. -/
namespace Sys2Proof.Machine

/-- The opcode of an instruction. -/
def opcOf (i : Instr) : Nat := match encode i with | some w => fld w.toNat 24 8 | none => 0x100

/-- Format M or E with a stream in S: its stream and MASK (R26). ECHK and ECAN name none (R44). -/
def streamOf (i : Instr) : Option (Nat × Mask) :=
  match encode i with
  | some w =>
    let n := w.toNat
    let c := fld n 28 4
    let o := fld n 24 8
    if (c = 0xA ∨ c = 0xB ∨ c = 0xC ∨ o = 0xE4 ∨ o = 0xE5) ∧ o ≠ 0xCA ∧ o ≠ 0xCB then
      some (fld n 21 3, BitVec.ofNat 8 (fld n 13 8))
    else none
  | none => none

/-- A class-0xC instruction that takes a command entry (R104). -/
def takesEntry (i : Instr) : Bool :=
  let o := opcOf i
  decide (0xC0 ≤ o ∧ o ≤ 0xCD ∧ o ≠ 0xCA ∧ o ≠ 0xCB)

def readsGroup (i : Instr) (ch : Nat) : Bool :=
  i.srcs.any fun x => x.2 && (match x.1 with | .i n => n.val == ch | _ => false)

/-- The kinds a head test accepts (R22); POISON satisfies it (R24). -/
def kindOk (t : Tok) (test : Nat) : Bool :=
  match t.kind with
  | .data => test == 0 || test == 3
  | .eos => test == 1 || test == 3
  | .hdr => test == 2 || test == 3
  | .poison => true
  | _ => false

/-- How many tokens a head test needs (R24, R266). -/
def Ctx.need (c : Ctx) (i : Instr) (ch : Nat) : Nat := if readsGroup i ch then c.g else 1

def Ctx.headOk (c : Ctx) (i : Instr) (h : HeadTest) : Bool :=
  if h.ch = 6 then
    match c.el.tport with
    | p :: _ => p.handler == h.test
    | [] => false
  else
    let q := c.queue h.ch
    let n := c.need i h.ch
    decide (n ≤ q.length) && (q.take n).all fun t => kindOk t h.test

def Ctx.tests (c : Ctx) : List HeadTest := c.trig.a.toList ++ c.trig.b.toList

/-- The registers an operand code reads or writes (R32, R216). -/
def Ctx.span (c : Ctx) (n : Nat) (grp : Bool) : List Nat :=
  if grp then (List.range c.g).map (n + ·) else [n]

def Ctx.usedRegs (c : Ctx) (i : Instr) : List Nat :=
  (i.srcs.flatMap fun x => match x.1 with | .v n => c.span n x.2 | _ => []) ++
  (match i.dst with
   | some (.v n, grp) => c.span n grp
   | _ => []) ++
  (match i with | .fsincos d _ _ _ _ => c.span (d.val + c.g) true | _ => [])

def Ctx.usedPreds (c : Ctx) (i : Instr) : List Nat :=
  ((List.range 8).filter fun p => c.trig.pmask.getLsbD p) ++ i.predsRead.map (·.val)

def pendingRegs (x : Elem) (pl : Plane) : List Nat :=
  x.inflight.flatMap fun f => if f.plane = pl then f.regs.map (·.1) else []
def pendingPreds (x : Elem) (pl : Plane) : List Nat :=
  x.inflight.flatMap fun f => if f.plane = pl then f.pred.toList.map (fun q => q.1.val) else []
def pendingFlags (x : Elem) (pl : Plane) : Bool := x.inflight.any fun f => f.raiser && f.plane == pl

/-- Predicates that a WATCH or UNWATCH under way will write (R175). -/
def watchPreds (s : State) (e : Nat) (pl : Plane) : List Nat :=
  s.ops.filterMap fun o =>
    if o.2.elem = e ∧ o.2.plane = pl then o.2.watchPu.map (fun u => u.1.p.val) else none
/-- MFS 2, MTS 2 and JFLAG (R166). -/
def usesFflags : Instr → Bool
  | .mfs _ n => n.val == 2
  | .mts n _ => n.val == 2
  | .jflag _ _ _ => true
  | _ => false

/-- The tokens the named output must have room for (R32). -/
def Ctx.room (c : Ctx) (i : Instr) : Nat := if i.takesGroups then c.g else 1

/-- The conditions of R167 in order: the number of the first one that fails, or 0. -/
def Ctx.firstFail (c : Ctx) (i : Instr) : Nat :=
  let vc := vcOf c.pl
  if !guardOk c.trig c.act then 1
  else if !(c.tests.all fun h => c.headOk i h) then 2
  else if !((match c.trig.outq with
       | some o => c.s.space c.e vc o (c.room i) && c.el.heldMarks.all (fun m => m.1 != o || vc != 0)
       | none => true) &&
      (match i with
       | .steer o _ _ =>
         (c.s.outPorts (portKey c.e vc (2 * o.val + 1))).isEmpty ||
           (c.s.space c.e vc (2 * o.val + 1) 1 && c.el.heldMarks.all (fun m => m.1 != 2 * o.val + 1 || vc != 0))
       | .spawn _ _ _ _ => decide (c.el.sendBuf.length + popcount c.act ≤ 8)
       | _ => true)) then 3
  else if (match c.pl with
      | .work => decide ((c.s.tile (tileOf c.e)).tokens = 0)
      | .s => false) then 4
  else if !((match streamOf i with
       | some (st, _) =>
         let x := c.el.streams.get st
         decide ((x.issued - x.perf).toNat ≠ x.limit) || x.src.isSome
       | none => true) &&
      (!takesEntry i || !c.el.free.isEmpty)) then 5
  else if (c.usedRegs i).any (fun n => (pendingRegs c.el c.pl).contains n) ||
      (c.usedPreds i).any (fun n => (pendingPreds c.el c.pl ++ watchPreds c.s c.e c.pl).contains n) ||
      (usesFflags i && pendingFlags c.el c.pl) then 6
  else 0

/-- The channel inputs a cut waits for: not back edges, not reply-fed, but those a streaming node feeds (R289). -/
def State.cutInputs (s : State) (e : Nat) : List Nat :=
  ((List.range 6).map fun ch => portKey e 0 ch).filter fun p =>
    let x := s.port p
    x.nodeFed.isSome || (match x.branch with | some b => !b.back | none => false)

def State.markAt (s : State) (p : Nat) : Bool :=
  match (s.port p).queue with
  | t :: _ => t.kind == .mark
  | [] => false

/-- A cut of its region is under way, and every marker it waits for stands at its head: it fires nothing until it
has saved (R289, R290). -/
def State.mustSave (s : State) (e : Nat) : Bool :=
  match s.regionOf e with
  | some (_, r) =>
    r.cut.isSome && (s.elem e).savedCut.isNone && (s.cutInputs e).all s.markAt
  | none => false

/-- The element chooses among the slots of this plane (R164, R172, R285, R303, R306, R313, R341, R346). -/
def State.choosing (s : State) (e : Nat) (pl : Plane) : Bool :=
  let x := s.elem e
  let t := s.tile (tileOf e)
  (x.stopped.isNone || x.trapNow) && t.switching == 0 && x.lateQ.isEmpty &&
  (match pl with
   | .work => t.started && !x.inS && !x.ended && !x.cutStopped && !s.mustSave e &&
     (match s.regionOf e with | some (_, r) => r.voidTag.isNone | none => true)
   | .s => x.inS)

/-- A jet group that R216 or R231 calls misaligned. -/
def Ctx.misaligned (c : Ctx) (i : Instr) : Bool :=
  let top := match c.pl with | .work => 16 | .s => 4
  let bad (n len : Nat) : Bool := decide (n % c.g ≠ 0 ∨ top < n + len)
  (i.srcs.any fun x => x.2 && (match x.1 with | .v n => bad n c.g | _ => false)) ||
  (match i.dst with
   | some (.v n, true) => bad n (match i with | .fsincos .. => 2 * c.g | _ => c.g)
   | _ => false)

/-- The POISON token a firing meets (R24), if any. -/
def Ctx.poison (c : Ctx) (i : Instr) : Option Tok :=
  (c.tests.flatMap fun h => if h.ch = 6 then [] else (c.queue h.ch).take (c.need i h.ch)).find?
    fun t => t.kind == .poison

/-- The lowest slot breakpoint that matches the firing (R332, R333). -/
def Ctx.breakpoint (c : Ctx) : Option Nat :=
  if c.el.skipBrk then none
  else
    let d := c.s.die (dieOf c.e)
    (List.range 8).find? fun n =>
      let a := (d.sbpa.get n).toNat
      let b := (d.sbpb.get n).toNat
      decide (fld a 63 1 = 1 ∧ fld b 32 32 = (c.s.runOf c.e).toNat) &&
      (if fld a 62 1 = 1 then decide (fld a 0 32 = c.s.nodeNumber c.e c.pl c.slot)
       else decide (fld a 32 5 = slotByte c.pl c.slot ∧ fld a 9 23 = fld (elidOf c.e).toNat 9 23)) &&
      (decide (fld a 61 1 = 0) || (c.pl == .work && decide (fld b 0 32 = c.el.fires.toNat)))

/-- Lanes that take part in an instruction of format M (R92): active and valid in every channel operand. -/
def Ctx.part (c : Ctx) (i : Instr) : Mask := c.valid (i.srcs.map (·.1))

/-- ISSUED of a stream at the cut that opened a round (R300): the last completed cut, or for the round after it the
element's save in the open cut. -/
def Region.savedIssued (r : Region) (e st round : Nat) : BitVec 16 :=
  let saves := if r.round < round then r.cut.map (·.elems) else r.snap.map (·.elems)
  match saves with
  | some m => (match m.get? e with | some x => (x.streams.get st).issued | none => 0)
  | none => 0

/-- A record of the log being replayed belongs to the round that an element is in. -/
def Region.inRound (r : Region) (saved : Bool) (x : LogRec) : Bool := decide (r.round < x.round) == saved

/-- The ordinal skipped past the plane S placeholders of the log being replayed (R304). -/
def skipOrd (l : List LogRec) (e st : Nat) : Nat → BitVec 16 → BitVec 16
  | 0, o => o
  | n + 1, o =>
    if l.any fun x => x.elem == e && x.kind == 5 && x.stream == st && x.ord == o then skipOrd l e st n (o + 1) else o

/-- ORD of an operation of the working plane fired now (R300, R304). -/
def State.ordOf (s : State) (e : Nat) (pl : Plane) (st : Nat) : BitVec 16 :=
  let x := s.elem e
  let i := (x.streams.get st).issued
  match s.regionOf e with
  | some (_, r) =>
    let o := i - r.savedIssued e st x.tokRound
    (match pl with
     | .work => let l := r.replay.filter (r.inRound x.savedCut.isSome); skipOrd l e st l.length o
     | .s => o)
  | none => i

/-- The log record an operation is satisfied from on replay (R304). -/
def State.logged (s : State) (e : Nat) (pl : Plane) (st : Nat) : Option LogRec :=
  match pl, s.regionOf e with
  | .work, some (_, r) =>
    let o := s.ordOf e pl st
    r.replay.find? fun x =>
      r.inRound (s.elem e).savedCut.isSome x && x.elem == e && x.kind != 5 && x.stream == st && x.ord == o
  | _, _ => none

/-- A firing that does not match the logged one (R304): the logged and the fired opcode and lanes. -/
def Ctx.mismatch (c : Ctx) (i : Instr) : Option (W × W) :=
  match streamOf i with
  | some (st, _) =>
    (match c.s.logged c.e c.pl st with
     | some x =>
       let m := if takesEntry i then x.lanes else c.part i
       if x.opc = opcOf i ∧ x.lanes &&& ~~~m = 0 then none
       else some (BitVec.ofNat 32 (x.opc + 256 * x.lanes.toNat), BitVec.ofNat 32 (opcOf i + 256 * m.toNat))
     | none => none)
  | none => none

/-- Instructions that ignore DQA and DQB (R176). -/
def ownDequeues : Instr → Bool
  | .isect .. => true
  | .union .. => true
  | _ => false

/-- The dequeues of the trigger word (R24): g tokens of a channel read as a group, one packet of T. -/
def Ctx.doDequeues (c : Ctx) (i : Instr) (s : State) : State :=
  if ownDequeues i then s else forAll (fun s h =>
    if !h.deq then s
    else if h.ch = 6 then s.modElem c.e fun x => { x with tport := x.tport.drop 1 }
    else s.dequeueN (portKey c.e (vcOf c.pl) h.ch) (c.need i h.ch)) c.tests s

/-- What a firing counts: its power token, FIRES, its loss count, the samples and sketches (R165, R168, R331,
R338). -/
def Ctx.account (c : Ctx) (s : State) : State :=
  let s := s.modElem c.e fun x =>
    let x := x.setLosses c.pl ((x.losses c.pl).set c.slot 0)
    { x with
      skipBrk := false
      firings := (match c.pl with | .work => x.firings + 1 | .s => x.firings)
      fires := (match c.pl with | .work => x.fires + 1 | .s => x.fires)
      sinceSave := (match c.pl with
        | .work => if x.savedCut.isSome then x.sinceSave + 1 else x.sinceSave
        | .s => x.sinceSave)
      doneFire := true }
  match c.pl with
  | .s => s.stirFired c.region
  | .work =>
    let s := s.modTile (tileOf c.e) fun t => { t with tokens := t.tokens - 1 }
    let d := dieOf c.e
    let node := c.s.nodeNumber c.e c.pl c.slot
    let s := s.sketch d 0 (BitVec.ofNat 32 node) (c.s.runOf c.e)
    let sper := min 31 (fld (c.s.die d).trctl.toNat 8 6)
    let s :=
      if sper = 0 ∨ c.el.firings.toNat % 2 ^ sper ≠ 0 then s
      else
        let loop := match c.s.regionOf c.e with
          | some (_, r) =>
            (match r.image with
             | some img => ((nodeOf img.bytes c.el.index c.pl c.slot).map (·.2)).getD 24
             | none => 24)
          | none => 24
        let v := if loop < 16 then (c.el.vreg c.pl loop).lane.get 0 else 0
        s.trace d 1 0 (elidOf c.e) node c.el.fires v (BitVec.ofNat 32 (slotByte c.pl c.slot))
    s.stirFired c.region

/-- Tokens a result takes space for: one per token sent (R156, R169). -/
def takeOuts (s : State) (e vc : Nat) (outs : List (Nat × Tok)) : State :=
  forAll (fun s x => s.takeSpace e vc x.1 1) outs s

def issuedNow (x : Elem) : Oct (BitVec 16) := x.streams.map (·.issued)

/-- Enabled FP traps among the flags of a firing (R165, R215). -/
def trapped (estat : BitVec 8) (f : BitVec 20) : Bool :=
  let ten := (estat.extractLsb' 1 5)
  ((f.extractLsb' 0 5 ||| f.extractLsb' 5 5 ||| f.extractLsb' 10 5 ||| f.extractLsb' 15 5) &&& ten) != 0

/-- Registers, predicate and flags of a completing firing (R28, R154, R169, R215). -/
def landRegs (x : Elem) (f : Inflight) : Elem :=
  let x := f.regs.foldl (fun x r => x.writeV f.plane r.1 r.2.1 r.2.2.1 r.2.2.2) x
  let x := match f.pred with
    | some (p, op, m, r) =>
      let ps := x.preds f.plane
      x.setPreds f.plane (ps.set p.val (updPred op m r (ps.get p.val)))
    | none => x
  if f.raiser then x.setFflags f.plane (x.fflags f.plane ||| f.flags) else x

/-- An earlier firing holds an output back (R169). -/
def outBusy (before : List Inflight) (pl : Plane) (o : Nat) : Bool :=
  before.any fun f => f.plane == pl && f.outs.any fun t => t.1 == o

/-- Send the tokens of a completed firing; those whose output an earlier firing holds back stay in its place. -/
def sendOuts (s : State) (e : Nat) (before : List Inflight) (f : Inflight) (after : List Inflight) : State :=
  let now := f.outs.filter fun t => !outBusy before f.plane t.1
  let later := f.outs.filter fun t => outBusy before f.plane t.1
  let rest := if later.isEmpty then [] else
    [{ f with left := 0, regs := [], pred := none, outs := later, flags := 0, raiser := false }]
  let s := s.modElem e fun x => { x with inflight := before ++ rest ++ after }
  forAll (fun s t => s.emit e (vcOf f.plane) t.1 t.2 f.stamps) now s

/-- COMPLETION of a firing: its results land and its tokens leave; an enabled flag stops the element (R169, R215). TEN is
read then, so that an MTS which changed it after the firing counts. See log entry 99 (DESIGN CHOICE). -/
def land (s : State) (e : Nat) (before : List Inflight) (f : Inflight) (after : List Inflight) : State :=
  let s := s.modElem e fun x => landRegs x f
  let s := sendOuts s e before f after
  if f.raiser && trapped (s.elem e).estat f.flags then
    (s.stall e 4 f.plane f.slot true f.fires f.round (f.flags.setWidth 32) 0).modElem e
      fun x => { x with trapNow := true }
  else s

/-- COMMIT of a firing: operands have been read; it dequeues, takes its token and its space, counts, and its result
lands now or is put in flight. -/
def Ctx.commit (c : Ctx) (i : Instr) (r : Res) : State :=
  let s := c.doDequeues i c.s
  let s := c.account s
  let s := takeOuts s c.e (vcOf c.pl) r.outs
  let f : Inflight :=
    { left := r.lat - 1, plane := c.pl, slot := c.slot, regs := r.regs, pred := r.pred, outs := r.outs
      flags := r.flags, raiser := r.raiser, stamps := issuedNow c.el, fires := c.el.fires, round := c.el.round }
  if r.lat ≤ 1 then land s c.e (s.elem c.e).inflight f []
  else s.modElem c.e fun x => { x with inflight := x.inflight ++ [f] }

/-- A JARM whose label has no route (R174): the label. -/
def Ctx.noRoute (c : Ctx) (i : Instr) : Option Nat :=
  match i, lowest c.act with
  | .jarm a _, some l =>
    let label := fld ((c.val a).get l).toNat 0 7
    (match c.s.regionOf c.e with
     | some (_, r) => if (r.routes.get? label).isSome then none else some label
     | none => some label)
  | _, _ => none

/-- A run-time error of a firing (R24, R44, R174, R304, R333): the element stops and nothing else happens. -/
def Ctx.error (c : Ctx) (i : Instr) : Option State :=
  match c.breakpoint with
  | some n =>
    let s := c.s.stall c.e 3 c.pl c.slot false c.el.fires c.el.round 0 0
    some (s.trace (dieOf c.e) 2 n (elidOf c.e) (c.s.nodeNumber c.e c.pl c.slot) c.el.fires 0 0)
  | none =>
    if i.takesGroups && c.misaligned i then
      some (c.s.stall c.e 6 c.pl c.slot false c.el.fires c.el.round 0 0)
    else
      match (match streamOf i with
        | some (st, _) => if (c.el.streams.get st).src.isSome then some st else none
        | none => none) with
      | some st => some (c.s.stall c.e 7 c.pl c.slot false c.el.fires c.el.round (BitVec.ofNat 32 st) 0)
      | none =>
        match c.poison i with
        | some t =>
          let lo := t.data.get 0
          let hi := t.data.get 1
          let unknown := lo == BitVec.allOnes 32 && hi == BitVec.allOnes 32
          some (c.s.stall c.e 12 c.pl c.slot false c.el.fires c.el.round lo
            ((if unknown then 0x80000000 else 0) ||| (hi &&& 0xFFFFF)))
        | none =>
          match c.noRoute i with
          | some l => some (c.s.stall c.e 11 c.pl c.slot false c.el.fires c.el.round (BitVec.ofNat 32 l) 0)
          | none => (c.mismatch i).map fun x => c.s.stall c.e 13 c.pl c.slot false c.el.fires c.el.round x.1 x.2

/-- A FIRING of an instruction (R167 to R169). A slot that is not eligible does not fire. `post` is what the firing
does beyond its registers, predicate, tokens and flags. -/
def fireWith (i : Instr) (s : State) (body : Ctx → Res) (post : Ctx → State → State) :
    Host.Outcome State Fault Refusal :=
  let c := Ctx.of s
  if !s.choosing c.e c.pl || c.firstFail i ≠ 0 then .next s
  else
    match c.error i with
    | some s' => .next s'
    | none => .next (post c (c.commit i (body c)))

/-- A firing whose whole effect is its result. -/
def fire (i : Instr) (s : State) (body : Ctx → Res) : Host.Outcome State Fault Refusal :=
  fireWith i s body fun _ s => s

end Sys2Proof.Machine
end

