-- ==== Sys2Proof/Machine/Int.lean ====
section
/-! DEFINITION. Element-wise integer arithmetic on lanes: the helpers of R198 and the shared firing forms of
classes 0x1 to 0x3. -/
namespace Sys2Proof.Machine

def ISz.w : ISz → Nat | .w32 => 32 | .w16 => 16 | .w8 => 8
def ISz.n : ISz → Nat | .w32 => 1 | .w16 => 2 | .w8 => 4

/-- Element i of a lane value (R198), unsigned. -/
def el (w : Nat) (x : W) (i : Nat) : Nat := fld x.toNat (w * i) w
def sx (w v : Nat) : Int := if v < 2 ^ (w - 1) then v else (v : Int) - 2 ^ w
def wrap (w : Nat) (y : Int) : Nat := (y % 2 ^ w).toNat
def satS (w : Nat) (y : Int) : Nat := wrap w (max (-(2 ^ (w - 1))) (min y (2 ^ (w - 1) - 1)))
def satU (w : Nat) (y : Int) : Nat := wrap w (max 0 (min y (2 ^ w - 1)))
def ones (w : Nat) : Nat := 2 ^ w - 1

/-- The lane value whose element i is f i, for n elements of width w. -/
def packEls (w : Nat) (f : Nat → Nat) : Nat → Nat
  | 0 => 0
  | n + 1 => packEls w f n + f n % 2 ^ w * 2 ^ (w * n)
def ofEls (z : ISz) (f : Nat → Nat) : W := BitVec.ofNat 32 (packEls (ISz.w z) f (ISz.n z))

def map1 (z : ISz) (f : Nat → Nat) (a : W) : W := ofEls z fun i => f (el (ISz.w z) a i)
def map2 (z : ISz) (f : Nat → Nat → Nat) (a b : W) : W :=
  ofEls z fun i => f (el (ISz.w z) a i) (el (ISz.w z) b i)
def map3 (z : ISz) (f : Nat → Nat → Nat → Nat) (a b d : W) : W :=
  ofEls z fun i => f (el (ISz.w z) a i) (el (ISz.w z) b i) (el (ISz.w z) d i)

/-! ## Element results (R201, R203, R204, R207) -/

def iAdd (w a b : Nat) : Nat := wrap w (a + b)
def iSub (w a b : Nat) : Nat := wrap w ((a : Int) - b)
def iAdds (w a b : Nat) : Nat := satS w (sx w a + sx w b)
def iAddus (w a b : Nat) : Nat := satU w ((a : Int) + b)
def iSubs (w a b : Nat) : Nat := satS w (sx w a - sx w b)
def iSubus (w a b : Nat) : Nat := satU w ((a : Int) - b)
def iMul (w a b : Nat) : Nat := wrap w ((a : Int) * b)
def iMulh (w a b : Nat) : Nat := wrap w (sx w a * sx w b / 2 ^ w)
def iMulhu (w a b : Nat) : Nat := a * b / 2 ^ w
def iMad (w a b d : Nat) : Nat := wrap w ((a : Int) * b + d)
def iNeg (w a : Nat) : Nat := wrap w (-(a : Int))
def iAbs (w a : Nat) : Nat := wrap w (sx w a).natAbs
/-- The most negative element divided by −1 is itself (R203): the wrapped quotient 2^(w−1). -/
def iDiv (w a b : Nat) : Nat := if b = 0 then ones w else wrap w (Int.tdiv (sx w a) (sx w b))
def iDivu (w a b : Nat) : Nat := if b = 0 then ones w else a / b

def iShl (w a c : Nat) : Nat := if w ≤ c then 0 else a * 2 ^ c % 2 ^ w
def iShr (w a c : Nat) : Nat := if w ≤ c then 0 else a / 2 ^ c
def iSar (w a c : Nat) : Nat :=
  if w ≤ c then (if sx w a < 0 then ones w else 0) else wrap w (sx w a / 2 ^ c)
def iRol (w a c : Nat) : Nat := let k := c % w; (a * 2 ^ k % 2 ^ w) + a / 2 ^ (w - k)
def iClz (w a : Nat) : Nat := if a = 0 then w else w - 1 - Nat.log2 a
def iCtz (w a : Nat) : Nat := ((List.range w).find? fun j => a / 2 ^ j % 2 == 1).getD w
def iPopc (w a : Nat) : Nat := ((List.range w).filter fun j => a / 2 ^ j % 2 == 1).length
def iBrev (w a : Nat) : Nat := (List.range w).foldl (fun r j => r + a / 2 ^ (w - 1 - j) % 2 * 2 ^ j) 0

def iFlag (w : Nat) (b : Bool) : Nat := if b then ones w else 0
def iEq (w a b : Nat) : Nat := iFlag w (a == b)
def iNe (w a b : Nat) : Nat := iFlag w (a != b)
def iLt (w a b : Nat) : Nat := iFlag w (decide (sx w a < sx w b))
def iLe (w a b : Nat) : Nat := iFlag w (decide (sx w a ≤ sx w b))
def iLtu (w a b : Nat) : Nat := iFlag w (decide (a < b))
def iLeu (w a b : Nat) : Nat := iFlag w (decide (a ≤ b))
def iMin (w a b : Nat) : Nat := if sx w a ≤ sx w b then a else b
def iMax (w a b : Nat) : Nat := if sx w a ≤ sx w b then b else a
def iMinu (a b : Nat) : Nat := min a b
def iMaxu (a b : Nat) : Nat := max a b

/-! ## Firing forms -/

/-- The result of a lane-wise operation: the tag of A, r judged bit by bit (R28, R199). -/
def Ctx.lanewise (c : Ctx) (d : Dst) (a : Src) (xs : List Src) (pu : Option Pu) (v : Oct W) : Res :=
  (c.put d v (c.tag a) (c.valid xs)).withPu c pu (nonzero v)

def Ctx.un (c : Ctx) (d : Dst) (a : Src) (pu : Option Pu) (f : W → W) : Res :=
  c.lanewise d a [a] pu ((c.val a).map f)
def Ctx.bin (c : Ctx) (d : Dst) (a b : Src) (pu : Option Pu) (f : W → W → W) : Res :=
  c.lanewise d a [a, b] pu (Oct.zip f (c.val a) (c.val b))

end Sys2Proof.Machine
end

