-- ==== Sys2Proof/Machine/Alu.lean ====
section
/-! DEFINITION. The meanings of class 0x1 (R201 to R203). -/
namespace Sys2Proof.Machine

/-- ADD (R201): wrap(a + b). -/
def execAdd (d : Dst) (a b : Src) (pu : Option Pu) (z : ISz) (s : State) : Host.Outcome State Fault Refusal :=
  fire (.add d a b pu z) s fun c => c.bin d a b pu (map2 z (iAdd (ISz.w z)))

/-- SUB (R201): wrap(a − b). -/
def execSub (d : Dst) (a b : Src) (pu : Option Pu) (z : ISz) (s : State) : Host.Outcome State Fault Refusal :=
  fire (.sub d a b pu z) s fun c => c.bin d a b pu (map2 z (iSub (ISz.w z)))

/-- ADDS (R201): sat_s of the signed sum. -/
def execAdds (d : Dst) (a b : Src) (pu : Option Pu) (z : ISz) (s : State) : Host.Outcome State Fault Refusal :=
  fire (.adds d a b pu z) s fun c => c.bin d a b pu (map2 z (iAdds (ISz.w z)))

/-- ADDUS (R201): sat_u of the unsigned sum. -/
def execAddus (d : Dst) (a b : Src) (pu : Option Pu) (z : ISz) (s : State) : Host.Outcome State Fault Refusal :=
  fire (.addus d a b pu z) s fun c => c.bin d a b pu (map2 z (iAddus (ISz.w z)))

/-- SUBS (R201): sat_s of the signed difference. -/
def execSubs (d : Dst) (a b : Src) (pu : Option Pu) (z : ISz) (s : State) : Host.Outcome State Fault Refusal :=
  fire (.subs d a b pu z) s fun c => c.bin d a b pu (map2 z (iSubs (ISz.w z)))

/-- SUBUS (R201): sat_u of the unsigned difference. -/
def execSubus (d : Dst) (a b : Src) (pu : Option Pu) (z : ISz) (s : State) : Host.Outcome State Fault Refusal :=
  fire (.subus d a b pu z) s fun c => c.bin d a b pu (map2 z (iSubus (ISz.w z)))

/-- MUL (R201): the low w bits of the product. -/
def execMul (d : Dst) (a b : Src) (pu : Option Pu) (z : ISz) (s : State) : Host.Outcome State Fault Refusal :=
  fire (.mul d a b pu z) s fun c => c.bin d a b pu (map2 z (iMul (ISz.w z)))

/-- MULH (R201): the high w bits of the signed product. -/
def execMulh (d : Dst) (a b : Src) (pu : Option Pu) (z : ISz) (s : State) : Host.Outcome State Fault Refusal :=
  fire (.mulh d a b pu z) s fun c => c.bin d a b pu (map2 z (iMulh (ISz.w z)))

/-- MULHU (R201): the high w bits of the unsigned product. -/
def execMulhu (d : Dst) (a b : Src) (pu : Option Pu) (z : ISz) (s : State) : Host.Outcome State Fault Refusal :=
  fire (.mulhu d a b pu z) s fun c => c.bin d a b pu (map2 z (iMulhu (ISz.w z)))

/-- MAD (R201): wrap(a × b + d). -/
def execMad (d : Fin 16) (a b : Src) (pu : Option Pu) (z : ISz) (s : State) : Host.Outcome State Fault Refusal :=
  fire (.mad d a b pu z) s fun c =>
    let x := c.val a
    let y := c.val b
    let o := (c.el.vreg c.pl d).lane
    c.lanewise (.v d) a [a, b] pu (Oct.of fun l => map3 z (iMad (ISz.w z)) (x.get l) (y.get l) (o.get l))

/-- NEG (R201): wrap(0 − a). -/
def execNeg (d : Dst) (a : Src) (pu : Option Pu) (z : ISz) (s : State) : Host.Outcome State Fault Refusal :=
  fire (.neg d a pu z) s fun c => c.un d a pu (map1 z (iNeg (ISz.w z)))

/-- ABS (R201): wrap(abs(sx(a))). -/
def execAbs (d : Dst) (a : Src) (pu : Option Pu) (z : ISz) (s : State) : Host.Outcome State Fault Refusal :=
  fire (.abs d a pu z) s fun c => c.un d a pu (map1 z (iAbs (ISz.w z)))

/-- The carry in of R202. -/
def Ctx.carryIn (c : Ctx) (pu : Pu) (nc : Bool) (l : Nat) : Nat :=
  if nc then 0 else if bit ((c.el.preds c.pl).get pu.p) l then 1 else 0

/-- ADDC (R202): the sum with carry; the carry out is r. -/
def execAddc (d : Fin 16) (a b : Src) (pu : Pu) (nc : Bool) (s : State) : Host.Outcome State Fault Refusal :=
  fire (.addc d a b pu nc) s fun c =>
    let x := c.val a
    let y := c.val b
    let sum (l : Nat) : Nat := (x.get l).toNat + (y.get l).toNat + c.carryIn pu nc l
    (c.put (.v d) (Oct.of fun l => BitVec.ofNat 32 (sum l)) (c.tag a) (c.valid [a, b])).withPu c (some pu)
      (maskOf fun l => decide (2 ^ 32 ≤ sum l))

/-- SUBB (R202): the difference with borrow; the borrow out is r. -/
def execSubb (d : Fin 16) (a b : Src) (pu : Pu) (nc : Bool) (s : State) : Host.Outcome State Fault Refusal :=
  fire (.subb d a b pu nc) s fun c =>
    let x := c.val a
    let y := c.val b
    let low (l : Nat) : Nat := (y.get l).toNat + c.carryIn pu nc l
    (c.put (.v d) (Oct.of fun l => BitVec.ofNat 32 (2 ^ 33 + (x.get l).toNat - low l)) (c.tag a)
      (c.valid [a, b])).withPu c (some pu) (maskOf fun l => decide ((x.get l).toNat < low l))

/-- The latency of DIV and DIVU (R200). -/
def divLat : ISz → Nat | .w32 => 12 | .w16 => 8 | .w8 => 6

/-- DIV (R203): signed quotient toward zero; all ones when b is 0. -/
def execDiv (d : Dst) (a b : Src) (pu : Option Pu) (z : ISz) (s : State) : Host.Outcome State Fault Refusal :=
  fire (.div d a b pu z) s fun c => (c.bin d a b pu (map2 z (iDiv (ISz.w z)))).late (divLat z)

/-- DIVU (R203): unsigned quotient; all ones when b is 0. -/
def execDivu (d : Dst) (a b : Src) (pu : Option Pu) (z : ISz) (s : State) : Host.Outcome State Fault Refusal :=
  fire (.divu d a b pu z) s fun c => (c.bin d a b pu (map2 z (iDivu (ISz.w z)))).late (divLat z)

end Sys2Proof.Machine
end

