-- ==== Sys2Proof/Machine/Flags.lean ====
section
/-! DEFINITION. Floating-point formats, the rounding helper and its flags, exact sums, products and quotients, and
conversions (R178 to R187, R220). -/
namespace Sys2Proof.Machine

/-! ## Flags -/

/-- The five flags of one coefficient, bit 4 NV, 3 DZ, 2 OF, 1 UF, 0 NX (R165). -/
abbrev Fl := BitVec 5
def fNV : Fl := 16
def fDZ : Fl := 8
def fOF : Fl := 4
def fUF : Fl := 2
def fNX : Fl := 1
def flagIf (b : Bool) (f : Fl) : Fl := if b then f else 0

/-- Flags of coefficient j in the layout of FFLAGS (R165). -/
def flagsAt (j : Nat) (f : Fl) : BitVec 20 := (f.setWidth 20) <<< (5 * j)

/-! ## Formats (R178, R179) -/

structure Fmt where
  p     : Nat        -- mantissa bits with the hidden one
  bias  : Nat
  width : Nat
  maxF  : Nat        -- pattern of the largest finite value
  inf   : Option Nat
  nan   : Nat        -- canonical NaN
  flush : Bool       -- FTZ applies (R184)
  deriving DecidableEq, Repr

def F32 : Fmt := ⟨24, 127, 32, 0x7F7FFFFF, some 0x7F800000, 0x7FC00000, true⟩
def F16 : Fmt := ⟨11, 15, 16, 0x7BFF, some 0x7C00, 0x7E00, true⟩
def FBF : Fmt := ⟨8, 127, 16, 0x7F7F, some 0x7F80, 0x7FC0, true⟩
def FE4 : Fmt := ⟨4, 7, 8, 0x7E, none, 0x7F, false⟩
def FE5 : Fmt := ⟨3, 15, 8, 0x7B, some 0x7C, 0x7E, false⟩

def FSz.fmt : FSz → Fmt | .f32 => F32 | .f16 => F16 | .bf16 => FBF
def FSz.tag : FSz → Tag | .f32 => .fp32 | .f16 => .fp16 | .bf16 => .bf16
/-- Sub-elements per lane (R218). -/
def FSz.n : FSz → Nat | .f32 => 1 | _ => 2

/-- The exponent of the subnormal grid. -/
def Fmt.qs (f : Fmt) : Int := 2 - f.bias - f.p

/-- A floating-point value: a NaN and whether it signals, an infinity, or (−1)^neg × m × 2^e exactly. -/
inductive FVal where
  | nan (sig : Bool)
  | inf (neg : Bool)
  | fin (neg : Bool) (m : Nat) (e : Int)
  deriving DecidableEq, Repr

namespace FVal
def zero : FVal := .fin false 0 0
def one : FVal := .fin false 1 0
def isNan : FVal → Bool | .nan _ => true | _ => false
def sig : FVal → Bool | .nan s => s | _ => false
def neg : FVal → FVal | .nan s => .nan s | .inf n => .inf (!n) | .fin n m e => .fin (!n) m e
def isZero : FVal → Bool | .fin _ 0 _ => true | _ => false
def isInf : FVal → Bool | .inf _ => true | _ => false
def negative : FVal → Bool | .nan _ => false | .inf n => n | .fin n _ _ => n
def ofInt (x : Int) : FVal := .fin (decide (x < 0)) x.natAbs 0
end FVal

/-- NV of a signalling NaN that is read (R179). -/
def sigFlag (x : FVal) : Fl := flagIf x.sig fNV

/-- The value of a pattern (R178, R179), flushed under FTZ (R184). -/
def Fmt.read (f : Fmt) (ftz : Bool) (n : Nat) : FVal :=
  let mb := f.p - 1
  let neg := n / 2 ^ (f.width - 1) % 2 == 1
  let mag := n % 2 ^ (f.width - 1)
  let E := mag / 2 ^ mb
  let M := mag % 2 ^ mb
  if mag ≤ f.maxF then
    if E = 0 then
      if ftz && f.flush then .fin neg 0 0 else .fin neg M f.qs
    else .fin neg (2 ^ mb + M) (f.qs + (E - 1 : Nat))
  else if f.inf = some mag then .inf neg
  else .nan (f.inf.isSome && M < 2 ^ (mb - 1))

def bitLen (m : Nat) : Nat := if m = 0 then 0 else Nat.log2 m + 1

/-- x × 2^k, rounded down. -/
def shiftDown (x : Nat) (k : Int) : Nat := if 0 ≤ k then x * 2 ^ k.toNat else x / 2 ^ (-k).toNat

/-- The pattern of a value that is a member of the format. -/
def Fmt.bits (f : Fmt) : FVal → Nat
  | .nan _ => f.nan
  | .inf neg => (match f.inf with | some i => i + (if neg then 2 ^ (f.width - 1) else 0) | none => f.nan)
  | .fin neg m e =>
    let s := if neg then 2 ^ (f.width - 1) else 0
    if m = 0 then s
    else
      let q := max f.qs (e + bitLen m - f.p)
      s + ((q - f.qs).toNat * 2 ^ (f.p - 1) + shiftDown m (e - q))

/-- Whether a magnitude is rounded away from zero: `n` the integer part, `r` the remainder over `d`. -/
def roundAway (rm : Rm) (neg : Bool) (n r d : Nat) : Bool :=
  match rm with
  | .rn => decide (d < 2 * r ∨ (d = 2 * r ∧ n % 2 = 1))
  | .rz => false
  | .rd => neg && decide (r ≠ 0)
  | .ru => !neg && decide (r ≠ 0)

/-- m × 2^e rounded to a multiple of 2^q: the multiple, and whether anything was lost. -/
def roundAt (rm : Rm) (neg : Bool) (m : Nat) (e q : Int) : Nat × Bool :=
  if q ≤ e then (m * 2 ^ (e - q).toNat, false)
  else
    let d := 2 ^ (q - e).toNat
    let n := m / d
    let r := m % d
    (if roundAway rm neg n r d then n + 1 else n, decide (r ≠ 0))

/-- What an overflow returns (R182, R186). -/
def Fmt.overflow (f : Fmt) (rm : Rm) (neg sat : Bool) : FVal :=
  let big : FVal := f.read false (f.maxF + (if neg then 2 ^ (f.width - 1) else 0))
  let away := match rm with | .rn => true | .rz => false | .rd => neg | .ru => !neg
  if sat || !away then big
  else match f.inf with
    | some _ => .inf neg
    | none => .nan false

/-- ROUND (R182 to R184): a non-zero finite value to the format; NX, OF and UF. -/
def Fmt.roundFin (f : Fmt) (rm : Rm) (ftz sat neg : Bool) (m : Nat) (e : Int) : FVal × Fl :=
  let e1 := e + bitLen m
  -- far below the smallest subnormal: only that it is not zero matters
  let (m, e) := if e1 < f.qs - 2 then (1, f.qs - 3) else (m, e)
  let q := e + bitLen m - f.p
  let (n, _) := roundAt rm neg m e q
  let tiny := decide (q + bitLen n < f.qs + f.p)
  if tiny && ftz && f.flush then (.fin neg 0 0, fUF ||| fNX)
  else
    let q2 := max q f.qs
    let (n2, lost) := roundAt rm neg m e q2
    if f.maxF < (q2 - f.qs).toNat * 2 ^ (f.p - 1) + n2 then (f.overflow rm neg sat, fOF ||| fNX)
    else (.fin neg n2 q2, flagIf lost fNX ||| flagIf (tiny && lost) fUF)

/-- rnd (R220): any value to the format. A zero keeps its sign, a NaN becomes canonical and raises nothing here. -/
def Fmt.round (f : Fmt) (rm : Rm) (ftz : Bool) : FVal → FVal × Fl
  | .nan _ => (.nan false, 0)
  | .inf n => (.inf n, 0)
  | .fin n m e => if m = 0 then (.fin n 0 0, 0) else f.roundFin rm ftz false n m e

/-! ## Exact arithmetic -/

/-- The exact product, and whether it is invalid (∞ × 0). -/
def mulX : FVal → FVal → FVal × Bool
  | .nan _, _ => (.nan false, false)
  | _, .nan _ => (.nan false, false)
  | .inf a, .inf b => (.inf (a != b), false)
  | .inf a, .fin b m _ => if m = 0 then (.nan false, true) else (.inf (a != b), false)
  | .fin a m _, .inf b => if m = 0 then (.nan false, true) else (.inf (a != b), false)
  | .fin a m e, .fin b n k => (.fin (a != b) (m * n) (e + k), false)

/-- The exact sum under a rounding mode, which gives an exact zero its sign (R182), and whether it is invalid. -/
def addX (rm : Rm) : FVal → FVal → FVal × Bool
  | .nan _, _ => (.nan false, false)
  | _, .nan _ => (.nan false, false)
  | .inf a, .inf b => if a = b then (.inf a, false) else (.nan false, true)
  | .inf a, .fin _ _ _ => (.inf a, false)
  | .fin _ _ _, .inf b => (.inf b, false)
  | .fin a m e, .fin b n k =>
    let q := min e k
    let x : Nat := m * 2 ^ (e - q).toNat
    let y : Nat := n * 2 ^ (k - q).toNat
    let sgn (n : Bool) (v : Nat) : Int := if n then -(v : Int) else v
    let z := sgn a x + sgn b y
    if z = 0 then
      (if m = 0 ∧ n = 0 ∧ a = b then .fin a 0 0 else .fin (rm == .rd) 0 0, false)
    else (.fin (decide (z < 0)) z.natAbs q, false)

/-- A quotient carries 80 bits or more and its lowest bit says whether something was cut off. -/
def divMag (m n : Nat) : Nat × Int :=
  let k := 80 + bitLen n
  let q := m * 2 ^ k / n
  (2 * q + (if m * 2 ^ k % n = 0 then 0 else 1), -(k : Int) - 1)

/-- The quotient, whether it is invalid, and whether a non-zero value was divided by zero. -/
def divX : FVal → FVal → FVal × Bool × Bool
  | .nan _, _ => (.nan false, false, false)
  | _, .nan _ => (.nan false, false, false)
  | .inf _, .inf _ => (.nan false, true, false)
  | .inf a, .fin b _ _ => (.inf (a != b), false, false)
  | .fin a _ _, .inf b => (.fin (a != b) 0 0, false, false)
  | .fin a m e, .fin b n k =>
    if n = 0 then (if m = 0 then (.nan false, true, false) else (.inf (a != b), false, true))
    else if m = 0 then (.fin (a != b) 0 0, false, false)
    else
      let (q, j) := divMag m n
      (.fin (a != b) q (e - k + j), false, false)

/-- Integer square root by binary digits, the highest first. -/
def isqrtGo (n : Nat) : Nat → Nat → Nat
  | 0, r => r
  | b + 1, r => let t := r + 2 ^ b; isqrtGo n b (if t * t ≤ n then t else r)
def isqrt (n : Nat) : Nat := isqrtGo n (bitLen n / 2 + 1) 0

/-- The square root of m × 2^e with 80 bits or more, the lowest bit sticky. -/
def sqrtMag (m : Nat) (e : Int) : Nat × Int :=
  let odd := e % 2 ≠ 0
  let m := if odd then 2 * m else m
  let e := if odd then e - 1 else e
  let x := m * 2 ^ 200
  let r := isqrt x
  (2 * r + (if r * r = x then 0 else 1), e / 2 - 101)

/-! ## Rounded operations: a value of the format and the flags it raises -/

/-- The rounding a firing uses. -/
structure Rd where
  f   : Fmt
  rm  : Rm
  ftz : Bool

def Rd.rnd (r : Rd) (x : FVal) : FVal × Fl := r.f.round r.rm r.ftz x

def Rd.add (r : Rd) (a b : FVal) : FVal × Fl :=
  let (x, bad) := addX r.rm a b
  let (y, fl) := r.rnd x
  (y, fl ||| flagIf bad fNV ||| sigFlag a ||| sigFlag b)

def Rd.mul (r : Rd) (a b : FVal) : FVal × Fl :=
  let (x, bad) := mulX a b
  let (y, fl) := r.rnd x
  (y, fl ||| flagIf bad fNV ||| sigFlag a ||| sigFlag b)

/-- acc + u × v with one rounding (R223): NV for ∞ × 0 whatever the addend. -/
def Rd.fma (r : Rd) (acc u v : FVal) : FVal × Fl :=
  let (p, bad1) := mulX u v
  let (x, bad2) := addX r.rm acc p
  let (y, fl) := r.rnd x
  (y, fl ||| flagIf (bad1 || bad2) fNV ||| sigFlag acc ||| sigFlag u ||| sigFlag v)

def Rd.div (r : Rd) (a b : FVal) : FVal × Fl :=
  let (x, bad, dz) := divX a b
  let (y, fl) := r.rnd x
  (y, fl ||| flagIf bad fNV ||| flagIf dz fDZ ||| sigFlag a ||| sigFlag b)

/-- A value times an exact integer or real constant, rounded once. -/
def Rd.scale (r : Rd) (k a : FVal) : FVal × Fl := r.mul k a

/-- Terms of ser after its start (R220). -/
def Rd.serGo (r : Rd) : FVal × Fl → List (FVal × FVal) → FVal × Fl
  | acc, [] => acc
  | acc, (u, v) :: ts =>
    let (y, fl) := r.fma acc.1 u v
    r.serGo (y, acc.2 ||| fl) ts

/-- ser (R220): a start value, or the first product rounded, then fused terms. -/
def Rd.ser (r : Rd) (start : Option FVal) (terms : List (FVal × FVal)) : FVal × Fl :=
  match start with
  | some s => r.serGo ((if s.isNan then .nan false else s), sigFlag s) terms
  | none =>
    match terms with
    | [] => (.zero, 0)
    | (u, v) :: ts => r.serGo (r.mul u v) ts

/-- The sum over i = 1 … k of the pairs f i, as a list. -/
def upTo {α : Type} (k : Nat) (f : Nat → α) : List α := (List.range k).map fun i => f (i + 1)

/-- Pairs a coefficient's value with its flags, adding what an auxiliary raised. -/
def withFl (x : FVal × Fl) (f : Fl) : FVal × Fl := (x.1, x.2 ||| f)

/-- dsum (R220): (1/k) Σ i·x(i)·y(k − i) for k ≥ 1. -/
def Rd.dsum (r : Rd) (x y : Nat → FVal) (k : Nat) : FVal × Fl :=
  let ps := upTo k fun i => if i = 1 then (x 1, 0) else r.scale (FVal.ofInt i) (x i)
  let fl := ps.foldl (fun a p => a ||| p.2) (0 : Fl)
  let s := r.ser none ((List.range k).map fun i => ((ps.map (·.1)).getD i FVal.zero, y (k - 1 - i)))
  let d := r.div s.1 (FVal.ofInt k)
  (d.1, fl ||| s.2 ||| d.2)

/-! ## Integers (R187) -/

/-- A value rounded to an integer by a mode, and whether it changed. -/
def toIntegral (rm : Rm) (neg : Bool) (m : Nat) (e : Int) : Int × Bool :=
  let (m, e) := if e < -400 then (if m = 0 then (0, 0) else (1, (-4 : Int))) else (m, e)
  let (n, lost) := roundAt rm neg m e 0
  (if neg then -(n : Int) else n, lost)

/-- to_int (R187). -/
def toInt (w : Nat) (rm : Rm) : FVal → Int × Fl
  | .nan _ => (0, fNV)
  | .inf neg => (if neg then -(2 ^ (w - 1)) else 2 ^ (w - 1) - 1, fNV)
  | .fin neg m e =>
    let (y, lost) := toIntegral rm neg m e
    if y < -(2 ^ (w - 1)) then (-(2 ^ (w - 1)), fNV)
    else if 2 ^ (w - 1) - 1 < y then (2 ^ (w - 1) - 1, fNV)
    else (y, flagIf lost fNX)

/-! ## Conversions (R185, R186) -/

/-- A conversion between formats (R185); `sat` saturates, as the FP8 targets do by default (R186). -/
def convert (f : Fmt) (rm : Rm) (ftz sat : Bool) (x : FVal) : FVal × Fl :=
  match x with
  | .nan s => (.nan false, flagIf s fNV)
  | .inf n =>
    if sat then (f.overflow .rz n true, fNX)
    else (match f.inf with | some _ => (.inf n, 0) | none => (.nan false, fNV))
  | .fin n m e => if m = 0 then (.fin n 0 0, 0) else f.roundFin rm ftz sat n m e

/-- AFADD and REDC in FP32 or a 16-bit format (R100, R113): round to nearest even, no FFLAGS; the pattern, OF, NV. -/
def addPlain (f : Fmt) (ftz : Bool) (a b : Nat) : Nat × Fl :=
  let r : Rd := ⟨f, .rn, ftz⟩
  let x := f.read ftz a
  let y := f.read ftz b
  let z := r.add x y
  (f.bits z.1, z.2)

end Sys2Proof.Machine
end

