-- ==== Sys2Proof/Machine/Access.lean ====
section
/-! DEFINITION. Where an access is served and what it does there: homes and slices (R54, R65), page tables and TLB
slices (R61 to R66), round buffers (R298), watches (R163), debug watchpoints (R334), tile memory with its undo records
(R299) and poison rows (R311), fabric cache banks (R80 to R82) and visitor lines (R58, R252). -/
namespace Sys2Proof.Machine

/-! ## Homes and slices (R51, R54, R65) -/

/-- Package and die of a physical address, PA[51:43]. -/
def paDie (pa : Nat) : Nat := pa / 2 ^ 43 % 512
/-- The die of this package a physical address is homed on. See log entry 28 (DEDUCED). -/
def localDie (pa : Nat) : Option Nat := if paDie pa / 8 = Config.pkg then some (paDie pa % 8) else none
/-- The key of a home die: 0 to 7 in this package, above 8 elsewhere. -/
def dieKey (pa : Nat) : Nat := match localDie pa with | some d => d | none => 8 + paDie pa

/-- A request to an address can travel: it is homed here, or a Ronilawin port to its package is up (R353).
See log entry 28 (DEDUCED). -/
def State.reachable (s : State) (pa : Nat) : Bool :=
  (localDie pa).isSome || s.links.any fun l => l.2.up && l.2.peer == paDie pa / 8

def State.usableOf (s : State) (dk : Nat) : BitVec 256 := if dk < 8 then s.usable.get dk else BitVec.allOnes 256
def usableList (u : BitVec 256) : List Nat := (List.range 256).filter fun i => u.getLsbD i
/-- The usable tile whose rank a 16-bit hash names. -/
def ranked (u : BitVec 256) (h : Nat) : Nat := let us := usableList u; us.getD (h * us.length / 65536) 0

def lineHash (pa : Nat) : Nat :=
  let line := pa / 64 % 2 ^ 37
  (line % 65536) ^^^ (line / 65536 % 65536) ^^^ (line / 2 ^ 32)

/-- The home slice of a line, as a tile key. -/
def State.homeTile (s : State) (pa : Nat) : Nat := dieKey pa * 256 + ranked (s.usableOf (dieKey pa)) (lineHash pa)
/-- The slice of die d that R54 selects for a line homed elsewhere. -/
def State.visitTile (s : State) (d pa : Nat) : Nat := d * 256 + ranked (s.usableOf d) (lineHash pa)
/-- The TLB slice that owns an address on die d (R65). -/
def State.tlbTile (s : State) (d asid va : Nat) : Nat :=
  let v := va / 65536 % 2 ^ 32
  d * 256 + ranked (s.usableOf d) ((v % 65536) ^^^ (v / 65536) ^^^ asid)

/-! ## Page tables (R60 to R64) -/

structure Leaf where
  bits : BitVec 64
  big  : Bool
  deriving DecidableEq, Repr

def lbit (l : BitVec 64) (n : Nat) : Bool := l.getLsbD n
def pfn (l : BitVec 64) : Nat := fld l.toNat 16 36
def lkind (l : BitVec 64) : Nat := fld l.toNat 13 2
def lhome (l : BitVec 64) : Nat := fld l.toNat 10 3
def Leaf.pa (l : Leaf) (va : Nat) : Nat := pfn l.bits * 65536 + (if l.big then va % 2 ^ 29 else va % 65536)

def isPtr (e : BitVec 64) : Bool := !lbit e 1 && !lbit e 2 && !lbit e 3

/-- A populated LPDDR or near-memory offset (R51). -/
def populated (pa : Nat) : Bool :=
  let o := pa % 2 ^ 43
  (o / 2 ^ 41 == 0 && decide (o % 2 ^ 41 < 2 ^ 38)) || (o / 2 ^ 41 == 1 && decide (o % 2 ^ 41 < 2 ^ 34))
def isNear (pa : Nat) : Bool := pa % 2 ^ 43 / 2 ^ 41 == 1

/-- The window that KIND and HOME allow (R60, R62). -/
def windowOk (l : BitVec 64) : Bool :=
  let pa := pfn l * 65536
  let own := paDie pa == Config.pkg * 8 + lhome l
  populated pa &&
    (match lkind l with
     | 0 => own
     | 1 => own && isNear pa
     | 2 => own && !isNear pa
     | _ => paDie pa / 8 != Config.pkg)

/-- The first check an entry fails (R62): `ptr` says what the level asks for, if it asks. An entry with R = W = I = 0 is
judged by the pointer layout at every level. See log entry 74 (DEDUCED). -/
def entryFault (e : BitVec 64) (ptr : Option Bool) (big : Bool) : Option XReason :=
  if !lbit e 0 then some .notvalid
  else if fld e.toNat 52 8 ≠ 0 ∨ (isPtr e ∧ fld e.toNat 4 12 ≠ 0) then some .rsvbits
  else if (match ptr with | some b => b != isPtr e | none => false) then some .malformed
  else if !isPtr e && ((big && pfn e % 8192 != 0) || !windowOk e) then some .malformed
  else none

def Access.writes : Access → Bool
  | .store => true | .atomic => true | .engWrite => true | .feStore => true | _ => false

/-- The access checks of R64. -/
def accessFault (l : BitVec 64) (a : Access) : Option XReason :=
  let need : Bool := match a with
    | .load => lbit l 1 | .engRead => lbit l 1 | .node => lbit l 1 | .feLoad => lbit l 1
    | .store => lbit l 2 | .engWrite => lbit l 2 | .feStore => lbit l 2
    | .atomic => lbit l 1 && lbit l 2
    | .fetch => lbit l 3
  if !need then some .perm
  else match a with
    | .feLoad => if lbit l 4 then none else some .fekind
    | .feStore => if lbit l 4 then none else some .fekind
    | _ => none

/-- A walk's result: a fault with its level, or the leaf and where its entry lies. -/
inductive WalkRes where
  | fault (r : XReason) (level : Nat)
  | ok (l : Leaf) (at_ : Nat)
  deriving DecidableEq, Repr

/-- THE WALK of R63, up to the leaf; the access checks follow it. Of the root entry only V is checked.
See log entry 74 (DEDUCED). -/
def State.walkTables (s : State) (die asid va : Nat) : WalkRes :=
  let root := s.mem.dword ((s.die die).atbase.toNat / 2 ^ 15 * 2 ^ 15 + asid * 8)
  if !lbit root 0 then .fault .notvalid 3
  else
    let t := s.mem.dword (fld root.toNat 9 43 * 512 + va / 2 ^ 42 % 64 * 8)
    match entryFault t (some true) false with
    | some r => .fault r 0
    | none =>
      let ma := pfn t * 65536 + va / 2 ^ 29 % 8192 * 8
      let m := s.mem.dword ma
      match entryFault m none true with
      | some r => .fault r 1
      | none =>
        if isPtr m then
          let la := pfn m * 65536 + va / 65536 % 8192 * 8
          let l := s.mem.dword la
          match entryFault l (some false) false with
          | some r => .fault r 2
          | none => .ok ⟨l, false⟩ la
        else .ok ⟨m, true⟩ ma

/-- A walk for an access: the leaf with A and D set in memory, or the fault. -/
def State.walkFor (s : State) (die asid va : Nat) (a : Access) : (XReason × Nat) ⊕ (Leaf × State) :=
  match s.walkTables die asid va with
  | .fault r lv => .inl (r, lv)
  | .ok l at_ =>
    match accessFault l.bits a with
    | some r => .inl (r, if l.big then 1 else 2)
    | none =>
      let b := l.bits ||| 64 ||| (if a.writes then 128 else 0)
      .inr (⟨b, l.big⟩, if b = l.bits then s else { s with mem := s.mem.write at_ (leBytes 8 b.toNat) })

/-! ## TLB slices (R65) -/

def TlbEnt.hits (x : TlbEnt) (asid va : Nat) : Bool :=
  (x.asid == asid || lbit x.leaf 8) && (if x.big then x.vpn == va / 2 ^ 29 else x.vpn == va / 65536)

/-- A cached translation that permits the access without a walk. An entry that matches and lacks the permission, or D for
a write, is a miss. See log entry 75 (DESIGN CHOICE). -/
def State.tlbFind (s : State) (die asid va : Nat) (a : Access) : Option Leaf :=
  ((s.tile (s.tlbTile die asid va)).tlb.find? fun x =>
    x.hits asid va && (accessFault x.leaf a).isNone && (!a.writes || lbit x.leaf 7)).map fun x => ⟨x.leaf, x.big⟩

/-- The set of an entry: 1,024 entries in 8 ways. See log entry 75 (DESIGN CHOICE). -/
def tlbSet (x : TlbEnt) : Nat := x.vpn % 128

/-- The least recently used of a list of entries. See log entry 23 (DEDUCED). -/
def oldest (l : List TlbEnt) : Option TlbEnt :=
  l.foldl (fun m x => match m with | none => some x | some y => if x.use < y.use then some x else some y) none

/-- Fill the owning slice; a full set gives up its least recently used entry. See log entry 23 (DEDUCED). -/
def State.tlbFill (s : State) (die asid va : Nat) (l : Leaf) : State :=
  let t := s.tlbTile die asid va
  let x : TlbEnt := ⟨asid, if l.big then va / 2 ^ 29 else va / 65536, l.big, l.bits, s.tick⟩
  s.modTile t fun y =>
    let rest := y.tlb.filter fun z => !(z.asid == asid && z.big == x.big && z.vpn == x.vpn)
    let same := rest.filter fun z => tlbSet z == tlbSet x
    let rest := if same.length < 8 then rest else match oldest same with | some v => rest.filter (· ≠ v) | none => rest
    { y with tlb := rest ++ [x] }

/-- A hit makes its entry the most recently used. -/
def State.tlbUse (s : State) (die asid va : Nat) (l : Leaf) : State :=
  s.modTile (s.tlbTile die asid va) fun y => { y with
    tlb := y.tlb.map fun x => if x.hits asid va && x.leaf == l.bits then { x with use := s.tick } else x }

/-- The leaf entry that maps an address lies in the transit table of a die of the package (R71). -/
def State.inTransit (s : State) (die asid va : Nat) : Bool :=
  let leaf : Option Nat := match s.walkTables die asid va with | .ok _ a => some a | .fault _ _ => none
  (List.range 8).any fun d => (s.die d).transit.any fun m => (m.asid == asid && m.vpn == va / 65536) || leaf == some m.leaf

/-- A translation in one step through the owning slice: a hit, or a walk that fills it. -/
def State.slicePass (s : State) (die asid va : Nat) (a : Access) : (XReason × Nat) ⊕ (Leaf × State) :=
  match s.tlbFind die asid va a with
  | some l => .inr (l, s.tlbUse die asid va l)
  | none =>
    match s.walkFor die asid va a with
    | .inr (l, s) => .inr (l, s.tlbFill die asid va l)
    | .inl f => .inl f

def Waiter.beq (a b : Waiter) : Bool := decide (a = b)

/-- A waiter of a walk is told the outcome: none, it looks again; a tag, it is held. See log entry 25 (DEDUCED). -/
def State.tell (s : State) (w : Waiter) (held : Option Nat) : State :=
  match w with
  | .lane op l => s.modOp op fun o => { o with lanes := o.lanes.set l (match held with | some tag => .held tag | none => .xlate) }
  | .node t n => s.modTile t fun x => { x with nodes := x.nodes.set n { x.nodes.get n with held := held } }
  | .scales rg => s.modRegion rg fun r => { r with slHeld := held }
  | _ => s

/-- A request joins a walk, or the requests that a fault holds, once. -/
def PWalk.join (p : PWalk) (q : Req) : PWalk :=
  { p with waiters := if p.waiters.any fun x => Waiter.beq x.who q.who then p.waiters else p.waiters ++ [q] }

/-- What the tables as they stand say to a request. -/
def State.fails (s : State) (die asid : Nat) (q : Req) : Option (XReason × Nat) :=
  match s.walkTables die asid q.va with
  | .fault r level => some (r, level)
  | .ok l _ => (accessFault l.bits q.acc).map fun r => (r, if l.big then 1 else 2)

/-- Every policy but STALL is VOID (R273). -/
def Region.voids (r : Region) : Bool := r.cons.flags.testBit 0

/-- Regions under VOID whose requests a recorded fault holds ask for a void with its tag, each once (R73). -/
def State.voidFor (s : State) (tag : Nat) (qs : List Req) : State :=
  let rgs := (qs.filterMap fun q => match q.acc with | .fetch => none | _ => q.region).eraseDups
  forAll (fun s rg => s.modRegion rg fun x =>
    if x.voids && x.voidTag != some tag && !(x.voidAsked.any fun v => v.2.2.2 == some tag) then
      { x with voidAsked := x.voidAsked ++ [(32, BitVec.ofNat 32 tag, 0, some tag)] }
    else x) rgs s

/-- Ask the owning slice for a walk (R65): misses to one page and ASID coalesce. A request that meets a held fault of
its page is held with it when it fails as well (R72, R74), and walks on its own when it does not (R73). At most 64 walks
run in a slice, held ones not counted; beyond that the request waits in its slice and asks again.
See log entry 75 (DESIGN CHOICE). -/
def State.wantWalk (s : State) (die asid : Nat) (q : Req) : State :=
  let t := s.tlbTile die asid q.va
  let same := s.pwalks.filter fun p => p.2.tile == t && p.2.asid == asid && p.2.va / 65536 == q.va / 65536
  let walking (k : Nat) (s : State) : State := match q.who with
    | .lane op l => s.modOp op fun o => { o with lanes := o.lanes.set l (.walking k) }
    | _ => s
  let new (s : State) : State :=
    if 64 ≤ (s.pwalks.filter fun p => p.2.tile == t && p.2.fault.isNone).length then s
    else
      let (k, s) := s.fresh
      walking k { s with pwalks := s.pwalks.put k ⟨die, t, asid, q.va, q.acc, [q], none, false, q.elid, q.region⟩ }
  match same.find? fun p => p.2.fault.isNone with
  | some (k, p) => walking k { s with pwalks := s.pwalks.put k (p.join q) }
  | none =>
    match same with
    | (k, p) :: _ =>
      (match p.fault, s.fails die asid q with
       | some (_, _, tag), some _ =>
         let s := State.tell { s with pwalks := s.pwalks.put k (p.join q) } q.who (some tag)
         if p.recorded then s.voidFor tag [q] else s
       | _, _ => new s)
    | [] => new s

/-! ## Packets (R161) -/

/-- Send a task packet through a region's route table; a label without a route sends nothing. -/
def State.sendPacket (s : State) (fromTile src region label : Nat) (w0 w1 : W) (two : Bool) (round : Nat) : State :=
  match s.region? region with
  | some r =>
    (match r.routes.get? label with
     | some (e, h) =>
       let (k, s) := s.fresh
       let f : PktFlight :=
         ⟨e, ⟨label, h, w0, w1, two, round⟩, 4 + hops fromTile (tileOf e), src, s.acrossNs (linkNs fromTile (tileOf e))⟩
       { s with packets := s.packets.put k f }
     | none => s)
  | none => s

/-! ## Debug watchpoints (R334) -/

/-- Halt every region of a run (R341): a cut with stop. -/
def State.haltRun (s : State) (run : W) : State :=
  forAll (fun s (r : Nat × Region) => if r.2.run == run && !r.2.halted then s.askCut r.1 true [.halt] else s) s.regions s

/-- Who makes an access: the element, and the firing that made the operation or command; slot 16 for none. -/
structure Who where
  elem  : Nat
  plane : Plane
  slot  : Nat
  fires : W

/-- Accesses served or performed at a home: kind 1 read, 2 write, 3 atomic, 4 write-back, 5 commit (R331, R334). A hit
whose watchpoint says HALT halts the runs it is of. -/
def State.dwpHit (s : State) (pa kind : Nat) (who : Option Who) (runs : List W) : State :=
  match localDie pa with
  | none => s
  | some d =>
    forAll (fun s n =>
      let x := s.die d
      let c := (x.dwpc.get n).toNat
      let len := min 10 (fld c 8 4)
      let bitOf := match kind with | 1 => 2 | 3 => 0 | _ => 1
      if fld c 31 1 = 1 ∧ fld c bitOf 1 = 1 ∧ fld (x.dwpa.get n).toNat 6 46 / 2 ^ len = pa % 2 ^ 52 / 64 / 2 ^ len then
        let (elid, node, fires) : W × Nat × W := match who with
          | some w => (elidOf w.elem, if w.slot < 16 then s.nodeNumber w.elem w.plane w.slot else 0xFFFFFFFF,
              match w.plane with | .work => w.fires | .s => (s.elem w.elem).fires)
          | none => (0, 0xFFFFFFFF, 0)
        let s := s.trace d 3 n elid node fires (BitVec.ofNat 32 pa) (BitVec.ofNat 32 (pa / 2 ^ 32 % 2 ^ 20 + kind * 2 ^ 20))
        if fld c 4 1 = 1 then forAll State.haltRun runs s else s
      else s) [0, 1, 2, 3] s

/-! ## The home (R56, R163, R256, R298) -/

/-- Watch packets of one line for the words a write changed, ascending (R163). -/
def State.watchPackets (s : State) (pa : Nat) (before after : List Byte) : State :=
  let t := s.homeTile pa
  forAll (fun s (w : Watch) =>
    if w.line ≠ pa / 64 then s
    else forAll (fun s i =>
      let o := BitVec.ofNat 32 (natAt before (4 * i) 4)
      let n := BitVec.ofNat 32 (natAt after (4 * i) 4)
      if (o ^^^ n) &&& w.mask = 0 then s
      else
        let round := match s.region? w.region with | some r => r.round | none => 0
        s.sendPacket t (2 ^ 32 + t) w.region w.label n (BitVec.ofNat 32 (4 * i)) true round) (List.range 16) s)
    (s.tile t).watches s

/-- Apply bytes of one line at its home: the write takes its place in coherence order. -/
def State.applyHome (s : State) (kind : Nat) (who : Option Who) (runs : List W) (bs : List (Nat × Byte)) : State :=
  match bs with
  | [] => s
  | (a, _) :: _ =>
    let l := a / 64 * 64
    let before := s.mem.read l 64
    let m := bs.foldl (fun m b => Mem.put m b.1 b.2) s.mem
    (State.watchPackets { s with mem := m } l before (m.read l 64)).dwpHit a kind who runs

/-- Replace bytes of a 64-byte line. -/
def putBytes (line : List Byte) (bs : List (Nat × Byte)) : List Byte :=
  bs.foldl (fun (l : List Byte) b => l.set (b.1 % 64) b.2) line

/-- One update of REDC (R113): the new word, and whether NV and OF of the status are set. See log entry 48 (DEDUCED). -/
def redc (f : RedArith) (ftz : Bool) (m x : W) : W × Bool × Bool :=
  let halves (g : Fmt) : W × Bool × Bool :=
    let lo := addPlain g ftz (fld m.toNat 0 16) (fld x.toNat 0 16)
    let hi := addPlain g ftz (fld m.toNat 16 16) (fld x.toNat 16 16)
    let fl := lo.2 ||| hi.2
    (BitVec.ofNat 32 (lo.1 + hi.1 * 65536), fl &&& fNV != 0, fl &&& fOF != 0)
  match f with
  | .i32 => (m + x, false, false)
  | .i32s => (BitVec.ofInt 32 (max (-(2 ^ 31)) (min (m.toInt + x.toInt) (2 ^ 31 - 1))), false, false)
  | .f32 => let r := addPlain F32 ftz m.toNat x.toNat; (BitVec.ofNat 32 r.1, r.2 &&& fNV != 0, r.2 &&& fOF != 0)
  | .bf16 => halves FBF
  | .f16 => halves F16

def RndUp.apply (line : List Byte) (u : RndUp) : List Byte :=
  match u with
  | .byte o b => putBytes line [(o, b)]
  | .add o f ftz x =>
    let w := (redc f ftz (BitVec.ofNat 32 (natAt line o 4)) x).1
    putBytes line ((leBytes 4 w.toNat).zipIdx.map fun b => (o + b.2, b.1))

/-- A buffered line over the line below it (R114, R298). -/
def RndLine.over (x : RndLine) (line : List Byte) : List Byte := x.ups.foldl RndUp.apply line

/-- Offsets that a buffered line changes. -/
def RndLine.offs (x : RndLine) : List Nat :=
  (List.range 64).filter fun i => x.ups.any fun u => match u with | .byte o _ => o == i | .add o .. => o / 4 == i / 4

/-- The buffered lines of a region for one line, the older round first. -/
def State.rndLines (s : State) (rg pa : Nat) : List RndLine :=
  let ls := (s.tile (s.homeTile pa)).rnd.filter fun x => x.region == rg && x.pa == pa / 64
  let lo := ls.foldl (fun n x => min n x.round) (2 ^ 32)
  ls.filter (fun x => x.round == lo) ++ ls.filter (fun x => x.round != lo)

/-- A line as a region sees it over a copy of the home line: the newest buffered bytes are merged in. -/
def State.overlay (s : State) (rg : Option Nat) (pa : Nat) (line : List Byte) : List Byte :=
  match rg with
  | none => line
  | some r => (s.rndLines r pa).foldl (fun l x => x.over l) line

/-- Bytes of one line at the home, as a region sees them. -/
def State.homeBytes (s : State) (rg : Option Nat) (pa n : Nat) : List Byte :=
  bytesAt (s.overlay rg pa (s.mem.read (pa / 64 * 64) 64)) (pa % 64) n

/-- Lines in the half of a slice's round buffer that a round uses (R298). -/
def Tile.half (t : Tile) (round : Nat) : Nat := (t.rnd.filter fun x => x.round % 2 == round % 2).length

/-- The half has no room for another line (R298, R301). -/
def State.roundFull (s : State) (rg round pa : Nat) : Bool :=
  let t := s.tile (s.homeTile pa)
  decide (4096 ≤ t.half round) && !(t.rnd.any fun x => x.pa == pa / 64 && x.region == rg && x.round == round)

/-- Change the line of a region and round in the round buffer, opening it when there is none. A half that is three
quarters full asks for a cut (R301). -/
def State.modRnd (s : State) (rg round pa : Nat) (f : List RndUp → List RndUp) : State :=
  let t := s.homeTile pa
  let s := s.modTile t fun t =>
    let mine (x : RndLine) : Bool := x.region == rg && x.round == round && x.pa == pa / 64
    let ups := f (match t.rnd.find? mine with | some x => x.ups | none => [])
    let rest := t.rnd.filter fun x => !mine x
    { t with rnd := if ups.isEmpty then rest else rest ++ [⟨pa / 64, rg, round, ups⟩] }
  if 3072 ≤ (s.tile t).half round then s.askCut rg false [] else s

/-- A REDC update of a word lies among some updates. -/
def addedTo' (ups : List RndUp) (w : Nat) : Bool :=
  ups.any fun u => match u with | .add o .. => o / 4 == w | .byte .. => false

/-- The updates that stay below bytes stored at some offsets: those of a word stored whole go, and a byte that no REDC
update has read. -/
def belowStore (offs : List Nat) (ups : List RndUp) : List RndUp :=
  let whole (w : Nat) : Bool := (List.range 4).all fun i => offs.contains (4 * w + i)
  ups.filter fun u => match u with
    | .byte o _ => !(whole (o / 4) || (offs.contains o && !addedTo' ups (o / 4)))
    | .add o .. => !whole (o / 4)

/-- Put bytes of one line into the round buffer of a region and round. -/
def State.putRound (s : State) (rg round : Nat) (bs : List (Nat × Byte)) : State :=
  match bs with
  | [] => s
  | (a, _) :: _ => s.modRnd rg round a fun ups =>
      belowStore (bs.map (·.1 % 64)) ups ++ bs.map fun b => .byte (b.1 % 64) b.2

/-- A REDC update of one word in the round buffer (R113, R114): it takes its place behind what the buffer holds of the
word, and is applied to the home word at the commit. See log entry 48 (DEDUCED). -/
def State.redRound (s : State) (rg round pa : Nat) (f : RedArith) (ftz : Bool) (x : W) : State :=
  s.modRnd rg round pa fun ups => ups ++ [.add (pa % 64 / 4 * 4) f ftz x]

/-- A write of a region that is applied at the home comes after what the region's round buffer holds of the same bytes
(R247, R256): those updates are below it and go. Of a word stored in part, with a REDC update, the bytes stay on top. -/
def State.settleRound (s : State) (rg : Option Nat) (bs : List (Nat × Byte)) : State :=
  match rg, bs with
  | some r, (a, _) :: _ =>
    let offs := bs.map (·.1 % 64)
    let under (x : RndLine) : RndLine :=
      if x.region == r && x.pa == a / 64 then
        let low := belowStore offs x.ups
        { x with ups := low ++ (bs.filter fun b => addedTo' low (b.1 % 64 / 4)).map fun b => .byte (b.1 % 64) b.2 }
      else x
    s.modTile (s.homeTile a) fun t => { t with rnd := (t.rnd.map under).filter fun x => !x.ups.isEmpty }
  | _, _ => s

def State.poisoned (s : State) (pa : Nat) : Bool := s.poisonLines.contains (pa / 64)
def State.poisonLine (s : State) (pa : Nat) : State := { s with poisonLines := insertNat (pa / 64) s.poisonLines }

/-! ## Tile memory (R75, R84, R299, R311) -/

/-- A byte of tile memory lies in a ring of the region. -/
def Region.inRing (r : Region) (key : Nat) : Bool :=
  r.rings.any fun g => decide (spmKey g.tile g.bank g.base ≤ key ∧ key < spmKey g.tile g.bank g.base + g.size)

def areaUsed (used : List Nat) (n : Nat) : Nat := ((List.range (n + 1)).find? fun i => !used.contains i).getD n

/-- The undo records of a region in one tile. -/
def Region.undoOf (r : Region) (t : Nat) : List Undo := r.undo.filter fun u => u.key / 2 ^ 20 == t

/-- The first write of a round to a line of tile memory keeps its bytes (R299). The record is also written into the
UNDO area of the tile, when it has one. `held` is a fabric cache line that is dirty: its stored bytes, and who has
stored them, come back with it. -/
def State.undoLine (s : State) (rg : Option Nat) (round key : Nat) (fc : Option (Nat × Nat)) (held : Option FcLine) :
    State :=
  match rg with
  | none => s
  | some i =>
    match s.region? i with
    | none => s
    | some r =>
      let l := key / 64 * 64
      if r.undo.any fun u => u.key == l && u.round == round then s
      else
        let t := l / 2 ^ 20
        let mine := r.undoOf t
        let pos := areaUsed (mine.map (·.pos)) mine.length
        let bytes := s.spm.read l 64
        let rows := (if s.poisonRows.contains (l / 32) then 1 else 0) + (if s.poisonRows.contains (l / 32 + 1) then 2 else 0)
        let s := s.setRegion i { r with undo := r.undo ++ [⟨l, fc, (held.map (·.mask)).getD [], (held.map (·.writers)).getD [], round, bytes, rows, pos⟩] }
        let (start, size) := (s.tile t).undo
        let s := if 0 < size ∧ (pos + 1) * 72 ≤ size then
            let head := leBytes 4 ((match fc with | some _ => 2 ^ 31 | none => 0) + round % 2 * 2 ^ 30 + l % 2 ^ 20) ++
              leBytes 4 (match fc with | some x => x.2 | none => 0)
            { s with spm := s.spm.write (t * 2 ^ 20 + start + pos * 72) (head ++ bytes) }
          else s
        if 0 < size ∧ size * 3 ≤ (mine.length + 1) * 72 * 4 then s.askCut i false [] else s

/-- A row of tile memory that a ring holds has no undo record (R84, R299): rings begin and end at rows. -/
def State.ringRow (s : State) (rg : Option Nat) (key : Nat) : Bool :=
  match rg with
  | some i => (match s.region? i with | some r => r.inRing key | none => false)
  | none => false

/-- The UNDO area of a tile has no room for the record that a write to the row of a key needs (R301); an absent area
never fills. See log entry 55 (DEDUCED). -/
def State.undoFull (s : State) (rg : Option Nat) (round key : Nat) : Bool :=
  match rg with
  | none => false
  | some i =>
    match s.region? i with
    | none => false
    | some r =>
      let l := key / 64 * 64
      let (_, size) := (s.tile (l / 2 ^ 20)).undo
      decide (0 < size) && !(r.undo.any fun u => u.key == l && u.round == round) && !r.inRing key &&
        decide (size < ((r.undoOf (l / 2 ^ 20)).length + 1) * 72)

/-- Write bytes of tile memory at a key: the undo record of each line first, then the bytes and the poison bits of
the rows (R311). -/
def State.writeSpm (s : State) (rg : Option Nat) (round key : Nat) (bs : List Byte) (poison : Bool) : State :=
  let n := bs.length
  if n = 0 then s
  else
    let rows := (List.range ((key + n - 1) / 32 - key / 32 + 1)).map fun i => key / 32 + i
    let s := forAll (fun s row => if s.ringRow rg (row * 32) then s else s.undoLine rg round (row * 32) none none) rows s
    let whole (row : Nat) : Bool := decide (key ≤ row * 32 ∧ row * 32 + 32 ≤ key + n)
    let pr := rows.foldl (fun (p : List Nat) row =>
      if poison then insertNat row p else if whole row then removeNat row p else p) s.poisonRows
    { s with spm := s.spm.write key bs, poisonRows := pr }

/-- Write bytes at offsets from a key: a run of bytes in one piece, so that a whole row is seen as one (R311). -/
def State.writeCells (s : State) (rg : Option Nat) (round key : Nat) (cells : List (Nat × Byte)) (poison : Bool) : State :=
  if cells.zipIdx.all fun c => c.1.1 == c.2 then s.writeSpm rg round key (cells.map (·.2)) poison
  else forAll (fun s c => s.writeSpm rg round (key + c.1) [c.2] poison) cells s

/-- Some byte of a run of tile memory lies in a poisoned row. -/
def State.spmPoison (s : State) (key n : Nat) : Bool :=
  s.poisonRows.any fun r => decide (key / 32 ≤ r ∧ r ≤ (key + n - 1) / 32)

/-! ## Fabric cache banks (R80 to R82) -/

/-- The bank of a region whose bound range holds a data-area offset. -/
def State.fcBank (s : State) (rg off : Nat) : Option (Nat × Nat) :=
  match s.region? rg with
  | none => none
  | some r =>
    (r.tiles.flatMap fun t => (List.range 16).map fun b => (t, b)).find? fun x =>
      let k := (s.tile x.1).banks.get x.2
      k.role == .cache && decide (k.rbase * 65536 ≤ off ∧ off < k.rbase * 65536 + 2 ^ k.rsize)

def fcKey (t b i : Nat) : Nat := (t * 16 + b) * 1024 + i
/-- The tile-memory key of a line of a bank. -/
def fcData (k : Nat) : Nat := k * 64
def fcWays (t b off : Nat) : List Nat := (List.range 4).map fun w => fcKey t b (off / 64 % 256 * 4 + w)

def State.fcFind (s : State) (t b off : Nat) : Option (Nat × FcLine) :=
  (fcWays t b off).findSome? fun k =>
    match s.fc.get? k with
    | some x => if x.off = off / 64 * 64 then some (k, x) else none
    | none => none

/-- The FCTAG of a line of a bank as it stands (R299). -/
def State.fcTag (s : State) (k : Nat) : Nat :=
  match s.fc.get? k with
  | some x => x.off + (if x.dirty then 2 ^ 31 else 0)
  | none => 0x7FFFFFFF

/-- Where a line of a bank lies now. -/
def State.fcPa (s : State) (r : Region) (x : FcLine) : Nat :=
  match s.walkTables r.die r.asid (r.cons.dbase + x.off) with
  | .ok l _ => l.pa (r.cons.dbase + x.off)
  | .fault _ _ => x.pa

/-- The round of stores that has not committed (R82, R298): none is open once the consist completes. -/
def Region.openRound (r : Region) (round : Option Nat) : Option Nat :=
  match round, r.phase with
  | _, .completing => none
  | _, .complete => none
  | some n, _ => if r.round ≤ n then some n else none
  | none, _ => none

def vKey (d pa : Nat) : Nat := d * 2 ^ 46 + pa / 64 % 2 ^ 46
def vLine (k : Nat) : Nat := k % 2 ^ 46 * 64

/-- A die's visitor copy of a line takes bytes that its home has taken, but for those it has stored itself since (R252). -/
def State.refreshVisitor (s : State) (d : Nat) (bs : List (Nat × Byte)) : State :=
  match bs with
  | [] => s
  | (a, _) :: _ =>
    match s.visitor.get? (vKey d a) with
    | some v =>
      let v' := { v with bytes := putBytes v.bytes (bs.filter fun b => !v.dirty.contains (b.1 % 64)) }
      { s with visitor := s.visitor.put (vKey d a) v' }
    | none => s

/-- Elements whose stores a line holds, as runs to halt and as the last writer of the record (R334). -/
def State.writerRuns (s : State) (ws : List Nat) : List W := (ws.map fun w => s.runOf (w / 8)).eraseDups
def writerOf (ws : List Nat) : Option Who := ws.getLast?.map fun w => ⟨w / 8, .s, 16, 0⟩

/-- Write the stored bytes of a dirty line back to their home: into the round buffer while the round that dirtied it is
open (R298); `none` when that has no room (R301). The die's visitor copy follows (R250, R251).
See log entry 76 (DEDUCED). -/
def State.fcWriteBack (s : State) (rg k : Nat) : Option State :=
  match s.fc.get? k, s.region? rg with
  | some x, some r =>
    if !x.dirty then some s
    else
      let pa := s.fcPa r x
      let bs := x.mask.map fun i => (pa + i, s.spm.get (fcData k + i))
      let done : Option State := match r.openRound x.round with
        | some n => if s.roundFull rg n pa then none else some (s.putRound rg n bs)
        | none => some ((s.applyHome 4 (writerOf x.writers) [r.run] bs).refreshVisitor r.die bs)
      done.map fun s =>
        let s := if x.mask.any fun i => s.spmPoison (fcData k + i) 1 then s.poisonLine pa else s
        { s with fc := s.fc.put k { x with dirty := false, mask := [], round := none, writers := [] } }
  | _, _ => some s

/-- An access that bypasses the banks takes the line out of the bank that holds it (R81). -/
def State.fcBypass (s : State) (rg : Option Nat) (off : Nat) : Option State :=
  match rg with
  | none => some s
  | some i =>
    match s.fcBank i off with
    | none => some s
    | some (t, b) =>
      match s.fcFind t b off with
      | none => some s
      | some (k, _) => (s.fcWriteBack i k).map fun s => { s with fc := s.fc.del k }

/-- The way a fill takes: a free one, or the least recently used that no open round has dirtied (R82). -/
def State.fcVictim (s : State) (r : Region) (t b off : Nat) : Option Nat :=
  let ws := fcWays t b off
  match ws.find? fun k => (s.fc.get? k).isNone with
  | some k => some k
  | none =>
    (ws.foldl (fun (m : Option (Nat × Nat)) k =>
      match s.fc.get? k with
      | some x =>
        if x.dirty && (r.openRound x.round).isSome then m
        else (match m with
          | some (_, u) => if x.use < u then some (k, x.use) else m
          | none => some (k, x.use))
      | none => m) none).map (·.1)

/-! ## Visitor lines (R57, R58, R252) -/

def Die.ways (x : Die) : Nat := match x.vways.toNat with | 1 => 2 | 2 => 4 | _ => 0

/-- Write a dirty visitor line back to its home. -/
def State.vWriteBack (s : State) (k : Nat) : State :=
  match s.visitor.get? k with
  | some v =>
    if v.dirty.isEmpty then s
    else
      let bs := v.dirty.map fun o => (vLine k + o, v.bytes.getD o 0)
      let s := forAll (fun s w => s.settleRound (s.elem (w / 8)).region bs) v.writers s
      let s := s.applyHome 4 (writerOf v.writers) (s.writerRuns v.writers) bs
      { s with visitor := s.visitor.put k { v with dirty := [], writers := [] } }
  | none => s

/-- Fill a line of a bank from its home, below what the die's visitor ways hold of it, which are refreshed with it: no later
load of the die goes back behind the fill (R247, R252). `none` when every way of the set is dirty in the open round, or the
UNDO area is full (R82, R301). -/
def State.fcFill (s : State) (rg round : Nat) (t b off pa : Nat) : Option (Nat × State) :=
  match s.region? rg with
  | none => none
  | some r =>
    match s.fcVictim r t b off with
    | none => none
    | some k =>
      if s.undoFull (some rg) round (fcData k) then none
      else (s.fcWriteBack rg k).map fun s =>
        let s := s.vWriteBack (vKey r.die pa)
        let s := match s.visitor.get? (vKey r.die pa) with
          | some v => { s with visitor := s.visitor.put (vKey r.die pa) { v with
              bytes := s.mem.read (vLine (vKey r.die pa)) 64, filled := s.now } }
          | none => s
        let s := s.undoLine (some rg) round (fcData k) (some (k, s.fcTag k)) none
        let l := pa / 64 * 64
        let bs := s.homeBytes (some rg) l 64
        let pr := [fcData k / 32, fcData k / 32 + 1].foldl (fun p row =>
          if s.poisoned l then insertNat row p else removeNat row p) s.poisonRows
        (k, { s with
          spm := s.spm.write (fcData k) bs
          poisonRows := pr
          fc := s.fc.put k ⟨off / 64 * 64, l, false, [], none, [], s.tick⟩ })

/-- Make room in a set of a visiting slice: the least recently used line leaves. -/
def State.vEvict (s : State) (d pa : Nat) : State :=
  let tile := s.visitTile d pa
  let set := pa / 64 % 4096 % 3072
  let same := s.visitor.filter fun v => v.1 / 2 ^ 46 == d && s.visitTile d (vLine v.1) == tile &&
    vLine v.1 / 64 % 4096 % 3072 == set
  if same.length < (s.die d).ways then s
  else
    match (same.foldl (fun (m : Option (Nat × Nat)) v => match m with
        | some (_, u) => if v.2.use < u then some (v.1, v.2.use) else m
        | none => some (v.1, v.2.use)) none) with
    | some (k, _) => let s := s.vWriteBack k; { s with visitor := s.visitor.del k }
    | none => s

/-- Fill a visitor line from the home, recording the fill time. See log entry 24 (DEDUCED). -/
def State.vFill (s : State) (d pa : Nat) : State :=
  let k := vKey d pa
  let s := s.vWriteBack k
  let s := { s with visitor := s.visitor.del k }
  let s := s.vEvict d pa
  let l := pa / 64 * 64
  { s with visitor := s.visitor.put k ⟨s.mem.read l 64, [], s.now, [], s.tick⟩ }

/-- The visitor line of a die for a line, filled when it is absent or older than the gate of an import (R255).
See log entry 24 (DEDUCED). -/
def State.vEnsure (s : State) (d pa : Nat) (skip : Option (BitVec 64)) : State :=
  match s.visitor.get? (vKey d pa) with
  | some v =>
    if (match skip with | some t => decide (v.filled.toNat < t.toNat) | none => false) then s.vFill d pa else s
  | none => s.vFill d pa

/-! ## An access at its place (R251) -/

/-- Who accesses, and how. -/
structure Acc where
  who    : Who
  rg     : Option Nat
  die    : Nat
  scope  : Scope
  skip   : Option (BitVec 64)
  fabric : Bool            -- a load, store or PREF of an element
  home   : Bool            -- an atomic or full-empty instruction: always at the home
  atom   : Bool            -- an atomic: its read and its write are one access
  round  : Nat
  st     : Nat             -- the stream

inductive Place where
  | fabric (t b : Nat) | visitor | home
  deriving DecidableEq, Repr

def Scope.rank : Scope → Nat | .tile => 0 | .die => 1 | .package => 2 | .domain => 3
def Scope.max (a b : Scope) : Scope := if Scope.rank a < Scope.rank b then b else a

/-- Where an access is served (R80, R251): a page that is RND or FE at its home. A fabric cache bank serves data-area
addresses whatever the mode of the node it names. See log entry 90 (DEDUCED). -/
def State.place (s : State) (a : Acc) (leaf : BitVec 64) (off pa : Nat) : Place :=
  let atHome := a.home || lbit leaf 4 || lbit leaf 5
  let bank := match a.rg with
    | some r => if a.fabric && !atHome && a.scope == .tile && !lbit leaf 15 then s.fcBank r off else none
    | none => none
  match bank with
  | some (t, b) => .fabric t b
  | none =>
    if !atHome && decide (Scope.rank a.scope < 2) && decide (dieKey pa ≠ a.die) && decide (0 < (s.die a.die).ways)
    then .visitor else .home

/-- The line of a bank that an access uses: the one it holds, or a fill. -/
def State.fcLine (s : State) (a : Acc) (t b off pa : Nat) : Option (Nat × State) :=
  match s.fcFind t b off with
  | some (k, _) => some (k, s)
  | none => s.fcFill (a.rg.getD 0) a.round t b off pa

def Acc.runs (a : Acc) (s : State) : List W := match a.rg with
  | some r => (match s.region? r with | some r => [r.run] | none => [])
  | none => []

/-- A visitor line as a region sees it: its round buffer over the copy, and what the die has stored since on top. -/
def State.visitorBytes (s : State) (rg : Option Nat) (pa : Nat) (v : VLine) : List Byte :=
  putBytes (s.overlay rg pa v.bytes) (v.dirty.map fun o => (o, v.bytes.getD o 0))

/-- Bytes of one line read at their place, and whether they are poisoned; `none` waits for a way of a bank, or for room in
the round buffer or the UNDO area (R82, R301). -/
def State.readAt (s : State) (a : Acc) (leaf : BitVec 64) (off pa n : Nat) : Option (List Byte × Bool × State) :=
  match s.place a leaf off pa with
  | .fabric t b =>
    (s.fcLine a t b off pa).map fun (k, s) =>
      let key := fcData k + off % 64
      let s := match s.fc.get? k with | some x => { s with fc := s.fc.put k { x with use := s.tick } } | none => s
      (s.spm.read key n, s.spmPoison key n, s)
  | .visitor =>
    (s.fcBypass a.rg off).map fun s =>
      let s := s.vEnsure a.die pa a.skip
      let k := vKey a.die pa
      match s.visitor.get? k with
      | some v =>
        let s := { s with visitor := s.visitor.put k { v with use := s.tick } }
        (bytesAt (s.visitorBytes a.rg pa v) (pa % 64) n, s.poisoned pa, s)
      | none => (s.homeBytes a.rg pa n, s.poisoned pa, s)
  | .home =>
    (s.fcBypass a.rg off).map fun s =>
      let k := vKey a.die pa
      let s := s.vWriteBack k
      let s := if a.atom then s else s.dwpHit pa 1 (some a.who) (a.runs s)
      let bs := s.homeBytes a.rg pa n
      let s := match s.visitor.get? k with
        | some v => { s with visitor := s.visitor.put k { v with bytes := s.mem.read (vLine k) 64, filled := s.now } }
        | none => s
      (bs, s.poisoned pa, s)

/-- Bytes of one line, given by their offsets from the address, written at their place; `none` as in `readAt`. -/
def State.writeAt (s : State) (a : Acc) (leaf : BitVec 64) (off pa : Nat) (bs : List (Nat × Byte)) (poison : Bool) :
    Option State :=
  let cells := bs.map fun b => (pa + b.1, b.2)
  let w := a.who.elem * 8 + a.st
  match s.place a leaf off pa with
  | .fabric t b =>
    (s.fcLine a t b off pa).bind fun (k, s) =>
      match s.fc.get? k with
      | none => some s
      | some x =>
        if s.undoFull a.rg a.round (fcData k) then none
        else
          let s := s.undoLine a.rg a.round (fcData k) (some (k, s.fcTag k)) (some x)
          let s := s.writeCells none a.round (fcData k + off % 64) bs poison
          let x' := { x with
            dirty := true
            mask := bs.foldl (fun m c => insertNat (off % 64 + c.1) m) x.mask
            round := some a.round
            use := s.tick
            writers := if x.writers.contains w then x.writers else x.writers ++ [w] }
          some { s with fc := s.fc.put k x' }
  | .visitor =>
    (s.fcBypass a.rg off).map fun s =>
      let s := s.vEnsure a.die pa a.skip
      let k := vKey a.die pa
      match s.visitor.get? k with
      | some v =>
        let v' := { v with
          bytes := putBytes v.bytes cells
          dirty := cells.foldl (fun d c => insertNat (c.1 % 64) d) v.dirty
          use := s.tick
          writers := if v.writers.contains w then v.writers else v.writers ++ [w] }
        let s := { s with visitor := s.visitor.put k v' }
        if poison then s.poisonLine pa else s
      | none => (s.settleRound a.rg cells).applyHome 2 (some a.who) (a.runs s) cells
  | .home =>
    (s.fcBypass a.rg off).bind fun s =>
      match a.rg, lbit leaf 5 with
      | some rg, true =>
        if s.roundFull rg a.round pa then none
        else some ((if poison then s.poisonLine pa else s).putRound rg a.round cells)
      | _, _ =>
        let s := if poison then s.poisonLine pa else s
        let s := (s.settleRound a.rg cells).applyHome (if a.atom then 3 else 2) (some a.who) (a.runs s) cells
        let k := vKey a.die pa
        some (match s.visitor.get? k with
          | some v =>
            let v' := { v with
              bytes := putBytes v.bytes cells
              dirty := cells.foldl (fun d c => removeNat (c.1 % 64) d) v.dirty }
            { s with visitor := s.visitor.put k v' }
          | none => s)

/-- Run f over a list as long as it answers. -/
def tryAll {α : Type} (f : State → α → Option State) : List α → State → Option State
  | [], s => some s
  | x :: xs, s => (f s x).bind (tryAll f xs)

/-- Push out the stores of a stream that visitor lines and fabric cache banks hold, up to a scope (R253); `none` when a
round buffer has no room for one. -/
def State.pushStream (s : State) (e st : Nat) (scope : Scope) : Option State :=
  let w := e * 8 + st
  let banks : Option State := if Scope.rank scope = 0 then some s else
    tryAll (fun s (x : Nat × FcLine) => if x.2.writers.contains w then
      (match (s.elem e).region with | some r => s.fcWriteBack r x.1 | none => some s) else some s) s.fc s
  banks.map fun s =>
    if Scope.rank scope < 2 then s
    else forAll (fun s (x : Nat × VLine) => if x.2.writers.contains w then s.vWriteBack x.1 else s) s.visitor s

/-- Physical memory as a region on a die sees it now: its round buffers, then the stores that the die's visitor lines and
the region's banks hold (R112, R254). -/
def State.viewMem (s : State) (rg : Option Nat) (die : Nat) : Mem :=
  let lines := s.tiles.flatMap fun t => t.2.rnd.filter fun x => rg == some x.region
  let lo := lines.foldl (fun n x => min n x.round) (2 ^ 32)
  let put (m : Mem) (x : RndLine) : Mem := m.write (x.pa * 64) (x.over (m.read (x.pa * 64) 64))
  let m := (lines.filter fun x => x.round == lo).foldl put s.mem
  let m := (lines.filter fun x => x.round != lo).foldl put m
  let m := s.visitor.foldl (fun m v => if v.1 / 2 ^ 46 == die then
    v.2.dirty.foldl (fun m o => m.put (vLine v.1 + o) (v.2.bytes.getD o 0)) m else m) m
  match rg.bind s.region? with
  | some r => s.fc.foldl (fun m l => if r.tiles.contains (l.1 / 16384) then
      let pa := s.fcPa r l.2
      l.2.mask.foldl (fun m o => m.put (pa + o) (s.spm.get (fcData l.1 + o))) m else m) m
  | none => m

end Sys2Proof.Machine
end

