-- ==== Sys2Proof/Machine/MemOps.lean ====
section
/-! DEFINITION. Memory operations: what one holds from its firing until it has performed (R92, R247 to R255), the
lanes at their memories (R87, R88, R91, R94 to R100), the round log (R300), replies (R95) and full-empty words (R97). -/
namespace Sys2Proof.Machine

/-! ## The shape of an operation -/

inductive OpKind where | load | store | atomic | feLoad | feStore | pref | cache | watch
  deriving DecidableEq, Repr

def Instr.kind : Instr → OpKind
  | .ld .. => .load | .ldb .. => .load | .lds .. => .load
  | .st .. => .store | .stb .. => .store | .sts .. => .store
  | .ldf .. => .feLoad | .ldfe .. => .feLoad
  | .ste .. => .feStore | .stff .. => .feStore
  | .pref .. => .pref
  | .l1wb .. => .cache | .l1inv .. => .cache
  | .watch .. => .watch | .unwatch .. => .watch
  | _ => .atomic

def OpKind.access : OpKind → Access
  | .load => .load | .store => .store | .atomic => .atomic | .feLoad => .feLoad | .feStore => .feStore
  | _ => .load

/-- One address, taken from the lowest participating lane (R94). -/
def Instr.single : Instr → Bool
  | .ldb .. => true | .stb .. => true | .lds .. => true | .sts .. => true
  | .watch .. => true | .unwatch .. => true
  | .l1wb .. => true | .l1inv .. => true
  | _ => false

def Instr.block : Instr → Bool | .ldb .. => true | .stb .. => true | _ => false

/-- Bytes a lane's access covers. -/
def Instr.bytes : Instr → Nat
  | .st _ _ _ _ .half => 2 | .sts _ _ _ _ .half => 2
  | .st _ _ _ _ .byte => 1 | .sts _ _ _ _ .byte => 1
  | .ldb .. => 32 | .stb .. => 32
  | .watch .. => 64 | .unwatch .. => 64
  | _ => 4

/-- Lanes that make an access of their own. -/
def MemOp.lanesMade (o : MemOp) : Mask :=
  if Instr.single o.instr then maskOf fun l => lowest o.part == some l else o.part

/-- The address word of a lane, its ignored bits cleared (R90). -/
def MemOp.addr (o : MemOp) (l : Nat) : Nat :=
  let n := Instr.bytes o.instr
  (o.a.get l).toNat / n * n

def isSp (a : Nat) : Bool := a / 2 ^ 31 == 1

/-- The tile-memory key of a scratchpad address that can be served (R91). -/
def State.spKey (s : State) (rg : Option Nat) (a : Nat) : Option Nat :=
  match rg with
  | none => none
  | some i =>
    match s.region? i with
    | none => none
    | some r =>
      if fld a 28 3 ≠ 0 then none
      else match r.tileAt (fld a 24 4) (fld a 20 4) with
        | none => none
        | some t =>
          let b := (s.tile t).banks.get (fld a 16 4)
          if b.role == .scratch && (s.usable.get (dieOfTile t)).getLsbD (t % 256) then
            some (spmKey t (fld a 16 4) (fld a 0 16))
          else none

/-- The node that serves a byte of tile memory, as tile × 4 + node. -/
def State.nodeIdx (s : State) (key : Nat) : Nat :=
  let t := key / 2 ^ 20
  t * 4 + ((s.tile t).banks.get (key / 65536 % 16)).node
def State.nodeMode (s : State) (key : Nat) : NodeMode :=
  let n := s.nodeIdx key
  ((s.tile (n / 4)).nodes.get (n % 4)).mode

/-- The key a lane of an operation is served at, or nothing (R91). -/
def State.spLane (s : State) (rg : Option Nat) (k : OpKind) (a : Nat) : Option Nat :=
  match k with
  | .feLoad => none
  | .feStore => none
  | _ =>
    match s.spKey rg a with
    | none => none
    | some key =>
      (match s.nodeMode key with
       | .random => if k = .atomic then none else some key
       | .ordered => some key
       | _ => none)

/-! ## Streams (R248) -/

/-- An operation of a stream has performed: PERF passes every ordinal performed without a gap. -/
def perfGo (ahead : List (BitVec 16)) : Nat → BitVec 16 → BitVec 16
  | 0, p => p
  | n + 1, p => if ahead.contains p then perfGo ahead n (p + 1) else p
def Stream.complete (x : Stream) (ord : BitVec 16) : Stream :=
  let all := if x.ahead.contains ord then x.ahead else x.ahead ++ [ord]
  let p := perfGo all all.length x.perf
  { x with perf := p, ahead := all.filter fun o => decide ((o - p).toNat < 2 ^ 15) }

def State.streamDone (s : State) (e st : Nat) (ord : BitVec 16) : State :=
  (s.modElem e fun x => { x with streams := x.streams.set st ((x.streams.get st).complete ord) }).stir (s.elem e).region

/-- The first n operations of a gate's stream have performed. -/
def State.gateDone (s : State) (g : Gate) : Bool :=
  let x := (s.elem g.elem).streams.get g.stream
  decide ((x.perf - g.n).toNat < 2 ^ 15)

/-- The gates of an operation that names the streams of a mask (R253, R255). -/
def State.gatesOf (s : State) (e : Nat) (own : Scope) (mask : Mask) (issued : Oct (BitVec 16)) : List Gate :=
  (lanesOf mask).filterMap fun m =>
    let x := (s.elem e).streams.get m
    match x.src with
    | some (pe, ps) =>
      if !x.set then none
      else some ⟨pe, ps, x.stamp, Scope.max ((s.elem pe).streams.get ps).scope own, some m⟩
    | none => some ⟨e, m, issued.get m, Scope.max x.scope own, none⟩

/-- The gates of an operation open (R253, R255): stores of their streams are pushed out where a wider scope asks for
it, and OPEN of an import takes the time. `none`: a round buffer has no room for them yet (R301). -/
def State.openGates (s : State) (e : Nat) (gs : List Gate) : Option State :=
  tryAll (fun s (g : Gate) =>
    let pushed := if Scope.rank ((s.elem g.elem).streams.get g.stream).scope < Scope.rank g.scope
      then s.pushStream g.elem g.stream g.scope else some s
    pushed.map fun s => match g.viaImport with
      | some m => s.modElem e fun x => { x with streams := x.streams.set m { x.streams.get m with opened := s.now } }
      | none => s) gs s

/-- Visitor lines an operation skips are those filled before this time (R255, R259). -/
def State.skipTime (s : State) (e : Nat) (gs : List Gate) : Option (BitVec 64) :=
  let start : Option Nat := match s.regionOf e with | some (_, r) => some r.startTime.toNat | none => none
  let imports := gs.filterMap fun g => match g.viaImport with
    | some m =>
      let x := (s.elem e).streams.get m
      if 2 ≤ Scope.rank ((s.elem g.elem).streams.get g.stream).scope then some x.opened.toNat else none
    | none => none
  (imports.foldl (fun (m : Option Nat) t => some (max t (m.getD 0))) start).map (BitVec.ofNat 64)

/-! ## The round log (R300, R301) -/

def Region.logOf (r : Region) (t : Nat) : List LogRec := r.log.filter fun x => tileOf x.elem == t

def logBytes (x : LogRec) : List Byte :=
  leBytes 1 (x.elem % 32) ++ leBytes 1 x.kind ++ leBytes 1 (x.stream + x.round % 2 * 128) ++ leBytes 1 x.lanes.toNat ++
  leBytes 2 x.ord.toNat ++ leBytes 1 x.opc ++ leBytes 1 (E.tag x.tag) ++
  x.vals.toList.flatMap (fun w => leBytes 4 w.toNat) ++ leBytes 24 0

def sameLog (x y : LogRec) : Bool :=
  x.elem == y.elem && x.stream == y.stream && x.ord == y.ord && x.round == y.round && x.kind == y.kind

/-- Enter a record, or merge lanes into the record of its firing. -/
def State.logPut (s : State) (rg : Nat) (x : LogRec) : State :=
  match s.region? rg with
  | none => s
  | some r =>
    let t := tileOf x.elem
    let mine := r.logOf t
    let (y, l) : LogRec × List LogRec := match r.log.find? (sameLog x) with
      | some y =>
        let y' := { y with lanes := y.lanes ||| x.lanes, vals := merge x.lanes x.vals y.vals }
        (y', r.log.map fun z => if sameLog x z then y' else z)
      | none =>
        let y := { x with pos := areaUsed (mine.map (·.pos)) mine.length }
        (y, r.log ++ [y])
    let s := s.setRegion rg { r with log := l }
    let held := (Region.logOf { r with log := l } t).length
    let (start, size) := (s.tile t).log
    let s := if 0 < size ∧ (y.pos + 1) * 64 ≤ size then
        { s with spm := s.spm.write (t * 2 ^ 20 + start + y.pos * 64) (logBytes y) } else s
    if 0 < size ∧ size * 3 ≤ held * 64 * 4 then s.askCut rg false [] else s

/-- The LOG area of an element's tile has no room for a new record; an absent area never fills.
See log entry 55 (DEDUCED). -/
def State.logFull (s : State) (e : Nat) : Bool :=
  match s.regionOf e with
  | none => false
  | some (_, r) =>
    let (_, size) := (s.tile (tileOf e)).log
    decide (0 < size ∧ size < ((r.logOf (tileOf e)).length + 1) * 64)

/-- ORD of an operation that has fired (R300), for a record of a round. -/
def State.ordSince (s : State) (e st round : Nat) (ord : BitVec 16) : BitVec 16 :=
  match s.regionOf e with | some (_, r) => ord - r.savedIssued e st round | none => ord

def OpKind.logKind : OpKind → Nat | .load => 1 | .feLoad => 1 | .atomic => 2 | _ => 3

/-- Log the lanes an operation performed on a writable page that is no round page. -/
def State.logLane (s : State) (o : MemOp) (leaf : BitVec 64) (m : Mask) (vals : Oct W) : State :=
  match (s.elem o.elem).region with
  | none => s
  | some rg =>
    if o.plane == .s || !lbit leaf 2 || lbit leaf 5 then s
    else s.logPut rg ⟨o.elem, OpKind.logKind (Instr.kind o.instr), o.stream, o.round, m, s.ordSince o.elem o.stream o.round o.ord,
      opcOf o.instr, o.tag, if (Instr.kind o.instr).logKind = 3 then Oct.rep 0 else vals, 0⟩

/-- A logged access finds no room: a new record is needed and the area is full. -/
def State.logBlocked (s : State) (o : MemOp) (leaf : BitVec 64) : Bool :=
  match s.regionOf o.elem with
  | none => false
  | some (_, r) =>
    o.plane != .s && lbit leaf 2 && !lbit leaf 5 && s.logFull o.elem &&
      !(r.log.any fun x => x.elem == o.elem && x.stream == o.stream && x.round == o.round &&
        x.ord == s.ordSince o.elem o.stream o.round o.ord)

/-! ## Atomics (R99, R100) -/

def atomicNew (i : Instr) (ftz : Bool) (m d d2 : W) : W :=
  match i with
  | .aadd .. => m + d
  | .aadds .. => BitVec.ofInt 32 (max (-(2 ^ 31)) (min (m.toInt + d.toInt) (2 ^ 31 - 1)))
  | .afadd .. => BitVec.ofNat 32 (addPlain F32 ftz m.toNat d.toNat).1
  | .amin .. => if m.toInt ≤ d.toInt then m else d
  | .amax .. => if m.toInt ≤ d.toInt then d else m
  | .aminu .. => if m.toNat ≤ d.toNat then m else d
  | .amaxu .. => if m.toNat ≤ d.toNat then d else m
  | .aand .. => m &&& d
  | .aor .. => m ||| d
  | .axor .. => m ^^^ d
  | .axch .. => d
  | .acas .. => if m = d then d2 else m
  | .atas .. => m ||| (1#32 <<< (d.toNat % 32))
  | .aincw .. => if d.toNat ≤ m.toNat then 0 else m + 1
  | _ => m

/-- What an atomic returns: the old word, but for ATAS the tested bit. -/
def atomicOld (i : Instr) (m d : W) : W :=
  match i with
  | .atas .. => (m >>> (d.toNat % 32)) &&& 1
  | _ => m

/-- The n lowest bytes of a word at offsets from o. -/
def cellsOf (o n : Nat) (x : W) : List (Nat × Byte) := (leBytes n x.toNat).zipIdx.map fun b => (o + b.2, b.1)

/-- The bytes a store writes for a lane, by offset: its own address covers the whole block for STB. -/
def storeCells (o : MemOp) (l : Nat) : List (Nat × Byte) :=
  match o.instr with
  | .stb .. => (lanesOf o.part).flatMap fun k => cellsOf (4 * k) 4 (o.d.get k)
  | _ => cellsOf 0 (Instr.bytes o.instr) (o.d.get l)

/-- Words read from bytes: one per lane for LDB, one broadcast for LDS. -/
def loadVals (o : MemOp) (l : Nat) (bs : List Byte) : Oct W :=
  match o.instr with
  | .ldb .. => Oct.of fun k => if bit o.part k then BitVec.ofNat 32 (natAt bs (4 * k) 4) else o.vals.get k
  | .lds .. => Oct.of fun k => if bit o.part k then BitVec.ofNat 32 (natAt bs 0 4) else o.vals.get k
  | _ => o.vals.set l (BitVec.ofNat 32 (natAt bs 0 4))

/-- Lanes a lane's access performs. -/
def MemOp.performs (o : MemOp) (l : Nat) : Mask :=
  match o.instr with
  | .ldb .. => o.part | .stb .. => o.part | .lds .. => o.part
  | _ => maskOf fun k => k == l

def State.setLane (s : State) (k l : Nat) (x : LaneSt) : State :=
  s.modOp k fun o => { o with lanes := o.lanes.set l x }

def unknownPa : Nat := 2 ^ 64 - 1

/-! ## A lane at its memory node (R87, R88) -/

/-- Lanes of a store that one beat writes cover a whole 32-byte row (R311). -/
def MemOp.coversRow (o : MemOp) (ls : List Nat) : Bool :=
  (match Instr.kind o.instr with | .store => true | _ => false) &&
  (List.range 32).all fun i => ls.any fun l =>
    (storeCells o l).any fun c => (o.addr l + c.1) % 32 == i

/-- A beat has written a whole row of tile memory with unpoisoned data: its poison bit goes (R311). -/
def State.cleanRow (s : State) (key : Nat) : State := { s with poisonRows := removeNat (key / 32) s.poisonRows }

/-- The node applies one lane of an operation. -/
def State.nodeApply (s : State) (k l key : Nat) (o : MemOp) : State :=
  let rg := (s.elem o.elem).region
  let word := s.spm.word key
  let pz := s.spmPoison key (Instr.bytes o.instr)
  let done (o : MemOp) : MemOp :=
    { o with lanes := o.lanes.set l .done, poison := if pz && o.poison.isNone then some unknownPa else o.poison }
  match Instr.kind o.instr with
  | .load => (s.modOp k fun o => { done o with vals := loadVals o l (s.spm.read key (Instr.bytes o.instr)) }).stir rg
  | .atomic =>
    if s.undoFull rg o.round key then s.setLane k l .full
    else
      let new := atomicNew o.instr o.ftz word (o.d.get l) (o.d2.get l)
      let s := s.writeSpm rg o.round (key / 4 * 4) (leBytes 4 new.toNat) false
      (s.modOp k fun o => { done o with vals := o.vals.set l (atomicOld o.instr word (o.d.get l)) }).stir rg
  | _ =>
    if s.undoFull rg o.round key then s.setLane k l .full
    else
      let s := s.writeCells rg o.round key (storeCells o l) false
      (s.modOp k fun o => { o with lanes := o.lanes.set l .done }).stir rg

/-! ## A lane at its home, a visitor line or a bank (R251) -/

def MemOp.acc (o : MemOp) (s : State) : Acc :=
  { who := ⟨o.elem, o.plane, o.slot, o.fires⟩, rg := (s.elem o.elem).region, die := dieOf o.elem, scope := o.scope
    skip := if Scope.rank o.scope < 2 then o.skipBefore else none
    fabric := match Instr.kind o.instr with | .load => true | .store => true | .pref => true | _ => false
    home := match Instr.kind o.instr with | .atomic => true | .feLoad => true | .feStore => true | _ => false
    atom := match Instr.kind o.instr with | .atomic => true | _ => false
    round := o.round, st := o.stream }

/-- The LOG area, or for a round page the round buffer half, has no room for a lane (R301). -/
def State.homeFull (s : State) (o : MemOp) (leaf : BitVec 64) (off pa : Nat) : Bool :=
  let free : Bool := match Instr.kind o.instr with | .watch => true | .pref => true | .cache => true | _ => false
  !free && ((Access.writes (Instr.kind o.instr).access && lbit leaf 5 && (match (s.elem o.elem).region with
      | some rg => s.roundFull rg o.round pa | none => false)) ||
    (match s.place (o.acc s) leaf off pa with
     | .fabric _ _ => !(Access.writes (Instr.kind o.instr).access) && s.logBlocked o leaf
     | _ => s.logBlocked o leaf))

def State.feFull (s : State) (pa : Nat) : Bool := !s.feEmpty.contains (pa / 4)
def State.setFe (s : State) (pa : Nat) (full : Bool) : State :=
  { s with feEmpty := if full then removeNat (pa / 4) s.feEmpty else insertNat (pa / 4) s.feEmpty }

/-- A full-empty lane may act on its word now (R97). -/
def feReady (i : Instr) (full : Bool) : Bool :=
  match i with | .ste .. => !full | .stff .. => true | _ => full

/-- A full-empty lane acts: its read-and-mark or write-and-mark is one step. -/
def State.feAct (s : State) (k l pa : Nat) (leaf : BitVec 64) (o : MemOp) : State :=
  let a := o.acc s
  let off := o.addr l
  let one := maskOf fun j => j == l
  match o.instr with
  | .ste .. | .stff .. =>
    (match s.writeAt a leaf off pa (cellsOf 0 4 (o.d.get l)) false with
     | some s => ((s.setFe pa true).setLane k l .done).logLane o leaf one (Oct.rep 0)
     | none => s.setLane k l .full)
  | _ =>
    (match s.readAt a leaf off pa 4 with
     | some (bs, pz, s) =>
       let v := BitVec.ofNat 32 (leNat bs)
       let s := s.modOp k fun o => { o with
         lanes := o.lanes.set l .done, vals := o.vals.set l v
         poison := if pz && o.poison.isNone then some (pa / 64 * 64) else o.poison }
       let s := match o.instr with | .ldfe .. => s.setFe pa false | _ => s
       s.logLane o leaf one ((Oct.rep 0).set l v)
     | none => s.setLane k l .full)

/-- A full-empty lane at its home slice: it acts, or takes a deferred entry, or is returned (R68). FERETRY counts on the
home's die, and nowhere for a home in another package. See log entry 27 (DEDUCED). -/
def State.feLane (s : State) (k l pa : Nat) (leaf : BitVec 64) (o : MemOp) : State :=
  let t := s.homeTile pa
  if feReady o.instr (s.feFull pa) then s.feAct k l pa leaf o
  else if (s.tile t).deferred.length < 128 then
    let (q, s) := s.fresh
    (s.modTile t fun x => { x with deferred := x.deferred ++ [⟨k, l, pa, q⟩] }).setLane k l (.deferred pa leaf)
  else
    let s := match localDie pa with
      | some d => s.modDie d fun x =>
          { x with feretry := if x.feretry = BitVec.allOnes 32 then x.feretry else x.feretry + 1 }
      | none => s
    s.setLane k l (.returned 256)

/-- L1WB and L1INV (R323): every line that meets the range, in the consist's banks and, with V = 1, in the die's visitor
ways; `none` waits for room in a round buffer, or for a page in transit. A page that does not translate holds no line.
See log entry 73 (DEDUCED). -/
def State.cacheRange (s : State) (o : MemOp) (l : Nat) : Option State :=
  let a := (o.a.get l).toNat
  let n := (o.d.get l).toNat
  let (inv, visit) : Bool × Bool := match o.instr with
    | .l1inv _ _ _ _ v => (true, v)
    | .l1wb _ _ _ _ v => (false, v)
    | _ => (false, false)
  if isSp a ∨ n = 0 then some s
  else match s.regionOf o.elem with
    | none => some s
    | some (rg, r) =>
      let inRange (off : Nat) : Bool := decide (off < a + n ∧ a < off + 64)
      let banks := tryAll (fun s (x : Nat × FcLine) =>
        if r.tiles.contains (x.1 / 16384) && inRange x.2.off then
          (s.fcWriteBack rg x.1).map fun s => if inv then { s with fc := s.fc.del x.1 } else s
        else some s) s.fc s
      if !visit then banks
      else
        let first := a / 64
        let count := (a + n - 1) / 64 - first + 1
        banks.bind (tryAll (fun s i =>
          let va := r.cons.dbase + (first + i) * 64
          if s.inTransit r.die r.asid va then none
          else match s.slicePass r.die r.asid va .load with
            | .inr (lf, s) =>
              let k := vKey (dieOf o.elem) (lf.pa va)
              let s := s.vWriteBack k
              some (if inv then { s with visitor := s.visitor.del k } else s)
            | .inl _ => some s) (List.range count))

/-- PREF (R98): the line of a lane is brought to a visitor way or a fabric cache bank, through the owning TLB slice;
`none` waits for a way of a bank (R82) or a page in transit. Which lines an L2 slice holds beyond these changes no value.
See log entry 73 (DEDUCED). -/
def State.prefetch (s : State) (o : MemOp) (l : Nat) : Option State :=
  let off := o.addr l
  if isSp off then some s
  else match o.instr, s.regionOf o.elem with
    | .pref _ _ _ lv, some (rg, r) =>
      let va := r.cons.dbase + off
      if s.inTransit r.die r.asid va then none
      else match s.slicePass r.die r.asid va .load with
       | .inl _ => some s
       | .inr (lf, s) =>
         let pa := lf.pa va
         let bank := match s.place (o.acc s) lf.bits off pa with | .fabric t b => some (t, b) | _ => none
         let passed : Option State := match bank, lv with
           | some _, .home => some s
           | some _, .fabric => some s
           | _, _ => s.fcBypass (some rg) off
         passed.bind fun s => match lv, bank with
           | .visit, _ =>
             some (if lbit lf.bits 4 || lbit lf.bits 5 || dieKey pa == dieOf o.elem || (s.die (dieOf o.elem)).ways == 0 then s
               else s.vEnsure (dieOf o.elem) pa none)
           | .fabric, some (t, b) => (s.fcLine (o.acc s) t b off pa).map (·.2)
           | _, _ => some s
    | _, _ => some s

/-- WATCH and UNWATCH at the home slice (R163, R175): the result bit is kept in lane 0 of the values. -/
def State.watchApply (s : State) (k l pa : Nat) (o : MemOp) : State :=
  let t := s.homeTile pa
  let line := pa / 64
  let rg := (s.elem o.elem).region.getD 0
  let label := fld (o.d2.get l).toNat 0 7
  let ws := (s.tile t).watches
  let here (w : Watch) : Bool := w.line == line && w.label == label && w.region == rg
  let (new, ok) : List Watch × Bool := match o.instr with
    | .unwatch .. => (ws.filter fun w => !here w, ws.any here)
    | _ =>
      if ws.any here then (ws.map fun w => if here w then { w with mask := o.d.get l } else w, true)
      else if 64 ≤ ws.length then (ws, false)
      else (ws ++ [⟨line, o.d.get l, label, rg⟩], true)
  (s.modTile t fun x => { x with watches := new }).modOp k fun o =>
    { o with lanes := o.lanes.set l .done, vals := o.vals.set 0 (if ok then 1 else 0) }

/-- A lane whose access came to an answer, or found no room: it waits, and its region asks for a cut (R82, R301). -/
def State.orWait (s : State) (k l : Nat) (o : MemOp) (x : Option State) : State :=
  match x with
  | some s => s
  | none => (match (s.elem o.elem).region with | some r => s.askCut r false [] | none => s).setLane k l .full

/-- The tile that serves a lane at a place, and the ns that its answer takes beyond the mesh (R93). -/
def State.servedBy (s : State) (o : MemOp) (pl : Place) (pa : Nat) : Nat × Nat :=
  match pl with
  | .fabric t _ => (t, 0)
  | .visitor => (s.visitTile (dieOf o.elem) pa, 0)
  | .home => (match localDie pa with | some _ => (s.homeTile pa, 0) | none => (tileOf o.elem, 130))

/-- Note the tile that has served a lane: the reply leaves from that of the lowest lane, and an operation without a reply
has performed when the farthest acknowledgement is back (R93, R95). -/
def State.noteServed (s : State) (k l : Nat) (t extra : Nat) : State :=
  s.modOp k fun o =>
    let h := hops t (tileOf o.elem)
    let ns := linkNs t (tileOf o.elem) + extra
    let farther : Bool := match o.far with | some (h', ns') => decide (10 * h' + 17 * ns' < 10 * h + 17 * ns) | none => true
    { o with
      srv := if lowest o.part == some l then some t else o.srv
      extra := if lowest o.part == some l then extra else o.extra
      far := if farther then some (h, ns) else o.far }

/-- A lane of an operation has its value. -/
def MemOp.gives (o : MemOp) (l : Nat) (vals : Oct W) (poison : Option Nat) : MemOp :=
  { o with lanes := o.lanes.set l .done, vals := vals, poison := if o.poison.isNone then poison else o.poison }

/-- A lane finds room at its place (R82, R301): no wait for a buffer, an area or a way of a bank stands before it. -/
def State.canServe (s : State) (o : MemOp) (l pa : Nat) (leaf : BitVec 64) : Bool :=
  let a := o.acc s
  let off := o.addr l
  let reads (n : Nat) : Option (List Byte × Bool × State) := s.readAt a leaf off pa n
  let writes (s : State) (bs : List (Nat × Byte)) : Bool := (s.writeAt a leaf off pa bs false).isSome
  !s.homeFull o leaf off pa && (match Instr.kind o.instr with
    | .load => (reads (Instr.bytes o.instr)).isSome
    | .store => writes s (storeCells o l)
    | .atomic => (match reads 4 with | some r => writes r.2.2 (cellsOf 0 4 0) | none => false)
    | .feLoad => !feReady o.instr (s.feFull pa) || (reads 4).isSome
    | .feStore => !feReady o.instr (s.feFull pa) || writes s (cellsOf 0 4 0)
    | _ => true)

/-- One lane of an operation served at its place. -/
def State.laneApply (s : State) (k l pa : Nat) (leaf : BitVec 64) (o : MemOp) : State :=
  let a := o.acc s
  let off := o.addr l
  let pl := s.place a leaf off pa
  let at_ := s.servedBy o pl pa
  let noted (s : State) : State := s.noteServed k l at_.1 at_.2
  let bad (pz : Bool) : Option Nat := if pz then some (pa / 64 * 64) else none
  let served : State :=
    if s.homeFull o leaf off pa then s.orWait k l o none
    else match Instr.kind o.instr with
      | .load => s.orWait k l o ((s.readAt a leaf off pa (Instr.bytes o.instr)).map fun (bs, pz, s) =>
          ((noted s).modOp k fun o => o.gives l (loadVals o l bs) (bad pz)).logLane o leaf (o.performs l) (loadVals o l bs))
      | .store => s.orWait k l o ((s.writeAt a leaf off pa (storeCells o l) false).map fun s =>
          let s := (noted s).setLane k l .done
          match pl with
          | .fabric _ _ => s
          | _ => s.logLane o leaf (o.performs l) (Oct.rep 0))
      | .atomic => s.orWait k l o ((s.readAt a leaf off pa 4).bind fun (bs, pz, s) =>
          let m := BitVec.ofNat 32 (leNat bs)
          let old := atomicOld o.instr m (o.d.get l)
          (s.writeAt a leaf off pa (cellsOf 0 4 (atomicNew o.instr o.ftz m (o.d.get l) (o.d2.get l))) false).map fun s =>
            ((noted s).modOp k fun o => o.gives l (o.vals.set l old) (bad pz)).logLane o leaf (maskOf fun j => j == l)
              ((Oct.rep 0).set l old))
      | .feLoad => (noted s).feLane k l pa leaf o
      | .feStore => (noted s).feLane k l pa leaf o
      | .pref => s.orWait k l o ((s.prefetch o l).map fun s => s.setLane k l .done)
      | .cache => s.orWait k l o ((s.cacheRange o l).map fun s => s.setLane k l .done)
      | .watch => (noted s).watchApply k l pa o
  served.stir (s.elem o.elem).region

/-! ## Performing and replying (R95, R249) -/

def laneOver : LaneSt → Bool | .off => true | .done => true | .abandoned => true | _ => false
def MemOp.lanesOver (o : MemOp) : Bool := o.lanes.toList.all laneOver

/-- The operation returns a token. -/
def MemOp.replies (o : MemOp) : Bool := o.reply.isSome

/-- An operation of a stream has performed: it leaves, and PERF moves (R248). WATCH and UNWATCH write their predicate
(R175). -/
def State.retire (s : State) (k : Nat) (o : MemOp) : State :=
  let s := { s with ops := s.ops.del k }
  if o.performed then s else
  if o.isWatch then
    match o.watchPu with
    | some (u, m) => s.modElem o.elem fun x =>
        let ps := x.preds o.plane
        x.setPreds o.plane (ps.set u.p.val (updPred u.op m (if o.vals.get 0 = 1 then 0xFF else 0) (ps.get u.p.val)))
    | none => s
  else s.streamDone o.elem o.stream o.ord

/-- The port a reply entry of an element names, on the virtual channel of the plane (R39, R95, R160). -/
def State.replyPort (s : State) (e : Nat) (pl : Plane) (entry : Nat) : Option Nat :=
  match s.regionOf e with
  | none => none
  | some (_, r) =>
    let w := (((s.elem e).reply.get (entry / 8)).get (entry % 8)).toNat
    if fld w 31 1 = 0 then none
    else (r.elemAt (fld w 10 7) (fld w 4 6)).map fun x => portKey x (vcOf pl) (fld w 0 3)

/-- Slots of a reply-fed input that have been freed and of which a tile does not know yet: it learns of one 1 + h cycles
of the consumer's spine later (R95). -/
def State.unseen (s : State) (u p : Nat) : Nat :=
  (s.credits.filter fun c => c.2.port == p && decide (agingCycles - c.2.left ≤ 1 + hops (tileOf (portElem p)) u)).length

/-- A channel input has room for one more token, as a sender in tile u knows it (R95, R156). -/
def State.portSpace (s : State) (u p : Nat) : Bool :=
  match (s.port p).branch with
  | some _ => decide ((s.port p).known < s.capacity p)
  | none => decide ((s.port p).win + s.unseen u p < s.capacity p)

/-- Send a token into an input from a tile: it takes a slot of the window. -/
def State.sendTo (s : State) (src extra fromTile p : Nat) (t : Tok) (ack : Option (Nat × Nat × BitVec 16)) : State :=
  let s := s.modPort p fun x => { x with win := x.win + 1, known := x.known + 1 }
  s.launchFor src extra fromTile p t ack

/-- A POISON token: lanes 0 and 1 hold the address (R311). See log entry 14 (DEDUCED). -/
def poisonTok (pa round : Nat) : Tok :=
  { kind := .poison, tag := .raw, lvm := 3
    data := ((Oct.rep 0).set 0 (BitVec.ofNat 32 pa)).set 1 (BitVec.ofNat 32 (pa / 2 ^ 32)), stamp := 0, round := round }

/-- The token an operation returns (R94, R99): abandoned lanes are cleared (R91). -/
def MemOp.token (o : MemOp) : Tok :=
  match o.poison with
  | some pa => poisonTok pa o.round
  | none =>
    let m := o.part &&& ~~~o.gone
    { kind := .data, tag := o.tag, lvm := m, data := keep m o.vals, stamp := 0, round := o.round }

/-- An earlier operation still owes a token to the same reply entry of the element (R95). -/
def State.replyBehind (s : State) (k : Nat) (o : MemOp) : Bool :=
  s.ops.any fun x => x.1 != k && x.2.elem == o.elem && x.2.reply == o.reply && decide (x.2.seq < o.seq)

/-- Where a reply waits and leaves from (R95): the tile that has served the operation's lowest lane.
See log entry 19 (DEDUCED). -/
def State.replyTile (_ : State) (o : MemOp) : Nat := o.srv.getD (tileOf o.elem)

/-! ## The firing of an operation (R92, R94, R99) -/

/-- The plain operation a firing makes. -/
def Ctx.plainOp (c : Ctx) (i : Instr) (st : Nat) (a d d2 : Oct W) (reply : Option Nat) (tag : Tag) : MemOp :=
  { instr := i, elem := c.e, plane := c.pl, slot := c.slot, stream := st, ord := 0
    scope := (c.el.streams.get st).scope, skipBefore := none, gates := [], a := a, d := d, d2 := d2
    part := c.part i, ftz := c.ftz, reply := reply, tag := tag, lanes := Oct.rep .off, vals := Oct.rep 0
    poison := none, gone := 0, logged := 0, fires := c.el.fires, round := c.el.tokRound, firedIn := c.el.round, asked := [], gated := false
    performed := false, left := 0, due := 0, seq := 0, isWatch := false, watchPu := none
    srv := none, extra := 0, far := none, back := none, owed := false }

/-- ISSUED moves past the placeholders that replay skips and past the operation itself; the skipped ordinals count as
performed (R304). -/
def issueSkip (x : Stream) : Nat → Stream
  | 0 => x
  | n + 1 => issueSkip ({ x with issued := x.issued + 1 }.complete x.issued) n

/-- A firing joins its stream (R248, R300, R304): its ordinal, its record in the log being replayed, and its gates. -/
def Ctx.joinStream (c : Ctx) (st : Nat) (mask : Mask) (s : State) : BitVec 16 × Option LogRec × List Gate × State :=
  let x := (s.elem c.e).streams.get st
  let y := issueSkip x (c.s.ordOf c.e c.pl st - s.ordSince c.e st c.el.tokRound x.issued).toNat
  let s := s.modElem c.e fun z => { z with streams := z.streams.set st { y with issued := y.issued + 1 } }
  let gs := s.gatesOf c.e x.scope mask (((s.elem c.e).streams.map (·.issued)).set st y.issued)
  (y.issued, c.s.logged c.e c.pl st, gs, s)

/-- Plane S leaves a placeholder in the round log for the ordinal an operation takes (R300, R313); `none` when the LOG area
is full (R301). -/
def State.putHolder (s : State) (e : Nat) (pl : Plane) (st round : Nat) (ord : BitVec 16) (i : Instr) : Option State :=
  match pl, (s.elem e).region with
  | .s, some rg =>
    if s.logFull e then none
    else some (s.logPut rg ⟨e, 5, st, round, 0, s.ordSince e st round ord, opcOf i, .raw, Oct.rep 0, 0⟩)
  | _, _ => some s

/-- The placeholder of a firing, and whether it is still owed. -/
def Ctx.placeholder (c : Ctx) (i : Instr) (st : Nat) (ord : BitVec 16) (s : State) : Bool × State :=
  match s.putHolder c.e c.pl st c.el.tokRound ord i with
  | some s => (false, s)
  | none => (true, s)

/-- An operation joins its stream (R253, R255): lanes that the log of a replay holds are done already (R304). -/
def Ctx.startOp (c : Ctx) (o : MemOp) (mask : Mask) (s : State) : State :=
  let (k, s) := s.fresh
  let (ord, rec', gs, s) := c.joinStream o.stream mask s
  let lm : Mask := match rec' with | some r => r.lanes | none => 0
  let (owed, s) := c.placeholder o.instr o.stream ord s
  let o := { o with
    ord := ord, gates := gs, seq := k, logged := lm, owed := owed
    vals := match rec' with | some r => keep r.lanes r.vals | none => o.vals
    lanes := Oct.of fun l => if bit (o.lanesMade) l then (if bit lm l then .done else .wait) else .off }
  { s with ops := s.ops.put k o }

/-- A load of class 0xA. -/
def fireLoad (i : Instr) (st : Fin 8) (m : BitVec 8) (a : Src) (r : Fin 32) (t : Tag) (s : State) :
    Host.Outcome State Fault Refusal :=
  fireWith i s (fun _ => {}) fun c s => c.startOp (c.plainOp i st (c.val a) (Oct.rep 0) (Oct.rep 0) (some r.val) t) m s

/-- An operation with data and no reply. -/
def fireStore (i : Instr) (st : Fin 8) (m : BitVec 8) (a d : Src) (s : State) : Host.Outcome State Fault Refusal :=
  fireWith i s (fun _ => {}) fun c s => c.startOp (c.plainOp i st (c.val a) (c.val d) (Oct.rep 0) none .raw) m s

/-- An atomic: the reply's tag is INT32, or FP32 for AFADD. -/
def fireAtomic (i : Instr) (st : Fin 8) (m : BitVec 8) (a d : Src) (d2 : Ctx → Oct W) (r : Option (Fin 7)) (t : Tag)
    (s : State) : Host.Outcome State Fault Refusal :=
  fireWith i s (fun _ => {}) fun c s =>
    c.startOp (c.plainOp i st (c.val a) (c.val d) (d2 c) (r.map (·.val)) t) m s

end Sys2Proof.Machine
end

