-- ==== Sys2Proof/Machine/Rings.lean ====
section
/-! DEFINITION. Rings, ring groups (R83, R117) and spill rings (R157). -/
namespace Sys2Proof.Machine

def Ring.occ (g : Ring) : Nat := (g.tail - g.head).toNat
def Ring.key (g : Ring) (off : Nat) : Nat := spmKey g.tile g.bank (g.base + (g.hpos + off) % g.size)

def State.ring? (s : State) (rg i : Nat) : Option Ring :=
  match s.region? rg with | some r => r.rings[i]? | none => none
def State.modRing (s : State) (rg i : Nat) (f : Ring → Ring) : State :=
  s.modRegion rg fun r => match r.rings[i]? with | some g => { r with rings := r.rings.set i (f g) } | none => r

/-- The ring moves by n bytes at its head. -/
def Ring.pop (g : Ring) (n : Nat) : Ring :=
  { g with head := g.head + BitVec.ofNat 32 n, hpos := (g.hpos + n) % g.size }
def Ring.push (g : Ring) (n : Nat) : Ring := { g with tail := g.tail + BitVec.ofNat 32 n }

/-- Write 32 bytes at the tail and advance it. Ring bytes have no undo record (R84). See log entry 43 (DEDUCED). -/
def State.pushBlock (s : State) (rg i : Nat) (bytes : List Byte) (poison : Bool) : State :=
  match s.ring? rg i with
  | some g => (s.writeSpm none 0 (g.key g.occ) bytes poison).modRing rg i fun g => g.push 32
  | none => s

/-- The block that lies `off` bytes behind the head, and whether its row is poisoned. -/
def State.blockAt (s : State) (rg i off : Nat) : List Byte × Bool :=
  match s.ring? rg i with
  | some g => (s.spm.read (g.key off) 32, s.spmPoison (g.key off) 32)
  | none => ([], false)

def State.popRing (s : State) (rg i n : Nat) : State := s.modRing rg i fun g => g.pop n

/-! ## Ring groups (R117) -/

/-- The rings of a group of width w from f: w distinct banks of one tile, equal sizes, no spill ring among them. -/
def Region.group? (r : Region) (f w : Nat) : Option (List Ring) :=
  let gs := (List.range w).filterMap fun i => r.rings[f + i]?
  match gs with
  | g :: _ =>
    if gs.length = w && (gs.all fun x => x.tile == g.tile && x.size == g.size && x.spill.isNone) &&
        (List.range w).all (fun i => (List.range w).all fun j =>
          i == j || (gs.map (·.bank)).getD i 0 != (gs.map (·.bank)).getD j 0)
    then some gs else none
  | [] => none

/-- The ring of block j of a stream over a group. -/
def groupRing (f w j : Nat) : Nat := f + j % w

/-- Blocks j0 … j0 + n − 1 lie in the group. -/
def State.groupHolds (s : State) (rg f w j0 n : Nat) : Bool :=
  (List.range n).all fun k =>
    match s.ring? rg (groupRing f w (j0 + k)) with | some g => decide (32 * (k / w + 1) ≤ g.occ) | none => false

/-- The group has space for n blocks from block j0 on. -/
def State.groupRoom (s : State) (rg f w j0 n : Nat) : Bool :=
  (List.range n).all fun k =>
    match s.ring? rg (groupRing f w (j0 + k)) with | some g => decide (g.occ + 32 * (k / w + 1) ≤ g.size) | none => false

/-- Blocks j0 … j0 + n − 1, with their poison. -/
def State.groupRead (s : State) (rg f w j0 n : Nat) : List (List Byte × Bool) :=
  (List.range n).map fun k => s.blockAt rg (groupRing f w (j0 + k)) (32 * (k / w))

def State.groupPop (s : State) (rg f w j0 n : Nat) : State :=
  forAll (fun s k => s.popRing rg (groupRing f w (j0 + k)) 32) (List.range n) s

def State.groupPush (s : State) (rg f w j0 : Nat) (blocks : List (List Byte × Bool)) : State :=
  forAll (fun s (b : (List Byte × Bool) × Nat) => s.pushBlock rg (groupRing f w (j0 + b.2)) b.1.1 b.1.2) blocks.zipIdx s

/-! ## Spilled tokens (R157) -/

def kindNum : Kind → Nat
  | .data => 0 | .eos => 1 | .hdr => 2 | .cfg => 3 | .mark => 4 | .recon => 5 | .poison => 6
def kindOf : Nat → Kind
  | 0 => .data | 1 => .eos | 2 => .hdr | 3 => .cfg | 4 => .mark | 5 => .recon | _ => .poison

end Sys2Proof.Machine
end

