-- ==== Sys2Proof/Machine/Engines.lean ====
section
/-! DEFINITION. Engine commands (R102 to R109, R121, R131, R132): descriptors and their checks, entries, firing a
command, its end, ECHK and ECAN. The units work in EngineSteps.lean. -/
namespace Sys2Proof.Machine

/-! ## Commands and where they are kept -/

/-- A command by its name: element × 8 + entry, or from 2^20 on an armed command of a region. -/
def State.cmd? (s : State) (id : Nat) : Option Cmd :=
  if id < 2 ^ 20 then (s.elem (id / 8)).cmds.get (id % 8) else s.armed.get? id
def State.setCmd (s : State) (id : Nat) (c : Cmd) : State :=
  if id < 2 ^ 20 then s.modElem (id / 8) fun x => { x with cmds := x.cmds.set (id % 8) (some c) }
  else { s with armed := s.armed.put id c }
def State.modCmd (s : State) (id : Nat) (f : Cmd → Cmd) : State :=
  match s.cmd? id with | some c => s.setCmd id (f c) | none => s
def State.cmdRegion (s : State) (id : Nat) : Option Nat :=
  if id < 2 ^ 20 then (s.elem (id / 8)).region else s.armedOf.get? id

/-- Lane l of the descriptor as a number. -/
def Cmd.lane (c : Cmd) (l : Nat) : Nat := (c.desc.get l).toNat
def Cmd.ctag (c : Cmd) : Nat := fld (c.lane 5) 0 16

/-- NEEDID when it is well formed (R103). -/
def needOf (w : W) : Option W :=
  let n := w.toNat
  if w = BitVec.allOnes 32 ∨ fld n 0 7 ≠ 0 ∨ 32 ≤ fld n 9 6 then none else some w

/-- The status word (R106). -/
def CmdSt.num : CmdSt → Nat | .none => 0 | .waiting => 1 | .running => 2 | .done => 3 | .cancelled => 4 | .faulted => 5
def CmdCause.num : CmdCause → Nat
  | .none => 0 | .desc => 1 | .spaddr => 2 | .bounds => 3 | .ringloc => 4 | .nounit => 5 | .codeerr => 6
  | .xlate => 7 | .abandon => 8 | .linkdown => 9
def Cmd.status (c : Cmd) : W :=
  BitVec.ofNat 32 (c.st.num * 2 ^ 28 + (match c.st with | .faulted => c.cause.num | _ => 0) * 2 ^ 24 +
    (if c.late then 2 ^ 23 else 0) + (if c.nv then 2 ^ 22 else 0) + (if c.ovf then 2 ^ 21 else 0) + c.ctag)
def Cmd.over (c : Cmd) : Bool := match c.st with | .done => true | .cancelled => true | .faulted => true | _ => false

/-! ## Island addresses (R12, R121) -/

/-- Number of an island on its die: clockwise from the north edge. -/
def islandNum (row col : Nat) : Nat → Nat
  | 0 => col | 1 => 16 + row | 2 => 32 + (15 - col) | _ => 48 + (15 - row)
/-- A tile of the die lies on an edge of it: north, east, south, west. -/
def onDieEdge (t : Nat) : Nat → Bool
  | 0 => t % 256 / 16 == 0 | 1 => t % 16 == 15 | 2 => t % 256 / 16 == 15 | _ => t % 16 == 0
/-- Key of the island of a region's island address, and its tile; nothing where the edge is not declared, or is no edge
of the die. -/
def Region.island? (r : Region) (a : Nat) : Option (Nat × Nat) :=
  let (tr, tc, edge) := (fld a 8 4, fld a 4 4, fld a 0 2)
  match r.tileAt tr tc with
  | none => none
  | some t =>
    let onEdge : Bool := match edge with
      | 0 => tr == 0 | 1 => tc + 1 == r.w | 2 => tr + 1 == r.h | _ => tc == 0
    if onEdge && onDieEdge t edge && r.cons.edges.testBit edge then
      some ((dieOfTile t) * 64 + islandNum (t % 256 / 16) (t % 16) edge, t)
    else none
/-- The tile an island key belongs to. -/
def islandTile (k : Nat) : Nat :=
  let i := k % 64
  let (row, col) := match i / 16 with
    | 0 => (0, i) | 1 => (i - 16, 15) | 2 => (15, 15 - (i - 32)) | _ => (15 - (i - 48), 0)
  k / 64 * 256 + row * 16 + col

inductive Unit' where | copy | tender | island | ring | link | spill
  deriving DecidableEq, Repr

def Instr.unit : Instr → Unit'
  | .strm .. => .tender | .mxmm .. => .island | .mxsort .. => .island
  | .ringi .. => .ring | .ringa .. => .ring | .spill .. => .spill | .linkx .. => .link
  | _ => .copy

/-- The unit of a command that can be full: a tile's copy engine, or from 2^20 a tender, from 2^21 an island. -/
def State.unitKey (s : State) (id : Nat) (c : Cmd) : Option Nat :=
  match Instr.unit c.instr with
  | .copy => some (tileOf (id / 8))
  | .tender => (islandOf s id c).map (2 ^ 20 + ·)
  | .island => (islandOf s id c).map (2 ^ 21 + ·)
  | _ => none
where islandOf (s : State) (id : Nat) (c : Cmd) : Option Nat :=
  match s.cmdRegion id with
  | some rg => (s.region? rg).bind fun r => (r.island? (fld (c.lane 0) 0 12)).map (·.1)
  | none => none
def unitCap (u : Nat) : Nat := if u < 2 ^ 20 then 64 else 2

/-- A command works at its unit: a copy engine runs the first 16 it has accepted, a tender or an island one. -/
def State.atWork (s : State) (id : Nat) (c : Cmd) : Bool :=
  match s.unitKey id c with
  | some u =>
    let l := s.unitRun.getD u []
    (if u < 2 ^ 20 then l.take 16 else l.take 1).contains id
  | none => true

/-! ## Descriptor checks (R108, R112 to R130) -/

def Oct.nat (d : Oct W) (l : Nat) : Nat := (d.get l).toNat

/-- A reply entry of an element is valid (R39). -/
def Elem.replyValid (x : Elem) (n : Nat) : Bool := ((x.reply.get (n / 8)).get (n % 8)).getLsbD 31

def w32 (n : Nat) : Bool := n % 32 == 0
def iaddrOk (n : Nat) : Bool := fld n 2 2 == 0

/-- MXMM's fields break no limit (R125). See log entry 45 (DEDUCED). -/
def mxmmOk (d : Oct W) : Bool :=
  let l (i : Nat) := Oct.nat d i
  let fmt := fld (l 4) 16 4
  let coded := fld (l 4) 21 1 == 1
  iaddrOk (l 0) && fld (l 0) 12 4 == 0 && fld (l 0) 24 8 == 0 && fld (l 3) 24 8 == 0 &&
  decide (1 ≤ fld (l 3) 16 8 ∧ fld (l 3) 16 8 ≤ 64 ∧ 1 ≤ fld (l 3) 0 16) && fld (l 4) 22 10 == 0 &&
  decide (fmt ≤ 4 ∧ 1 ≤ fld (l 4) 8 8 ∧ fld (l 4) 8 8 ≤ 64 ∧ 1 ≤ fld (l 4) 0 8) &&
  decide (fld (l 4) 0 8 ≤ if fmt ≤ 1 then 64 else 128) && (!coded || fmt == 2 || fmt == 3) &&
  (fld (l 4) 20 1 == 0 || fmt != 4)

/-- The descriptor of a command breaks no limit of its entry. `e` is the issuing element. See log entry 45 (DEDUCED). -/
def State.descOk (s : State) (e : Nat) (i : Instr) (d : Oct W) : Bool :=
  let l (n : Nat) := Oct.nat d n
  let x := s.elem e
  let hi5 := fld (l 5) 16 16 == 0
  let ring (n : Nat) : Option Ring := match x.region with | some rg => s.ring? rg n | none => none
  match i with
  | .copy .. => decide (l 2 < 2 ^ 31) && l 3 == 0 && l 4 == 0 && hi5
  | .copy2d .. => decide (1 ≤ fld (l 2) 16 16 ∧ 1 ≤ fld (l 2) 0 16) && hi5
  | .redc .. => decide (l 2 < 2 ^ 31) && l 2 % 4 == 0 && l 3 == 0 && l 4 == 0 && hi5
  | .linkx .. =>
    let toRing := fld (l 3) 31 1 == 1
    decide (l 2 < 2 ^ 31) && (!toRing || w32 (l 2)) && (toRing || decide (l 1 < 2 ^ 31)) && fld (l 3) 8 23 == 0 &&
    l 4 == 0 && hi5
  | .gath .. | .scat .. => decide (1 ≤ l 3 ∧ l 3 < 2 ^ 24) && l 4 == 0 && hi5
  | .strm _ _ _ _ chan =>
    iaddrOk (l 0) && fld (l 0) 12 4 == 0 && fld (l 0) 18 14 == 0 && w32 (l 2) && decide (32 ≤ l 2 ∧ l 2 < 2 ^ 31) &&
    (if chan then
      fld (l 1) 16 16 == 0 && fld (l 3) 5 3 == 0 && fld (l 3) 11 21 == 0 && x.replyValid (fld (l 3) 0 5) && l 4 == 0 &&
      hi5
     else w32 (l 1) && fld (l 3) 0 16 != 0xFFFF && fld (l 5) 17 15 == 0)
  | .mxmm .. => mxmmOk d
  | .mxsort .. =>
    iaddrOk (l 0) && fld (l 0) 12 20 == 0 && decide (1 ≤ l 2 ∧ l 2 ≤ 4096) && fld (l 3) 16 2 != 3 &&
    fld (l 3) 5 3 == 0 && fld (l 3) 13 3 == 0 && fld (l 3) 19 13 == 0 && x.replyValid (fld (l 3) 0 5) &&
    x.replyValid (fld (l 3) 8 5) && l 4 == 0 && hi5
  | .ringi .. =>
    fld (l 0) 16 16 == 0 && w32 (l 1) && w32 (l 2) && l 3 == 0 && l 4 == 0 && hi5 &&
    (match ring (l 0) with | some g => decide ((d.get 2 - d.get 1).toNat ≤ g.size) | none => true)
  | .ringa .. =>
    fld (l 0) 16 16 == 0 && w32 (l 1) && hi5 &&
    (match ring (l 0) with | some g => decide (l 1 ≤ g.size) | none => true)
  | .spill .. =>
    hi5 && (fld (l 0) 0 16 == 0xFFFF ||
      (match ring (fld (l 0) 0 16) with | some g => g.size % 64 == 0 | none => true))
  | _ => true

/-- The error a command meets when it reaches its unit (R108): no such island, or a ring or group that will not do.
See log entry 46 (DEDUCED). -/
def State.unitCause (s : State) (id : Nat) (c : Cmd) : CmdCause :=
  match s.cmdRegion id with
  | none => .abandon
  | some rg =>
    match s.region? rg with
    | none => .abandon
    | some r =>
      let l := c.lane
      let isl := r.island? (fld (l 0) 0 12)
      let grp (f w : Nat) (tile : Option Nat) : Bool := match r.group? f w with
        | some (g :: _) => (match tile with | some t => g.tile == t | none => true)
        | _ => false
      let plain (n : Nat) : Bool := match r.rings[n]? with | some g => g.spill.isNone | none => false
      match c.instr with
      | .strm _ _ _ _ chan =>
        (match isl with
         | none => .nounit
         | some (_, t) =>
           let w := 2 ^ fld (l 0) 16 2
           if chan then (if grp (fld (l 1) 0 16) w (some t) then .none else .ringloc)
           else
             let brs := [fld (l 3) 0 16, fld (l 3) 16 16, fld (l 4) 0 16, fld (l 4) 16 16].filter (· ≠ 0xFFFF)
             if brs.all fun f => grp f w none then .none else .ringloc)
      | .mxmm .. =>
        (match isl with
         | none => .nounit
         | some (_, t) =>
           let w (p : Nat) := 2 ^ fld (l 0) p 2
           if grp (fld (l 1) 0 16) (w 16) (some t) && grp (fld (l 1) 16 16) (w 18) (some t) &&
               grp (fld (l 2) 0 16) (w 20) (some t) &&
               (fld (l 2) 16 16 == 0xFFFF || grp (fld (l 2) 16 16) (w 22) (some t)) then .none else .ringloc)
      | .mxsort .. =>
        (match isl with
         | none => .nounit
         | some _ =>
           if plain (fld (l 1) 0 16) && (fld (l 1) 16 16 == 0xFFFF || plain (fld (l 1) 16 16)) then .none else .ringloc)
      | .ringi .. => if plain (fld (l 0) 0 16) then .none else .ringloc
      | .ringa .. => if plain (fld (l 0) 0 16) then .none else .ringloc
      | .spill .. =>
        let n := fld (l 0) 0 16
        if n = 0xFFFF then .none
        else (match r.rings[n]? with
          | some g => if g.tile == tileOf (id / 8) then .none else .ringloc
          | none => .ringloc)
      | .linkx .. => if r.peers.any fun p => p.1 == fld (l 3) 0 8 then .none else .nounit
      | _ => .none

/-! ## The end of a command (R104 to R109) -/

/-- The region's pages that bytes of the data area lie on are no RND pages. -/
def State.plainPages (s : State) (r : Region) (a n : Nat) : Bool :=
  (List.range (n / 65536 + 2)).all fun i =>
    let off := min (a + i * 65536) (a + n - 1)
    match s.walkTables r.die r.asid (r.cons.dbase + off) with | .ok l _ => !lbit l.bits 5 | .fault _ _ => true

/-- A word of memory as a region sees it, at a data-area or scratchpad address. -/
def State.viewWord (s : State) (rg : Nat) (r : Region) (a : Nat) : Option W :=
  if isSp a then (s.spKey (some rg) a).map fun k => s.spm.word k
  else match s.walkTables r.die r.asid (r.cons.dbase + a) with
    | .ok l _ => some ((s.viewMem (some rg) r.die).word (l.pa (r.cons.dbase + a)))
    | .fault _ _ => none

/-- A command that the round log records (R109). -/
def State.loggedCmd (s : State) (rg : Nat) (r : Region) (c : Cmd) : Bool :=
  let l := c.lane
  let plain (a n : Nat) : Bool := !isSp a && (n == 0 || s.plainPages r a n)
  match c.instr with
  | .copy .. => plain (l 1) (l 2)
  | .copy2d .. => plain (l 1) (fld (l 2) 0 16) && (List.range (fld (l 2) 16 16)).all fun i =>
      plain ((c.desc.get 1 + BitVec.ofNat 32 i * c.desc.get 4).toNat) (fld (l 2) 0 16)
  | .gath _ _ _ _ e => plain (l 2) (l 3 * (4 * 2 ^ e.val))
  | .scat _ _ _ _ e =>
    !isSp (l 0) && (List.range c.out).all fun i =>
      match s.viewWord rg r ((c.desc.get 1).toNat / 4 * 4 + 4 * i) with
      | some x => plain ((l 0 + x.toNat * (4 * 2 ^ e.val)) % 2 ^ 31) (4 * 2 ^ e.val)
      | none => true
  | .linkx .. => fld (l 3) 31 1 == 0
  | _ => false

/-- The command whose beat a transfer is. -/
def XWhat.cmd : XWhat → Option Nat
  | .lane .. => none | .read k => some k | .beat k _ _ => some k | .branch k _ _ => some k

/-- Some of a command's beats do not move any more: their requests leave the arbiters. -/
def State.dropBeats (s : State) (id : Nat) (gone : XWhat → Bool) : State :=
  let mine (x : Xfer) : Bool := x.what.cmd == some id && gone x.what
  { s with arbs := s.arbs.map fun a => (a.1, { a.2 with xfers := a.2.xfers.filter fun x => !mine x }) }

/-- A beat of a read, which a command that issues nothing more does not make (R108, R132). -/
def XWhat.isRead : XWhat → Bool
  | .read _ => true | .beat _ .source _ => true | .beat _ .index _ => true | _ => false

/-- A command issues no further read: what it has asked for goes, and what it has read is written (R108, R132). -/
def Cmd.noReads (c : Cmd) : Cmd :=
  { c with rd := false, grR := false, src := .empty, idx := .empty, idxWay := none, ways := [], issPos := c.srcPos, srcRdy := [] }

/-- A command leaves its unit: its place frees and its pending beats go. -/
def State.leaveUnit (s : State) (id : Nat) (c : Cmd) : State :=
  let s := match s.unitKey id c with
    | some u => { s with
        unitRun := s.unitRun.put u ((s.unitRun.getD u []).filter (· ≠ id))
        unitWait := s.unitWait.put u ((s.unitWait.getD u []).filter (· ≠ id)) }
    | none => s
  let s := s.dropBeats id fun _ => true
  { s with
    pwalks := s.pwalks.map fun p => (p.1, { p.2 with waiters := p.2.waiters.filter fun q => !(Waiter.beq q.who (.cmd id)) }) }

/-- Free a command entry that owes nothing more (R104). -/
def State.freeEntry (s : State) (id : Nat) : State :=
  if id < 2 ^ 20 then s.modElem (id / 8) fun x =>
    { x with free := if x.free.contains (id % 8) then x.free else x.free ++ [id % 8] }
  else { s with armed := s.armed.del id, armedOf := s.armedOf.del id }

/-- An update of a join cell on its way to the join unit (R162). -/
def joinAdd (cell : Nat) (delta : W) (round : Nat) : JoinMsg := ⟨cell, none, delta, true, round⟩

def JoinCell.zero : JoinCell := ⟨0, none, 0, none⟩
def State.modCell (s : State) (rg i : Nat) (f : JoinCell → JoinCell) : State :=
  s.modRegion rg fun r => { r with joins := r.joins.put i (f (r.joins.getD i JoinCell.zero)) }

/-- The region whose round log takes a record of a command that ends so (R109, R300): its descriptor was good, no abort
ended it, and the log does not answer it already. See log entry 77 (DEDUCED). -/
def State.cmdLog (s : State) (id : Nat) (c : Cmd) (cause : CmdCause) : Option (Nat × Region) :=
  if 2 ^ 20 ≤ id ∨ c.logged ∨ c.plane = .s ∨ cause = .desc ∨ cause = .xlate ∨ cause = .abandon then none
  else match s.regionOf (id / 8) with
    | some (rg, r) => if s.loggedCmd rg r c then some (rg, r) else none
    | none => none

/-- A command that would end has to wait for room in the LOG area (R301). -/
def State.endBlocked (s : State) (id : Nat) (c : Cmd) (cause : CmdCause) : Bool :=
  (s.cmdLog id c cause).isSome && s.logFull (id / 8)

/-- A command ends (R106 to R109): it performs, its place frees, its record enters the round log, and a fault stops the
issuing element; one that a replay answers from the log stops nothing again. An armed one subtracts 1 from its join cell,
which is no update and tests nothing (R162, R275, R326). See log entry 77 (DEDUCED). -/
def State.endCmd (s : State) (id : Nat) (st : CmdSt) (cause : CmdCause) : State :=
  match s.cmd? id with
  | none => s
  | some c =>
    let s := s.leaveUnit id c
    let (q, s) := s.fresh
    let c := { c with
      endSeq := q, endRound := (s.elem (id / 8)).tokRound, st := st, cause := cause, performed := true
      tokenDue := c.reply.isSome, staged := [], snap := [], mem0 := [], poison0 := [], owed := false, acc := [], accPz := []
      dec := [], decPz := [], scales := [], spare := [], busy := false, wr := .empty, brAsk := [], brGot := [] }
    let s := s.setCmd id c.noReads
    if id < 2 ^ 20 then
      let e := id / 8
      let s := s.streamDone e c.stream c.ord
      let s := match s.regionOf e with
        | some (_, r) => if (s.elem e).ended then s.modWalk r.walk fun w => { w with trail := w.trail + 1 } else s
        | none => s
      let s : State := match s.cmdLog id c cause with
        | some (rg, _) =>
          let rd := (s.elem e).tokRound
          s.logPut rg ⟨e, 4, c.stream, rd, 0, s.ordSince e c.stream rd c.ord, opcOf c.instr, .raw,
            ((Oct.rep 0).set 0 c.status).set 1 c.progress, 0⟩
        | none => s
      let s := if st = .faulted ∧ !c.logged ∧ cause ≠ .xlate ∧ cause ≠ .abandon then
          s.stall e 9 c.plane c.slot false c.fires c.firedIn c.status c.progress
        else s
      if c.reply.isSome then s else s.freeEntry id
    else
      let s := match s.armedOf.get? id, c.jc with
        | some rg, some j => s.modCell rg j fun x => { x with val := x.val - 1 }
        | _, _ => s
      s.freeEntry id

/-! ## The firing of a command (R102 to R109) -/

def freshCmd (i : Instr) : Cmd :=
  { st := .waiting, cause := .none, late := false, nv := false, ovf := false, instr := i, desc := Oct.rep 0
    plane := .work, slot := 0, stream := 0, scope := .tile, ord := 0, gates := [], skipBefore := none, reply := none
    fires := 0, round := 0, firedIn := 0, ftz := false, progress := 0, pos := 0, out := 0, tile := 0, staged := []
    snap := [], mem0 := [], poison0 := [], owed := false, acc := [], accPz := [], dec := [], decPz := [], tint := false
    scales := [], begun := false, busy := false, left := 0, spare := [], reached := false, accepted := false, rd := false
    grR := false, ports := [], lateAt := [], srcPos := 0, issPos := 0, ways := [], src := .empty, srcRdy := []
    idx := .empty, idxWay := none, wr := .empty, ackBy := none, brAsk := [], brGot := []
    performed := false, tokenDue := false, endStep := false, eosSent := false, count := 0, loading := false
    endSeq := 0, endRound := 0, jc := none, logged := false }

/-- Branches of a STRM to rings (R122): first rings, and the group width. -/
def Cmd.branches (c : Cmd) : List Nat :=
  let l := c.lane
  [fld (l 3) 0 16, fld (l 3) 16 16, fld (l 4) 0 16, fld (l 4) 16 16].filter (· ≠ 0xFFFF)
def Cmd.wide (c : Cmd) : Nat := 2 ^ fld (c.lane 0) 16 2

/-- The fields of an MXMM. -/
structure Mx where
  k : Nat
  n : Nat
  fmt : Nat
  esz : Nat
  outbf : Bool
  coded : Bool
  a : Nat × Nat            -- first ring and width
  b : Nat × Nat
  c : Nat × Nat
  cin : Option (Nat × Nat)
  rbA : Nat                -- row bytes
  rbB : Nat
  rbC : Nat
  rbI : Nat

def pad32 (n : Nat) : Nat := (n + 31) / 32 * 32

def Cmd.mx (c : Cmd) : Mx :=
  let l := c.lane
  let w (p : Nat) := 2 ^ fld (l 0) p 2
  let k := fld (l 4) 0 8
  let n := fld (l 4) 8 8
  let fmt := fld (l 4) 16 4
  let esz := if fmt ≤ 1 then 2 else 1
  let outbf := fld (l 4) 20 1 == 1
  { k := k, n := n, fmt := fmt, esz := esz, outbf := outbf, coded := fld (l 4) 21 1 == 1
    a := (fld (l 1) 0 16, w 16), b := (fld (l 1) 16 16, w 18), c := (fld (l 2) 0 16, w 20)
    cin := if fld (l 2) 16 16 = 0xFFFF then none else some (fld (l 2) 16 16, w 22)
    rbA := pad32 (k * esz), rbB := pad32 (n * esz), rbC := pad32 (n * (if outbf then 2 else 4)), rbI := pad32 (n * 4) }

/-- Rings that a command produces into, and rings that it pops (R122, R125, R130). -/
def Cmd.ringUse (c : Cmd) : List Nat × List Nat :=
  let grp (x : Nat × Nat) : List Nat := (List.range x.2).map fun i => x.1 + i
  let l := c.lane
  match c.instr with
  | .strm _ _ _ _ chan => if chan then ([], grp (fld (l 1) 0 16, c.wide)) else (c.branches.flatMap fun f => grp (f, c.wide), [])
  | .mxmm .. =>
    let m := c.mx
    (grp m.c, grp m.a ++ grp m.b ++ (match m.cin with | some x => grp x | none => []))
  | .mxsort .. => ([], [fld (l 1) 0 16, fld (l 1) 16 16])
  | .ringi .. => ([fld (l 0) 0 16], [fld (l 0) 0 16])
  | .ringa .. => ([fld (l 0) 0 16], [fld (l 0) 0 16])
  | _ => ([], [])

/-- The rings that a command of element e moves are from now on moved by it. See log entry 53 (DEDUCED). -/
def State.claimRings (s : State) (e : Nat) (c : Cmd) : State :=
  match (s.elem e).region with
  | none => s
  | some k =>
    let (made, popped) := c.ringUse
    let s := forAll (fun s i => s.modRing k i fun g => { g with maker := some e }) made s
    forAll (fun s i => s.modRing k i fun g => { g with popper := some e }) popped s

def CmdSt.ofNum : Nat → CmdSt
  | 1 => .waiting | 2 => .running | 3 => .done | 4 => .cancelled | 5 => .faulted | _ => .none
def CmdCause.ofNum : Nat → CmdCause
  | 1 => .desc | 2 => .spaddr | 3 => .bounds | 4 => .ringloc | 5 => .nounit | 6 => .codeerr | 7 => .xlate
  | 8 => .abandon | 9 => .linkdown | _ => .none

/-- A command that the log of a replay answers: it ends at once with the status and progress recorded (R109). -/
def State.answerCmd (s : State) (id : Nat) (status progress : W) : State :=
  (s.modCmd id fun k => { k with
    logged := true, late := status.getLsbD 23, nv := status.getLsbD 22, ovf := status.getLsbD 21
    progress := progress }).endCmd id (CmdSt.ofNum (fld status.toNat 28 4)) (CmdCause.ofNum (fld status.toNat 24 4))

/-- A command takes the entry that was freed first (R104). A logged one is answered from the log (R109), one with a
bad descriptor faults at once (R108); one whose placeholder finds no room in the log waits for it (R301). -/
def Ctx.startCmd (c : Ctx) (i : Instr) (st : Nat) (mask : Mask) (g reply : Nat) (s : State) : State :=
  match (s.elem c.e).free with
  | [] => s
  | n :: rest =>
    let (ord, rec', gs, s) := c.joinStream st mask s
    let (owed, s) := c.placeholder i st ord s
    let s := s.modElem c.e fun x => { x with
      free := rest, issuedOrder := n :: x.issuedOrder.filter (· ≠ n) }
    let id := c.e * 8 + n
    let k := { freshCmd i with
      desc := (c.el.vreg c.pl g).lane, plane := c.pl, slot := c.slot, stream := st
      scope := (c.el.streams.get st).scope, ord := ord, gates := gs, reply := if reply = 0 then none else some reply
      fires := c.el.fires, round := c.el.tokRound, firedIn := c.el.round, ftz := c.ftz, owed := owed
      count := fld ((c.el.vreg c.pl g).lane.get 3).toNat 0 16 }
    let s := (s.setCmd id k).claimRings c.e k
    match rec' with
    | some r => s.answerCmd id (r.vals.get 0) (r.vals.get 1)
    | none => if owed || c.s.descOk c.e i k.desc then s else s.endCmd id .faulted .desc

def fireCmd (i : Instr) (st : Fin 8) (m : BitVec 8) (g : Fin 16) (reply : Nat) (s : State) :
    Host.Outcome State Fault Refusal :=
  fireWith i s (fun _ => {}) fun c s => c.startCmd i st.val m g.val reply s

/-- COPY (R112). -/
def execCopy (st : Fin 8) (m : BitVec 8) (g : Fin 16) (q : Fin 32) (s : State) : Host.Outcome State Fault Refusal :=
  fireCmd (.copy st m g q) st m g q.val s
/-- COPY2D (R112). -/
def execCopy2d (st : Fin 8) (m : BitVec 8) (g : Fin 16) (q : Fin 32) (s : State) : Host.Outcome State Fault Refusal :=
  fireCmd (.copy2d st m g q) st m g q.val s
/-- GATH (R116). -/
def execGath (st : Fin 8) (m : BitVec 8) (g : Fin 16) (q : Fin 32) (e : Fin 5) (s : State) :
    Host.Outcome State Fault Refusal := fireCmd (.gath st m g q e) st m g q.val s
/-- SCAT (R116). -/
def execScat (st : Fin 8) (m : BitVec 8) (g : Fin 16) (q : Fin 32) (e : Fin 5) (s : State) :
    Host.Outcome State Fault Refusal := fireCmd (.scat st m g q e) st m g q.val s
/-- STRM (R122, R124). -/
def execStrm (st : Fin 8) (m : BitVec 8) (g : Fin 16) (q : Fin 32) (chan : Bool) (s : State) :
    Host.Outcome State Fault Refusal := fireCmd (.strm st m g q chan) st m g q.val s
/-- MXMM (R125 to R129). -/
def execMxmm (st : Fin 8) (m : BitVec 8) (g : Fin 16) (q : Fin 32) (s : State) : Host.Outcome State Fault Refusal :=
  fireCmd (.mxmm st m g q) st m g q.val s
/-- MXSORT (R130). -/
def execMxsort (st : Fin 8) (m : BitVec 8) (g : Fin 16) (q : Fin 32) (s : State) : Host.Outcome State Fault Refusal :=
  fireCmd (.mxsort st m g q) st m g q.val s
/-- RINGI (R118). -/
def execRingi (st : Fin 8) (m : BitVec 8) (g : Fin 16) (s : State) : Host.Outcome State Fault Refusal :=
  fireCmd (.ringi st m g) st m g 0 s
/-- RINGA (R119). -/
def execRinga (st : Fin 8) (m : BitVec 8) (g : Fin 16) (tail : Bool) (s : State) : Host.Outcome State Fault Refusal :=
  fireCmd (.ringa st m g tail) st m g 0 s
/-- SPILL (R120). -/
def execSpill (st : Fin 8) (m : BitVec 8) (g : Fin 16) (ch : Fin 6) (s : State) : Host.Outcome State Fault Refusal :=
  fireCmd (.spill st m g ch) st m g 0 s
/-- LINKX (R115). -/
def execLinkx (st : Fin 8) (m : BitVec 8) (g : Fin 16) (q : Fin 32) (s : State) : Host.Outcome State Fault Refusal :=
  fireCmd (.linkx st m g q) st m g q.val s
/-- REDC (R113, R114). -/
def execRedc (st : Fin 8) (m : BitVec 8) (g : Fin 16) (q : Fin 32) (f : RedArith) (s : State) :
    Host.Outcome State Fault Refusal := fireCmd (.redc st m g q f) st m g q.val s

/-- Bytes, or for gathers and scatters elements, that a command moves. -/
def Cmd.total (c : Cmd) : Nat :=
  let l := c.lane
  match c.instr with
  | .copy .. => l 2 | .redc .. => l 2 | .linkx .. => l 2 | .strm .. => l 2
  | .copy2d .. => fld (l 2) 16 16 * fld (l 2) 0 16
  | .gath .. => l 3 | .scat .. => l 3
  | _ => 0

/-! ## ECHK and ECAN (R131, R132) -/

/-- The most recently issued command of an element with a tag. -/
def Elem.byTag (x : Elem) (tag : Nat) : Option (Nat × Cmd) :=
  x.issuedOrder.findSome? fun n => (x.cmds.get n).bind fun c => if c.ctag = tag then some (n, c) else none

/-- ECHK (R131): status and progress in lanes 0 and 1 of Vg, 4 cycles later. -/
def execEchk (g : Fin 16) (p : Fin 8) (upd : Option PuOp) (s : State) : Host.Outcome State Fault Refusal :=
  fire (.echk g p upd) s fun c =>
    let r := c.el.vreg c.pl g.val
    let f := c.el.byTag (fld (r.lane.get 5).toNat 0 16)
    let (stat, prog) : W × W := match f with | some (_, k) => (k.status, k.progress) | none => (0, 0)
    let ended := match f with | some (_, k) => k.over | none => false
    { regs := [(g.val, c.act &&& 3, ((Oct.rep 0).set 0 stat).set 1 prog, .int32)]
      pred := upd.map fun o => (p, o, c.act, if ended then 0xFF else 0), lat := 4 }

/-- All of a command's work is done. -/
def Cmd.complete (c : Cmd) : Bool :=
  match c.instr with
  | .strm _ _ _ _ chan =>
    if chan then c.eosSent && c.out == c.total / 32 else c.pos == c.total && c.staged.isEmpty && c.acc.isEmpty && c.dec.isEmpty
  | .mxmm .. => c.tile == c.count
  | .mxsort .. => let nb := (4 * c.lane 2 + 31) / 32; decide (nb < c.out ∧ nb < c.tile)
  | .ringi .. => c.out == 1
  | .ringa .. => c.out == 1
  | .spill .. => c.out == 1
  | _ => c.srcPos == c.total && c.staged.isEmpty

/-- A tender is writing a block: the ring's port of one of its branches has granted it (R132). -/
def Cmd.writing (c : Cmd) : Bool := c.brGot.any fun b => b.1 == c.out

/-- A STRM to a channel, whose stream ends with an EOS token when it is cancelled, too (R132). -/
def Cmd.sendsEos (c : Cmd) : Bool := match c.instr with | .strm _ _ _ _ chan => chan | _ => false

/-- A waiting or running command is cancelled (R132): a waiting one ends, a running one ends after the work it is in. One
that waits for room in the LOG area ends when it has found it (R301); a stream to a channel sends its EOS first; one whose
work is done is past it (R133), and one that has met an error ends faulted (R108). -/
def State.cancelCmd (s : State) (id : Nat) : State :=
  match s.cmd? id with
  | some c =>
    (match c.st with
     | .waiting =>
       if c.owed || c.sendsEos || s.endBlocked id c .none then s.modCmd id fun c => { c with endStep := true }
       else s.endCmd id .cancelled .none
     | .running =>
       if c.complete || c.cause != .none then s
       else
         let s := s.dropBeats id fun w => w.isRead || (match w with | .branch _ j _ => !(c.writing && j == c.out) | _ => false)
         s.modCmd id fun c => { c.noReads with
           endStep := true, brAsk := c.brAsk.filter fun b => c.writing && b.1 == c.out }
     | _ => s)
  | none => s

/-- ECAN (R132). -/
def execEcan (g : Fin 16) (s : State) : Host.Outcome State Fault Refusal :=
  fireWith (.ecan g) s (fun _ => {}) fun c s =>
    match (s.elem c.e).byTag (fld ((c.el.vreg c.pl g.val).lane.get 5).toNat 0 16) with
    | some (n, _) => s.cancelCmd (c.e * 8 + n)
    | none => s

end Sys2Proof.Machine
end

