-- ==== Sys2Proof/Machine/Arbiter.lean ====
section
/-! DEFINITION. Port arbiters (R138 to R150): beacon caches and subscriptions, slack and classes, the wheel and the
order of transfers, lateness; and the steps RATE_WINDOW_END, BEACON_SEND, BEACON_SUBSCRIBE. -/
namespace Sys2Proof.Machine

/-! ## Ports (R146) -/

def nodePort (n : Nat) : Nat := n
def tenderPort (island : Nat) : Nat := 2 ^ 20 + island
def slicePort (tile : Nat) : Nat := 2 ^ 21 + tile
def linkPort (p : Nat) : Nat := 2 ^ 22 + p
/-- The tile that holds a port; the two links of a die are taken to lie at its tile (0, 0).
See log entry 78 (DESIGN CHOICE). -/
def portTile (a : Nat) : Nat :=
  if a < 2 ^ 20 then a / 4 else if a < 2 ^ 21 then islandTile (a - 2 ^ 20) else if a < 2 ^ 22 then a - 2 ^ 21
  else (a - 2 ^ 22) / 2 * 256
/-- A port that serves only the tiles of one region (R144). -/
def ownPort (a : Nat) : Bool := decide (a < 2 ^ 21)

/-- Spine frequency of a tile, in MHz (R346). -/
def State.mhz (s : State) (t : Nat) : Nat :=
  match (s.die (dieOfTile t)).spine.get (s.spineOf t) with
  | (f, some g) => min f g
  | (f, none) => f
/-- BTN of a port (R146). -/
def State.btn (s : State) (a : Nat) : Nat :=
  if a < 2 ^ 21 then (64 * 1700 + s.mhz (portTile a) - 1) / s.mhz (portTile a) else if a < 2 ^ 22 then 64 else 31

/-- The number of the beat that a shared port would move next: its wheel moves with every beat time, used or idle. -/
def State.beatNo (s : State) (a : Nat) : Nat := s.tick * 64 / s.btn a + (s.arb a).moved
/-- Beats that a port can still move: one in a cycle of a node's or tender's tile, one in a tick at a slice, at a link as
many as end in the tick. -/
def State.beatsLeft (s : State) (a : Nat) : Nat :=
  if a < 2 ^ 21 then (if (s.arb a).moved = 0 ∧ (s.tile (portTile a)).switching = 0 then 1 else 0)
  else (s.tick + 1) * 64 / s.btn a - s.beatNo a
def State.portOpen (s : State) (a : Nat) : Bool := s.beatsLeft a != 0

/-! ## Need-by counters (R103, R134) -/

def needElem (w : W) : Nat :=
  let n := w.toNat
  (fld n 23 3 * 256 + fld n 15 8) * 32 + fld n 9 6
def needCounter (w : W) : Nat := fld w.toNat 7 2
def needLocal (w : W) : Bool := fld w.toNat 26 6 == Config.pkg

/-- Ticks a beacon or a subscription takes between a counter's tile and a port (R139). -/
def beaconDelay (t u : Nat) : Nat := hops t u + 32 * linksCrossed t u

/-- The beacon period of a region's counters (R143). -/
def arbPeriod (arbw : W) : Nat := 4 * (fld arbw.toNat 16 8 + 1)
/-- The beacon period of an element's counters: its region's, or 64 ticks where no region holds it.
See log entry 92 (DESIGN CHOICE). -/
def State.periodOf (s : State) (e : Nat) : Nat :=
  match s.regionOf e with | some (_, r) => arbPeriod r.cons.arbw | none => 64

/-! ## Requests (R138, R140) -/

/-- The input port of an arbiter that requests of an element or a command come in on (R141).
See log entry 91 (DESIGN CHOICE). -/
def inPortOf (n : Nat) : Nat := n % 64

/-- The port at which requests to a line's home arrive: its slice, or for a home in another package the Ronilawin port that
leads there (R146); nothing while no port does. -/
def State.homePort (s : State) (pa : Nat) : Option Nat :=
  if (localDie pa).isSome then some (slicePort (s.homeTile pa))
  else (s.links.find? fun l => l.2.up && l.2.peer == paDie pa / 8).map fun l => linkPort l.1

/-- Every command, by name. -/
def State.cmdIds (s : State) : List Nat :=
  (s.elems.flatMap fun x => (List.range 8).filterMap fun n => (x.2.cmds.get n).map fun _ => x.1 * 8 + n) ++ s.armed.map (·.1)

/-- A running command with a counter has beats left at a port. -/
def State.pendsAt (s : State) (a id : Nat) (w : W) : Bool :=
  match s.cmd? id with
  | some c => (match c.st with | .running => true | _ => false) && c.cause == .none && needOf (c.desc.get 6) == some w &&
      c.ports.any fun p => p.port == a && p.left != 0
  | none => false

/-- Enter a counter in a cache: a free entry, or the least recently used one that no pending transfer depends on. -/
def State.cacheNeed (s : State) (a : Nat) (w : W) : State :=
  let x := s.arb a
  if x.cache.any fun b => b.needid == w then
    s.setArb a { x with cache := x.cache.map fun b => if b.needid == w then { b with use := s.tick } else b }
  else
    let used (b : BeaconEnt) : Bool := (x.xfers.any fun t => t.needid == some b.needid) ||
      s.cmdIds.any fun id => s.pendsAt a id b.needid
    let victim : Option W := (x.cache.foldl (fun (m : Option BeaconEnt) b =>
      if used b then m else match m with | some y => if b.use < y.use then some b else m | none => some b) none).map
      (·.needid)
    let keep : Option (List BeaconEnt) :=
      if x.cache.length < 256 then some x.cache
      else match victim with | some v => some (x.cache.filter fun b => b.needid != v) | none => none
    match keep with
    | none => s
    | some l =>
      let s := match victim with
        | some v => if x.cache.length < 256 then s else
          { s with subs := s.subs.put v.toNat ((s.subs.getD v.toNat []).filter (· ≠ a)) }
        | none => s
      let s := s.setArb a { x with cache := l ++ [⟨w, false, 0, 0, 0, s.tick⟩] }
      if !needLocal w then s
      else
        let (k, s) := s.fresh
        let f : BeaconFlight := ⟨a, w, 0, 0, 0, s.tick + beaconDelay (portTile a) (tileOf (needElem w)), true⟩
        { s with beacons := s.beacons.put k f }

/-- A beat request reaches an arbiter: one for each transfer and tick at most. -/
def State.offer (s : State) (a : Nat) (x : Xfer) : State :=
  let s := match x.needid with | some w => s.cacheNeed a w | none => s
  let y := s.arb a
  if y.xfers.any fun t => t.what == x.what then s else s.setArb a { y with xfers := y.xfers ++ [x] }

/-! ## Slack and classes (R140, R141) -/

def sat24 (x : Int) : Int := max (-8388608) (min x 8388607)

/-- Slack of a transfer with n beats left, when it is known. -/
def State.slack (s : State) (a : Nat) (x : Xfer) : Option Int :=
  match x.needid with
  | none => none
  | some w =>
    match (s.arb a).cache.find? fun b => b.needid == w with
    | none => none
    | some b =>
      if !b.got then none
      else
        let d := (x.mark - b.value).toInt
        let r := max b.rShort.toNat b.rLong.toNat
        if r = 0 then some 8388607
        else some (sat24 (Int.fdiv (d * 1024) r - ((x.n * s.btn a + 63) / 64 : Nat)))

def arbwOf (s : State) (rg : Option Nat) : W :=
  match rg with | some r => (match s.region? r with | some x => x.cons.arbw | none => 0x000F0800) | none => 0x000F0800
def arbHold (w : W) : Int := (fld w.toNat 0 15 : Nat)
def arbIdle (w : W) : Bool := w.getLsbD 15
def arbIsol (w : W) : Bool := w.getLsbD 31
def arbShare (w : W) : Nat := fld w.toNat 24 7

def State.classOf (s : State) (a : Nat) (x : Xfer) : Nat :=
  match s.slack a x with
  | none => if x.late then 0 else 1
  | some k => if x.late ∨ k ≤ 0 then 0 else if k ≤ arbHold (arbwOf s x.region) then 2 else 3

/-- The key of R141: class, slack within a class other than 1, age, port. -/
structure XKey where
  cls   : Nat
  slack : Int
  age   : Nat
  inPort : Nat

def State.keyOf (s : State) (a : Nat) (x : Xfer) : XKey :=
  let c := s.classOf a x
  ⟨c, if c = 1 then 0 else (s.slack a x).getD 8388607, x.age, x.inPort⟩

def XKey.lt (x y : XKey) : Bool :=
  if x.cls ≠ y.cls then decide (x.cls < y.cls)
  else if x.slack ≠ y.slack then decide (x.slack < y.slack)
  else if x.age ≠ y.age then decide (x.age < y.age) else decide (x.inPort < y.inPort)

def State.keyLt (s : State) (a : Nat) (x y : Xfer) : Bool := (s.keyOf a x).lt (s.keyOf a y)

def State.pick (s : State) (a : Nat) (l : List Xfer) : Option Xfer :=
  l.foldl (fun m x => match m with | none => some x | some y => if s.keyLt a x y then some x else some y) none

/-! ## The choice (R142, R144) -/

/-- The region that owns the wheel entry of the next beat; nothing when it is FREE. See log entry 34 (DESIGN CHOICE). -/
def State.owner (s : State) (a : Nat) : Option Nat :=
  if ownPort a then (s.tile (portTile a)).region
  else
    let i := (Config.wheelPhase a + s.beatNo a) % 64
    (s.regions.find? fun r => r.2.wheel.contains i).map (·.1)

def State.serveOpen (s : State) (a : Nat) (l : List Xfer) : Option Xfer :=
  match s.pick a (l.filter fun x => decide (s.classOf a x < 3)) with
  | some x => some x
  | none => s.pick a (l.filter fun x => s.classOf a x == 3 && arbIdle (arbwOf s x.region))

/-- The transfer that a port moves, out of the candidates (R142). -/
def State.chooseOf (s : State) (a : Nat) (c : List Xfer) : Option Xfer :=
  let openOnes := c.filter fun x => !arbIsol (arbwOf s x.region)
  match s.owner a with
  | some o =>
    let mine := c.filter fun x => x.region == some o
    (match s.pick a (mine.filter fun x => decide (s.classOf a x < 3)) with
     | some x => some x
     | none =>
       let w := arbwOf s (some o)
       match (if arbIdle w then s.pick a (mine.filter fun x => s.classOf a x == 3) else none) with
       | some x => some x
       | none => if arbIsol w then none else s.serveOpen a (openOnes.filter fun x => x.region != some o))
  | none => s.serveOpen a openOnes

/-- The lanes one beat of an operation moves: those in the 32-byte row of a node or a fabric cache bank, the word of an
atomic there, or the 64-byte line of a slice (R75, R88, R93, R146). -/
def State.together (s : State) (op l : Nat) : List Nat :=
  match s.ops.get? op with
  | none => []
  | some o =>
    match o.lanes.get l with
    | .node key =>
      let unit := match Instr.kind o.instr with | .atomic => 4 | _ => 32
      lanes.filter fun k => match o.lanes.get k with | .node y => y / unit == key / unit | _ => false
    | .port pa leaf =>
      let bank : Bool := match s.place (o.acc s) leaf (o.addr l) pa with | .fabric .. => true | _ => false
      lanes.filter fun k => match o.lanes.get k with
        | .port y _ => y / 64 == pa / 64 && (!bank || o.addr k / 32 == o.addr l / 32)
        | _ => false
    | _ => []

/-- The node number of the slot that issued a command: none for an armed one. -/
def State.cmdNode (s : State) (id : Nat) : Nat :=
  match s.cmd? id with
  | some c => if id < 2 ^ 20 then s.nodeNumber (id / 8) c.plane c.slot else 0xFFFFFFFF
  | none => 0xFFFFFFFF

/-- A beat of a memory node counts in the sketches (R338): by the node number of the slot that issued it. -/
def State.countBeat (s : State) (port : Nat) (x : Xfer) : State :=
  if 2 ^ 20 ≤ port then s
  else
    let run := match x.region with | some r => (match s.region? r with | some y => y.run | none => 0) | none => 0
    let node := match x.what with
      | .lane op _ => (match s.ops.get? op with | some o => s.nodeNumber o.elem o.plane o.slot | none => 0xFFFFFFFF)
      | .read id | .beat id _ _ | .branch id _ _ => s.cmdNode id
    s.sketch (dieOfTile (port / 4)) 3 (BitVec.ofNat 32 node) run

/-! ## Counters (R135, R139) -/

/-- The window of one counter ends (R135). -/
def Counter.window (g : Counter) : Counter :=
  let short := min (4 * g.s.toNat) 16777215
  { g with rShort := BitVec.ofNat 24 short, rLong := BitVec.ofNat 24 ((7 * g.rLong.toNat + short) / 8), s := 0 }

/-- RATE_WINDOW_END (R135): every counter of a die ends its window. -/
def execRateWindowEnd (die : Nat) (s : State) : Host.Outcome State Fault Refusal :=
  let one (x : Elem) : Elem := { x with g := ⟨x.g.q0.window, x.g.q1.window, x.g.q2.window, x.g.q3.window⟩ }
  let es := s.elems.map fun x => if dieOf x.1 = die then (x.1, one x.2) else x
  .next { s with elems := es }

/-- The NEEDID of a counter of an element of this package. -/
def needFor (e c : Nat) : W :=
  BitVec.ofNat 32 (Config.pkg * 2 ^ 26 + dieOf e * 2 ^ 23 + tileOf e % 256 * 2 ^ 15 + e % 32 * 2 ^ 9 + c * 2 ^ 7)

/-- BEACON_SEND (R139): the counter as it stands goes to every subscriber; a port of its own tile applies it in the same
tick. A binned tile sends nothing (R138). -/
def execBeaconSend (e c : Nat) (s : State) : Host.Outcome State Fault Refusal :=
  let w := needFor e c
  let g := (s.elem e).g.get c
  if !(s.usable.get (dieOf e)).getLsbD (tileOf e % 256) then .next s
  else .next (forAll (fun s a =>
    let (k, s) := s.fresh
    let f : BeaconFlight := ⟨a, w, g.g, g.rLong, g.rShort, s.tick + beaconDelay (tileOf e) (portTile a), false⟩
    let s : State := { s with beacons := s.beacons.put k f }
    if f.due ≤ s.tick then { s with agenda := .act (.beaconApply k) :: s.agenda } else s)
    (s.subs.getD w.toNat []) s)

/-- A gang with a member that a link reports halted (R149). -/
def State.gangHalted (s : State) (rg : Option Nat) : Bool :=
  match rg with
  | none => false
  | some i =>
    match s.region? i with
    | some r => r.gangId.isSome && r.peers.any fun p => s.links.any fun l => l.2.halt && l.2.peer == p.2
    | none => false

/-- LATE_TRAP (R148): one record for each event; an element that has already stopped takes it after it resumes. -/
def State.lateTrap (s : State) (e counter ctag : Nat) : State :=
  let x := s.elem e
  if x.stopped.isSome then s.modElem e fun x => { x with lateQ := x.lateQ ++ [(counter, ctag)] }
  else s.stall e 5 .work 0x1F false x.fires x.round (BitVec.ofNat 32 counter) (BitVec.ofNat 32 ctag)

/-- An arbiter finds a command late (R147): LATE once, LATEC of the counter's element once. -/
def State.foundLate (s : State) (port id : Nat) (w : W) : State :=
  match s.cmd? id with
  | none => s
  | some c =>
    let s := s.modCmd id fun c => { c with lateAt := port :: c.lateAt }
    if c.late then s
    else
      let e := needElem w
      let s := s.modCmd id fun c => { c with late := true }
      let s := s.modElem e fun x =>
        { x with latec := if x.latec = BitVec.allOnes 32 then x.latec else x.latec + 1 }
      let s := s.sketch (dieOf e) 2 (BitVec.ofNat 32 (s.cmdNode id)) (s.runOf e)
      let s := s.trace (dieOf e) 6 0 (elidOf e) 0xFFFFFFFF (s.elem e).fires (BitVec.ofNat 32 c.ctag) (BitVec.ofNat 32 (needCounter w))
      if (s.elem e).estat.getLsbD 6 then s.lateTrap e (needCounter w) c.ctag else s

/-- BEACON_SUBSCRIBE (R139): a subscription reaches the counter's tile. -/
def execBeaconSubscribe (k : Nat) (s : State) : Host.Outcome State Fault Refusal :=
  match s.beacons.get? k with
  | none => .next s
  | some b =>
    if !b.subscribe then .next s
    else
      let s := { s with beacons := s.beacons.del k }
      let l := s.subs.getD b.needid.toNat []
      .next (if l.contains b.arb || !((s.arb b.arb).cache.any fun e => e.needid == b.needid) then s
        else { s with subs := s.subs.put b.needid.toNat (l ++ [b.arb]) })

end Sys2Proof.Machine
end

