-- ==== Sys2Proof/Machine/Atomics.lean ====
section
/-! DEFINITION. The meanings of class 0xB (R99, R100): a firing puts one read-modify-write per participating lane on
its stream; `atomicNew` and `atomicOld` of MemOps.lean say what each one stores and returns. -/
namespace Sys2Proof.Machine

/-- AADD (R99): wrapping. -/
def execAadd (st : Fin 8) (m : BitVec 8) (a d : Src) (r : Option (Fin 7)) (s : State) : Host.Outcome State Fault Refusal :=
  fireAtomic (.aadd st m a d r) st m a d (fun _ => Oct.rep 0) r .int32 s

/-- AADDS (R99): signed, saturated. -/
def execAadds (st : Fin 8) (m : BitVec 8) (a d : Src) (r : Option (Fin 7)) (s : State) : Host.Outcome State Fault Refusal :=
  fireAtomic (.aadds st m a d r) st m a d (fun _ => Oct.rep 0) r .int32 s

/-- AFADD (R100): FP32, rounded to nearest even; the reply's tag is FP32. -/
def execAfadd (st : Fin 8) (m : BitVec 8) (a d : Src) (r : Option (Fin 7)) (s : State) : Host.Outcome State Fault Refusal :=
  fireAtomic (.afadd st m a d r) st m a d (fun _ => Oct.rep 0) r .fp32 s

/-- AMIN (R99): signed. -/
def execAmin (st : Fin 8) (m : BitVec 8) (a d : Src) (r : Option (Fin 7)) (s : State) : Host.Outcome State Fault Refusal :=
  fireAtomic (.amin st m a d r) st m a d (fun _ => Oct.rep 0) r .int32 s

/-- AMAX (R99): signed. -/
def execAmax (st : Fin 8) (m : BitVec 8) (a d : Src) (r : Option (Fin 7)) (s : State) : Host.Outcome State Fault Refusal :=
  fireAtomic (.amax st m a d r) st m a d (fun _ => Oct.rep 0) r .int32 s

/-- AMINU (R99). -/
def execAminu (st : Fin 8) (m : BitVec 8) (a d : Src) (r : Option (Fin 7)) (s : State) : Host.Outcome State Fault Refusal :=
  fireAtomic (.aminu st m a d r) st m a d (fun _ => Oct.rep 0) r .int32 s

/-- AMAXU (R99). -/
def execAmaxu (st : Fin 8) (m : BitVec 8) (a d : Src) (r : Option (Fin 7)) (s : State) : Host.Outcome State Fault Refusal :=
  fireAtomic (.amaxu st m a d r) st m a d (fun _ => Oct.rep 0) r .int32 s

/-- AAND (R99). -/
def execAand (st : Fin 8) (m : BitVec 8) (a d : Src) (r : Option (Fin 7)) (s : State) : Host.Outcome State Fault Refusal :=
  fireAtomic (.aand st m a d r) st m a d (fun _ => Oct.rep 0) r .int32 s

/-- AOR (R99). -/
def execAor (st : Fin 8) (m : BitVec 8) (a d : Src) (r : Option (Fin 7)) (s : State) : Host.Outcome State Fault Refusal :=
  fireAtomic (.aor st m a d r) st m a d (fun _ => Oct.rep 0) r .int32 s

/-- AXOR (R99). -/
def execAxor (st : Fin 8) (m : BitVec 8) (a d : Src) (r : Option (Fin 7)) (s : State) : Host.Outcome State Fault Refusal :=
  fireAtomic (.axor st m a d r) st m a d (fun _ => Oct.rep 0) r .int32 s

/-- AXCH (R99). -/
def execAxch (st : Fin 8) (m : BitVec 8) (a d : Src) (r : Option (Fin 7)) (s : State) : Host.Outcome State Fault Refusal :=
  fireAtomic (.axch st m a d r) st m a d (fun _ => Oct.rep 0) r .int32 s

/-- ACAS (R100): Vn is the expected value and Vn+1 the new one. -/
def execAcas (st : Fin 8) (m : BitVec 8) (a : Src) (d : Fin 15) (r : Option (Fin 7)) (s : State) :
    Host.Outcome State Fault Refusal :=
  fireAtomic (.acas st m a d r) st m a (.v ⟨d.val, by omega⟩) (fun c => (c.el.vreg c.pl (d.val + 1)).lane) r .int32 s

/-- ATAS (R100): the reply is the tested bit. -/
def execAtas (st : Fin 8) (m : BitVec 8) (a d : Src) (r : Option (Fin 7)) (s : State) : Host.Outcome State Fault Refusal :=
  fireAtomic (.atas st m a d r) st m a d (fun _ => Oct.rep 0) r .int32 s

/-- AINCW (R99). -/
def execAincw (st : Fin 8) (m : BitVec 8) (a d : Src) (r : Option (Fin 7)) (s : State) : Host.Outcome State Fault Refusal :=
  fireAtomic (.aincw st m a d r) st m a d (fun _ => Oct.rep 0) r .int32 s

end Sys2Proof.Machine
end

