-- ==== Sys2Proof/Machine/Channel.lean ====
section
/-! DEFINITION. The meanings of class 0x0 (R171, R172). -/
namespace Sys2Proof.Machine

/-- Tag number in the table of R152. -/
def tagNum : Tag → Nat
  | .fp32 => 0 | .fp16 => 1 | .bf16 => 2 | .e4m3 => 3 | .e5m2 => 4 | .int32 => 5 | .int8 => 6 | .raw => 7

/-- One token on an optional output. -/
def sendOn (d : Option (Fin 6)) (t : Tok) : Res := match d with | some o => { outs := [(o.val, t)] } | none => {}

/-- A predicate written in some lanes by a predicate instruction. -/
def setPred (p : Fin 8) (m r : Mask) : Res := { pred := some (p, .set, m, r) }

def Ctx.pred (c : Ctx) (p : Fin 8) : Mask := (c.el.preds c.pl).get p.val

/-- NOP (R171). -/
def execNop (s : State) : Host.Outcome State Fault Refusal := fire .nop s fun _ => {}

/-- SEND (R171): the LVM is the active lanes. -/
def execSend (d : Option (Fin 6)) (a : Src) (pu : Option Pu) (s : State) : Host.Outcome State Fault Refusal :=
  fire (.send d a pu) s fun c =>
    (sendOn d (c.tok .data (c.tag a) c.act (keep c.act (c.val a)))).withPu c pu (nonzero (c.val a))

/-- SENDT (R171): a chosen tag, or a CFG token for a K register. See log entry 11 (DEDUCED). -/
def execSendt (o : Fin 6) (a : Src) (m : SendMode) (s : State) : Host.Outcome State Fault Refusal :=
  fire (.sendt o a m) s fun c =>
    let data := keep c.act (c.val a)
    sendOn (some o) (match m with
      | .tag t => c.tok .data t (c.valid [a]) data
      | .cfg k => { c.tok .cfg (D.tagOf k.val) (c.valid [a]) data with stamp := BitVec.ofNat 16 k.val })

/-- SENDE (R153, R171). -/
def execSende (o : Fin 6) (a : Src) (imm : BitVec 14) (s : State) : Host.Outcome State Fault Refusal :=
  fire (.sende o a imm) s fun c =>
    sendOn (some o) (c.tok .eos .int32 1 ((Oct.rep 0).set 0 ((c.scalar a).getD 0 + imm.setWidth 32)))

/-- SENDH (R171). -/
def execSendh (o : Fin 6) (a : Src) (s : State) : Host.Outcome State Fault Refusal :=
  fire (.sendh o a) s fun c => sendOn (some o) (c.tok .hdr .raw (c.valid [a]) (keep c.act (c.val a)))

/-- PASS (R171): the head of A, its LVM cut to the active lanes unless it is an EOS. -/
def execPass (d : Option (Fin 6)) (j : Fin 6) (s : State) : Host.Outcome State Fault Refusal :=
  fire (.pass d j) s fun c =>
    match c.head j with
    | some t =>
      sendOn d (c.tok t.kind t.tag (if t.kind = .eos then t.lvm else t.lvm &&& c.act) t.data)
    | none => {}

/-- STEER (R171): lanes with P[b] go to O(2o), the others to O(2o + 1); a token with an empty LVM is not sent. -/
def execSteer (o : Fin 3) (a : Src) (p : Fin 8) (s : State) : Host.Outcome State Fault Refusal :=
  fire (.steer o a p) s fun c =>
    let yes := c.act &&& c.pred p
    let no := c.act &&& ~~~(c.pred p)
    let one (out : Nat) (m : Mask) : List (Nat × Tok) :=
      let lvm := c.valid [a] &&& m
      if lvm = 0 then [] else [(out, c.tok .data (c.tag a) lvm (keep m (c.val a)))]
    { outs := one (2 * o.val) yes ++ one (2 * o.val + 1) no }

/-- TAGQ (R171). -/
def execTagq (p : Fin 8) (a : Src) (tags : BitVec 8) (s : State) : Host.Outcome State Fault Refusal :=
  fire (.tagq p a tags) s fun c => setPred p c.act (if tags.getLsbD (tagNum (c.tag a)) then 0xFF else 0)

/-- PSET (R171). -/
def execPset (p : Fin 8) (mask : BitVec 8) (s : State) : Host.Outcome State Fault Refusal :=
  fire (.pset p mask) s fun c => setPred p c.act mask

/-- PLOG (R171). -/
def execPlog (p pa pb : Fin 8) (fn : BitVec 4) (mask : BitVec 8) (s : State) : Host.Outcome State Fault Refusal :=
  fire (.plog p pa pb fn mask) s fun c =>
    setPred p (c.act &&& mask) (maskOf fun l =>
      fn.getLsbD ((if bit (c.pred pa) l then 2 else 0) + (if bit (c.pred pb) l then 1 else 0)))

/-- PGET (R171). -/
def execPget (d : Dst) (p : Fin 8) (pu : Option Pu) (s : State) : Host.Outcome State Fault Refusal :=
  fire (.pget d p pu) s fun c =>
    (c.put d (Oct.of fun l => if bit (c.pred p) l then 1 else 0) .int32 c.act).withPu c pu (c.pred p)

/-- PPUT (R171). -/
def execPput (p : Fin 8) (a : Src) (s : State) : Host.Outcome State Fault Refusal :=
  fire (.pput p a) s fun c => setPred p c.act (nonzero (c.val a))

/-- PCNT (R171). -/
def execPcnt (p pa : Fin 8) (n : Fin 9) (mask : BitVec 8) (s : State) : Host.Outcome State Fault Refusal :=
  fire (.pcnt p pa n mask) s fun c =>
    setPred p c.act (if n.val ≤ popcount (c.pred pa &&& mask) then 0xFF else 0)

/-- ENDE (R172): the working plane is over; plane S returns to it. -/
def execEnde (s : State) : Host.Outcome State Fault Refusal :=
  fireWith .ende s (fun _ => {}) fun c s =>
    s.modElem c.e fun x => match c.pl with
      | .work => { x with ended := true }
      | .s => { x with inS := false }

end Sys2Proof.Machine
end

