-- ==== Sys2Proof/Machine/Compare.lean ====
section
/-! DEFINITION. The meanings of class 0x3 (R207, R208). -/
namespace Sys2Proof.Machine

/-- CMPEQ (R207). -/
def execCmpeq (d : Dst) (a b : Src) (pu : Option Pu) (z : ISz) (s : State) : Host.Outcome State Fault Refusal :=
  fire (.cmpeq d a b pu z) s fun c => c.bin d a b pu (map2 z (iEq (ISz.w z)))

/-- CMPNE (R207). -/
def execCmpne (d : Dst) (a b : Src) (pu : Option Pu) (z : ISz) (s : State) : Host.Outcome State Fault Refusal :=
  fire (.cmpne d a b pu z) s fun c => c.bin d a b pu (map2 z (iNe (ISz.w z)))

/-- CMPLT (R207). -/
def execCmplt (d : Dst) (a b : Src) (pu : Option Pu) (z : ISz) (s : State) : Host.Outcome State Fault Refusal :=
  fire (.cmplt d a b pu z) s fun c => c.bin d a b pu (map2 z (iLt (ISz.w z)))

/-- CMPLE (R207). -/
def execCmple (d : Dst) (a b : Src) (pu : Option Pu) (z : ISz) (s : State) : Host.Outcome State Fault Refusal :=
  fire (.cmple d a b pu z) s fun c => c.bin d a b pu (map2 z (iLe (ISz.w z)))

/-- CMPLTU (R207). -/
def execCmpltu (d : Dst) (a b : Src) (pu : Option Pu) (z : ISz) (s : State) : Host.Outcome State Fault Refusal :=
  fire (.cmpltu d a b pu z) s fun c => c.bin d a b pu (map2 z (iLtu (ISz.w z)))

/-- CMPLEU (R207). -/
def execCmpleu (d : Dst) (a b : Src) (pu : Option Pu) (z : ISz) (s : State) : Host.Outcome State Fault Refusal :=
  fire (.cmpleu d a b pu z) s fun c => c.bin d a b pu (map2 z (iLeu (ISz.w z)))

/-- MIN (R207). -/
def execMin (d : Dst) (a b : Src) (pu : Option Pu) (z : ISz) (s : State) : Host.Outcome State Fault Refusal :=
  fire (.min d a b pu z) s fun c => c.bin d a b pu (map2 z (iMin (ISz.w z)))

/-- MAX (R207). -/
def execMax (d : Dst) (a b : Src) (pu : Option Pu) (z : ISz) (s : State) : Host.Outcome State Fault Refusal :=
  fire (.max d a b pu z) s fun c => c.bin d a b pu (map2 z (iMax (ISz.w z)))

/-- MINU (R207). -/
def execMinu (d : Dst) (a b : Src) (pu : Option Pu) (z : ISz) (s : State) : Host.Outcome State Fault Refusal :=
  fire (.minu d a b pu z) s fun c => c.bin d a b pu (map2 z iMinu)

/-- MAXU (R207). -/
def execMaxu (d : Dst) (a b : Src) (pu : Option Pu) (z : ISz) (s : State) : Host.Outcome State Fault Refusal :=
  fire (.maxu d a b pu z) s fun c => c.bin d a b pu (map2 z iMaxu)

/-- ADDI (R208): wrap(A + imm), imm signed. -/
def execAddi (d : Dst) (a : Src) (imm : BitVec 14) (s : State) : Host.Outcome State Fault Refusal :=
  fire (.addi d a imm) s fun c => c.un d a none (fun x => x + imm.signExtend 32)

/-- MULI (R208): the low 32 bits of A × imm, imm signed. -/
def execMuli (d : Dst) (a : Src) (imm : BitVec 14) (s : State) : Host.Outcome State Fault Refusal :=
  fire (.muli d a imm) s fun c => c.un d a none (fun x => x * imm.signExtend 32)

/-- ANDI (R208): imm sign-extended. -/
def execAndi (d : Dst) (a : Src) (imm : BitVec 14) (s : State) : Host.Outcome State Fault Refusal :=
  fire (.andi d a imm) s fun c => c.un d a none (fun x => x &&& imm.signExtend 32)

/-- ORI (R208): imm zero-extended. -/
def execOri (d : Dst) (a : Src) (imm : BitVec 14) (s : State) : Host.Outcome State Fault Refusal :=
  fire (.ori d a imm) s fun c => c.un d a none (fun x => x ||| imm.zeroExtend 32)

/-- XORI (R208): imm zero-extended. -/
def execXori (d : Dst) (a : Src) (imm : BitVec 14) (s : State) : Host.Outcome State Fault Refusal :=
  fire (.xori d a imm) s fun c => c.un d a none (fun x => x ^^^ imm.zeroExtend 32)

/-- The shift of SHI by KIND (R208). -/
def shiOp (k : ShKind) (c : Nat) (x : W) : W :=
  BitVec.ofNat 32 (match k with
    | .shl => iShl 32 x.toNat c | .shr => iShr 32 x.toNat c | .sar => iSar 32 x.toNat c | .rol => iRol 32 x.toNat c)

/-- SHI (R208). -/
def execShi (d : Dst) (a : Src) (kind : ShKind) (cnt : Fin 32) (s : State) : Host.Outcome State Fault Refusal :=
  fire (.shi d a kind cnt) s fun c => c.un d a none (shiOp kind cnt)

end Sys2Proof.Machine
end

