-- ==== Sys2Proof/Machine/Real.lean ====
section
/-! DEFINITION. The functions of R228 and R233 on exact values, evaluated in fixed point far beyond the precision of
any format. A result is the exact value where it is a member of a format or a tie of one; any other result carries a
last bit of 1, so that the one rounding that follows sees that it is not exact. See log entry 17 (DEDUCED). -/
namespace Sys2Proof.Machine

/-- Fraction bits of the fixed-point numbers. -/
def fxBits : Nat := 1152
/-- π with 1,280 fraction bits. -/
def fxPi : Int := 0x3243F6A8885A308D313198A2E03707344A4093822299F31D0082EFA98EC4E6C89452821E638D01377BE5466CF34E90C6CC0AC29B7C97C50DD3F84D5B5B54709179216D5D98979FB1BD1310BA698DFB5AC2FFD72DBD01ADFB7B8E1AFED6A267E96BA7C9045F12C7F9924A19947B3916CF70801F2E2858EFC16636920D871574E69A458FEA3F4933D7E0D95748F728EB658718BCD5882154AEE7B54A41DC25A59B5
/-- ln 2 with 1,152 fraction bits. -/
def fxLn2 : Int := 0xB17217F7D1CF79ABC9E3B39803F2F6AF40F343267298B62D8A0D175B8BAAFA2BE7B876206DEBAC98559552FB4AFA1B10ED2EAE35C138214427573B291169B8253E96CA16224AE8C51ACBDA11317C387EB9EA9BC3B136603B256FA0EC7657F74B72CE87B19D6548CAF5DFA6BD38303248655FA1872F20E3A2DA2D97C50F3FD5C607F4CA11FB5BFB90610D30F88FE551A2
/-- 2 ÷ √π with 1,152 fraction bits. -/
def fxTwoOverSqrtPi : Int := 0x120DD750429B6D11AE3A914FED7FD8688281341D7587CEA2E7342B06199CC416180EB39F0B24E1E2281806C12D98F35D77A3E9DDC91C394F0E9EEDF0EFFFD84A2A4AC3B98489B8CBD3845E8FEF6FF6AF92A45E5F27C2D6547A4F46505B5B4E62DD73FD6486DE5E4E5585911777503638EA0EA96813D29A65A31A7D235B9FED80735A739F0CDBA12C519A4D0308FCEB248

def fxOne : Int := 2 ^ fxBits
def signed (neg : Bool) (x : Nat) : Int := if neg then -(x : Int) else x
def toFx (neg : Bool) (m : Nat) (e : Int) : Int := signed neg (shiftDown m (e + fxBits))
/-- A fixed-point number that is not exact. -/
def ofFx (x : Int) : FVal := .fin (decide (x < 0)) (2 * x.natAbs + 1) (-(fxBits : Int) - 1)
def fxMul (a b : Int) : Int := (a * b).tdiv fxOne

/-- t(n) + t(n + 1) + …, with t(n + 1) = next n t(n), until a term is 0. -/
def sumFx (next : Nat → Int → Int) : Nat → Nat → Int → Int → Int
  | 0, _, _, acc => acc
  | k + 1, n, t, acc => if t = 0 then acc else sumFx next k (n + 1) (next n t) (acc + t)

/-- The terms t(n) ÷ (2n + 1) of a power series whose powers are t(n). -/
def oddFx (next : Nat → Int → Int) : Nat → Nat → Int → Int → Int
  | 0, _, _, acc => acc
  | k + 1, n, t, acc => if t = 0 then acc else oddFx next k (n + 1) (next n t) (acc + t.tdiv (2 * n + 1))

/-- 2 to a power beyond every format, for clamped results. -/
def clampV (big : Bool) : FVal := .fin false 1 (if big then 2000 else -2000)

/-- |x| is at least 2^n. -/
def atLeast (m : Nat) (e : Int) (n : Int) : Bool := m != 0 && decide (n < e + bitLen m)

/-- exp of a fixed-point number, as a value. -/
def expFx (x : Int) : FVal :=
  let k := (2 * x + fxLn2) / (2 * fxLn2)
  let r := x - k * fxLn2
  match ofFx (sumFx (fun n t => (fxMul t r).tdiv (n + 1)) 400 0 fxOne 0) with
  | .fin s m e => .fin s m (e + k)
  | y => y

def expV (neg : Bool) (m : Nat) (e : Int) : FVal :=
  if m = 0 then .one
  else if atLeast m e 10 then clampV (!neg)
  else expFx (toFx neg m e)

/-- 2^x; exact for an integer x. -/
def exp2V (neg : Bool) (m : Nat) (e : Int) : FVal :=
  if atLeast m e 10 then clampV (!neg)
  else
    let x := toFx neg m e
    let k := x / fxOne
    let f := x % fxOne
    if f = 0 then .fin false 1 k
    else match expFx (fxMul f fxLn2) with
      | .fin s m e => .fin s m (e + k)
      | y => y

/-- e^x − 1 for x ≠ 0. -/
def expm1V (neg : Bool) (m : Nat) (e : Int) : FVal :=
  if atLeast m e (-1) then (addX .rn (expV neg m e) (.fin true 1 0)).1
  else
    let x := toFx neg m e
    ofFx (sumFx (fun n t => (fxMul t x).tdiv (n + 1)) 400 1 x 0)

/-- ln of m × 2^e, m ≠ 0, as a fixed-point number. -/
def lnFx (m : Nat) (e : Int) : Int :=
  let l := bitLen m
  let small := decide (4 * m < 3 * 2 ^ l)
  let j := if small then l - 1 else l
  let t : Int := (((m : Int) - 2 ^ j) * fxOne).tdiv (m + 2 ^ j)
  let t2 := fxMul t t
  2 * oddFx (fun _ p => fxMul p t2) 600 0 t 0 + (e + j) * fxLn2

def isOne (m : Nat) (e : Int) : Bool := decide (0 ≤ -e) && m == 2 ^ (-e).toNat || decide (0 ≤ e) && m * 2 ^ e.toNat == 1
def isPow2 (m : Nat) : Bool := m == 2 ^ (bitLen m - 1)

/-- ln of a positive value; ln 1 is +0. -/
def logV (m : Nat) (e : Int) : FVal := if isOne m e then .zero else ofFx (lnFx m e)
/-- log₂ of a positive value, exact for powers of two. -/
def log2V (m : Nat) (e : Int) : FVal :=
  if isPow2 m then FVal.ofInt (e + (bitLen m - 1 : Nat))
  else ofFx ((lnFx m e * fxOne).tdiv fxLn2)

/-- The quadrant of |x| and the fixed-point rest, at most π ÷ 4 in magnitude. -/
def reduce (m : Nat) (e : Int) : Nat × Int :=
  let x : Int := shiftDown m (e + 1280)
  let n := (4 * x + fxPi) / (2 * fxPi)
  ((n % 4).toNat, (2 * x - n * fxPi).tdiv (2 ^ 129))

def sinFx (r : Int) : Int :=
  let r2 := fxMul r r
  sumFx (fun n t => -(fxMul t r2).tdiv ((2 * n + 2) * (2 * n + 3))) 200 0 r 0
def cosFx (r : Int) : Int :=
  let r2 := fxMul r r
  sumFx (fun n t => -(fxMul t r2).tdiv ((2 * n + 1) * (2 * n + 2))) 200 0 fxOne 0

def sinV (neg : Bool) (m : Nat) (e : Int) : FVal :=
  let (q, r) := reduce m e
  let y := match q with | 0 => sinFx r | 1 => cosFx r | 2 => -sinFx r | _ => -cosFx r
  ofFx (if neg then -y else y)
def cosV (m : Nat) (e : Int) : FVal :=
  let (q, r) := reduce m e
  ofFx (match q with | 0 => cosFx r | 1 => -sinFx r | 2 => -cosFx r | _ => sinFx r)

def quotV (a b : FVal) : FVal := (divX a b).1
/-- tanh x = u ÷ (u + 2) with u = e^2x − 1. -/
def tanhV (neg : Bool) (m : Nat) (e : Int) : FVal :=
  let u := expm1V neg m (e + 1)
  quotV u (addX .rn u (.fin false 2 0)).1
def sigmV (neg : Bool) (m : Nat) (e : Int) : FVal :=
  quotV .one (addX .rn .one (expV (!neg) m e)).1
def erfV (neg : Bool) (m : Nat) (e : Int) : FVal :=
  if atLeast m e 4 then .fin neg (2 ^ 200 - 1) (-200)
  else
    let x := toFx neg m e
    let x2 := fxMul x x
    ofFx (fxMul fxTwoOverSqrtPi (oddFx (fun n p => -(fxMul p x2).tdiv (n + 1)) 2400 0 x 0))
/-- (2 ÷ √π) × exp(−x²). -/
def gaussV (m : Nat) (e : Int) : FVal :=
  match expV true (m * m) (2 * e) with
  | .fin s n k => .fin s (2 * (n * fxTwoOverSqrtPi.toNat) + 1) (k - fxBits - 1)
  | y => y

/-- 1 ÷ √x, correctly roundable: a power of four exactly, else with a last bit of 1. -/
def rsqrtV (m : Nat) (e : Int) : FVal :=
  let odd := e % 2 ≠ 0
  let m := if odd then 2 * m else m
  let e := if odd then e - 1 else e
  let n := 2 ^ 400
  let r := isqrt (n / m)
  .fin false (2 * r + (if n % m = 0 ∧ r * r = n / m then 0 else 1)) (-(e / 2) - 201)

/-- A mantissa cut to 768 bits, and whether anything was lost. -/
def cutMag (m : Nat) (e : Int) (lost : Bool) : Nat × Int × Bool :=
  let l := bitLen m
  if l ≤ 768 then (m, e, lost)
  else (m / 2 ^ (l - 768), e + (l - 768 : Nat), lost || m % 2 ^ (l - 768) != 0)

def powGo : Nat → Nat → Nat × Int × Bool → Nat × Int × Bool → Nat × Int × Bool
  | 0, _, _, acc => acc
  | f + 1, n, b, acc =>
    if n = 0 then acc
    else
      let acc := if n % 2 = 1 then cutMag (acc.1 * b.1) (acc.2.1 + b.2.1) (acc.2.2 || b.2.2) else acc
      powGo f (n / 2) (cutMag (b.1 * b.1) (2 * b.2.1) b.2.2) acc

def stripGo : Nat → Nat → Int → Nat × Int
  | 0, m, e => (m, e)
  | f + 1, m, e => if m % 2 = 0 then stripGo f (m / 2) (e + 1) else (m, e)

/-- (m × 2^e)^n for n ≥ 1, m ≠ 0. -/
def powMag (m : Nat) (e : Int) (n : Nat) : Nat × Int :=
  let (m, e) := stripGo 64 m e
  let (p, k, lost) := powGo 40 n (m, e, false) (1, 0, false)
  if lost then (2 * p + 1, k - 1) else (p, k)

end Sys2Proof.Machine
end

