-- ==== Sys2Proof/Machine/Series.lean ====
section
/-! DEFINITION. The coefficient recurrences of R221 to R233 and R243 for one element of one lane: each gives the
coefficients 0 to t with the flags each raised. -/
namespace Sys2Proof.Machine

/-- The coefficients of one element and their flags. -/
abbrev Jet := List (FVal × Fl)

def Jet.at (xs : Jet) (i : Nat) : FVal := (xs.getD i (.zero, 0)).1

/-- What one element's recurrences read: the rounding, the highest coefficient t, and the operands' coefficients. -/
structure JIn where
  r : Rd
  t : Nat
  a : Nat → FVal
  b : Nat → FVal
  d : Nat → FVal

/-- Coefficients 0 to n, each computed from those before it. -/
def chain (c0 : FVal × Fl) (f : Jet → Nat → FVal × Fl) : Nat → Jet
  | 0 => [c0]
  | n + 1 => let xs := chain c0 f n; xs ++ [f xs (n + 1)]

/-- Coefficients 0 to t, each computed alone. -/
def each (t : Nat) (f : Nat → FVal × Fl) : Jet := (List.range (t + 1)).map f

/-- R221: a divisor of ±0, or a c(0) that is a NaN, decides the higher coefficients. -/
def ruled (pole : Bool) (c0 : FVal × Fl) (f : Jet → Nat → FVal × Fl) (t : Nat) : Jet :=
  if pole then c0 :: List.replicate t (.nan false, fNV)
  else if c0.1.isNan then c0 :: List.replicate t (.nan false, 0)
  else chain c0 f t

/-- A value rounded, with flags of its own. -/
def Rd.rndWith (r : Rd) (x : FVal) (f : Fl) : FVal × Fl := withFl (r.rnd x) f

/-! ## Class 0x4 (R223 to R227) -/

/-- (x(0), y(k)), …, (x(k), y(0)). -/
def cross (x y : Nat → FVal) (k : Nat) : List (FVal × FVal) := (List.range (k + 1)).map fun i => (x i, y (k - i))

def jFadd (i : JIn) : Jet := each i.t fun k => i.r.add (i.a k) (i.b k)
def jFsub (i : JIn) : Jet := each i.t fun k => i.r.add (i.a k) (i.b k).neg
def jFmul (i : JIn) : Jet := each i.t fun k => i.r.ser none (cross i.a i.b k)
def jFma (i : JIn) : Jet := each i.t fun k => i.r.ser (some (i.d k)) (cross i.a i.b k)
def jFms (i : JIn) : Jet := each i.t fun k => i.r.ser (some (i.d k).neg) (cross i.a i.b k)
def jFnma (i : JIn) : Jet := each i.t fun k => i.r.ser (some (i.d k)) (cross (fun j => (i.a j).neg) i.b k)

/-- FDIV (R224). -/
def jFdiv (i : JIn) : Jet :=
  ruled (i.b 0).isZero (i.r.div (i.a 0) (i.b 0))
    (fun c k =>
      let s := i.r.ser (some (i.a k)) (upTo k fun j => ((i.b j).neg, c.at (k - j)))
      withFl (i.r.div s.1 (i.b 0)) s.2) i.t

/-- The constant jet of a value. -/
def constJet (x : FVal) (k : Nat) : FVal := if k = 0 then x else .zero

def jFrcp (i : JIn) : Jet := jFdiv { i with a := constJet .one, b := i.a }

def sqrt0 (r : Rd) : FVal → FVal × Fl
  | .nan s => (.nan false, flagIf s fNV)
  | .inf n => if n then (.nan false, fNV) else (.inf false, 0)
  | .fin n m e =>
    if m = 0 then (.fin n 0 0, 0)
    else if n then (.nan false, fNV)
    else let (q, k) := sqrtMag m e; r.rnd (.fin false q k)

def jFsqrt (i : JIn) : Jet :=
  let c0 := sqrt0 i.r (i.a 0)
  ruled c0.1.isZero c0
    (fun c k =>
      let s := i.r.ser (some (i.a k)) (upTo (k - 1) fun j => ((c.at j).neg, c.at (k - j)))
      withFl (i.r.div s.1 (mulX (FVal.ofInt 2) (c.at 0)).1) s.2) i.t

def rsq0 (r : Rd) : FVal → FVal × Fl
  | .nan s => (.nan false, flagIf s fNV)
  | .inf n => if n then (.nan false, fNV) else (.zero, 0)
  | .fin n m e =>
    if m = 0 then (.inf n, fDZ)
    else if n then (.nan false, fNV)
    else r.rnd (rsqrtV m e)

/-- A coefficient of the form ser(; (rnd(w(k,i) × a(i)), c(k − i))) ÷ (k × a(0)), i = 1 … k (R225, R233). -/
def weighted (r : Rd) (w : Nat → Nat → FVal) (a : Nat → FVal) (c : Jet) (k : Nat) : FVal × Fl :=
  let us := upTo k fun i => (r.mul (w k i) (a i), c.at (k - i))
  let s := r.ser none (us.map fun u => (u.1.1, u.2))
  let fl := us.foldl (fun f u => f ||| u.1.2) s.2
  withFl (r.div s.1 (mulX (FVal.ofInt k) (a 0)).1) fl

def jFrsq (i : JIn) : Jet :=
  ruled (i.a 0).isZero (rsq0 i.r (i.a 0))
    (weighted i.r (fun k j => .fin true (2 * k - j) (-1)) i.a) i.t

/-- A copied coefficient: a NaN becomes canonical and a signalling one raises NV (R226). -/
def copied (x : FVal) : FVal × Fl := match x with | .nan s => (.nan false, flagIf s fNV) | y => (y, 0)

/-- FABS (R226): `sgn k` is the sign bit of coefficient k. -/
def jFabs (sgn : Nat → Bool) (i : JIn) : Jet :=
  match (List.range (i.t + 1)).find? fun k => !(i.a k).isZero with
  | some j => each i.t fun k => copied (if sgn j then (i.a k).neg else i.a k)
  | none => each i.t fun _ => (.zero, 0)

/-- Order of R226: −∞ < negatives < −0 < +0 < positives < +∞, for values that are not NaNs. -/
def ltV : FVal → FVal → Bool
  | .inf a, .inf b => a && !b
  | .inf a, _ => a
  | _, .inf b => !b
  | .fin a m e, .fin b n k =>
    let q := min e k
    let x := signed a (m * 2 ^ (e - q).toNat)
    let y := signed b (n * 2 ^ (k - q).toNat)
    decide (x < y) || (decide (x = y) && a && !b)
  | _, _ => false

/-- Lexicographic comparison of two jets: A before B. -/
def lexLt (a b : Nat → FVal) : List Nat → Bool
  | [] => false
  | k :: ks => if ltV (a k) (b k) then true else if ltV (b k) (a k) then false else lexLt a b ks

def jMinmax (isMin : Bool) (i : JIn) : Jet :=
  let ks := List.range (i.t + 1)
  if ks.any fun k => (i.a k).isNan || (i.b k).isNan then
    each i.t fun k => (.nan false, sigFlag (i.a k) ||| sigFlag (i.b k))
  else
    let pickB := if isMin then lexLt i.b i.a ks else lexLt i.a i.b ks
    each i.t fun k => (if pickB then i.b k else i.a k, 0)

/-- FSCALE (R227): times 2^n. -/
def jFscale (n : Int) (i : JIn) : Jet := each i.t fun k => i.r.mul (.fin false 1 n) (i.a k)

/-! ## Class 0x5 (R228 to R233) -/

/-- c(0) of a function: its value at a NaN, an infinity, ±0, and elsewhere. -/
def fn0 (r : Rd) (x : FVal) (inf : Bool → FVal × Fl) (zero : Bool → FVal × Fl)
    (f : Bool → Nat → Int → FVal × Fl) : FVal × Fl :=
  match x with
  | .nan s => (.nan false, flagIf s fNV)
  | .inf n => inf n
  | .fin n m e => if m = 0 then zero n else
      let y := f n m e
      withFl (r.rnd y.1) y.2

def keepZero (n : Bool) : FVal × Fl := (.fin n 0 0, 0)
def invalid : FVal × Fl := (.nan false, fNV)

def exp0 (r : Rd) (x : FVal) : FVal × Fl :=
  fn0 r x (fun n => (if n then .zero else .inf false, 0)) (fun _ => (.one, 0)) fun n m e => (expV n m e, 0)
def exp20 (r : Rd) (x : FVal) : FVal × Fl :=
  fn0 r x (fun n => (if n then .zero else .inf false, 0)) (fun _ => (.one, 0)) fun n m e => (exp2V n m e, 0)
def expm10 (r : Rd) (x : FVal) : FVal × Fl :=
  fn0 r x (fun n => (if n then .fin true 1 0 else .inf false, 0)) keepZero fun n m e => (expm1V n m e, 0)
def log0 (r : Rd) (x : FVal) : FVal × Fl :=
  fn0 r x (fun n => if n then invalid else (.inf false, 0)) (fun _ => (.inf true, fDZ))
    fun n m e => if n then invalid else (logV m e, 0)
def log20 (r : Rd) (x : FVal) : FVal × Fl :=
  fn0 r x (fun n => if n then invalid else (.inf false, 0)) (fun _ => (.inf true, fDZ))
    fun n m e => if n then invalid else (log2V m e, 0)
def log1p0 (r : Rd) (x : FVal) : FVal × Fl :=
  fn0 r x (fun n => if n then invalid else (.inf false, 0)) keepZero fun n m e =>
    match (addX .rn .one (.fin n m e)).1 with
    | .fin neg z k => if z = 0 then (.inf true, fDZ) else if neg then invalid else (logV z k, 0)
    | _ => invalid
def sin0 (r : Rd) (x : FVal) : FVal × Fl := fn0 r x (fun _ => invalid) keepZero fun n m e => (sinV n m e, 0)
def cos0 (r : Rd) (x : FVal) : FVal × Fl :=
  fn0 r x (fun _ => invalid) (fun _ => (.one, 0)) fun _ m e => (cosV m e, 0)
def tanh0 (r : Rd) (x : FVal) : FVal × Fl :=
  fn0 r x (fun n => (.fin n 1 0, 0)) keepZero fun n m e => (tanhV n m e, 0)
def sigm0 (r : Rd) (x : FVal) : FVal × Fl :=
  fn0 r x (fun n => (if n then .zero else .one, 0)) (fun _ => (.fin false 1 (-1), 0)) fun n m e => (sigmV n m e, 0)
def erf0 (r : Rd) (x : FVal) : FVal × Fl :=
  fn0 r x (fun n => (.fin n 1 0, 0)) keepZero fun n m e => (erfV n m e, 0)
/-- e(0) of R232. -/
def gauss0 (r : Rd) (x : FVal) : FVal × Fl :=
  fn0 r x (fun _ => (.zero, 0)) (fun _ => r.rnd (gaussV 0 0)) fun _ m e => (gaussV m e, 0)

def jFexp (i : JIn) : Jet := ruled false (exp0 i.r (i.a 0)) (fun c k => i.r.dsum i.a c.at k) i.t

/-- An irrational constant times a coefficient, rounded once. -/
def Rd.byConst (r : Rd) (k : FVal) (x : FVal) : FVal × Fl := r.mul k x
/-- ln 2 and 1 ÷ ln 2 beyond the precision of every format. -/
def ln2V : FVal := ofFx fxLn2
def invLn2V : FVal := ofFx ((fxOne * fxOne).tdiv fxLn2)

def jFexp2 (i : JIn) : Jet :=
  let x := each i.t fun j => if j = 0 then (i.a 0, 0) else i.r.byConst ln2V (i.a j)
  ruled false (exp20 i.r (i.a 0)) (fun c k => withFl (i.r.dsum x.at c.at k) (x.getD k (.zero, 0)).2) i.t

def jFexpm1 (i : JIn) : Jet :=
  let ex := exp0 i.r (i.a 0)
  ruled false (expm10 i.r (i.a 0))
    (fun c k => withFl (i.r.dsum i.a (fun j => if j = 0 then ex.1 else c.at j) k) (if k = 1 then ex.2 else 0)) i.t

/-- logrec (R230). -/
def logrec (r : Rd) (z y : Nat → FVal) (k : Nat) : FVal × Fl :=
  let us := upTo (k - 1) fun i => if i = 1 then (y 1, (0 : Fl)) else r.mul (FVal.ofInt i) (y i)
  let s := r.ser none ((List.range (k - 1)).map fun i => ((us.map (·.1)).getD i .zero, z (k - 1 - i)))
  let t := r.div s.1 (FVal.ofInt k)
  let u := r.add (z k) t.1.neg
  let v := r.div u.1 (z 0)
  withFl v (us.foldl (fun f x => f ||| x.2) (s.2 ||| t.2 ||| u.2))

def jFlog (i : JIn) : Jet :=
  ruled (i.a 0).isZero (log0 i.r (i.a 0)) (fun c k => logrec i.r i.a c.at k) i.t

def jFlog2 (i : JIn) : Jet :=
  let l := chain (.zero, 0) (fun l k => logrec i.r i.a l.at k) i.t
  ruled (i.a 0).isZero (log20 i.r (i.a 0))
    (fun _ k => withFl (i.r.byConst invLn2V (l.at k)) (l.getD k (.zero, 0)).2) i.t

def jFlog1p (i : JIn) : Jet :=
  let z0 := i.r.add .one (i.a 0)
  let z (j : Nat) : FVal := if j = 0 then z0.1 else i.a j
  ruled z0.1.isZero (log1p0 i.r (i.a 0))
    (fun c k => withFl (logrec i.r z c.at k) (if k = 1 then z0.2 else 0)) i.t

/-- sv and cv (R231), one after the other for each coefficient. -/
def sincosGo (i : JIn) : Nat → Jet × Jet
  | 0 => ([sin0 i.r (i.a 0)], [cos0 i.r (i.a 0)])
  | k + 1 =>
    let (s, c) := sincosGo i k
    let x := i.r.dsum i.a c.at (k + 1)
    let y := i.r.dsum i.a s.at (k + 1)
    (s ++ [x], c ++ [(y.1.neg, y.2)])

/-- The main jet with the undefined-value rule of R221 and the flags of an auxiliary jet, index j into j + 1. -/
def withAux (main aux : Jet) (t : Nat) : Jet :=
  match main with
  | [] => []
  | c0 :: cs =>
    if c0.1.isNan then c0 :: List.replicate t (.nan false, 0)
    else c0 :: (cs.zip aux).map fun x => withFl x.1 x.2.2

def jFsin (i : JIn) : Jet := let (s, c) := sincosGo i i.t; withAux s c i.t
def jFcos (i : JIn) : Jet := let (s, c) := sincosGo i i.t; withAux c s i.t
/-- Both results of FSINCOS, sv first. -/
def jFsincos (i : JIn) : Jet × Jet :=
  let (s, c) := sincosGo i i.t
  if s.at 0 = .nan false then
    (s.take 1 ++ List.replicate i.t (.nan false, 0), c.take 1 ++ List.replicate i.t (.nan false, 0))
  else (s, c)

/-- A function with an algebraic derivative (R232): `aux c j` is auxiliary j, formed after c(j); its flags go to
coefficient j + 1. -/
def algebraic (i : JIn) (c0 : FVal × Fl) (aux : Jet → Jet → Nat → FVal × Fl) : Jet :=
  let go := (List.range i.t).foldl (fun (p : Jet × Jet) j =>
    let (c, q) := p
    let x := aux c q j
    let q := q ++ [x]
    (c ++ [withFl (i.r.dsum i.a q.at (j + 1)) x.2], q)) ([c0], [])
  if c0.1.isNan then c0 :: List.replicate i.t (.nan false, 0) else go.1

def jFtanh (i : JIn) : Jet :=
  algebraic i (tanh0 i.r (i.a 0)) fun c _ j =>
    if j = 0 then i.r.fma .one (c.at 0).neg (c.at 0)
    else let s := i.r.ser none (cross c.at c.at j); (s.1.neg, s.2)

def jFsigm (i : JIn) : Jet :=
  algebraic i (sigm0 i.r (i.a 0)) fun c _ j =>
    if j = 0 then i.r.fma (c.at 0) (c.at 0).neg (c.at 0)
    else i.r.ser (some (c.at j)) (cross (fun n => (c.at n).neg) c.at j)

def jFerf (i : JIn) : Jet :=
  let m := each i.t fun j => if j = 0 then (FVal.zero, 0) else i.r.ser none (cross i.a i.a j)
  algebraic i (erf0 i.r (i.a 0)) fun _ e j =>
    if j = 0 then gauss0 i.r (i.a 0)
    else
      let s := i.r.dsum m.at e.at j
      (s.1.neg, s.2 ||| (m.getD j (.zero, 0)).2)

/-- pown (R233). -/
def pown0 (r : Rd) (x : FVal) (n : Int) : FVal × Fl :=
  let odd := n % 2 ≠ 0
  if n = 0 then (.one, sigFlag x)
  else fn0 r x
    (fun neg => if n < 0 then (.fin (neg && odd) 0 0, 0) else (.inf (neg && odd), 0))
    (fun neg => if n < 0 then (.inf (neg && odd), fDZ) else (.fin (neg && odd) 0 0, 0))
    fun neg m e =>
      let (p, k) := powMag m e n.natAbs
      let y : FVal := .fin (neg && odd) p k
      (if n < 0 then quotV .one y else y, 0)

def jFpowi (n : Int) (i : JIn) : Jet :=
  let c0 := pown0 i.r (i.a 0) n
  if n = 0 then c0 :: List.replicate i.t (.zero, 0)
  else if (i.a 0).isZero && decide (0 < n) then
    c0 :: upTo i.t fun k =>
      if n = 1 then i.r.rndWith (i.a k) (sigFlag (i.a k))
      else if n = 2 ∧ k = 2 then i.r.mul (i.a 1) (i.a 1)
      else if n = 2 ∧ k = 3 then
        let p := mulX (i.a 1) (i.a 2)
        withFl (i.r.mul (FVal.ofInt 2) p.1) (flagIf p.2 fNV ||| sigFlag (i.a 1) ||| sigFlag (i.a 2))
      else if n = 3 ∧ k = 3 then
        let p := mulX (i.a 1) (i.a 1)
        withFl (i.r.mul (i.a 1) p.1) (flagIf p.2 fNV)
      else (.zero, 0)
  else
    ruled (i.a 0).isZero c0
      (weighted i.r (fun k j => FVal.ofInt (n * j - (k - j))) i.a) i.t

/-! ## Class 0x7 (R243) -/

def jJdiff (i : JIn) : Jet :=
  each i.t fun j => if j < i.t then i.r.mul (FVal.ofInt (j + 1)) (i.a (j + 1)) else (.zero, 0)
/-- JINTG; `h` is B's value. -/
def jJintg (h : FVal) (i : JIn) : Jet :=
  each i.t fun j => if j = 0 then i.r.rndWith h (sigFlag h) else i.r.div (i.a (j - 1)) (FVal.ofInt j)
def powX (h : FVal) : Nat → FVal
  | 0 => .one
  | n + 1 => (mulX (powX h n) h).1
def jJscal (h : FVal) (i : JIn) : Jet :=
  each i.t fun j =>
    if j = 0 then i.r.rndWith (i.a 0) (sigFlag (i.a 0))
    else withFl (i.r.mul (i.a j) (powX h j)) (sigFlag h)
def jJeval (h : FVal) (i : JIn) : FVal × Fl :=
  if i.t = 0 then i.r.rndWith (i.a 0) (sigFlag (i.a 0))
  else (List.range i.t).foldl (fun acc j => withFl (i.r.fma (i.a (i.t - 1 - j)) acc.1 h) acc.2) (i.a i.t, 0)

end Sys2Proof.Machine
end

