-- ==== Sys2Proof/Machine/Fp.lean ====
section
/-! DEFINITION. The firing forms of the floating-point classes: reading sub-elements of jets, packing results, flags
by coefficient and latencies by order (R215 to R219, R245). -/
namespace Sys2Proof.Machine

/-- The bits of sub-element h of a lane value. -/
def subBits (z : FSz) (x : W) (h : Nat) : Nat := fld x.toNat ((FSz.fmt z).width * h) (FSz.fmt z).width

/-- Sub-element h of coefficient j in lane l of an operand, as stored. -/
def Ctx.raw (c : Ctx) (z : FSz) (x : Src) (l h j : Nat) : Nat := subBits z ((c.coef x j).1.get l) h
/-- The same as a value, flushed under FTZ. -/
def Ctx.fval (c : Ctx) (z : FSz) (x : Src) (l h j : Nat) : FVal := (FSz.fmt z).read c.ftz (c.raw z x l h j)
def signBit (z : FSz) (n : Nat) : Bool := n / 2 ^ ((FSz.fmt z).width - 1) % 2 == 1

/-- The highest coefficient computed: g − 1, or 2 at order 2 (R222). -/
def Ctx.top (c : Ctx) : Nat := c.k

def Ctx.rd (c : Ctx) (z : FSz) (rm : Rm) : Rd := ⟨(FSz.fmt z), rm, c.ftz⟩

def Ctx.jin (c : Ctx) (z : FSz) (rm : Rm) (a b d : Src) (l h : Nat) : JIn :=
  { r := c.rd z rm, t := c.top, a := c.fval z a l h, b := c.fval z b l h, d := c.fval z d l h }

/-- A lane value packed from its sub-elements. -/
def packF (z : FSz) (f : Nat → Nat) : W := BitVec.ofNat 32 (packEls (FSz.fmt z).width f (FSz.n z))

/-- r(l) by value (R28): some sub-element is neither +0 nor −0. -/
def nonzeroF (z : FSz) (v : Oct W) : Mask :=
  maskOf fun l => (List.range (FSz.n z)).any fun h => subBits z (v.get l) h % 2 ^ ((FSz.fmt z).width - 1) != 0

/-- The jets of every active lane and sub-element. -/
abbrev Jets := Oct (List Jet)

def Ctx.jets (c : Ctx) (z : FSz) (f : Nat → Nat → Jet) : Jets :=
  Oct.of fun l => if bit c.act l then (List.range (FSz.n z)).map (f l) else []

/-- Coefficient j of every lane. -/
def Jets.lane (z : FSz) (js : Jets) (j : Nat) : Oct W :=
  js.map fun hs => packF z fun h => (FSz.fmt z).bits (Jet.at (hs.getD h []) j)

def flagsOfJet (x : Jet) : BitVec 20 :=
  (x.zipIdx).foldl (fun a y => a ||| flagsAt y.2 y.1.2) 0
/-- The flags of a firing: the OR over its lanes and sub-elements (R215). -/
def Jets.flags (js : Jets) : BitVec 20 :=
  js.toList.foldl (fun a hs => hs.foldl (fun a x => a ||| flagsOfJet x) a) 0

/-- A latency by order. -/
def Ctx.byOrder (c : Ctx) (l0 l1 l2 l3 : Nat) : Nat :=
  match c.k with | 0 => l0 | 1 => l1 | 2 => l2 | _ => l3

/-- A firing with a jet result in the format of SZ. -/
def Ctx.fjet (c : Ctx) (z : FSz) (d : Dst) (xs : List Src) (pu : Option Pu) (lat : Nat)
    (f : Nat → Nat → Jet) : Res :=
  let js := c.jets z f
  (((c.putGroup d (fun j => (js.lane z j, (FSz.tag z))) (c.valid xs)).withPu c pu (nonzeroF z (js.lane z 0))).late
    lat).raise js.flags

/-- A recurrence of A alone. -/
def Ctx.fun1 (c : Ctx) (z : FSz) (rm : Rm) (d : Dst) (a : Src) (pu : Option Pu) (lat : Nat) (f : JIn → Jet) : Res :=
  c.fjet z d [a] pu lat fun l h => f (c.jin z rm a a a l h)
/-- A recurrence of A and B. -/
def Ctx.fun2 (c : Ctx) (z : FSz) (rm : Rm) (d : Dst) (a b : Src) (pu : Option Pu) (lat : Nat) (f : JIn → Jet) : Res :=
  c.fjet z d [a, b] pu lat fun l h => f (c.jin z rm a b a l h)
/-- A recurrence of A, B and the old D. -/
def Ctx.fun3 (c : Ctx) (z : FSz) (rm : Rm) (d : Fin 16) (a b : Src) (pu : Option Pu) (lat : Nat) (f : JIn → Jet) : Res :=
  c.fjet z (.v d) [a, b] pu lat fun l h => f (c.jin z rm a b (.v d) l h)

/-- A signed integer of the element width in a single operand (R227). -/
def Ctx.count (c : Ctx) (z : FSz) (b : Src) (l h : Nat) : Int := sx (FSz.fmt z).width (subBits z ((c.val b).get l) h)

end Sys2Proof.Machine
end

