-- ==== Sys2Proof/Machine/Convert.lean ====
section
/-! DEFINITION. The meanings of class 0x6 (R234 to R239). -/
namespace Sys2Proof.Machine

/-! ## Compares (R235) -/

def fLt (a b : FVal) : Bool := !a.isNan && !b.isNan && ltV a b && !(a.isZero && b.isZero)
def fEq (a b : FVal) : Bool := !a.isNan && !b.isNan && !fLt a b && !fLt b a
def fLe (a b : FVal) : Bool := fLt a b || fEq a b
def fUn (a b : FVal) : Bool := a.isNan || b.isNan
def anySig (a b : FVal) : Fl := sigFlag a ||| sigFlag b
def anyNan (a b : FVal) : Fl := flagIf (fUn a b) fNV

/-- Results and flags computed per active lane and sub-element of one coefficient. -/
def Ctx.subs (c : Ctx) (z : FSz) (f : Nat → Nat → Nat × Fl) : Oct (List (Nat × Fl)) :=
  Oct.of fun l => if bit c.act l then (List.range (FSz.n z)).map (f l) else []
def subLanes (w : Nat) (z : FSz) (x : Oct (List (Nat × Fl))) : Oct W :=
  x.map fun hs => BitVec.ofNat 32 (packEls w (fun h => (hs.getD h (0, 0)).1) (FSz.n z))
def subFlags (x : Oct (List (Nat × Fl))) : Fl :=
  x.toList.foldl (fun a hs => hs.foldl (fun a y => a ||| y.2) a) 0

def Ctx.fcmp (c : Ctx) (z : FSz) (d : Dst) (a b : Src) (pu : Option Pu) (rel : FVal → FVal → Bool)
    (fl : FVal → FVal → Fl) : Res :=
  let x := c.subs z fun l h =>
    let u := c.fval z a l h 0
    let v := c.fval z b l h 0
    (if rel u v then 2 ^ (FSz.fmt z).width - 1 else 0, fl u v)
  let val := subLanes (FSz.fmt z).width z x
  (((c.put d val .int32 (c.valid [a, b])).withPu c pu (nonzero val)).late 2).raise (flagsAt 0 (subFlags x))

/-- FCMPEQ (R235). -/
def execFcmpeq (d : Dst) (a b : Src) (pu : Option Pu) (z : FSz) (s : State) : Host.Outcome State Fault Refusal :=
  fire (.fcmpeq d a b pu z) s fun c => c.fcmp z d a b pu fEq anySig

/-- FCMPLT (R235). -/
def execFcmplt (d : Dst) (a b : Src) (pu : Option Pu) (z : FSz) (s : State) : Host.Outcome State Fault Refusal :=
  fire (.fcmplt d a b pu z) s fun c => c.fcmp z d a b pu fLt anyNan

/-- FCMPLE (R235). -/
def execFcmple (d : Dst) (a b : Src) (pu : Option Pu) (z : FSz) (s : State) : Host.Outcome State Fault Refusal :=
  fire (.fcmple d a b pu z) s fun c => c.fcmp z d a b pu fLe anyNan

/-- FCMPUN (R235). -/
def execFcmpun (d : Dst) (a b : Src) (pu : Option Pu) (z : FSz) (s : State) : Host.Outcome State Fault Refusal :=
  fire (.fcmpun d a b pu z) s fun c => c.fcmp z d a b pu fUn anySig

/-! ## FCLASS and FRND (R236) -/

/-- The class bit of a stored pattern. -/
def classify (f : Fmt) (n : Nat) : Nat :=
  let neg := n / 2 ^ (f.width - 1) % 2 == 1
  let mag := n % 2 ^ (f.width - 1)
  let k := match f.read false n with
    | .nan sig => if sig then 8 else 9
    | .inf _ => if neg then 0 else 7
    | .fin _ m _ =>
      if m = 0 then (if neg then 3 else 4)
      else if mag < 2 ^ (f.p - 1) then (if neg then 2 else 5)
      else (if neg then 1 else 6)
  2 ^ k

/-- A group result whose c(0) is given and whose higher coefficients are +0. -/
def Ctx.only0 (c : Ctx) (d : Dst) (xs : List Src) (val : Oct W) (tag : Tag) : Res :=
  c.putGroup d (fun j => (if j = 0 then val else Oct.rep 0, tag)) (c.valid xs)

/-- FCLASS (R236). -/
def execFclass (d : Dst) (a : Src) (pu : Option Pu) (z : FSz) (s : State) : Host.Outcome State Fault Refusal :=
  fire (.fclass d a pu z) s fun c =>
    let val := subLanes (FSz.fmt z).width z (c.subs z fun l h => (classify (FSz.fmt z) (c.raw z a l h 0), 0))
    (((c.only0 d [a] val .int32).withPu c pu (nonzero val)).late 2).raise 0

/-- A value rounded to an integral value of its format (R236). -/
def frnd (rm : Rm) (x : FVal) : FVal × Fl :=
  match x with
  | .nan sig => (.nan false, flagIf sig fNV)
  | .inf n => (.inf n, 0)
  | .fin n m e => if 0 ≤ e then (.fin n m e, 0) else (.fin n (toIntegral rm n m e).1.natAbs 0, 0)

/-- FRND (R236). -/
def execFrnd (d : Dst) (a : Src) (pu : Option Pu) (z : FSz) (rm : Rm) (s : State) :
    Host.Outcome State Fault Refusal :=
  fire (.frnd d a pu z rm) s fun c =>
    c.fun1 z rm d a pu 3 fun i => frnd rm (i.a 0) :: List.replicate i.t (.zero, 0)

/-! ## Width and format changes (R237) -/

/-- The source format of CVTF: the tag's, or the target's. -/
def srcFmt (z : FSz) : Tag → FSz | .fp32 => .f32 | .fp16 => .f16 | .bf16 => .bf16 | _ => z

/-- One lane of one coefficient under CVTF. See log entry 13 (DEDUCED). -/
def cvtLane (z : FSz) (rm : Rm) (ftz : Bool) (tag : Tag) (x : W) : W × Fl :=
  let f := srcFmt z tag
  let n := if f = .f32 ∨ z = .f32 then 1 else 2
  let ys := (List.range n).map fun h => convert (FSz.fmt z) rm ftz false ((FSz.fmt f).read ftz (subBits f x h))
  (packF z fun h => match ys[h]? with | some y => (FSz.fmt z).bits y.1 | none => 0,
    ys.foldl (fun a y => a ||| y.2) 0)

/-- CVTF (R237). See log entry 13 (DEDUCED). -/
def execCvtf (d : Dst) (a : Src) (pu : Option Pu) (z : FSz) (rm : Rm) (s : State) :
    Host.Outcome State Fault Refusal :=
  fire (.cvtf d a pu z rm) s fun c =>
    let co (j : Nat) : Oct (W × Fl) :=
      let x := c.coef a j
      Oct.of fun l => if bit c.act l then cvtLane z rm c.ftz x.2 (x.1.get l) else (0, 0)
    let cs := (List.range (c.top + 1)).map co
    let fl := cs.zipIdx.foldl (fun f x => f ||| flagsAt x.2 (x.1.toList.foldl (fun a y => a ||| y.2) 0)) 0
    let val (j : Nat) : Oct W := (cs.getD j (Oct.rep (0, 0))).map (·.1)
    (((c.putGroup d (fun j => (val j, FSz.tag z)) (c.valid [a])).withPu c pu (nonzeroF z (val 0))).late 3).raise fl

/-- PACK (R237). -/
def execPack (d : Dst) (a b : Src) (pu : Option Pu) (bf : Bool) (rm : Rm) (s : State) :
    Host.Outcome State Fault Refusal :=
  fire (.pack d a b pu bf rm) s fun c =>
    let z : FSz := if bf then .bf16 else .f16
    let x := c.subs z fun l h =>
      let v := convert (FSz.fmt z) rm c.ftz false
        (F32.read c.ftz ((c.val (if h = 0 then a else b)).get l).toNat)
      ((FSz.fmt z).bits v.1, v.2)
    let val := subLanes 16 z x
    (((c.put d val (FSz.tag z) (c.valid [a, b])).withPu c pu (nonzeroF z val)).late 3).raise
      (flagsAt 0 (subFlags x))

/-- What UNPK reads by A's tag. -/
def unpkRead (ftz : Bool) (tag : Tag) (i : Nat) (x : W) : FVal :=
  match tag with
  | .fp16 => F16.read ftz (fld x.toNat (16 * (i % 2)) 16)
  | .bf16 => FBF.read ftz (fld x.toNat (16 * (i % 2)) 16)
  | .e4m3 => FE4.read ftz (fld x.toNat (8 * i) 8)
  | .e5m2 => FE5.read ftz (fld x.toNat (8 * i) 8)
  | _ => F32.read ftz x.toNat

/-- UNPK (R237). -/
def execUnpk (d : Dst) (a : Src) (pu : Option Pu) (i : Fin 4) (s : State) : Host.Outcome State Fault Refusal :=
  fire (.unpk d a pu i) s fun c =>
    let x := c.subs .f32 fun l _ =>
      let v := convert F32 .rn c.ftz false (unpkRead c.ftz (c.tag a) i ((c.val a).get l))
      (F32.bits v.1, v.2)
    let val := subLanes 32 .f32 x
    (((c.put d val .fp32 (c.valid [a])).withPu c pu (nonzeroF .f32 val)).late 3).raise (flagsAt 0 (subFlags x))

/-! ## Integers (R238) -/

/-- CVTFI (R238). -/
def execCvtfi (d : Dst) (a : Src) (pu : Option Pu) (z : FSz) (rm : Rm) (s : State) :
    Host.Outcome State Fault Refusal :=
  fire (.cvtfi d a pu z rm) s fun c =>
    let w := (FSz.fmt z).width
    let x := c.subs z fun l h =>
      let v := c.fval z a l h 0
      let y := toInt w rm v
      (wrap w y.1, y.2)
    let val := subLanes w z x
    (((c.only0 d [a] val .int32).withPu c pu (nonzero val)).late 3).raise (flagsAt 0 (subFlags x))

/-- CVTIF (R238). -/
def execCvtif (d : Dst) (a : Src) (pu : Option Pu) (z : FSz) (rm : Rm) (s : State) :
    Host.Outcome State Fault Refusal :=
  fire (.cvtif d a pu z rm) s fun c =>
    c.fjet z d [a] pu 3 fun l h =>
      (c.rd z rm).rnd (FVal.ofInt (c.count z a l h)) :: List.replicate c.top (.zero, 0)

/-! ## Block scales (R239) -/

def f8 (b : W) : Fmt := if b.getLsbD 8 then FE5 else FE4

/-- One element under QNT. -/
def qntEl (rm : Rm) (b : W) (x : FVal) : Nat × Fl :=
  let f := f8 b
  let scale := fld b.toNat 0 8
  if scale = 255 then (f.nan, 0)
  else
    let y := convert f rm false (!b.getLsbD 9)
      (match x with | .fin n m e => .fin n m (e + 127 - scale) | v => v)
    (f.bits y.1, y.2)

/-- QNT (R239). -/
def execQnt (d : Dst) (a b : Src) (pu : Option Pu) (z : FSz) (rm : Rm) (s : State) :
    Host.Outcome State Fault Refusal :=
  fire (.qnt d a b pu z rm) s fun c =>
    let cs := (List.range (c.top + 1)).map fun j =>
      c.subs z fun l h => qntEl rm ((c.val b).get l) (c.fval z a l h j)
    let val (j : Nat) : Oct W := subLanes 8 z (cs.getD j (Oct.rep []))
    let tag : Tag := match lowest c.act with
      | some l => if ((c.val b).get l).getLsbD 8 then .e5m2 else .e4m3
      | none => .e4m3
    let r := maskOf fun l => (List.range 4).any fun i => fld ((val 0).get l).toNat (8 * i) 7 != 0
    (((c.putGroup d (fun j => (val j, tag)) (c.valid [a, b])).withPu c pu r).late 4).raise
      (cs.zipIdx.foldl (fun f x => f ||| flagsAt x.2 (subFlags x.1)) 0)

/-- One element under DQNT. -/
def dqntEl (ftz : Bool) (b : W) (byte : Nat) : FVal × Fl :=
  let scale := fld b.toNat 0 8
  if scale = 255 then (.nan false, 0)
  else match (f8 b).read false byte with
    | .nan sig => (.nan false, flagIf sig fNV)
    | .inf n => (.inf n, 0)
    | .fin n m e => F32.round .rn ftz (.fin n m (e + scale - 127))

/-- DQNT (R239). -/
def execDqnt (d : Dst) (a b : Src) (pu : Option Pu) (i : Fin 4) (s : State) : Host.Outcome State Fault Refusal :=
  fire (.dqnt d a b pu i) s fun c =>
    c.fjet .f32 d [a, b] pu 4 fun l _ =>
      each c.top fun j => dqntEl c.ftz ((c.val b).get l) (fld ((c.coef a j).1.get l).toNat (8 * i.val) 8)

end Sys2Proof.Machine
end

