-- ==== Sys2Proof/Machine/ElementSteps.lean ====
section
/-! DEFINITION. Steps of the element and the channels (R153, R155 to R158, R161, R162, R169, R290, R291, R326, R327):
completions, arriving tokens and their recording in a cut, spilled tokens, credits, CFG tokens, task packets and the
join unit. -/
namespace Sys2Proof.Machine

/-- INSTRUCTION_COMPLETE (R169): the firing at place k of those in flight lands. -/
def execInstructionComplete (e k : Nat) (s : State) : Host.Outcome State Fault Refusal :=
  let fl := (s.elem e).inflight
  match fl[k]? with
  | none => .next s
  | some f => if f.left ≠ 0 then .next s else .next (land s e (fl.take k) f (fl.drop (k + 1)))

/-! ## Recording in a cut (R291) -/

/-- A change of the save record of an element in the open cut of its region. -/
def State.modSave (s : State) (e : Nat) (f : ElemSave → ElemSave) : State :=
  match (s.elem e).region with
  | none => s
  | some rg => s.modRegion rg fun r =>
      match r.cut with
      | some c =>
        (match c.elems.get? e with
         | some x => { r with cut := some { c with elems := c.elems.put e (f x) } }
         | none => r)
      | none => r

/-- The element has saved in the open cut: a token or packet of the old round is recorded as it arrives. -/
def Elem.oldRound (x : Elem) (round : Nat) : Bool := x.savedCut.isSome && decide (round ≤ x.round)

/-- The channel `p` is a back edge. -/
def Port.back (x : Port) : Bool := match x.branch with | some b => b.back | none => false

/-- A token arriving at an input is recorded: on a back edge before its MARK, or a reply of the old round. -/
def State.recordTok (s : State) (p : Nat) (t : Tok) (reply : Bool) : State :=
  let x := s.port p
  let e := portElem p
  if portVc p = 0 ∧ t.kind ≠ .mark ∧ t.kind ≠ .recon ∧ (s.elem e).oldRound t.round ∧ (reply ∨ (x.back ∧ !x.markSeen)) then
    s.modSave e fun r => { r with toks := r.toks ++ [(portCh p, t)] }
  else s

/-! ## Spill rings (R157) -/

/-- The 64 bytes of a spilled token. -/
def tokBytes (t : Tok) : List Byte :=
  t.data.toList.flatMap (fun w => leBytes 4 w.toNat) ++ leBytes 1 t.lvm.toNat ++
  leBytes 1 (E.tag t.tag + 8 * kindNum t.kind) ++ leBytes 2 t.stamp.toNat ++ leBytes 28 0

/-- The token that 64 bytes of a spill ring hold. -/
def tokOf (b : List Byte) (round : Nat) : Tok :=
  let k := natAt b 33 1
  { kind := kindOf (fld k 3 3), tag := D.tagOf (fld k 0 3), lvm := BitVec.ofNat 8 (natAt b 32 1)
    data := Oct.of fun l => BitVec.ofNat 32 (natAt b (4 * l) 4), stamp := BitVec.ofNat 16 (natAt b 34 2), round := round }

/-- SPILL_WRITE (R157): the token goes to the tail of the ring. See log entry 21 (DEDUCED). -/
def State.spillWrite (s : State) (p rg i : Nat) (t : Tok) : State :=
  let b := tokBytes t
  let s := s.pushBlock rg i (b.take 32) false
  let s := s.pushBlock rg i (b.drop 32) false
  s.modPort p fun x => { x with spilled := x.spilled ++ [t.round] }

/-- The n-th token of a spill ring, the oldest being 0. Read from a poisoned row it is POISON of an unknown address
(R311). -/
def State.ringTok (s : State) (rg i n round : Nat) : Tok :=
  let lo := s.blockAt rg i (64 * n)
  let hi := s.blockAt rg i (64 * n + 32)
  if lo.2 || hi.2 then poisonTok unknownPa round else tokOf (lo.1 ++ hi.1) round

/-- The tokens that stand in an input, the oldest first: its queue, then its spill ring. -/
def State.portToks (s : State) (p : Nat) : List Tok :=
  let x := s.port p
  x.queue ++ match x.ring with
    | some (rg, i) => x.spilled.zipIdx.map fun r => s.ringTok rg i r.2 r.1
    | none => []

/-- SPILL_REFILL (R157): the oldest token of the ring moves into a free slot of the queue. -/
def execSpillRefill (e vc ch : Nat) (s : State) : Host.Outcome State Fault Refusal :=
  let p := portKey e vc ch
  let x := s.port p
  match x.ring, x.spilled with
  | some (rg, i), round :: rest =>
    if 4 ≤ x.queue.length then .next s
    else
      let t := s.ringTok rg i 0 round
      let s := s.popRing rg i 64
      .next ((s.modPort p fun x => { x with queue := x.queue ++ [t], spilled := rest }).stir (s.elem e).region)
  | _, _ => .next s

/-! ## Arrival (R155, R158) -/

/-- A token has reached the entry of its channel, and none that left before it waits there or, sent by the same source, is
still on its way (R18, R95, R107). -/
def State.atEntry (s : State) (k : Nat) (f : Flight) : Bool :=
  f.left == 0 && decide (f.due ≤ s.clock) &&
    !(s.flights.any fun g => decide (g.1 < k) && g.2.port == f.port &&
      (g.2.src == f.src || (g.2.left == 0 && decide (g.2.due ≤ s.clock))))

/-- An output has room for a token and no MARK is held at it. -/
def State.outFree (s : State) (e vc o : Nat) : Bool :=
  s.space e vc o 1 && (vc != 0 || (s.elem e).heldMarks.all fun m => m.1 != o)

/-- The divert output of an input that does not accept a token: DATA with a tag outside ACCEPT. -/
def Port.refuses (x : Port) (t : Tok) (reply : Bool) : Option (Option Nat) :=
  match x.branch with
  | some b => if !reply && t.kind == .data && !bit b.accept (E.tag t.tag) then some b.divert else none
  | none => none

/-- TOKEN_DIVERT (R158): the token leaves on the divert output, unchanged, and frees its window slot.
See log entry 50 (DEDUCED). -/
def State.divert (s : State) (p o : Nat) (t : Tok) : State :=
  let e := portElem p
  let vc := portVc p
  let s := s.modPort p fun x => { x with win := x.win - 1 }
  let s := match (s.port p).branch with | some b => s.credit p (tileOf b.prod) | none => s
  let s := s.takeSpace e vc o 1
  forAll (fun s q => s.launch (tileOf e) q t) (s.outPorts (portKey e vc o)) s

/-- TOKEN_ARRIVE (R155): a token enters the queue of its input, its spill ring, or the divert output; without a place
to go it waits at the entry. A reply's arrival performs its operation (R249). -/
def execTokenArrive (k : Nat) (s : State) : Host.Outcome State Fault Refusal :=
  match s.flights.get? k with
  | none => .next s
  | some f =>
    if !s.atEntry k f then .next s
    else
      let p := f.port
      let e := portElem p
      let x := s.port p
      let reply := f.ack.isSome || x.branch.isNone
      let gone : State := { s with flights := s.flights.del k }
      match x.refuses f.tok reply with
      | some (some o) =>
        if s.outFree e (portVc p) o then .next ((gone.divert p o f.tok).stir (s.elem e).region) else .next s
      | some none =>
        if (s.elem e).stopped.isSome then .next s
        else .next (s.stall e 10 (if portVc p = 0 then .work else .s) 0x1F false (s.elem e).fires (s.elem e).round
          (BitVec.ofNat 32 (portCh p)) (BitVec.ofNat 32 (E.tag f.tok.tag)))
      | none =>
        let place : Option State :=
          if x.queue.length < 4 ∧ x.spilled.isEmpty then
            some (gone.modPort p fun x => { x with queue := x.queue ++ [f.tok] })
          else match x.ring with
            | some (rg, i) => some (gone.spillWrite p rg i f.tok)
            | none => none
        match place with
        | none => .next s
        | some s =>
          let s := match f.ack with | some (pe, st, ord) => s.streamDone pe st ord | none => s
          let s := s.recordTok p f.tok reply
          let s := if f.tok.kind == .mark && x.back then s.modPort p fun x => { x with markSeen := true } else s
          .next (s.stir (s.elem e).region)

/-! ## Credits (R155) and held MARKs (R290) -/

/-- A MARK: the old round's last token on a branch. See log entry 14 (DEDUCED). -/
def markTok (round : Nat) : Tok := { kind := .mark, tag := .raw, lvm := 0, data := Oct.rep 0, stamp := 0, round := round }

/-- MARK_ENTER (R290): a MARK held for a branch enters it when the branch has space. -/
def State.markEnter (s : State) (p : Nat) : State :=
  match (s.port p).branch with
  | none => s
  | some b =>
    let x := s.elem b.prod
    if x.heldMarks.any (fun m => m.2 == p) && s.portSpace (tileOf b.prod) p then
      let s := s.setElem b.prod { x with heldMarks := x.heldMarks.filter fun m => m.2 != p }
      s.sendTo 0 0 (tileOf b.prod) p (markTok x.round) none
    else s

/-- CREDIT_RETURN (R155): a freed slot becomes known to the sender. -/
def execCreditReturn (k : Nat) (s : State) : Host.Outcome State Fault Refusal :=
  match s.credits.get? k with
  | none => .next s
  | some c =>
    if c.left ≠ 0 ∨ s.clock < c.due then .next s
    else
      let s : State := { s with credits := s.credits.del k }
      .next ((s.modPort c.port fun x => { x with known := x.known - 1 }).markEnter c.port)

/-! ## CFG tokens (R153) -/

/-- CFG_TOKEN_APPLY (R153): the lanes of a CFG token at the head are written into a K register.
See log entry 11 (DEDUCED). -/
def execCfgTokenApply (e vc ch : Nat) (s : State) : Host.Outcome State Fault Refusal :=
  let p := portKey e vc ch
  match (s.port p).queue with
  | t :: _ =>
    if t.kind = .cfg then
      let n := t.stamp.toNat % 4
      let s := s.modElem e fun x => { x with k := x.k.set n (merge t.lvm t.data (x.k.get n)) }
      .next ((s.dequeue p).stir (s.elem e).region)
    else .next s
  | [] => .next s

/-! ## Task packets (R161) -/

/-- TASK_PACKET_DELIVER (R161): the packet enters the task port, when it has room and no earlier packet of its sender
waits for the same port. -/
def execTaskPacketDeliver (k : Nat) (s : State) : Host.Outcome State Fault Refusal :=
  match s.packets.get? k with
  | none => .next s
  | some f =>
    let x := s.elem f.dest
    if f.left ≠ 0 ∨ s.clock < f.due ∨ 8 ≤ x.tport.length ∨
        (s.packets.any fun g => decide (g.1 < k) && g.2.dest == f.dest && g.2.src == f.src) then .next s
    else
      let s : State := { s with packets := s.packets.del k }
      let s := s.setElem f.dest { x with tport := x.tport ++ [f.pkt] }
      .next (if x.oldRound f.pkt.round then s.modSave f.dest fun r => { r with pkts := r.pkts ++ [f.pkt] } else s)

/-! ## The join unit (R162, R326, R327) -/

/-- The arm of a cell, replaced. A change made in the new round leaves the arm that the cut saves. -/
def JoinCell.setArm (x : JoinCell) (new : Bool) (a : Option Nat) : JoinCell :=
  match x.oldArm with
  | some _ => if new then { x with arm := a } else { x with arm := a, oldArm := some a }
  | none => if new then { x with arm := a, oldArm := some x.arm } else { x with arm := a }

/-- JOIN_ARMED_SEND (R162, R327): a cell that is 0 and armed sends its packet and clears the arm. -/
def State.testCell (s : State) (rg : Nat) (new : Bool) (round i : Nat) : State :=
  match s.region? rg with
  | none => s
  | some r =>
    let x := r.joins.getD i JoinCell.zero
    match x.arm, r.tileAt 0 0 with
    | some label, some t =>
      if x.val = 0 then
        let s := s.modCell rg i fun x => x.setArm new none
        s.sendPacket t (2 ^ 33 + rg) rg label (BitVec.ofNat 32 i) 0 false round
      else s
    | _, _ => s

/-- What has come to the join unit of a region by the end of the cycle before reaches it in this one (R162, R326). -/
def State.joinArrive (s : State) (rg : Nat) : State :=
  let s := s.modRegion rg fun r => { r with joinQ := [], joinIn := r.joinIn ++ r.joinQ }
  forAll (fun s e => s.modElem e fun x => { x with sendReady := x.sendBuf.length }) (s.regionElems rg) s

/-- Packets leave the send buffers of a region's elements (R162: after the increment that counts them).
See log entry 49 (DEDUCED). -/
def State.releasePackets (s : State) (rg : Nat) : State :=
  forAll (fun s e =>
    let x := s.elem e
    let l := x.sendBuf.take x.sendReady
    if l.isEmpty then s
    else
      let s := s.modElem e fun x => { x with sendBuf := x.sendBuf.drop x.sendReady, sendReady := 0 }
      forAll (fun s (p : Packet) => s.sendPacket (tileOf e) e rg p.label p.w0 p.w1 p.two p.round) l s)
    (s.regionElems rg) s

/-- JOIN_UNIT_CYCLE (R162, R326): of what reaches the unit in this cycle, arms first, then all updates together, then the
test of every cell that an update reached. -/
def execJoinUnitCycle (rg : Nat) (s : State) : Host.Outcome State Fault Refusal :=
  match s.region? rg with
  | none => .next s
  | some r =>
    let q := r.joinIn
    let new (m : JoinMsg) : Bool := decide (r.round < m.round)
    let s := s.setRegion rg { r with joinIn := [] }
    let s := forAll (fun s (m : JoinMsg) =>
      if m.isUpdate then s else s.modCell rg m.cell fun x => x.setArm (new m) m.arm) q s
    let ups := q.filter (·.isUpdate)
    let s := forAll (fun s (m : JoinMsg) => s.modCell rg m.cell fun x =>
      { x with val := x.val + m.delta, newSum := if new m then x.newSum + m.delta else x.newSum }) ups s
    let s := forAll (fun s (m : JoinMsg) => s.testCell rg (new m) m.round m.cell) ups s
    .next (s.releasePackets rg)

end Sys2Proof.Machine
end

