-- ==== Sys2Proof/Machine/Abort.lean ====
section
/-! DEFINITION. Emptying a region, releasing it, and the abort of a run (R82, R85, R259, R282, R283). -/
namespace Sys2Proof.Machine

/-- Memory operations go, with their beats, walks and deferred entries. -/
def State.dropOps (s : State) (gone : Nat → MemOp → Bool) : State :=
  let ks := (s.ops.filter fun o => gone o.1 o.2).map (·.1)
  let mine (k : Nat) : Bool := ks.contains k
  let left (x : Xfer) : Bool := match x.what with | .lane op _ => !mine op | _ => true
  let stays (q : Req) : Bool := match q.who with | .lane op _ => !mine op | _ => true
  { s with
    ops := s.ops.filter fun o => !mine o.1
    arbs := s.arbs.map fun a => (a.1, { a.2 with xfers := a.2.xfers.filter left })
    pwalks := s.pwalks.map fun p => (p.1, { p.2 with waiters := p.2.waiters.filter stays })
    tiles := s.tiles.map fun t => (t.1, { t.2 with deferred := t.2.deferred.filter fun d => !mine d.op }) }

/-- Walks that nobody waits for any more go, and with them the records they still wait to write. -/
def State.dropWalks (s : State) : State :=
  let dead := (s.pwalks.filter fun p => p.2.waiters.isEmpty).map (·.1)
  let s : State := { s with pwalks := s.pwalks.filter fun p => !p.2.waiters.isEmpty }
  forAll (fun s d => s.modDie d fun x => { x with xlateQ := x.xlateQ.filter fun k => !dead.contains k })
    (List.range 8) s

/-- Empty every channel, task port and ring-spilled queue of a region, and its part of the task network. -/
def State.emptyChannels (s : State) (es : List Nat) : State :=
  let mine (e : Nat) : Bool := es.contains e
  let clear (p : Port) : Port :=
    { p with queue := [], spilled := [], win := 0, known := 0, markSeen := false, recording := false }
  { s with
    ports := s.ports.map fun p => if mine (portHome p) then (p.1, clear p.2) else p
    flights := s.flights.filter fun f => !mine (portElem f.2.port)
    credits := s.credits.filter fun f => !mine (portElem f.2.port)
    packets := s.packets.filter fun f => !mine f.2.dest && !(decide (f.2.src < 2 ^ 32) && mine f.2.src)
    elems := s.elems.map fun x =>
      if mine x.1 then (x.1, { x.2 with tport := [], sendBuf := [], sendReady := 0, inflight := [], heldMarks := [] }) else x }

/-- Ids of the commands of a region that have not finished. -/
def State.openCmds (s : State) (rg : Nat) (es : List Nat) : List Nat :=
  (es.flatMap fun e => (List.range 8).filterMap fun n =>
    match (s.elem e).cmds.get n with | some c => if c.over then none else some (e * 8 + n) | none => none) ++
  (s.armedOf.filter fun a => a.2 == rg).map (·.1)

/-- Drop a command without a trace (R109, R283): its unit's place, its beats and its entry. -/
def State.dropCmd (s : State) (id : Nat) : State :=
  match s.cmd? id with
  | some c =>
    let s := s.leaveUnit id c
    if id < 2 ^ 20 then
      (s.modElem (id / 8) fun x => { x with cmds := x.cmds.set (id % 8) none }).freeEntry id
    else s.freeEntry id
  | none => s

/-- Requests of some askers go from every walk. -/
def State.dropWaiters (s : State) (gone : Waiter → Bool) : State :=
  { s with pwalks := s.pwalks.map fun p => (p.1, { p.2 with waiters := p.2.waiters.filter fun q => !gone q.who }) }

/-- A region or reservation is released: gangs that gave up their reservations try again (R276, R279). A collision over
wheel entries, which are those of the package (R144), is with a gang of any die, so a release on any die counts (R18). -/
def State.unblock (s : State) : State :=
  { s with walks := s.walks.map fun w => (w.1, { w.2 with blocked := false }) }

/-- BUSY of a die's urgent launch ends with its last element that waits to switch (R271). -/
def State.settleUrgent (s : State) (die : Nat) : State :=
  if s.elems.any fun z => dieOf z.1 == die && z.2.urgent then s
  else s.modDie die fun d => { d with lurg := d.lurg &&& 0x7FFFFFFF }

/-- Release a region's tiles, elements, banks and wheel entries (R85, R163, R280): `clean` says that its consist
completed normally. A bank whose token the region has not received keeps the owner it had; after an abort no element stays
in plane S (R283). -/
def State.release (s : State) (rg : Nat) (clean : Bool) : State :=
  match s.region? rg with
  | none => s
  | some r =>
    let es := s.regionElems rg
    let ts := r.tiles
    let bank (b : Bank) : Bank := if b.token then { Bank.none with run := some r.walk, clean := clean } else b
    let tile (x : Tile) : Tile := { x with
      region := none, banks := ⟨x.banks.lo.map bank, x.banks.hi.map bank⟩, save := (0, 0), log := (0, 0), undo := (0, 0)
      nodes := Quad.rep MNode.off, started := false, startDue := none, passed := false }
    let strip (x : Tile) : Tile := { x with
      watches := x.watches.filter fun w => w.region != rg, rnd := x.rnd.filter fun l => l.region != rg }
    let s := s.dropOps fun _ o => es.contains o.elem
    let s := s.dropWaiters fun w => match w with | .node t _ => ts.contains t | .scales k => k == rg | _ => false
    let s := s.emptyChannels es
    let resident (p : Nat) : Bool := p / 8 % 2 == 1
    let bare (x : Elem) : Elem := { x with
      region := none, stopped := none, ended := true, ready := false, staged := none, cmds := Oct.rep none
      inS := x.inS && clean, urgent := x.urgent && clean }
    let s : State := { s with
      tiles := s.tiles.map fun t => (t.1, strip (if ts.contains t.1 then tile t.2 else t.2))
      elems := s.elems.map fun x => if es.contains x.1 then (x.1, bare x.2) else x
      ports := s.ports.filter fun p => !es.contains (portHome p) || resident p.1
      outs := s.outs.filter fun o => !es.contains (o.1 / 16) || resident o.1
      fc := s.fc.filter fun l => !ts.contains (l.1 / 16384)
      regions := s.regions.del rg }
    (s.dropWalks.settleUrgent r.die).unblock

/-- The abort flush of one region (R283): its unfinished commands end with ABANDON and are counted, its round buffers
go, and it is released. -/
def State.flush (s : State) (rg : Nat) : State :=
  match s.region? rg with
  | none => s
  | some r =>
    let es := s.regionElems rg
    let ids := s.openCmds rg es
    let s := s.modWalk r.walk fun w => { w with abandon := w.abandon + ids.length }
    let s := forAll (fun s id => (s.modCmd id fun c => { c with st := .faulted, cause := .abandon }).dropCmd id) ids s
    s.release rg false

/-- ABORT OF A RUN (R283): every region of the walk, gang members among them, is flushed, and its completion record is
due. A run whose record is due but not yet written is aborted as well, unless it was before; one that has written its
record is not (R287). -/
def State.abortWalk (s : State) (w cause : Nat) : State :=
  match s.walks.get? w with
  | none => s
  | some x =>
    let dead (y : Walk) : Walk := { y with state := 2, cause := cause, reason := 0, slot := 0, elem := 0 }
    if x.phase = .finished then s
    else if x.phase = .writing then (if x.state = 2 then s else s.modWalk w dead)
    else
      let rs := (s.regions.filter fun r => r.2.walk == w).map (·.1)
      let s := forAll (fun s rg => s.flush rg) rs s
      let s := s.dropWaiters fun v => match v with | .shunter k => k == w | _ => false
      s.dropWalks.modWalk w fun y => { dead y with
        phase := .writing, held := none, region := none, prev := none, gang := [] }

/-- Abort the run that a region belongs to. -/
def State.abortRegion (s : State) (rg cause : Nat) : State :=
  match s.region? rg with | some r => s.abortWalk r.walk cause | none => s

/-- A scale-pairing fault (R195, R284): the record names the unit, the use and the SEQ received. -/
def State.abortScale (s : State) (rg unit use seq : Nat) : State :=
  match s.region? rg with
  | some r => (s.abortWalk r.walk 3).modWalk r.walk fun w => { w with unit := unit, use := use, seq := seq }
  | none => s

end Sys2Proof.Machine
end

