-- ==== Sys2Proof/Machine/Coded.lean ====
section
/-! DEFINITION. Coded FP8 blocks (R188 to R191) and the values of operand elements (R126). -/
namespace Sys2Proof.Machine

/-- A symbol of a prefix-code table. -/
inductive Sym where | delta (n : Nat) | zero | raw
  deriving DecidableEq, Repr

/-- The four tables of R190: code length, codeword read as a number, symbol. -/
def prefixTable : Nat → List (Nat × Nat × Sym)
  | 0 => [(1, 0, .delta 0), (2, 2, .delta 1), (3, 6, .delta 2), (4, 14, .zero), (4, 15, .raw)]
  | 1 => [(1, 0, .zero), (2, 2, .delta 0), (3, 6, .delta 1), (4, 14, .delta 2), (4, 15, .raw)]
  | 2 => [(2, 0, .delta 0), (2, 1, .delta 1), (3, 4, .delta 2), (3, 5, .delta 3), (4, 12, .delta 4),
      (4, 13, .delta 5), (4, 14, .zero), (4, 15, .raw)]
  | _ => [(3, 0, .delta 0), (3, 1, .delta 1), (3, 2, .delta 2), (3, 3, .delta 3), (3, 4, .delta 4),
      (3, 5, .delta 5), (3, 6, .zero), (3, 7, .raw)]

/-- Payload bits, each byte from its most significant bit down (R189). -/
def payloadBits (bs : List Byte) : List Bool := bs.flatMap fun b => (List.range 8).map fun i => b.getLsbD (7 - i)

def bitsNat (l : List Bool) : Nat := l.foldl (fun n b => 2 * n + (if b then 1 else 0)) 0
/-- n bits as a number, most significant first, and the rest. -/
def takeBits (n : Nat) (l : List Bool) : Option (Nat × List Bool) :=
  if n ≤ l.length then some (bitsNat (l.take n), l.drop n) else none

/-- The symbol at the head of a bit string. -/
def takeSym (tab : Nat) (l : List Bool) : Option (Sym × List Bool) :=
  (prefixTable tab).findSome? fun r =>
    match takeBits r.1 l with
    | some (n, rest) => if n = r.2.1 then some (r.2.2, rest) else none
    | none => none

/-- The elements of a block after EMAX (R189), as patterns of the format: x exponent bits, m mantissa bits. -/
def takeElems (tab x m emax : Nat) : Nat → List Bool → Option (List Nat × List Bool)
  | 0, l => some ([], l)
  | n + 1, l =>
    match takeBits 1 l with
    | none => none
    | some (sg, l) =>
      match takeSym tab l with
      | none => none
      | some (c, l) =>
        let el : Option (Nat × List Bool) := match c with
          | .zero => some (sg * 2 ^ (x + m), l)
          | .raw => (match takeBits (x + m) l with
            | some (v, l) => some (sg * 2 ^ (x + m) + v, l)
            | none => none)
          | .delta d => if emax < d then none else
            (match takeBits m l with
             | some (v, l) => some (sg * 2 ^ (x + m) + (emax - d) * 2 ^ m + v, l)
             | none => none)
        match el with
        | none => none
        | some (v, l) => (takeElems tab x m emax n l).map fun r => (v :: r.1, r.2)

/-- Fields of a block header (R188). -/
def hdrScale (h : Nat) : Nat := fld h 24 8
def hdrLen (h : Nat) : Nat := fld h 14 10
def hdrLast (h : Nat) : Bool := fld h 11 1 == 1
def hdrFmt (h : Nat) : Fmt := if fld h 8 3 = 3 then FE4 else FE5
/-- Bytes of a block in memory: header, payload and padding to a multiple of 32 (R192). -/
def blockSize (h : Nat) : Nat := (4 + hdrLen h + 31) / 32 * 32

/-- THE BLOCK of R189: its element patterns, or nothing when it is malformed (R191). -/
def decodeBlock (h : Nat) (payload : List Byte) : Option (List Nat) :=
  let fmt := fld h 8 3
  let len := hdrLen h
  if (fmt ≠ 3 ∧ fmt ≠ 4) ∨ fld h 6 2 ≠ 0 ∨ len = 0 then none
  else
    let (x, m) : Nat × Nat := if fmt = 3 then (4, 3) else (5, 2)
    let bits := payloadBits (payload.take len)
    match takeBits 5 bits with
    | none => none
    | some (emax, l) =>
      if fmt = 3 ∧ 15 < emax then none
      else match takeElems (fld h 12 2) x m emax (fld h 0 6 + 1) l with
        | none => none
        | some (es, rest) => if rest.length < 8 ∧ rest.all (fun b => !b) then some es else none

/-- v × 2^(SCALE − 127); a scale of 0xFF makes it a NaN. -/
def scaled (v : FVal) (scale : Nat) : FVal :=
  if scale = 255 then .nan false
  else match v with
    | .fin n m e => .fin n m (e + scale - 127)
    | v => v

/-- An element of a coded block as BF16 (R123). -/
def toBf16 (fmt : Fmt) (scale el : Nat) : Nat := FBF.bits (FBF.round .rn false (scaled (fmt.read false el) scale)).1

end Sys2Proof.Machine
end

