-- ==== Sys2Proof/Machine/EngineSteps.lean ====
section
/-! DEFINITION. The units at work (R105, R107, R110 to R130, R268): beats of the copy engine and the tender and the
arbiters they pass, rings, islands, and the steps COMMAND_ACCEPT to SPILL_RING_CHANGE of the table. -/
namespace Sys2Proof.Machine

/-! ## Accesses of an engine -/

def State.cmdAcc (s : State) (id : Nat) (c : Cmd) : Acc :=
  { who := ⟨id / 8, c.plane, c.slot, c.fires⟩, rg := s.cmdRegion id, die := dieOf (id / 8), scope := c.scope
    skip := if Scope.rank c.scope < 2 then c.skipBefore else none, fabric := false, home := false, atom := false
    round := (s.elem (id / 8)).tokRound, st := c.stream }

/-- What an access of an engine comes to: done, held by a translation or a full buffer, or an error. -/
inductive Eng where
  | ok (bs : List Byte) (poison : Bool) (s : State)
  | wait (s : State)
  | bad (c : CmdCause)

/-- Cut a run of bytes at 32-byte boundaries. -/
def pieces : Nat → Nat → Nat → List (Nat × Nat)
  | 0, _, _ => []
  | k + 1, a, n => if n = 0 then [] else let m := min n (32 - a % 32); (a, m) :: pieces k (a + m) (n - m)
def cut (a n : Nat) : List (Nat × Nat) := pieces (n / 32 + 2) a n

/-- Translate a data-area address of a command, or ask for the walk. -/
def State.engXlate (s : State) (id addr : Nat) (a : Access) : Option Leaf × State :=
  match s.cmdRegion id with
  | none => (none, s)
  | some rg =>
    match s.region? rg with
    | none => (none, s)
    | some r =>
      let va := r.cons.dbase + addr
      match s.tlbFind r.die r.asid va a with
      | some l => (some l, s.tlbUse r.die r.asid va l)
      | none => (none, s.wantWalk r.die r.asid ⟨.cmd id, a, va, elidOf (id / 8), some rg⟩)

/-- Translate every piece of a run: addresses, physical addresses, leaves, lengths. -/
def State.engAll (s : State) (id : Nat) (a : Access) : List (Nat × Nat) → Option (List (Nat × Nat × BitVec 64 × Nat)) × State
  | [] => (some [], s)
  | (x, n) :: rest =>
    match s.engXlate id x a with
    | (none, s) => (none, s)
    | (some l, s) =>
      let va := (match s.cmdRegion id with
        | some rg => (match s.region? rg with | some r => r.cons.dbase | none => 0) | none => 0) + x
      match s.engAll id a rest with
      | (some ps, s) => (some ((x, l.pa va, l.bits, n) :: ps), s)
      | (none, s) => (none, s)

/-- A scratchpad run of an engine: its first key, or the error (R91, R108). -/
def State.engSp (s : State) (id addr n : Nat) (k : OpKind) : Nat ⊕ CmdCause :=
  match s.spLane (s.cmdRegion id) k addr with
  | none => .inr .spaddr
  | some key => if addr % 65536 + n ≤ 65536 then .inl key else .inr .bounds

def State.engRead (s : State) (id : Nat) (c : Cmd) (addr n : Nat) : Eng :=
  if isSp addr then
    match s.engSp id addr n .load with
    | .inr e => .bad e
    | .inl key => .ok (s.spm.read key n) (s.spmPoison key n) s
  else if 2 ^ 31 < addr + n then .bad .bounds
  else
    match s.engAll id .engRead (cut addr n) with
    | (none, s) => .wait s
    | (some ps, s) =>
      let a := s.cmdAcc id c
      let read := ps.foldl (fun (x : Option (List Byte × Bool × State)) p => x.bind fun x =>
        (x.2.2.readAt a p.2.2.1 p.1 p.2.1 p.2.2.2).map fun y => (x.1 ++ y.1, x.2.1 || y.2.1, y.2.2)) (some ([], false, s))
      match read with
      | some (bs, pz, s) => .ok bs pz s
      | none => .wait (match a.rg with | some r => s.askCut r false [] | none => s)

def State.askCutOf (s : State) (rg : Option Nat) : State := match rg with | some r => s.askCut r false [] | none => s

def State.engWrite (s : State) (id : Nat) (c : Cmd) (addr : Nat) (bs : List Byte) (poison : Bool) : Eng :=
  let n := bs.length
  let a := s.cmdAcc id c
  if isSp addr then
    match s.engSp id addr n .store with
    | .inr e => .bad e
    | .inl key =>
      if (cut key n).any fun p => s.undoFull a.rg a.round p.1 then .wait (s.askCutOf a.rg)
      else .ok [] false (s.writeSpm a.rg a.round key bs poison)
  else if 2 ^ 31 < addr + n then .bad .bounds
  else
    match s.engAll id .engWrite (cut addr n) with
    | (none, s) => .wait s
    | (some ps, s) =>
      match ps.foldl (fun (x : Option State) p => x.bind fun s =>
          s.writeAt a p.2.2.1 p.1 p.2.1 ((bytesAt bs (p.1 - addr) p.2.2.2).zipIdx.map fun b => (b.2, b.1)) poison) (some s) with
      | some s => .ok [] false s
      | none => .wait (s.askCutOf a.rg)

/-- Tile of a command's unit. -/
def State.unitTile (s : State) (id : Nat) (c : Cmd) : Nat :=
  match s.unitKey id c with
  | some u => if u < 2 ^ 20 then u else islandTile (u % 2 ^ 20)
  | none => tileOf (id / 8)

/-- The port that serves a data-area address of an engine, its home's or the visiting slice, and the ns over links
between the engine and it (R8, R146); nothing while no link leads there. See log entry 19 (DEDUCED). -/
def State.wayTo (s : State) (id : Nat) (c : Cmd) (leaf : BitVec 64) (addr pa : Nat) : Option (Nat × Nat) :=
  let a := s.cmdAcc id c
  match s.place a leaf addr pa with
  | .visitor => some (slicePort (s.visitTile a.die pa), 0)
  | _ => (s.homePort pa).map fun p =>
    (p, match localDie pa with | some _ => linkNs (s.unitTile id c) (s.homeTile pa) | none => 130)

/-- The port that a piece of a run passes, and the ns over links to it. -/
def State.engPort (s : State) (id : Nat) (c : Cmd) (addr n : Nat) (acc : Access) : (Nat × Nat × State) ⊕ Eng :=
  if isSp addr then
    match s.engSp id addr n (if acc.writes then .store else .load) with
    | .inr e => .inr (.bad e)
    | .inl key => .inl (nodePort (s.nodeIdx key), 0, s)
  else if 2 ^ 31 < addr + n then .inr (.bad .bounds)
  else
    match s.engAll id acc (cut addr n) with
    | (some (p :: _), s) =>
      (match s.wayTo id c p.2.2.1 p.1 p.2.1 with
       | some (q, ns) => .inl (q, ns, s)
       | none => .inr (.wait s))
    | (_, s) => .inr (.wait s)

/-- The same without a request for a walk: by the entry that the TLB holds, or by the tables. -/
def State.peekPort (s : State) (id : Nat) (c : Cmd) (addr n : Nat) (acc : Access) : Option Nat :=
  if isSp addr then
    match s.engSp id addr n (if acc.writes then .store else .load) with
    | .inr _ => none
    | .inl key => some (nodePort (s.nodeIdx key))
  else match (s.cmdRegion id).bind s.region? with
    | none => none
    | some r =>
      let va := r.cons.dbase + addr
      let leaf : Option Leaf := match s.tlbFind r.die r.asid va acc with
        | some l => some l
        | none => (match s.walkTables r.die r.asid va with | .ok l _ => some l | .fault _ _ => none)
      leaf.bind fun l => (s.wayTo id c l.bits addr (l.pa va)).map (·.1)

/-- The island on the tile of a copy engine, where it carries one (R146): of the two of a corner tile the first of its
north, east, south and west edges. See log entry 93 (DESIGN CHOICE). -/
def islandAt (t : Nat) : Option Nat :=
  let (row, col) := (t % 256 / 16, t % 16)
  let d := dieOfTile t * 64
  if row = 0 then some (d + islandNum row col 0) else if col = 15 then some (d + islandNum row col 1)
  else if row = 15 then some (d + islandNum row col 2) else if col = 0 then some (d + islandNum row col 3) else none

/-! ## What a copy moves (R112, R113, R115, R116) -/

/-- An address with an offset: nothing when the run leaves the data area or its bank (R108). -/
def offAddr (a : Nat) (d : Int) (n : Nat) : Option Nat :=
  if isSp a then
    let x : Int := (a % 65536 : Nat) + d
    if 0 ≤ x ∧ x + n ≤ 65536 then some (a / 65536 * 65536 + x.toNat) else none
  else
    let x : Int := (a : Nat) + d
    if 0 ≤ x ∧ x + n ≤ 2 ^ 31 then some x.toNat else none

/-- Bytes of one run: a row of a bank, a line of memory, a flit, or a tender's 128 bytes (R111, R146). -/
def Cmd.unit (c : Cmd) : Nat :=
  match c.instr with
  | .strm .. => 128
  | .linkx .. => 64
  | _ => if isSp (c.lane 0) then 32 else 64

/-- The run that a position of a command moves: source, destination, bytes, the step of the position, and whether the
index that names it is poisoned (R108, R311). -/
inductive Run where
  | at_ (src dst n step : Nat) (pz : Bool)
  | wait
  | bad (c : CmdCause)

def pair' (src dst : Option Nat) (n step : Nat) (pz : Bool) : Run :=
  match src, dst with | some a, some b => .at_ a b n step pz | _, _ => .bad .bounds

/-- Index i of a gather or scatter, of those that the unit holds; ahead of them, as memory holds it now. -/
def State.indexOf (s : State) (id : Nat) (c : Cmd) (ahead : Bool) (i : Nat) : Option (Nat × Bool) :=
  let k := 4 * (i - c.srcPos)
  if k + 4 ≤ c.acc.length then some (natAt c.acc k 4, ((c.accPz.drop k).take 4).any fun z => z)
  else if ahead then
    match offAddr (c.lane 1 / 4 * 4) (4 * i) 4, s.cmdRegion id with
    | some a, some rg => (s.region? rg).bind fun r => (s.viewWord rg r a).map fun w => (w.toNat, false)
    | _, _ => none
  else none

/-- The run at a position. A copy's runs end with the rows or lines of its source. See log entry 42 (DEDUCED). -/
def State.runAt (s : State) (id : Nat) (c : Cmd) (ahead : Bool) (pos : Nat) : Run :=
  let l := c.lane
  let room (a left : Nat) : Nat := min (c.unit - a % c.unit) left
  let whole : Nat := min c.unit (c.total - pos)
  let plain (src dst : Nat) : Run :=
    match offAddr src pos 1 with
    | none => .bad .bounds
    | some a => let n := room a (c.total - pos); pair' (offAddr src pos n) (offAddr dst pos n) n n false
  let element (e base : Nat) : Option (Option Nat × Option Nat × Nat × Bool) :=
    let n := 4 * 2 ^ e
    let k := min n 32
    (s.indexOf id c ahead pos).map fun (x, z) =>
      (offAddr (base / k * k) (x * n : Nat) n, offAddr (l 2 / k * k) (pos * n : Nat) n, n, z)
  match c.instr with
  | .copy .. => plain (l 0) (l 1)
  | .redc .. => plain (l 0 / 4 * 4) (l 1 / 4 * 4)
  | .linkx .. =>
    pair' (offAddr (l 0) pos whole) (if fld (l 3) 31 1 = 1 then some (2 ^ 31 + fld (l 1) 0 16) else offAddr (l 1) pos whole)
      whole whole false
  | .strm .. => pair' (offAddr (l 1) pos whole) (some 0) whole whole false
  | .copy2d .. =>
    let rb := fld (l 2) 0 16
    let src : Int := (pos / rb : Nat) * (c.desc.get 3).toInt + (pos % rb : Nat)
    let dst : Int := (pos / rb : Nat) * (c.desc.get 4).toInt + (pos % rb : Nat)
    (match offAddr (l 0) src 1 with
     | none => .bad .bounds
     | some a => let n := room a (rb - pos % rb); pair' (offAddr (l 0) src n) (offAddr (l 1) dst n) n n false)
  | .gath _ _ _ _ e => (match element e.val (l 0) with | some (x, d, n, z) => pair' x d n 1 z | none => .wait)
  | .scat _ _ _ _ e => (match element e.val (l 0) with | some (x, d, n, z) => pair' d x n 1 z | none => .wait)
  | _ => .bad .desc

/-- The bytes from the lowest to the highest of a command's source and of its destination: addresses and lengths. -/
def Cmd.spans (c : Cmd) : (Nat × Nat) × (Nat × Nat) :=
  let l := c.lane
  match c.instr with
  | .copy .. => ((l 0, l 2), (l 1, l 2))
  | .redc .. => ((l 0 / 4 * 4, l 2), (l 1 / 4 * 4, l 2))
  | .copy2d .. =>
    let rows := fld (l 2) 16 16
    let rb := fld (l 2) 0 16
    let lo (a : Nat) (st : Int) : Nat := (min (a : Int) (a + (rows - 1 : Nat) * st)).toNat
    let len (st : Int) : Nat := rb + ((rows - 1 : Nat) * st).natAbs
    ((lo (l 0) (c.desc.get 3).toInt, len (c.desc.get 3).toInt), (lo (l 1) (c.desc.get 4).toInt, len (c.desc.get 4).toInt))
  | _ => ((0, 0), (0, 0))

/-- Source and destination of a command overlap, as judged by address words (R112). See log entry 44 (DEDUCED). -/
def Cmd.overlaps (c : Cmd) : Bool :=
  let ((sa, sn), (da, dn)) := c.spans
  decide (0 < sn ∧ da < sa + sn ∧ sa < da + dn)

/-- The address of the source byte at a position of a command whose source may overlap its destination. -/
def Cmd.srcAddr (c : Cmd) (pos : Nat) : Option Nat :=
  let l := c.lane
  match c.instr with
  | .copy2d .. =>
    let rb := fld (l 2) 0 16
    offAddr (l 0) ((pos / rb : Nat) * (c.desc.get 3).toInt + (pos % rb : Nat)) 1
  | .redc .. => offAddr (l 0 / 4 * 4) pos 1
  | _ => offAddr (l 0) pos 1

/-- Where a data-area address of a command lies now. -/
def State.cmdPa (s : State) (id a : Nat) : Option Nat :=
  match (s.cmdRegion id).bind s.region? with
  | none => none
  | some r => (match s.walkTables r.die r.asid (r.cons.dbase + a) with
    | .ok lf _ => some (lf.pa (r.cons.dbase + a))
    | .fault _ _ => none)

/-- Source bytes and their poison kept when a command starts whose source and destination overlap (R112, R254). The bytes
of a page that does not translate then are taken from memory as it then is, which stays beside them, once the page
translates. -/
def State.snapshot (s : State) (id : Nat) (c : Cmd) : Cmd :=
  if !c.overlaps then c
  else
    let m := s.viewMem (s.cmdRegion id) (dieOf (id / 8))
    let byte (a : Nat) : Option (Byte × Bool) :=
      if isSp a then (s.spKey (s.cmdRegion id) a).map fun k => (s.spm.get k, s.spmPoison k 1)
      else (s.cmdPa id a).map fun pa => (m.get pa, s.poisoned pa)
    { c with
      mem0 := m, poison0 := s.poisonLines
      snap := (List.range c.total).foldl (fun (t : SMap (Byte × Bool)) pos =>
        match (c.srcAddr pos).bind byte with | some b => t.put pos b | none => t) [] }

/-- The source byte of an overlapping command at a position, and its poison, as they were when the command started. -/
def State.oldByte (s : State) (id : Nat) (c : Cmd) (pos : Nat) (now : Byte × Bool) : Byte × Bool :=
  match c.snap.get? pos with
  | some b => b
  | none => (match (c.srcAddr pos).bind fun a => if isSp a then none else s.cmdPa id a with
    | some pa => (c.mem0.get pa, c.poison0.contains (pa / 64))
    | none => now)

/-- A command meets an error: it issues nothing more (R108). -/
def State.fail (s : State) (id : Nat) (x : CmdCause) : State :=
  (s.dropBeats id XWhat.isRead).modCmd id fun c => { c.noReads with cause := x }

/-- A command meets an error in writing: what it has read is not written. -/
def State.failWrite (s : State) (id : Nat) (x : CmdCause) : State :=
  ((s.fail id x).dropBeats id fun _ => true).modCmd id fun c => { c with staged := [], wr := .empty, brAsk := [], brGot := [] }

/-- Cycles from a tender's read to the offer of block j at the ring of a branch (R111). -/
def State.branchLag (s : State) (id : Nat) (c : Cmd) (j i : Nat) : Nat :=
  match (s.cmdRegion id).bind fun rg => s.ring? rg (groupRing (c.branches.getD i 0) c.wide j) with
  | some g => 2 + 2 * hops (s.unitTile id c) g.tile
  | none => 2

/-! ## Pieces of runs (R110, R146) -/

/-- The pieces of a run at its ports: 32-byte rows of a bank, 64-byte lines of memory. -/
def rows : Nat → Nat → Nat → Nat → List (Nat × Nat)
  | 0, _, _, _ => []
  | k + 1, w, a, n => if n = 0 then [] else let m := min n (w - a % w); (a, m) :: rows k w (a + m) (n - m)
def portPieces (a n : Nat) : List (Nat × Nat) := let w := if isSp a then 32 else 64; rows (n / w + 2) w a n

/-- Indices that a gather or scatter reads ahead of its runs: a group of 64 (R116). -/
def idxAhead : Nat := 64

/-- The run of the index array that comes next, in one row or line: nothing while the unit holds a group. -/
def Cmd.indexRun (c : Cmd) : Option Run :=
  match c.instr with
  | .gath .. | .scat .. =>
    let i := c.srcPos + c.acc.length / 4
    let more := min (idxAhead - c.acc.length / 4) (c.total - i)
    if more = 0 then none
    else (match offAddr (c.lane 1 / 4 * 4) (4 * i : Nat) 4 with
      | none => some (.bad .bounds)
      | some a => let w := if isSp a then 32 else 64; some (.at_ a 0 (min (4 * more) (w - a % w)) 0 false))
  | _ => none

/-- The pieces of a command that can ask next, of one kind: addresses and lengths. -/
def State.piecesOf (s : State) (id : Nat) (c : Cmd) (k : BeatKind) : List (Nat × Nat) :=
  match k with
  | .source => if c.srcPos < c.issPos then (match s.runAt id c false c.srcPos with | .at_ a _ n _ _ => portPieces a n | _ => []) else []
  | .index => (match c.indexRun with | some (.at_ a _ n _ _) => [(a, n)] | _ => [])
  | .write => (match c.instr, c.staged with
    | .linkx .., w :: _ => [(w.dst, w.bytes.length)]
    | _, w :: _ => portPieces w.dst w.bytes.length
    | _, [] => [])

def Cmd.piecesAt (c : Cmd) : BeatKind → Pieces | .source => c.src | .index => c.idx | .write => c.wr
def Cmd.setPieces (c : Cmd) (p : Pieces) : BeatKind → Cmd
  | .source => { c with src := p } | .index => { c with idx := p } | .write => { c with wr := p }
def BeatKind.access : BeatKind → Access | .write => .engWrite | _ => .engRead

/-- A piece asks, is granted, is moved. -/
def Pieces.ask (p : Pieces) (i : Nat) : Pieces := { p with asked := p.asked ++ [i] }
def Pieces.grant (p : Pieces) (i : Nat) : Pieces := { p with asked := p.asked.filter (· ≠ i), granted := p.granted ++ [i] }
def Pieces.move (p : Pieces) (i : Nat) (bs : List Byte) (pz : Bool) (due : Int) : Pieces :=
  { p with granted := p.granted.filter (· ≠ i), moved := p.moved ++ [(i, bs, pz, due)] }
def Pieces.touched (p : Pieces) (i : Nat) : Bool := p.asked.contains i || p.granted.contains i || p.moved.any fun m => m.1 == i
/-- Bytes of n moved pieces in their order, their poison, and when the last of them is back. -/
def Pieces.bytes (p : Pieces) (n : Nat) : List Byte × List Bool :=
  ((List.range n).map fun i => match p.moved.find? fun m => m.1 == i with
    | some m => (m.2.1, m.2.1.map fun _ => m.2.2.1) | none => ([], [])).foldl (fun r x => (r.1 ++ x.1, r.2 ++ x.2)) ([], [])
def Pieces.due (p : Pieces) (t : Int) : Int := p.moved.foldl (fun t m => max t m.2.2.2) t

/-- Blocks of 32 bytes of a tender's read, with the poison of each. -/
def blocksOf (bs : List Byte) (pz : List Bool) (due : Int) : List Staged :=
  (List.range (bs.length / 32)).map fun j => ⟨0, due, 0, bytesAt bs (32 * j) 32, ((pz.drop (32 * j)).take 32).any (fun z => z), none⟩

/-- The run whose pieces have all come is read (R112, R122): its bytes are staged, or wait for the tender's read port. -/
def State.runRead (s : State) (id : Nat) (c : Cmd) (dst n step : Nat) (tint : Bool) : State :=
  let (bs, pz) := c.src.bytes (s.piecesOf id c .source).length
  let due := c.src.due (s.acrossNs 0)
  let old (k : Nat) : Byte × Bool :=
    let now := (bs.getD k 0, pz.getD k false)
    if c.overlaps then s.oldByte id c (c.srcPos + k) now else now
  let c := { c with src := .empty, srcPos := c.srcPos + step, ways := c.ways.drop 1 }
  s.setCmd id (match c.instr with
    | .strm .. => { c with srcRdy := c.srcRdy ++ [blocksOf bs pz due] }
    | _ => { c with
      grR := false, acc := c.acc.drop 4, accPz := c.accPz.drop 4
      staged := c.staged ++ [⟨0, due, dst, (List.range n).map fun k => (old k).1, tint || (List.range n).any fun k => (old k).2, none⟩] })

/-- A granted piece of a read is read. -/
def State.doRead (s : State) (id : Nat) (c : Cmd) (k : BeatKind) (i : Nat) : State :=
  match (s.piecesOf id c k)[i]? with
  | none => s
  | some (a, n) =>
    let ns := match s.engPort id c a n .engRead with | .inl (_, ns, _) => ns | .inr _ => 0
    match s.engRead id c a n with
    | .bad x => s.fail id x
    | .wait s => s
    | .ok bs pz s => s.modCmd id fun c => c.setPieces ((c.piecesAt k).move i bs pz (s.acrossNs ns)) k

/-- The granted pieces of a command's reads are read, and a run or index row that has come is taken. -/
def State.doReads (s : State) (id : Nat) (c : Cmd) : State :=
  let go (k : BeatKind) (s : State) : State :=
    forAll (fun s i => match s.cmd? id with | some c => s.doRead id c k i | none => s) (c.piecesAt k).granted s
  let s := go .index (go .source s)
  match s.cmd? id with
  | none => s
  | some c =>
    let s := match s.runAt id c false c.srcPos with
      | .at_ _ dst n step tint =>
        let all := (s.piecesOf id c .source).length
        if all ≠ 0 ∧ c.src.moved.length = all then s.runRead id c dst n step tint else s
      | _ => s
    match s.cmd? id with
    | none => s
    | some c =>
      if c.idx.moved = [] ∨ s.clock < c.idx.due (s.acrossNs 0) then s
      else
        let (bs, pz) := c.idx.bytes 1
        s.setCmd id { c with idx := .empty, idxWay := none, acc := c.acc ++ bs, accPz := c.accPz ++ pz }

/-- A tender's read port has granted the blocks that wait for it (R111). -/
def State.portRead (s : State) (id : Nat) : State :=
  s.modCmd id fun c => match c.srcRdy with
    | g :: rest => { c with
        grR := false, srcRdy := rest, pos := c.pos + 32 * g.length, staged := c.staged ++ g.map fun w => { w with age := 0 } }
    | [] => { c with grR := false }

/-- The updates of a REDC beat, word by word (R113, R114). -/
def State.doRedc (s : State) (id : Nat) (c : Cmd) (f : RedArith) (dst : Nat) (bs : List Byte) (pz : Bool) : Eng :=
  let a := s.cmdAcc id c
  let words := (List.range (bs.length / 4)).map fun i => (dst + 4 * i, BitVec.ofNat 32 (natAt bs (4 * i) 4))
  let flag (s : State) (r : W × Bool × Bool) : State :=
    s.modCmd id fun c => { c with nv := c.nv || r.2.1, ovf := c.ovf || r.2.2 }
  if isSp dst then
    match s.engSp id dst bs.length .atomic with
    | .inr e => .bad e
    | .inl key =>
      let inRing := match a.rg with
        | some rg => (match s.region? rg with
          | some r => (List.range bs.length).any fun i => r.inRing (key + i)
          | none => false)
        | none => false
      if inRing then .bad .bounds
      else if (cut key bs.length).any fun p => s.undoFull a.rg a.round p.1 then .wait (s.askCutOf a.rg)
      else
        .ok [] false (words.foldl (fun (s : State) (w : Nat × W) =>
          let k := key + (w.1 - dst)
          let r := redc f c.ftz (s.spm.word k) w.2
          flag (s.writeSpm a.rg a.round k (leBytes 4 r.1.toNat) pz) r) s)
  else if 2 ^ 31 < dst + bs.length then .bad .bounds
  else
    match s.engAll id .engWrite (cut dst bs.length) with
    | (none, s) => .wait s
    | (some ps, s) =>
      match (match a.rg with | some rg => (ps.any fun p => s.roundFull rg a.round p.2.1) | none => false) with
      | true => .wait (s.askCutOf a.rg)
      | false =>
        let paOf (x : Nat) : Nat := match ps.find? fun p => p.1 ≤ x ∧ x < p.1 + p.2.2.2 with
          | some p => p.2.1 + (x - p.1) | none => 0
        let one (s : State) (w : Nat × W) : Option State :=
          let pa := paOf w.1
          (s.fcBypass a.rg w.1).map fun s =>
            let s := s.vWriteBack (vKey a.die pa)
            let s := if pz then s.poisonLine pa else s
            let r := redc f c.ftz (BitVec.ofNat 32 (leNat (s.homeBytes a.rg pa 4))) w.2
            flag (match a.rg with | some rg => s.redRound rg a.round pa f c.ftz w.2 | none => s) r
        match tryAll one words s with
        | some s => .ok [] false s
        | none => .wait (s.askCutOf a.rg)

/-- A granted piece of the oldest staged bytes is written, and its acknowledgement sets out. -/
def State.doWrite (s : State) (id : Nat) (c : Cmd) (w : Staged) (i : Nat) : State :=
  match (s.piecesOf id c .write)[i]? with
  | none => s
  | some (a, n) =>
    let bs := bytesAt w.bytes (a - w.dst) n
    let ns := match s.engPort id c a n .engWrite with | .inl (_, ns, _) => ns | .inr _ => 0
    let r := match c.instr with
      | .redc _ _ _ _ f => s.doRedc id c f a bs w.poison
      | _ => s.engWrite id c a bs w.poison
    match r with
    | .bad x => s.failWrite id x
    | .wait s => s
    | .ok _ _ s => s.modCmd id fun c => { c with
        wr := c.wr.move i [] false 0
        ackBy := some (match c.ackBy with | some t => max t (s.acrossNs ns) | none => s.acrossNs ns)
        progress := match c.instr with | .gath .. => c.progress | .scat .. => c.progress | _ => c.progress + BitVec.ofNat 32 n }

/-- The granted pieces of the oldest staged bytes are written; once all are, the next bytes follow (R105). -/
def State.doWrites (s : State) (id : Nat) (c : Cmd) : State :=
  match c.staged with
  | [] => s
  | w :: _ =>
    let s := forAll (fun s i => match s.cmd? id with | some c => s.doWrite id c w i | none => s) c.wr.granted s
    match s.cmd? id with
    | none => s
    | some c =>
      if c.wr.moved = [] ∨ c.wr.moved.length < (s.piecesOf id c .write).length then s
      else
        let c := { c with wr := .empty, staged := c.staged.drop 1 }
        s.setCmd id (match c.instr with
          | .gath .. | .scat .. => { c with out := c.out + 1, progress := c.progress + 1 }
          | _ => { c with out := c.out + w.bytes.length })

/-- The up port of a link towards a gang member's package (R115). -/
def State.linkTo (s : State) (rg member : Nat) : Option (Nat × RlPort) :=
  match s.region? rg with
  | none => none
  | some r =>
    match r.peers.find? fun p => p.1 == member with
    | none => none
    | some p => s.links.find? fun l => l.2.up && l.2.peer == p.2

/-- The link port of a LINKX. -/
def State.cmdLink (s : State) (id : Nat) (c : Cmd) : Option (Nat × RlPort) :=
  (s.cmdRegion id).bind fun rg => s.linkTo rg (fld (c.lane 3) 0 8)

/-- A flit of LINKX leaves on its link (R115). -/
def State.sendFlit (s : State) (id : Nat) (c : Cmd) : State :=
  match c.staged, s.cmdLink id c with
  | w :: rest, some (k, p) =>
    let s := { s with links := s.links.put k { p with sent := p.sent ++ [(fld (c.lane 3) 0 8, w.dst, w.bytes, w.poison)] } }
    s.modCmd id fun c => { c with
      wr := .empty, staged := rest, out := c.out + w.bytes.length, progress := c.progress + BitVec.ofNat 32 w.bytes.length }
  | _, _ => s.modCmd id fun c => { c with wr := .empty }

/-- The tender read port that a command's reads pass: a tender's own, after the ports of their source, or that of the
island on the tile of a copy engine, before them (R146, R264). See log entry 42 (DEDUCED). -/
def State.readPort? (s : State) (id : Nat) (c : Cmd) : Option Nat :=
  match c.instr with
  | .strm .. => (s.unitKey id c).map fun u => tenderPort (u % 2 ^ 20)
  | .linkx .. => none
  | _ => (islandAt (tileOf (id / 8))).map tenderPort

/-! ## Beats that remain (R110, R140) -/

/-- The ports of the run of a command at a position, one entry for each beat: of its pieces, of its read at a tender's read
port, of its write; and the step to the next position. -/
def State.runPorts (s : State) (id : Nat) (c : Cmd) (pos : Nat) : Option ((List Nat × List Nat × List Nat) × Nat) :=
  match s.runAt id c true pos with
  | .at_ src dst n step _ =>
    let ports (a n : Nat) (k : Access) : List Nat := (portPieces a n).filterMap fun p => s.peekPort id c p.1 p.2 k
    let write : List Nat := match c.instr with
      | .strm .. => []
      | .linkx .. => ((s.cmdLink id c).map fun l => linkPort l.1).toList
      | _ => ports dst n .engWrite
    some ((ports src n .engRead, (s.readPort? id c).toList, write), step)
  | _ => none

/-- The beats of a command's runs from a position on that have to pass a port. -/
def State.beatsFrom (s : State) (id : Nat) (c : Cmd) (port : Nat) : Nat → Nat → Nat
  | 0, _ => 0
  | fuel + 1, pos =>
    if c.total ≤ pos then 0
    else match s.runPorts id c pos with
      | some ((source, read, write), step) =>
        ((source ++ read ++ write).filter fun p => p == port).length + s.beatsFrom id c port fuel (pos + step)
      | none => 0

/-- Ports of a kind of a command's pieces that no port has granted yet. -/
def State.openPieces (s : State) (id : Nat) (c : Cmd) (k : BeatKind) : List Nat :=
  let p := c.piecesAt k
  (s.piecesOf id c k).zipIdx.filterMap fun a =>
    if p.granted.contains a.2 || p.moved.any fun m => m.1 == a.2 then none else s.peekPort id c a.1.1 a.1.2 k.access

/-- Beats of index rows that have to pass a port, from index i on (R116). -/
def State.indexBeats (s : State) (id : Nat) (c : Cmd) (port : Nat) : Nat → Nat → Nat
  | 0, _ => 0
  | fuel + 1, i =>
    if c.total ≤ i then 0
    else match ({ c with srcPos := i, acc := [] } : Cmd).indexRun with
      | some (.at_ a _ n _ _) =>
        (if s.peekPort id c a n .engRead == some port then 1 else 0) + s.indexBeats id c port fuel (i + max 1 (n / 4))
      | _ => 0

/-- The ring of a block of a tender's stream has its port here. -/
def State.ringPort (s : State) (rg f w j : Nat) : Option Nat :=
  (s.ring? rg (groupRing f w j)).map fun g => nodePort (s.nodeIdx (g.key 0))

/-- Bytes of a decoder's output (R123): what it holds, and what the coded blocks from an address on give, as they are in
memory now. -/
def State.decodedFrom (s : State) (rg : Nat) (r : Region) : Nat → Nat → Nat → Nat → Nat
  | 0, _, _, n => n
  | fuel + 1, a, left, n =>
    if left = 0 then n
    else match s.viewWord rg r a with
      | none => n
      | some w =>
        let h := w.toNat
        let n := n + 2 * (fld h 0 6 + 1)
        s.decodedFrom rg r fuel (a + blockSize h) (left - blockSize h) (if hdrLast h then (n + 31) / 32 * 32 else n)

/-- The blocks that a tender has to write from its start on. -/
def State.blocksOut (s : State) (id : Nat) (c : Cmd) : Nat :=
  if fld (c.lane 5) 16 1 = 0 then c.total / 32
  else match s.cmdRegion id with
    | none => c.out
    | some rg =>
      match s.region? rg with
      | none => c.out
      | some r =>
        let held := c.acc.length + 32 * c.staged.length
        let taken := c.pos - held
        c.out + (s.decodedFrom rg r (c.total / 32 + 1) (c.lane 1 + taken) (c.total - taken) c.dec.length - c.tile + 31) / 32

/-- The beats of a command that still have to pass a port (R110): those of the pieces that it is reading and writing now,
those of its later runs and index rows, and of a STRM the blocks that enter or leave rings. See log entry 42 (DEDUCED). -/
def State.beatsAt (s : State) (id : Nat) (c : Cmd) (port : Nat) : Nat :=
  let rg := (s.cmdRegion id).getD 0
  let here (l : List Nat) : Nat := (l.filter fun p => p == port).length
  let ring (f j : Nat) : Nat := if s.ringPort rg f c.wide j == some port then 1 else 0
  let blocks (f n : Nat) (left : Nat → Bool) : Nat :=
    (List.range (n - c.out)).foldl (fun m j => m + (if left (c.out + j) then ring f (c.out + j) else 0)) 0
  let read (n : Nat) : Nat := match s.readPort? id c with | some p => if p == port then n else 0 | none => 0
  match c.instr with
  | .strm _ _ _ _ true => blocks (fld (c.lane 1) 0 16) (c.total / 32) fun j => !(c.grR && j == c.out)
  | .strm .. =>
    let now := if c.srcPos < c.issPos then c.srcPos + c.unit else c.srcPos
    here (s.openPieces id c .source) + s.beatsFrom id c port c.total now +
      read (c.srcRdy.length + (if now = c.srcPos then 0 else 1)) +
      (c.branches.zipIdx.foldl (fun n f => n + blocks f.1 (s.blocksOut id c) fun j => !c.brGot.contains (j, f.2)) 0)
  | _ =>
    let (now, open1) : Nat × Nat := if c.srcPos < c.issPos then
      (match s.runAt id c false c.srcPos with
       | .at_ _ dst n step _ =>
         let write : List Nat := match c.instr with
           | .linkx .. => ((s.cmdLink id c).map fun l => linkPort l.1).toList
           | _ => (portPieces dst n).filterMap fun p => s.peekPort id c p.1 p.2 .engWrite
         (c.srcPos + step, here (s.openPieces id c .source ++ write) + read (if c.grR then 0 else 1))
       | _ => (c.srcPos, 0)) else (c.srcPos, 0)
    let later (w : Staged) : List Nat := match c.instr with
      | .linkx .. => ((s.cmdLink id c).map fun l => linkPort l.1).toList
      | _ => (portPieces w.dst w.bytes.length).filterMap fun p => s.peekPort id c p.1 p.2 .engWrite
    let head : Nat := match c.instr with
      | .linkx .. => if c.wr.granted.isEmpty then here (c.staged.head?.toList.flatMap later) else 0
      | _ => here (s.openPieces id c .write)
    open1 + s.beatsFrom id c port c.total now + head + here ((c.staged.drop 1).flatMap later) +
      here (s.openPieces id c .index) +
      s.indexBeats id c port c.total (c.srcPos + c.acc.length / 4 + (match c.indexRun with | some (.at_ _ _ n _ _) => n / 4 | _ => 0))

/-- The beats a command has left at a port, as it last asked there. -/
def Cmd.use (c : Cmd) (port : Nat) : Option PortUse := c.ports.find? fun p => p.port == port

/-- A command asks at a port for a beat (R141): its beats there are counted when it carries a mark. -/
def State.ask (s : State) (id : Nat) (what : XWhat) (port : Nat) : State :=
  match s.cmd? id with
  | none => s
  | some c =>
    let need := needOf (c.desc.get 6)
    let n := if need.isSome then s.beatsAt id c port else 1
    let u : PortUse := ⟨port, match c.use port with | some u => u.age | none => s.tick, n⟩
    let s := s.modCmd id fun c => { c with ports := u :: c.ports.filter fun p => p.port != port }
    s.offer port ⟨what, s.cmdRegion id, need, c.desc.get 7, n, c.lateAt.contains port, u.age, inPortOf id⟩

/-! ## Offering beats (R110, R111, R264) -/

/-- The next pieces of a kind ask at their ports; an address that will not do ends the command once what it has read
before is staged (R108). -/
def State.askPieces (s : State) (id : Nat) (k : BeatKind) : State :=
  match s.cmd? id with
  | none => s
  | some c =>
    forAll (fun s (a : (Nat × Nat) × Nat) =>
      match s.cmd? id with
      | none => s
      | some c =>
        if c.cause != .none || (c.piecesAt k).touched a.2 then s
        else match s.engPort id c a.1.1 a.1.2 k.access with
          | .inr (.bad x) => if k = .write then s.failWrite id x else s.fail id x
          | .inr (.wait s) => s
          | .inr (.ok _ _ s) => s
          | .inl (p, _, s) => (s.modCmd id fun c => c.setPieces ((c.piecesAt k).ask a.2) k).ask id (.beat id k a.2) p)
      (s.piecesOf id c k).zipIdx s

/-- Blocks or runs that a command has read, or is reading, and has not written yet (R122). -/
def Cmd.buffered (c : Cmd) : Nat :=
  match c.instr with
  | .strm .. => c.staged.length + (c.acc.length + c.dec.length + 31) / 32 + 4 * (c.srcRdy.length + c.ways.length)
  | _ => c.staged.length + c.ways.length

/-- The farthest of some pieces, in ns over links, when all of them translate. -/
def State.farthest (s : State) (id : Nat) (c : Cmd) : List (Nat × Nat) → (Nat × State) ⊕ Eng
  | [] => .inl (0, s)
  | p :: rest =>
    match s.engPort id c p.1 p.2 .engRead with
    | .inr x => .inr x
    | .inl (_, ns, s) =>
      (match s.farthest id c rest with
       | .inl (m, s) => .inl (max ns m, s)
       | .inr x => .inr x)

/-- The request of the next run sets out to its memories, while the unit's buffer has room for it (R111, R122). -/
def State.issueRun (s : State) (id : Nat) (c : Cmd) : State :=
  let room : Bool := match c.instr with | .strm .. => decide (c.buffered + 4 ≤ 64) | _ => decide (c.buffered < 16)
  if !room || decide (c.total ≤ c.issPos) then s
  else match s.runAt id c false c.issPos with
    | .wait => s
    | .bad x => if c.ways.isEmpty then s.fail id x else s
    | .at_ src _ n step _ =>
      match s.farthest id c (portPieces src n) with
      | .inr (.bad x) => if c.ways.isEmpty then s.fail id x else s
      | .inr (.wait s) => s
      | .inr (.ok _ _ s) => s
      | .inl (ns, s) => s.modCmd id fun c => { c with issPos := c.issPos + step, ways := c.ways ++ [s.acrossNs ns] }

/-- The request of the next index row sets out (R116). -/
def State.issueIndex (s : State) (id : Nat) (c : Cmd) : State :=
  if c.idxWay.isSome then s
  else match c.indexRun with
    | none => s
    | some .wait => s
    | some (.bad x) => if c.acc.isEmpty then s.fail id x else s
    | some (.at_ a _ n _ _) =>
      match s.farthest id c [(a, n)] with
      | .inr (.bad x) => if c.acc.isEmpty then s.fail id x else s
      | .inr (.wait s) => s
      | .inr (.ok _ _ s) => s
      | .inl (ns, s) => s.modCmd id fun c => { c with idxWay := some (s.acrossNs ns) }

/-- The run in turn asks at a tender's read port, or at the ports of its pieces once that port has granted it. -/
def State.askRun (s : State) (id : Nat) : State :=
  match s.cmd? id with
  | none => s
  | some c =>
    let there : Bool := match c.ways with | t :: _ => decide (t ≤ s.clock) | [] => false
    match c.instr, s.readPort? id c with
    | .strm .., some p =>
      let s := if there then s.askPieces id .source else s
      if !c.rd && (match c.srcRdy with | g :: _ => g.all fun w => decide (w.due ≤ s.clock) | [] => false) then
        (s.modCmd id fun c => { c with rd := true }).ask id (.read id) p
      else s
    | _, some p =>
      if !there then s
      else if c.grR then s.askPieces id .source
      else if c.rd then s else (s.modCmd id fun c => { c with rd := true }).ask id (.read id) p
    | _, none => if there then s.askPieces id .source else s

/-- Reads that an engine offers: while it has not been cancelled and has met no error. -/
def State.issueReads (s : State) (id : Nat) : State :=
  match s.cmd? id with
  | none => s
  | some c =>
    if c.endStep || c.cause != .none then s
    else
      let s := s.issueIndex id c
      let s := match s.cmd? id with | some c => (if c.cause = CmdCause.none then s.issueRun id c else s) | none => s
      let s := s.askRun id
      match (s.cmd? id).bind (·.idxWay) with
      | some t => if t ≤ s.clock then s.askPieces id .index else s
      | none => s

/-- Bytes that have been read set out for the memory they are for, from the second cycle after their read was granted
(R264), and the oldest of them ask at its ports. -/
def State.issueWrites (s : State) (id : Nat) : State :=
  match s.cmd? id with
  | none => s
  | some c =>
    let ready (w : Staged) : Bool := w.setOut.isNone && decide (2 ≤ w.age)
    let send (w : Staged) (t : Int) : Staged := { w with setOut := some t }
    let s : State := match c.instr, c.staged.find? (·.setOut.isNone) with
      | .linkx .., some w => if ready w then s.modCmd id fun c => { c with
          staged := c.staged.map fun w => if ready w then send w s.clock else w } else s
      | _, some w =>
        if !ready w then s
        else (match s.engPort id c w.dst (min w.bytes.length 1) .engWrite with
          | .inl (_, ns, s) => s.modCmd id fun c => { c with staged := setFirst (fun w => w.setOut.isNone) (send · (s.acrossNs ns)) c.staged }
          | .inr (.bad x) => s.failWrite id x
          | .inr (.wait s) => s
          | .inr (.ok _ _ s) => s)
      | _, none => s
    match s.cmd? id with
    | none => s
    | some c =>
      match c.instr, c.staged with
      | _, [] => s
      | .linkx .., w :: _ =>
        if w.setOut.isNone || c.wr.touched 0 then s
        else (match s.cmdLink id c with
          | some (k, _) => (s.modCmd id fun c => { c with wr := c.wr.ask 0 }).ask id (.beat id .write 0) (linkPort k)
          | none => s)
      | _, w :: _ => (match w.setOut with | some t => if t ≤ s.clock then s.askPieces id .write else s | none => s)
where
  setFirst (p : Staged → Bool) (f : Staged → Staged) : List Staged → List Staged
    | [] => []
    | w :: rest => if p w then f w :: rest else w :: setFirst p f rest

/-- The rank of a running command at its copy engine (R111, R141): that of its next beat, at the port it passes. -/
def State.engineKey (s : State) (id : Nat) (c : Cmd) : XKey :=
  let next : Option Nat := match s.runPorts id c c.srcPos with
    | some ((source, _, _), _) => source.head?
    | none => c.staged.head?.bind fun w => s.peekPort id c w.dst (min w.bytes.length 1) .engWrite
  match next with
  | some p =>
    let need := needOf (c.desc.get 6)
    let age := match c.use p with | some u => u.age | none => s.tick
    s.keyOf p ⟨.read id, s.cmdRegion id, need, c.desc.get 7, if need.isSome then s.beatsAt id c p else 1,
      c.lateAt.contains p, age, inPortOf id⟩
  | none => ⟨1, 0, s.tick, inPortOf id⟩

def insertKey (x : XKey × Nat) : List (XKey × Nat) → List (XKey × Nat)
  | [] => [x]
  | y :: ys => if y.1.lt x.1 then y :: insertKey x ys else x :: y :: ys

/-- Commands in the order in which they act: those of copy engines in slack order (R111). -/
def State.cmdOrder (s : State) : List Nat :=
  (s.cmdIds.foldr (fun id l => match s.cmd? id with
    | some c => (match c.st, Instr.unit c.instr with
      | .running, .copy => insertKey (s.engineKey id c, id) l
      | _, _ => insertKey (⟨0, -8388608, 0, 0⟩, id) l)
    | none => l) []).map (·.2)

/-- BEACON_APPLY (R139, R147): the cached entry takes the values, and the transfers with beats left there whose mark has
passed turn late. -/
def execBeaconApply (k : Nat) (s : State) : Host.Outcome State Fault Refusal :=
  match s.beacons.get? k with
  | none => .next s
  | some b =>
    if b.subscribe then .next s
    else
      let s := { s with beacons := s.beacons.del k }
      let x := s.arb b.arb
      let cache := x.cache.map fun (e : BeaconEnt) =>
        if e.needid == b.needid then { e with got := true, value := b.value, rLong := b.rLong, rShort := b.rShort } else e
      if !(x.cache.any fun e => e.needid == b.needid) then .next s
      else
        let hits := s.cmdIds.filter fun id => match s.cmd? id with
          | some c => s.pendsAt b.arb id b.needid && !c.lateAt.contains b.arb &&
              decide ((c.desc.get 7 - b.value).toInt ≤ 0)
          | none => false
        let s := s.setArb b.arb { x with cache := cache }
        .next (forAll (fun s id =>
          if s.gangHalted (s.cmdRegion id) || s.gangHalted (s.elem (needElem b.needid)).region then s
          else
            let y := s.arb b.arb
            let s := s.setArb b.arb { y with
              xfers := y.xfers.map fun t => if t.what.cmd == some id then { t with late := true } else t }
            s.foundLate b.arb id b.needid) hits s)

/-! ## MXSORT (R130) -/

/-- The order of keys. -/
def sortKey (kind : Nat) (k : W) : Int :=
  match kind with
  | 0 => (k.toNat : Nat)
  | 1 => k.toInt
  | _ => if k.getLsbD 31 then -(k.toNat % 2 ^ 31 : Nat) - 1 else (k.toNat : Nat)

structure SortItem where
  key : W
  idx : W
  pos : Nat

/-- x comes before y. -/
def sortBefore (kind : Nat) (desc : Bool) (x y : SortItem) : Bool :=
  let a := sortKey kind x.key
  let b := sortKey kind y.key
  if a ≠ b then (if desc then decide (b < a) else decide (a < b))
  else if x.idx ≠ y.idx then decide (x.idx.toNat < y.idx.toNat) else decide (x.pos < y.pos)

def sortInsert (before : SortItem → SortItem → Bool) (x : SortItem) : List SortItem → List SortItem
  | [] => [x]
  | y :: ys => if before x y then x :: y :: ys else y :: sortInsert before x ys

def sortedItems (c : Cmd) : List SortItem :=
  let l := c.lane
  let n := l 2
  let own := fld (l 1) 16 16 == 0xFFFF
  let items := (List.range n).map fun i =>
    (⟨BitVec.ofNat 32 (natAt c.acc (4 * i) 4), if own then BitVec.ofNat 32 i else BitVec.ofNat 32 (natAt c.dec (4 * i) 4), i⟩
      : SortItem)
  items.foldr (fun x l' => sortInsert (sortBefore (fld (l 3) 16 2) (fld (l 3) 18 1 == 1)) x l') []

/-- The smallest power of two that is at least max(8, n), as its exponent. -/
def sortLog (n : Nat) : Nat := ((List.range 13).find? fun k => decide (8 ≤ 2 ^ k ∧ n ≤ 2 ^ k)).getD 12

/-- Token j of a list of outputs: eight of them, or the last ones. -/
def listTok (vs : List W) (j : Nat) (tag : Tag) (round : Nat) : Tok :=
  let x := (vs.drop (8 * j)).take 8
  { kind := .data, tag := tag, lvm := maskOf fun l => decide (l < x.length), data := Oct.of fun l => x.getD l 0
    stamp := 0, round := round }
def eosTok (round : Nat) : Tok := { kind := .eos, tag := .int32, lvm := 1, data := Oct.rep 0, stamp := 0, round := round }

/-- The input that tokens of an engine reach through a reply entry of the issuing element, when its channel has room. -/
def State.engRoom (s : State) (id : Nat) (c : Cmd) (entry : Nat) : Option Nat :=
  match s.replyPort (id / 8) c.plane entry with
  | some p => if s.portSpace (s.unitTile id c) p then some p else none
  | none => none

/-- Send a token of an engine through a reply entry of the issuing element, when its channel has room. -/
def State.engSend (s : State) (id : Nat) (c : Cmd) (entry : Nat) (t : Tok) : Option State :=
  (s.engRoom id c entry).map fun p => s.sendTo (replySrc (id / 8) entry) 0 (s.unitTile id c) p t none

/-- One cycle of a sort (R130): the first takes a power token (R345) and p ÷ 8 cycles take the blocks of keys and of
indices; the network's cycles follow, and p ÷ 8 more send the tokens of each list, its EOS in the last one. -/
def State.sortCycle (s : State) (id : Nat) (c : Cmd) (rg : Nat) : State :=
  let l := c.lane
  let n := l 2
  let nb := (4 * n + 31) / 32
  let own := fld (l 1) 16 16 == 0xFFFF
  let round := (s.elem (id / 8)).tokRound
  let g := sortLog n
  let take (s : State) (c : Cmd) : State :=
    if s.groupHolds rg (fld (l 1) 0 16) 1 c.pos 1 && (own || s.groupHolds rg (fld (l 1) 16 16) 1 c.pos 1) then
      let (kb, z1) := s.blockAt rg (fld (l 1) 0 16) 0
      let (ib, z2) := if own then ([], false) else s.blockAt rg (fld (l 1) 16 16) 0
      let s := s.popRing rg (fld (l 1) 0 16) 32
      let s := if own then s else s.popRing rg (fld (l 1) 16 16) 32
      s.modCmd id fun c => { c with
        pos := c.pos + 1, acc := c.acc ++ kb, dec := c.dec ++ ib, tint := c.tint || z1 || z2
        begun := decide (nb ≤ c.pos + 1), count := 0
        left := if nb ≤ c.pos + 1 then (2 ^ g / 8 - nb) + 2 * g * (g + 1) + 1 else 0 }
    else s
  if !c.busy then
    match s.unitKey id c with
    | some u =>
      let k := u % 2 ^ 20
      if (s.island k).pool = 0 then s
      else take ((s.modIsland k fun i => { i with pool := i.pool - 1 }).modCmd id fun c => { c with busy := true }) c
    | none => s
  else if !c.begun then take s c
  else if c.endStep then s
  else
    let items := sortedItems c
    let last := 2 ^ g / 8 - 1
    let due : Nat := if c.count < last then min nb (c.count + 1) else nb + 1
    let tok (vs : List W) (j : Nat) (tag : Tag) : Tok :=
      if j = nb then eosTok round else if c.tint then poisonTok unknownPa round else listTok vs j tag round
    let key (s : State) (k : Cmd) : State :=
      if due ≤ k.out then s
      else match s.engSend id k (fld (l 3) 0 5) (tok (items.map (·.key)) k.out (if fld (l 3) 16 2 = 2 then .fp32 else .int32)) with
        | some s => s.modCmd id fun k => { k with out := k.out + 1, progress := BitVec.ofNat 32 (min n (8 * (k.out + 1))) }
        | none => s
    let idx (s : State) (k : Cmd) : State :=
      if due ≤ k.tile then s
      else match s.engSend id k (fld (l 3) 8 5) (tok (items.map (·.idx)) k.tile .int32) with
        | some s => s.modCmd id fun k => { k with tile := k.tile + 1 }
        | none => s
    let twice (f : State → Cmd → State) (s : State) : State :=
      forAll (fun s _ => match s.cmd? id with | some k => f s k | none => s) [0, 1] s
    (twice idx (twice key s)).modCmd id fun k => if k.out = due ∧ k.tile = due then { k with count := k.count + 1 } else k

/-- What a command has issued is over (R108, R132). -/
def Cmd.drained (c : Cmd) : Bool :=
  match c.instr with
  | .strm _ _ _ _ false => if fld (c.lane 5) 16 1 = 1 then decide (c.dec.length < 32) else c.staged.isEmpty
  | _ => c.staged.isEmpty

/-- A cancelled command has finished the work it was in (R132). -/
def Cmd.stopped (c : Cmd) : Bool :=
  match c.instr with
  | .strm _ _ _ _ chan => if chan then c.eosSent else !c.writing
  | .mxmm .. => !c.busy
  | .mxsort .. | .ringi .. | .ringa .. | .spill .. => true
  | _ => c.drained

/-- A command ends, once it issues nothing more (R106, R108, R132): it has met an error and what it has issued is over, it
has been cancelled and has finished the work it was in, or all of its work is done; and its writes are acknowledged. -/
def State.canEnd (s : State) (c : Cmd) : Bool :=
  (if c.cause != .none then c.drained else if c.endStep then c.stopped else c.complete) &&
    (match c.ackBy with | some t => decide (t ≤ s.clock) | none => true)

/-- A command whose last work has just been done ends at once. -/
def State.endNow (s : State) (id : Nat) : State :=
  match s.cmd? id with
  | some c => (match c.st with
    | .running => if s.canEnd c then { s with agenda := .act (.commandFinish id) :: s.agenda } else s
    | _ => s)
  | none => s

/-! ## COMMAND_START, COMMAND_ACCEPT, ENGINE_BEAT, COMMAND_FINISH, COMPLETION_TOKEN_SEND -/

def ringUnit (c : Cmd) : Bool := match Instr.unit c.instr with | .ring => true | .spill => true | _ => false

/-- A command whose predecessors have performed reaches its unit. -/
def State.reachUnit (s : State) (id : Nat) (c : Cmd) : State :=
  let cause := s.unitCause id c
  let c := { (match cause with | .none => s.snapshot id c | _ => c) with
    reached := true, skipBefore := s.skipTime (id / 8) c.gates }
  match cause with
  | .none =>
    (match s.unitKey id c with
     | some u =>
       let run := s.unitRun.getD u []
       let wait := s.unitWait.getD u []
       if run.length < unitCap u ∧ wait.isEmpty then
         State.setCmd { s with unitRun := s.unitRun.put u (run ++ [id]) } id { c with accepted := true, st := .running }
       else State.setCmd { s with unitWait := s.unitWait.put u (wait ++ [id]) } id c
     | none => s.setCmd id { c with accepted := true, st := .running, left := if ringUnit c then 2 else 0 })
  | x => s.setCmd id { c with st := .running, cause := x, accepted := true }

/-- COMMAND_START (R105, R111): its placeholder is in the log, its predecessors have performed, and what they hold is
pushed out; it reaches its unit, meets the errors of a missing island or ring, and runs, or waits at the entry of a full
unit. See log entry 44 (DEDUCED). -/
def execCommandStart (id : Nat) (s : State) : Host.Outcome State Fault Refusal :=
  match s.cmd? id with
  | none => .next s
  | some c =>
    if c.st ≠ .waiting ∨ c.reached then .next s
    else if c.owed then
      match s.putHolder (id / 8) c.plane c.stream c.round c.ord c.instr with
      | none => .next (s.askCutOf (s.cmdRegion id))
      | some s =>
        let s := s.modCmd id fun c => { c with owed := false }
        .next (if s.descOk (id / 8) c.instr c.desc then s else s.endCmd id .faulted .desc)
    else if c.endStep ∨ !(c.gates.all s.gateDone) then .next s
    else match s.openGates (id / 8) c.gates with
      | none => .next (s.askCutOf (s.cmdRegion id))
      | some s => .next (s.reachUnit id c)

/-- COMMAND_ACCEPT (R111): the command that has waited longest takes a free place. -/
def execCommandAccept (u : Nat) (s : State) : Host.Outcome State Fault Refusal :=
  match s.unitWait.getD u [] with
  | [] => .next s
  | id :: rest =>
    let run := s.unitRun.getD u []
    if unitCap u ≤ run.length then .next s
    else .next (State.modCmd { s with unitRun := s.unitRun.put u (run ++ [id]), unitWait := s.unitWait.put u rest } id
      fun c => { c with accepted := true, st := .running })

/-- Ring counters set by RINGI (R118). -/
def State.ringSet (s : State) (rg i : Nat) (head tail : W) : State :=
  s.modRing rg i fun g => { g with head := head, tail := tail, hpos := head.toNat % g.size }

/-- What the ports have granted to a command is read, and written or sent on its link. -/
def State.engineReads (s : State) (id : Nat) : State := match s.cmd? id with | some c => s.doReads id c | none => s
def State.engineWrites (s : State) (id : Nat) : State :=
  match s.cmd? id with
  | some c => (match c.instr with
    | .linkx .. => if c.wr.granted.isEmpty then s else s.sendFlit id c
    | _ => s.doWrites id c)
  | none => s

/-- ENGINE_BEAT (R105, R110 to R116): granted beats move their bytes, and the engine offers its next beats. -/
def execEngineBeat (id : Nat) (s : State) : Host.Outcome State Fault Refusal :=
  match s.cmd? id, s.cmdRegion id with
  | some c, some rg =>
    if c.st ≠ .running ∨ !s.atWork id c then .next s
    else match c.instr with
      | .mxsort .. => .next (if c.left = 0 then (s.sortCycle id c rg).endNow id else s)
      | .ringi .. =>
        if c.left ≠ 0 ∨ c.out ≠ 0 ∨ c.cause ≠ .none then .next s
        else .next (((s.ringSet rg (fld (c.lane 0) 0 16) (c.desc.get 1) (c.desc.get 2)).modCmd id
          fun c => { c with out := 1 }).endNow id)
      | .mxmm .. => .next s
      | .ringa .. => .next s
      | .spill .. => .next s
      | .strm _ _ _ _ true => .next s
      | .strm _ _ _ _ false => .next (((if c.grR then s.portRead id else s).engineReads id).issueReads id)
      | _ => .next ((((s.engineReads id).engineWrites id).issueReads id).issueWrites id |>.endNow id)
  | _, _ => .next s

/-- A command ends, once its record has room in the round log (R301). -/
def State.finish (s : State) (id : Nat) (c : Cmd) (st : CmdSt) (cause : CmdCause) : State :=
  if s.endBlocked id c cause then s.askCutOf (s.cmdRegion id) else s.endCmd id st cause

/-- COMMAND_FINISH (R106, R108, R132): faulted, cancelled or done. -/
def execCommandFinish (id : Nat) (s : State) : Host.Outcome State Fault Refusal :=
  match s.cmd? id with
  | none => .next s
  | some c =>
    match c.st with
    | .waiting => .next (if c.endStep && !c.owed && (!c.sendsEos || c.eosSent) then s.finish id c .cancelled .none else s)
    | .running =>
      if !s.canEnd c then .next s
      else if c.cause ≠ .none then
        (match decide (2 ^ 20 ≤ id), s.cmdRegion id with
         | true, some rg => .next ((s.dropCmd id).abortRegion rg 4)
         | _, _ => .next (s.finish id c .faulted c.cause))
      else .next (s.finish id c (if c.endStep then .cancelled else .done) .none)
    | _ => .next s

/-- COMPLETION_TOKEN_SEND (R107). -/
def execCompletionTokenSend (id : Nat) (s : State) : Host.Outcome State Fault Refusal :=
  match s.cmd? id with
  | none => .next s
  | some c =>
    match c.reply with
    | none => .next s
    | some q =>
      let behind := (s.elem (id / 8)).cmds.toList.any fun x => match x with
        | some k => k.tokenDue && k.reply == some q && decide (k.endSeq < c.endSeq)
        | none => false
      if !c.over || !c.tokenDue || behind then .next s
      else
        let t : Tok := { kind := .data, tag := .int32, lvm := 3, data := ((Oct.rep 0).set 0 c.status).set 1 c.progress
                         stamp := 0, round := c.endRound }
        match s.engSend id c q t with
        | none => .next s
        | some s => .next ((s.modCmd id fun c => { c with tokenDue := false }).freeEntry id)

/-! ## Side bands (R194, R195) -/

/-- UNIT, SEQ and SCALE of an entry. -/
def scaleOf (b : List Byte) : Nat × BitVec 16 × Byte := (natAt b 0 2, BitVec.ofNat 16 (natAt b 2 2), b.getD 4 0)

/-- Entry i of a region's scale list as memory holds it, while its page can be fetched. See log entry 47 (DEDUCED). -/
def State.scaleEntry (s : State) (r : Region) (i : Nat) : Option (Nat × BitVec 16 × Byte) :=
  let va := r.cons.dbase + r.cons.slist + 8 * i
  match s.walkTables r.die r.asid va with
  | .ok l _ => if lbit l.bits 3 then some (scaleOf (s.mem.read (l.pa va) 8)) else none
  | .fault _ _ => none

/-- The entries of a list before entry i that name a unit: the use that entry i is for, when it names the unit. -/
def State.scaleOrd (s : State) (r : Region) (u i : Nat) : Nat :=
  ((List.range i).filter fun j => match s.scaleEntry r j with | some (v, _) => v == u | none => false).length

/-- Entry i is for a use that lies before the uses counted in some sequence numbers (R195), or for no unit. -/
def State.scaleTaken (s : State) (r : Region) (seqs : SMap (BitVec 16 × BitVec 16)) (i : Nat) : Bool :=
  match s.scaleEntry r i with
  | some (u, _) =>
    (match r.island? (u % 4096) with
     | some (k, _) =>
       let q := (SMap.get? seqs k).getD (0, 0)
       decide (s.scaleOrd r u i < (if 32768 ≤ u then q.2 else q.1).toNat)
     | none => true)
  | none => false

/-- The side-band unit of a command: UNIT field, and its port's island. -/
def unitField (tender : Bool) (iaddr : Nat) : Nat := (if tender then 32768 else 0) + iaddr

/-- Taking use n of a unit's scales: a scale, none yet, or a pairing fault with the SEQ received. -/
inductive Scale where
  | got (x : Byte) (s : State)
  | wait
  | fault (use seq : Nat)

/-- A use of a command whose element has not saved in an open cut lies before the cut (R195). -/
def Region.countUse (r : Region) (id k : Nat) (tender : Bool) : Region :=
  { r with cut := r.cut.map fun c =>
      if 2 ^ 20 ≤ id ∨ (c.elems.get? (id / 8)).isSome then c
      else
        let q := (c.seqs.get? k).getD (0, 0)
        { c with seqs := c.seqs.put k (if tender then (q.1, q.2 + 1) else (q.1 + 1, q.2)) } }

/-- Take the scale of the next use of the unit that a command runs on. -/
def State.takeScale (s : State) (id rg : Nat) (tender : Bool) (iaddr : Nat) : Scale :=
  match s.region? rg with
  | none => .wait
  | some r =>
    match r.island? iaddr with
    | none => .wait
    | some (k, _) =>
      let i := s.island k
      let n := if tender then i.tseq else i.iseq
      match (if tender then i.tband else i.iband) with
      | (q, x) :: rest =>
        if q = n then
          .got x ((s.setIsland k (if tender then { i with tseq := n + 1, tband := rest }
            else { i with iseq := n + 1, iband := rest })).modRegion rg fun r => r.countUse id k tender)
        else .fault n.toNat q.toNat
      | [] =>
        let more := (List.range (r.cons.scount - r.slpos)).any fun j =>
          match s.scaleEntry r (r.slpos + j) with
          | some (u, _) => u == unitField tender iaddr && decide (n.toNat ≤ s.scaleOrd r u (r.slpos + j))
          | none => true
        if more then .wait else .fault n.toNat 0xFFFF

/-- The next entry of a scale list, read with a fetch access (R41, R194): nothing while it waits for its walk. -/
def State.fetchScale (s : State) (rg : Nat) (r : Region) : Option (Nat × BitVec 16 × Byte) × State :=
  let va := r.cons.dbase + r.cons.slist + 8 * r.slpos
  if s.inTransit r.die r.asid va then (none, s)
  else match s.tlbFind r.die r.asid va .fetch with
    | some l => (some (scaleOf (s.mem.read (l.pa va) 8)), s.tlbUse r.die r.asid va l)
    | none => (none, s.wantWalk r.die r.asid ⟨.scales rg, .fetch, va, 0, some rg⟩)

/-- SCALE_ENTRY_DELIVER (R194): the next entry of the list goes to its unit's port, when the port has room. An entry for a
use that a restored sequence number has behind it is passed over (R195). See log entry 47 (DEDUCED). -/
def execScaleEntryDeliver (rg : Nat) (s : State) : Host.Outcome State Fault Refusal :=
  match s.region? rg with
  | none => .next s
  | some r =>
    if r.cons.scount ≤ r.slpos ∨ r.slHeld.isSome then .next s
    else match s.fetchScale rg r with
      | (none, s) => .next s
      | (some (u, q, x), s) =>
        let next (s : State) : State := s.modRegion rg fun r => { r with slpos := r.slpos + 1 }
        match r.island? (u % 4096) with
        | none => .next (next s)
        | some (k, _) =>
          let i := s.island k
          let given := if 32768 ≤ u then i.tseq.toNat + i.tband.length else i.iseq.toNat + i.iband.length
          if s.scaleOrd r u r.slpos < given then .next (next s)
          else if 32768 ≤ u then
            (if 4 ≤ i.tband.length then .next s else .next (next (s.setIsland k { i with tband := i.tband ++ [(q, x)] })))
          else if 4 ≤ i.iband.length then .next s
          else .next (next (s.setIsland k { i with iband := i.iband ++ [(q, x)] }))

def State.sideBand (s : State) (rg : Nat) : Bool :=
  match s.region? rg with | some r => r.cons.scount != 0 | none => false

/-! ## The tender (R122 to R124) -/

/-- Blocks that have come move to a decoder's input, each byte with its poison, until it holds a whole coded block. -/
def takeReady (lag : Nat) : List Staged → List Byte → List Bool → List Staged × List Byte × List Bool
  | [], acc, z => ([], acc, z)
  | w :: rest, acc, z =>
    if w.age < lag || (32 ≤ acc.length && blockSize (natAt acc 0 4) ≤ acc.length) then (w :: rest, acc, z)
    else takeReady lag rest (acc ++ w.bytes) (z ++ w.bytes.map fun _ => w.poison)

/-- Bytes of output that a coded block gives a tender that has such output to pass over, the padding behind a last block
among them (R123). -/
def Cmd.passes (c : Cmd) (h : Nat) : Nat :=
  let off := (32 - c.tile % 32) % 32
  let n := off + 2 * (fld h 0 6 + 1)
  (if hdrLast h then (n + 31) / 32 * 32 else n) - off

/-- A decoding tender takes the bytes that have come and decodes one block, when the decoded one before it has been taken
(R122, R123, R194); what a coded block with a poisoned byte gives is poisoned (R108). See log entry 47 (DEDUCED). -/
def State.tenderDecode (s : State) (id : Nat) (c : Cmd) (rg : Nat) : State :=
  if 32 ≤ c.dec.length then s
  else
    let lag := (List.range c.branches.length).foldl (fun n i => max n (s.branchLag id c c.out i)) 0
    let (staged, acc, pz) := takeReady lag c.staged c.acc c.accPz
    let c := { c with staged := staged, acc := acc, accPz := pz }
    let s := s.setCmd id c
    let last := c.pos == c.total && c.staged.isEmpty
    let h := natAt c.acc 0 4
    if c.acc.length < 32 ∨ c.acc.length < blockSize h then
      (if last && !c.acc.isEmpty then s.fail id .codeerr
       else if last && !c.dec.isEmpty then s.modCmd id fun c =>
         let n := 32 - c.dec.length
         { c with dec := c.dec ++ List.replicate n 0, decPz := c.decPz ++ List.replicate n false }
       else s)
    else if c.passes h ≠ 0 ∧ c.passes h ≤ c.tile then
      s.modCmd id fun k => { k with acc := k.acc.drop (blockSize h), accPz := k.accPz.drop (blockSize h), tile := k.tile - c.passes h }
    else
      let r : Scale := if s.sideBand rg then s.takeScale id rg true (fld (c.lane 0) 0 12)
        else .got (BitVec.ofNat 8 (hdrScale h)) s
      match r with
      | .wait => s
      | .fault n q => s.abortScale rg (unitField true (fld (c.lane 0) 0 12)) n q
      | .got x s =>
        match decodeBlock h ((c.acc.drop 4).take (hdrLen h)) with
        | none => s.fail id .codeerr
        | some es =>
          let out := c.dec ++ es.flatMap fun e => leBytes 2 (toBf16 (hdrFmt h) x.toNat e)
          let out := out ++ List.replicate (if c.tile = 0 then (if hdrLast h then (32 - out.length % 32) % 32 else 0)
            else c.passes h - out.length) 0
          let bad := (c.accPz.take (blockSize h)).any fun z => z
          s.modCmd id fun k => { k with
            acc := k.acc.drop (blockSize h), accPz := k.accPz.drop (blockSize h), dec := out.drop k.tile, tile := 0
            decPz := (k.decPz ++ List.replicate (out.length - k.decPz.length) bad).drop k.tile }

/-- Block k, from the next one on, that a tender has for its branches: its bytes, their poison, and the cycles since its
read. -/
def Cmd.blockNo (c : Cmd) (k : Nat) : Option (List Byte × Bool × Nat) :=
  if fld (c.lane 5) 16 1 = 1 then
    (if 32 * (k + 1) ≤ c.dec.length then
      some (bytesAt c.dec (32 * k) 32, ((c.decPz.drop (32 * k)).take 32).any (fun z => z), 2 ^ 32) else none)
  else c.staged[k]?.map fun w => (w.bytes, w.poison, w.age)

/-- The command without its next block, which every branch has taken. -/
def Cmd.blockDone (c : Cmd) : Cmd :=
  let c := { c with out := c.out + 1, progress := c.progress + 32, brGot := c.brGot.filter fun b => b.1 != c.out }
  if fld (c.lane 5) 16 1 = 1 then { c with dec := c.dec.drop 32, decPz := c.decPz.drop 32 } else { c with staged := c.staged.drop 1 }

/-- The next block of a tender enters every branch in one step, when all of them have space (R122). -/
def State.branchPush (s : State) (rg : Nat) (c : Cmd) (b : List Byte) (pz : Bool) : Option State :=
  tryAll (fun s f => if s.groupRoom rg f c.wide c.out 1 then some (s.groupPush rg f c.wide c.out [(b, pz)]) else none)
    c.branches s

/-- Blocks and branches whose ring's port can be asked: the block's share of its way is over (R111). A cancelled tender
asks only for the block it is writing (R132). -/
def State.askable (s : State) (id : Nat) (c : Cmd) : List (Nat × Nat) :=
  (List.range (if c.endStep then (if c.writing then 1 else 0) else max c.staged.length (c.dec.length / 32))).flatMap fun k =>
    match c.blockNo k with
    | none => []
    | some (_, _, age) => (List.range c.branches.length).filterMap fun i =>
        let b := (c.out + k, i)
        if !c.brAsk.contains b && !c.brGot.contains b && decide (s.branchLag id c (c.out + k) i ≤ age) then some b else none

/-- TENDER_BLOCK_WRITE (R110, R111, R122): the blocks that have come ask at the memory-node ports of their rings; when
every port has granted the next one and all its rings have space, it enters every branch in one step. See log entry 44
(DEDUCED). -/
def execTenderBlockWrite (id : Nat) (s : State) : Host.Outcome State Fault Refusal :=
  match s.cmd? id, s.cmdRegion id with
  | some c0, some rg =>
    (match c0.instr with
     | .strm _ _ _ _ false =>
       if c0.st ≠ .running ∨ !s.atWork id c0 then .next s
       else
         let s := if fld (c0.lane 5) 16 1 = 1 ∧ c0.cause = .none ∧ !c0.endStep then s.tenderDecode id c0 rg else s
         (match s.cmd? id with
          | none => .next s
          | some c =>
            if c.st ≠ .running then .next s
            else
              let whole : Bool := (List.range c.branches.length).all fun i => c.brGot.contains (c.out, i)
              match (match c.blockNo 0 with | some (b, pz, _) => if whole then s.branchPush rg c b pz else none | none => none) with
              | some s =>
                let s := s.setCmd id c.blockDone
                .next (({ s with agenda := .act (.tenderBlockWrite id) :: s.agenda }.stir (some rg)).endNow id)
              | none =>
                let ask := s.askable id c
                .next (forAll (fun s b => match s.ringPort rg (c.branches.getD b.2 0) c.wide b.1 with
                    | some p => s.ask id (.branch id b.1 b.2) p
                    | none => s) ask (s.modCmd id fun c => { c with brAsk := c.brAsk ++ ask })))
     | _ => .next s)
  | _, _ => .next s

/-- TENDER_TOKEN_SEND (R110, R124, R132): the next block of the ring group passes its node's port and becomes a DATA token,
or the stream's EOS leaves, at its end or when it has been cancelled, running or waiting. -/
def execTenderTokenSend (id : Nat) (s : State) : Host.Outcome State Fault Refusal :=
  match s.cmd? id, s.cmdRegion id with
  | some c, some rg =>
    (match c.instr with
     | .strm _ _ _ _ true =>
       let l := c.lane
       let f := fld (l 1) 0 16
       let q := fld (l 3) 0 5
       let round := (s.elem (id / 8)).tokRound
       let works : Bool := match c.st with | .running => s.atWork id c | .waiting => c.endStep && !c.owed | _ => false
       if !works ∨ c.cause ≠ .none ∨ c.eosSent then .next s
       else if c.endStep ∨ c.out = c.total / 32 then
         (match s.engSend id c q (eosTok round) with
          | some s =>
            let s := s.modCmd id fun c => { c with eosSent := true }
            .next (match c.st with
              | .waiting => { s with agenda := .act (.commandFinish id) :: s.agenda }
              | _ => s.endNow id)
          | none => .next s)
       else if !s.groupHolds rg f c.wide c.out 1 then .next s
       else if !c.grR then
         (match s.engRoom id c q, s.ringPort rg f c.wide c.out with
          | some _, some p => .next (if c.rd then s else (s.modCmd id fun c => { c with rd := true }).ask id (.read id) p)
          | _, _ => .next s)
       else
         let (b, pz) := s.blockAt rg (groupRing f c.wide c.out) 0
         let t : Tok := if pz then poisonTok unknownPa round else
           { kind := .data, tag := D.tagOf (fld (l 3) 8 3), lvm := 0xFF
             data := Oct.of fun i => BitVec.ofNat 32 (natAt b (4 * i) 4), stamp := 0, round := round }
         (match s.engSend id c q t with
          | some s =>
            .next (((s.groupPop rg f c.wide c.out 1).modCmd id fun c => { c with
              grR := false, out := c.out + 1, progress := c.progress + 32 }).stir (some rg))
          | none => .next s)
     | _ => .next s)
  | _, _ => .next s

/-! ## The choice of a port (R142) -/

/-- The key of tile memory that a beat of a node's port touches. -/
def State.beatKey (s : State) (x : Xfer) : Option Nat :=
  let ring (id : Nat) (f j : Cmd → Nat) : Option Nat := match s.cmd? id, s.cmdRegion id with
    | some c, some rg => (s.ring? rg (groupRing (f c) c.wide (j c))).map fun g => g.key 0
    | _, _ => none
  match x.what with
  | .lane op l => (match s.ops.get? op with
    | some o => (match o.lanes.get l with
      | .node key => some key
      | .port pa leaf => (match s.place (o.acc s) leaf (o.addr l) pa with | .fabric t b => some (spmKey t b 0) | _ => none)
      | _ => none)
    | none => none)
  | .read id => ring id (fun c => fld (c.lane 1) 0 16) (·.out)
  | .beat id k i => (match s.cmd? id with
    | some c => (match (s.piecesOf id c k)[i]? with
      | some (a, _) => if isSp a then s.spKey (s.cmdRegion id) a else none
      | none => none)
    | none => none)
  | .branch id j i => ring id (fun c => c.branches.getD i 0) fun _ => j

/-- A copy engine has room in this cycle for a piece it reads or writes (R111); other units have bounds of their own. -/
def State.engineRoom (s : State) (id : Nat) (c : Cmd) (k : BeatKind) (n : Nat) : Bool :=
  match Instr.unit c.instr with
  | .copy => let e := (s.tile (s.unitTile id c)).engine; decide ((if k = .write then e.2 else e.1) + n ≤ 64)
  | _ => true
/-- A copy engine reads or writes n bytes in this cycle. -/
def State.engineMoves (s : State) (id : Nat) (c : Cmd) (k : BeatKind) (n : Nat) : State :=
  match Instr.unit c.instr with
  | .copy => s.modTile (s.unitTile id c) fun x =>
      { x with engine := if k = .write then (x.engine.1, x.engine.2 + n) else (x.engine.1 + n, x.engine.2) }
  | _ => s

/-- A piece of a command can move: the engine has room for it, and no wait for a way, a buffer or an area stands before it;
a flit needs a peer that is not halted (R115). -/
def State.pieceMoves (s : State) (id : Nat) (c : Cmd) (k : BeatKind) (a n : Nat) : Bool :=
  let waits (e : Eng) : Bool := match e with | .wait _ => true | _ => false
  match k, c.instr, c.staged with
  | .write, .linkx .., _ => (match s.cmdLink id c with | some (_, p) => !p.halt | none => false)
  | .write, .redc _ _ _ _ f, w :: _ =>
    s.engineRoom id c k n && !waits (s.doRedc id c f a (bytesAt w.bytes (a - w.dst) n) w.poison)
  | .write, _, w :: _ => s.engineRoom id c k n && !waits (s.engWrite id c a (bytesAt w.bytes (a - w.dst) n) w.poison)
  | .write, _, [] => true
  | _, _, _ => s.engineRoom id c k n && !waits (s.engRead id c a n)

/-- A transfer whose next beat can move (R142): no word in flight and no busy bank of an ordered-update node stands in its
way (R88), an access finds room in its bank, the round buffer, the LOG or the UNDO area (R301), a block in the rings of all
its branches, and a token in its channel (R122, R124). -/
def State.movable (s : State) (a : Nat) (x : Xfer) : Bool :=
  let free : Bool := if 2 ^ 20 ≤ a then true else match s.beatKey x with
    | some key => ((s.tile (a / 4)).nodes.get (a % 4)).busy.all fun b => b.1 / 65536 != key / 65536
    | none => true
  free && (match x.what with
  | .lane op l =>
    (match s.ops.get? op with
     | some o =>
       (match o.lanes.get l with
        | .node key =>
          (match Instr.kind o.instr with | .load => true | _ => !s.undoFull (s.elem o.elem).region o.round key)
        | .port pa leaf => s.canServe o l pa leaf
        | _ => true)
     | none => true)
  | .read id =>
    (match s.cmd? id, s.cmdRegion id with
     | some c, some rg => if c.sendsEos then
         (s.engRoom id c (fld (c.lane 3) 0 5)).isSome && s.groupHolds rg (fld (c.lane 1) 0 16) c.wide c.out 1
       else true
     | _, _ => true)
  | .beat id k i =>
    (match s.cmd? id with
     | some c => (match (s.piecesOf id c k)[i]? with | some (a, n) => s.pieceMoves id c k a n | none => true)
     | none => true)
  | .branch id j _ =>
    (match s.cmd? id, s.cmdRegion id with
     | some c, some rg => c.branches.all fun f => s.groupRoom rg f c.wide c.out (j - c.out + 1)
     | _, _ => true))

def State.choose (s : State) (a : Nat) : Option Xfer := s.chooseOf a ((s.arb a).xfers.filter (s.movable a))

/-- The first of the beats that a port has left which moves a transfer, and the port at that beat: a beat that is idle
passes with its wheel entry (R142, R144). -/
def State.firstBeat (s : State) (a : Nat) : Nat → Option (State × Xfer)
  | 0 => none
  | n + 1 => match s.choose a with
    | some x => some (s, x)
    | none => (s.setArb a { s.arb a with moved := (s.arb a).moved + 1 }).firstBeat a n

/-- What a command does with a beat that a port has granted it: it acts, and what it then asks for is decided in the same
tick (R263). -/
def State.actOn (s : State) (i : Instr) : State := { s with agenda := .act i :: .ports :: s.agenda }

/-- The step that uses a read granted to a command: a tender's ring read sends its token. -/
def State.readStep (s : State) (id : Nat) : Instr :=
  match s.cmd? id with
  | some c => (match c.instr with | .strm _ _ _ _ true => .tenderTokenSend id | _ => .engineBeat id)
  | none => .engineBeat id

/-- A port has moved a beat of a transfer: one beat less of its command has to pass it. -/
def State.beatMoved (s : State) (port : Nat) (w : Xfer) (gone : XWhat → Bool) : State :=
  let x := s.arb port
  let less (t : Xfer) : Xfer := if t.what.cmd.isSome && t.what.cmd == w.what.cmd then { t with n := t.n - 1 } else t
  let s := s.setArb port { x with moved := x.moved + 1, xfers := (x.xfers.filter fun t => !gone t.what).map less }
  match w.what.cmd with
  | some id => s.modCmd id fun c => { c with
      ports := c.ports.map fun p => if p.port == port then { p with left := p.left - 1 } else p }
  | none => s

/-- The banks that an island's tile under way leaves alone in some cycles: a beat of other traffic takes such a cycle, or
lengthens the tile (R129). -/
def Cmd.slowed (c : Cmd) (bank : Nat) : Cmd :=
  match c.spare.find? fun b => b.1 == bank with
  | some (_, 0) => { c with left := c.left + 1, spare := c.spare.map fun b => if b.1 == bank then b else (b.1, b.2 + 1) }
  | some _ => { c with spare := c.spare.map fun b => if b.1 == bank then (b.1, b.2 - 1) else b }
  | none => c

/-- A beat of a node's port lengthens the tiles that the islands there work on (R129). -/
def State.slowIslands (s : State) (port : Nat) (x : Xfer) : State :=
  if 2 ^ 20 ≤ port then s
  else match s.beatKey x with
    | none => s
    | some key =>
      let t := port / 4
      let work (edge : Nat) : Option Nat :=
        if onDieEdge t edge then
          (s.unitRun.getD (2 ^ 21 + dieOfTile t * 64 + islandNum (t % 256 / 16) (t % 16) edge) []).head?
        else none
      forAll (fun s id => s.modCmd id fun c => if c.busy then c.slowed (key / 65536 % 16) else c)
        ((List.range 4).filterMap work) s

/-- ARBITER_BEAT (R142, R263): a port decides one beat, and what it chose may act. A counter that found no place in the
port's cache takes one that has become free (R138). -/
def execArbiterBeat (port : Nat) (s : State) : Host.Outcome State Fault Refusal :=
  if !s.portOpen port then .next s
  else
    let s := forAll (fun s (w : W) => if (s.arb port).cache.any fun b => b.needid == w then s else s.cacheNeed port w)
      ((s.arb port).xfers.filterMap (·.needid)) s
    match s.firstBeat port (s.beatsLeft port) with
    | none => .next s
    | some (s, w) =>
      let s := (s.countBeat port w).slowIslands port w
      match w.what with
      | .lane op l =>
        let ls := s.together op l
        let s := s.beatMoved port w fun t => match t with | .lane o k => o == op && ls.contains k | _ => false
        .next (forAll (fun s k =>
          match s.ops.get? op with
          | none => s
          | some o =>
            match o.lanes.get k with
            | .node key =>
              { s.setLane op k (.granted key 0) with agenda := .act (.nodeRequestAccept op k) :: s.agenda }
            | .port pa leaf =>
              let s' := s.setLane op k (.granted pa leaf)
              if s'.agenda.head? = some (.act (.memoryOpPerform op)) then s'
              else { s' with agenda := .act (.memoryOpPerform op) :: s.agenda }
            | _ => s) ls.reverse s)
      | .read id =>
        let s := (s.beatMoved port w (· == w.what)).modCmd id fun c => { c with rd := false, grR := true }
        .next (s.actOn (s.readStep id))
      | .beat id k i =>
        let n := match s.cmd? id with
          | some c => (match (s.piecesOf id c k)[i]? with | some (_, n) => n | none => 0)
          | none => 0
        let s := match s.cmd? id with | some c => s.engineMoves id c k n | none => s
        .next (((s.beatMoved port w (· == w.what)).modCmd id fun c => c.setPieces ((c.piecesAt k).grant i) k).actOn
          (.engineBeat id))
      | .branch id j i =>
        .next (((s.beatMoved port w (· == w.what)).modCmd id fun c => { c with
          brAsk := c.brAsk.filter (· ≠ (j, i)), brGot := c.brGot ++ [(j, i)] }).actOn (.tenderBlockWrite id))

/-! ## The matrix island (R125 to R129, R268) -/

/-- Rows of tile t. -/
def Cmd.rows (c : Cmd) (t : Nat) : Nat := if t + 1 = c.count then fld (c.lane 3) 16 8 else 64

/-- What of B lies in its rings (R128): it has not all come, it is malformed, or it is there in so many blocks. -/
inductive BLoad where
  | wait | bad | ok (n : Nat)

/-- B has at most 8,192 elements (R125), and a coded block has one at least. -/
def maxBlocks : Nat := 8193

/-- The coded blocks of a group from its block j on, of which `count` elements are still to come. -/
def State.codedBlocks (s : State) (rg f w : Nat) : Nat → Nat → Nat → BLoad
  | 0, _, _ => .bad
  | fuel + 1, j, count =>
    let holds (i : Nat) : Bool := match s.ring? rg (groupRing f w i) with
      | some g => decide (32 * (i / w + 1) ≤ g.occ) | none => false
    let block (i : Nat) : List Byte := (s.blockAt rg (groupRing f w i) (32 * (i / w))).1
    if !holds j then .wait
    else
      let h := natAt (block j) 0 4
      let n := blockSize h / 32
      if !(List.range n).all (fun i => holds (j + i)) then .wait
      else match decodeBlock h ((((List.range n).flatMap fun i => block (j + i)).drop 4).take (hdrLen h)) with
        | none => .bad
        | some es =>
          if hdrLast h then (if es.length = count then .ok (j + n) else .bad)
          else if count ≤ es.length then .bad
          else s.codedBlocks rg f w fuel (j + n) (count - es.length)

/-- Blocks of B, once all of them lie in its group. -/
def State.bBlocks (s : State) (rg : Nat) (m : Mx) : BLoad :=
  if m.coded then s.codedBlocks rg m.b.1 m.b.2 maxBlocks 0 (m.k * m.n)
  else
    let n := m.k * m.rbB / 32
    if s.groupHolds rg m.b.1 m.b.2 0 n then .ok n else .wait

/-- The coded blocks of B: header and element patterns, or nothing when one is malformed. -/
def codedList : Nat → List Byte → Option (List (Nat × List Nat))
  | 0, _ => none
  | fuel + 1, bs =>
    let h := natAt bs 0 4
    match decodeBlock h ((bs.drop 4).take (hdrLen h)) with
    | none => none
    | some es => if hdrLast h then some [(h, es)] else (codedList fuel (bs.drop (blockSize h))).map fun r => (h, es) :: r

/-- An island whose B lies in its rings as a whole begins to load it; a coded B that is malformed or does not match
KDIM × NCOLS ends the command (R128, R129). -/
def State.beginLoad (s : State) (id : Nat) : State :=
  match s.cmd? id, s.cmdRegion id with
  | some c, some rg =>
    (match c.instr, c.st with
     | .mxmm .., .running =>
       if c.begun || c.loading || !s.atWork id c || c.endStep || c.cause != .none then s
       else (match s.bBlocks rg c.mx with
         | .ok n => s.modCmd id fun c => { c with loading := true, left := (n + c.mx.b.2 - 1) / c.mx.b.2 - 1 }
         | .bad => s.fail id .codeerr
         | .wait => s)
     | _, _ => s)
  | _, _ => s

/-- ISLAND_B_LOAD_DONE (R127 to R129): in the last cycle of the load, B leaves its rings as a whole. -/
def execIslandBLoadDone (id : Nat) (s : State) : Host.Outcome State Fault Refusal :=
  match s.cmd? id, s.cmdRegion id with
  | some c, some rg =>
    if c.st ≠ .running ∨ !s.atWork id c ∨ c.begun ∨ !c.loading ∨ c.left ≠ 0 ∨ c.cause ≠ .none then .next s
    else
      let m := c.mx
      (match s.bBlocks rg m with
       | .ok n =>
         let blocks := s.groupRead rg m.b.1 m.b.2 0 n
         let s := s.groupPop rg m.b.1 m.b.2 0 n
         .next (s.modCmd id fun c => { c with
           begun := true, loading := false, acc := blocks.flatMap (·.1), tint := blocks.any (·.2) })
       | _ => .next s)
  | _, _ => .next s

/-- Scales the command takes from the side band: SCALEA, SCALEB, then one for each coded block (R194). -/
def Cmd.scalesNeeded (c : Cmd) : Nat :=
  let m := c.mx
  if m.fmt = 4 then 0
  else 2 + (if m.coded then (match codedList maxBlocks c.acc with | some l => l.length | none => 0) else 0)

/-- The rows of 32 bytes that a tile moves through each bank that it uses (R129). -/
def State.bankRows (s : State) (rg : Nat) (m : Mx) (nr : Nat) : List (Nat × Nat) :=
  let cnt (f w n : Nat) : List (Nat × Nat) := (List.range w).filterMap fun i =>
    match s.ring? rg (f + i) with | some g => some (g.bank, (n + w - 1 - i) / w) | none => none
  let all := cnt m.a.1 m.a.2 (nr * m.rbA / 32) ++ cnt m.c.1 m.c.2 (nr * m.rbC / 32) ++
    (match m.cin with | some x => cnt x.1 x.2 (nr * m.rbI / 32) | none => [])
  ((List.range 16).filter fun b => all.any fun x => x.1 == b).map fun b =>
    (b, (all.filter fun x => x.1 == b).foldl (fun t x => t + x.2) 0)
/-- The bound of R129 for a tile: 32 cycles, or the largest number of 32-byte rows through one bank. -/
def State.tileCycles (s : State) (rg : Nat) (m : Mx) (nr : Nat) : Nat := (s.bankRows rg m nr).foldl (fun n b => max n b.2) 32

/-- An MXMM still needs scales of the side band. -/
def State.scalesDue (s : State) (rg : Nat) (c : Cmd) : Bool := s.sideBand rg && decide (c.scales.length < c.scalesNeeded)

/-- Its next tile can begin (R268) once the island's power pool gives a token: B has been taken, A and CIN of the tile are
in their rings, and C has space for all of it. -/
def State.tileReady (s : State) (id : Nat) (c : Cmd) (rg : Nat) : Bool :=
  let m := c.mx
  let nr := c.rows c.tile
  let first (rb : Nat) : Nat := c.tile * 64 * rb / 32
  s.atWork id c && c.begun && !c.busy && c.cause == .none && !c.endStep && decide (c.tile < c.count) &&
    s.groupHolds rg m.a.1 m.a.2 (first m.rbA) (nr * m.rbA / 32) && s.groupRoom rg m.c.1 m.c.2 (first m.rbC) (nr * m.rbC / 32) &&
    (match m.cin with | some x => s.groupHolds rg x.1 x.2 (first m.rbI) (nr * m.rbI / 32) | none => true)

/-- The scales at the island's port are taken in their order (R194, R195), as long as one is needed and there. -/
def State.takeScales (id rg : Nat) : Nat → State → State
  | 0, s => s
  | n + 1, s =>
    match s.cmd? id with
    | none => s
    | some c =>
      if !s.scalesDue rg c then s
      else match s.takeScale id rg false (fld (c.lane 0) 0 12) with
        | .wait => s
        | .fault n q => s.abortScale rg (unitField false (fld (c.lane 0) 0 12)) n q
        | .got x s => State.takeScales id rg n (s.modCmd id fun c => { c with scales := c.scales ++ [x] })

/-- ISLAND_TILE_BEGIN (R195, R268, R345): in side-band mode the scales that have come are taken; the tile begins once it has
them, A, CIN, the space for C and a power token. -/
def execIslandTileBegin (id : Nat) (s : State) : Host.Outcome State Fault Refusal :=
  match s.cmd? id, s.cmdRegion id with
  | some c, some rg =>
    if c.st ≠ .running ∨ !s.atWork id c ∨ !c.begun ∨ c.busy ∨ c.cause ≠ .none ∨ c.endStep ∨ c.count ≤ c.tile then .next s
    else
      let s := State.takeScales id rg (c.scalesNeeded + 1) s
      match s.cmd? id with
      | none => .next s
      | some c =>
        match s.tileReady id c rg && !s.scalesDue rg c, s.unitKey id c with
        | true, some u =>
          if (s.island (u % 2 ^ 20)).pool = 0 then .next s
          else
            let s := s.modIsland (u % 2 ^ 20) fun i => { i with pool := i.pool - 1 }
            let n := s.tileCycles rg c.mx (c.rows c.tile)
            .next (s.modCmd id fun c => { c with
              busy := true, left := n - 1, spare := (s.bankRows rg c.mx (c.rows c.tile)).map fun b => (b.1, n - b.2) })
        | _, _ => .next s
  | _, _ => .next s

/-- An operand element at byte offset o. -/
def mxVal (fmt : Nat) (bs : List Byte) (o : Nat) : FVal :=
  match fmt with
  | 0 => FBF.read false (natAt bs o 2)
  | 1 => F16.read false (natAt bs o 2)
  | 2 => FE4.read false (natAt bs o 1)
  | _ => FE5.read false (natAt bs o 1)

/-- One accumulation: a chunk of exact products joins the accumulator with one rounding (R127). -/
def mxChunk (acc : FVal) (ps : List (FVal × FVal)) : FVal × Bool × Bool :=
  let (sum, bad) := ps.foldl (fun (x : FVal × Bool) p =>
    let (q, b1) := mulX p.1 p.2
    let (t, b2) := addX .rn x.1 q
    (t, x.2 || b1 || b2)) (FVal.zero, false)
  let (t, b3) := addX .rn acc sum
  let (y, fl) := F32.round .rn false t
  (if t.isZero then .zero else y, bad || b3, fl &&& fOF != 0)

def chunksOf : Nat → List (FVal × FVal) → List (List (FVal × FVal))
  | 0, _ => []
  | k + 1, l => if l.isEmpty then [] else l.take 4 :: chunksOf k (l.drop 4)

/-- One element of C in floating point: its FP32 value, NV, OF. -/
def mxDot (cin : FVal) (ps : List (FVal × FVal)) : FVal × Bool × Bool :=
  (chunksOf (ps.length + 1) ps).foldl (fun (x : FVal × Bool × Bool) ch =>
    let (y, nv, ovf) := mxChunk x.1 ch
    (y, x.2.1 || nv, x.2.2 || ovf)) (cin, false, false)

/-- B as values by row and column, SCALEB applied. -/
def Cmd.bVals (c : Cmd) : List FVal :=
  let m := c.mx
  let sb := match c.scales[1]? with | some x => x.toNat | none => fld (c.lane 5) 24 8
  if m.coded then
    (match codedList maxBlocks c.acc with
     | some l => (l.zipIdx.flatMap fun b =>
         let sc := match c.scales[2 + b.2]? with | some x => x.toNat | none => hdrScale b.1.1
         b.1.2.map fun e => scaled (scaled ((hdrFmt b.1.1).read false e) sc) sb)
     | none => [])
  else (List.range m.k).flatMap fun r => (List.range m.n).map fun n => scaled (mxVal m.fmt c.acc (r * m.rbB + n * m.esz)) sb

/-- Row i of C: its bytes, NV, OF. -/
def Cmd.mxRow (c : Cmd) (m : Mx) (bv : List FVal) (arow irow : List Byte) : List Byte × Bool × Bool :=
  let r : List Byte × Bool × Bool :=
    if m.fmt = 4 then
      ((List.range m.n).flatMap fun n =>
        let a0 : W := match m.cin with | some _ => BitVec.ofNat 32 (natAt irow (4 * n) 4) | none => 0
        let v := (List.range m.k).foldl (fun (acc : W) k =>
          acc + BitVec.ofInt 32 ((BitVec.ofNat 8 (natAt arow k 1)).toInt *
            (BitVec.ofNat 8 (natAt c.acc (k * m.rbB + n) 1)).toInt)) a0
        leBytes 4 v.toNat, false, false)
    else
      let sa := match c.scales[0]? with | some x => x.toNat | none => fld (c.lane 5) 16 8
      let av := (List.range m.k).map fun k => scaled (mxVal m.fmt arow (k * m.esz)) sa
      (List.range m.n).foldl (fun (x : List Byte × Bool × Bool) n =>
        let cin : FVal := match m.cin with | some _ => F32.read false (natAt irow (4 * n) 4) | none => .zero
        let col := (List.range m.k).map fun k => bv.getD (k * m.n + n) .zero
        let (y, nv, ovf) := mxDot cin (av.zip col)
        let (bs, o2) : List Byte × Bool := if m.outbf then
            let (z, fl) := FBF.round .rn false y
            (leBytes 2 (FBF.bits z), !y.isInf && fl &&& fOF != 0)
          else (leBytes 4 (F32.bits y), false)
        (x.1 ++ bs, x.2.1 || nv, x.2.2 || ovf || o2)) ([], false, false)
  (r.1 ++ List.replicate (m.rbC - r.1.length) 0, r.2)

/-- ISLAND_TILE_END (R127, R268): C of the tile is written, its ring advances, and A and CIN are popped. -/
def execIslandTileEnd (id : Nat) (s : State) : Host.Outcome State Fault Refusal :=
  match s.cmd? id, s.cmdRegion id with
  | some c, some rg =>
    if c.st ≠ .running ∨ !c.busy ∨ c.left ≠ 0 then .next s
    else match c.instr with
      | .mxmm .. =>
        let m := c.mx
        let nr := c.rows c.tile
        let jA := c.tile * 64 * m.rbA / 32
        let jI := c.tile * 64 * m.rbI / 32
        let jC := c.tile * 64 * m.rbC / 32
        let ab := s.groupRead rg m.a.1 m.a.2 jA (nr * m.rbA / 32)
        let ib := match m.cin with | some x => s.groupRead rg x.1 x.2 jI (nr * m.rbI / 32) | none => []
        let bv := if m.fmt = 4 then [] else c.bVals
        let rowOf (l : List (List Byte × Bool)) (rb i : Nat) := (l.drop (i * rb / 32)).take (rb / 32)
        let (out, nv, ovf) := (List.range nr).foldl (fun (x : List (List Byte × Bool) × Bool × Bool) i =>
          let ar := rowOf ab m.rbA i
          let ir := rowOf ib m.rbI i
          let (bs, nv, ovf) := c.mxRow m bv (ar.flatMap (·.1)) (ir.flatMap (·.1))
          let pz := c.tint || ar.any (·.2) || ir.any (·.2)
          (x.1 ++ (List.range (m.rbC / 32)).map (fun j => (bytesAt bs (32 * j) 32, pz)), x.2.1 || nv, x.2.2 || ovf))
          ([], false, false)
        let s := s.groupPush rg m.c.1 m.c.2 jC out
        let s := s.groupPop rg m.a.1 m.a.2 jA (nr * m.rbA / 32)
        let s := match m.cin with | some x => s.groupPop rg x.1 x.2 jI (nr * m.rbI / 32) | none => s
        .next (((s.modCmd id fun c => { c with
          busy := false, spare := [], tile := c.tile + 1, progress := c.progress + 1, nv := c.nv || nv, ovf := c.ovf || ovf }).stir
          (some rg)).endNow id)
      | _ => .next s
  | _, _ => .next s

/-! ## Ring units and spill rings (R119, R120) -/

/-- A RINGA can apply: the bytes, or the space, are there. -/
def State.ringaReady (s : State) (rg : Nat) (c : Cmd) (tail : Bool) : Bool :=
  match s.ring? rg (fld (c.lane 0) 0 16) with
  | some g => if tail then decide (g.occ + c.lane 1 ≤ g.size) else decide (c.lane 1 ≤ g.occ)
  | none => false

/-- RINGA_APPLY (R119). -/
def execRingaApply (id : Nat) (s : State) : Host.Outcome State Fault Refusal :=
  match s.cmd? id, s.cmdRegion id with
  | some c, some rg =>
    (match c.instr with
     | .ringa _ _ _ tail =>
       if c.st ≠ .running ∨ c.left ≠ 0 ∨ c.out ≠ 0 ∨ c.cause ≠ .none ∨ !s.ringaReady rg c tail then .next s
       else
         let i := fld (c.lane 0) 0 16
         let s := s.modRing rg i fun g => if tail then g.push (c.lane 1) else g.pop (c.lane 1)
         .next ((s.modCmd id fun c => { c with out := 1 }).endNow id)
     | _ => .next s)
  | _, _ => .next s

/-- The spill ring of an input is empty, or it has none. -/
def State.spillEmpty (s : State) (p : Nat) : Bool :=
  match (s.port p).ring with
  | some (rg, i) => (match s.ring? rg i with | some g => g.occ == 0 | none => true)
  | none => true

/-- SPILL_RING_CHANGE (R120). -/
def execSpillRingChange (id : Nat) (s : State) : Host.Outcome State Fault Refusal :=
  match s.cmd? id, s.cmdRegion id with
  | some c, some rg =>
    (match c.instr with
     | .spill _ _ _ ch =>
       let p := portKey (id / 8) (vcOf c.plane) ch.val
       if c.st ≠ .running ∨ c.left ≠ 0 ∨ c.out ≠ 0 ∨ c.cause ≠ .none ∨ !s.spillEmpty p then .next s
       else
         let n := fld (c.lane 0) 0 16
         let s := match (s.port p).ring with
           | some (r, i) => s.modRing r i fun g => { g with spill := none }
           | none => s
         let s := if n = 0xFFFF then s.modPort p fun x => { x with ring := none }
           else (s.modRing rg n fun g => { g with spill := some p }).modPort p fun x => { x with ring := some (rg, n) }
         .next ((s.modCmd id fun c => { c with out := 1 }).endNow id)
     | _ => .next s)
  | _, _ => .next s

end Sys2Proof.Machine
end

