-- ==== Sys2Proof/Machine/Image.lean ====
section
/-! DEFINITION. Configuration images and tile maps (R25 to R43, R76, R77, R95, R160, R328): fetching them through
translation, and the validation, whose first error in image order is the fault of a load. -/
namespace Sys2Proof.Machine

/-! ## Fetching (R41) -/

/-- Bytes at a virtual address, read page by page through the TLB slices for one kind of access; nothing when a page
refuses. -/
def State.readVirt (s : State) (die asid va : Nat) (a : Access) : Nat → Nat → Option (List Byte × State)
  | 0, _ => some ([], s)
  | fuel + 1, n =>
    if n = 0 then some ([], s)
    else
      let m := min n (65536 - va % 65536)
      match s.slicePass die asid va a with
      | .inl _ => none
      | .inr (lf, s) =>
        match s.readVirt die asid (va + m) a fuel (n - m) with
        | some (bs, s') => some (s.mem.read (lf.pa va) m ++ bs, s')
        | none => none

/-- A page of a run of virtual addresses is moving, so that an access to it waits (R71). -/
def State.runInTransit (s : State) (die asid va n : Nat) : Bool :=
  (List.range ((va % 65536 + n + 65535) / 65536)).any fun i => s.inTransit die asid (va + 65536 * i)

/-- FETCH accesses of the shunter. -/
def State.fetchVirt (s : State) (die asid va n : Nat) : Option (List Byte × State) :=
  s.readVirt die asid va .fetch (n / 65536 + 2) n

/-! ## Faults of a load (R42, R43) -/

/-- A configuration-fetch fault: reason, plane and slot byte of R284, element column and row. -/
structure LoadFault where
  reason : Reason
  slot   : Nat
  col    : Nat
  row    : Nat
  deriving DecidableEq, Repr

def faultAt (c : Bool) (r : Reason) (slot col row : Nat) : Option LoadFault :=
  if c then some ⟨r, slot, col, row⟩ else none

/-- Of several breaches of one record, the one of lowest code. -/
def lowFault (l : List (Option LoadFault)) : Option LoadFault :=
  (l.filterMap id).foldl (fun m x => match m with
    | some y => if x.reason.code < y.reason.code then some x else some y
    | none => some x) none

def firstFault {α : Type} (f : α → Option LoadFault) (l : List α) : Option LoadFault := l.findSome? f

/-- The remaining members, each with those before it. -/
def withBefore {α : Type} : List α → List α → List (List α × α)
  | _, [] => []
  | seen, x :: xs => (seen, x) :: withBefore (seen ++ [x]) xs

/-! ## The header (R37) -/

def imgWidth (b : List Byte) : Nat := natAt b 8 1
def imgHeight (b : List Byte) : Nat := natAt b 9 1
def imgLength (b : List Byte) : Nat := natAt b 12 4

/-- Record sizes of the ten sections; element records have sizes of their own. -/
def recSize : Nat → Nat
  | 0 => 0 | 1 => 16 | 2 => 4 | 3 => 8 | 4 => 16 | 5 => 8 | 6 => 8 | 7 => 16 | 8 => 1 | _ => 32

def secOff (b : List Byte) (i : Nat) : Nat := (sectionAt b i).1
def secCount (b : List Byte) (i : Nat) : Nat := (sectionAt b i).2
/-- The offsets of the records of a section other than the first. -/
def records (b : List Byte) (i : Nat) : List Nat := (List.range (secCount b i)).map fun k => secOff b i + k * recSize i

/-- Errors of the first 96 bytes. See log entry 22 (DEDUCED). -/
def headerFault (b : List Byte) : Option LoadFault :=
  let bad := natAt b 0 4 != 0x51504349 || natAt b 4 2 != 1 || natAt b 6 2 != 0 || natAt b 10 2 != 0 ||
    decide (imgLength b < 96) ||
    (List.range 10).any fun i => secOff b i % 8 != 0 || decide (imgLength b < secOff b i + secCount b i * recSize i)
  let size := decide (imgWidth b < 1 ∨ 16 < imgWidth b ∨ imgHeight b < 1 ∨ 16 < imgHeight b)
  match faultAt bad .image 0xF 0 0 with
  | some f => some f
  | none => faultAt size .shape 0xF 0 0

/-! ## Element records (R38) -/

/-- The offsets of the element records, up to the first that leaves the image. -/
def elemOffs (b : List Byte) : Nat → Nat → List Nat
  | 0, _ => []
  | n + 1, off =>
    let size := if (natAt b (off + 2) 1).testBit 1 then 544 else 408
    if imgLength b < off + size then [] else off :: elemOffs b n (off + size)

def elemRecs (b : List Byte) : List Nat := elemOffs b (secCount b 0) (secOff b 0)
/-- Every element record lies inside the image. -/
def elemsInside (b : List Byte) : Bool := (elemRecs b).length == secCount b 0

def eCol (b : List Byte) (o : Nat) : Nat := natAt b o 1
def eRow (b : List Byte) (o : Nat) : Nat := natAt b (o + 1) 1
def eHasS (b : List Byte) (o : Nat) : Bool := (natAt b (o + 2) 1).testBit 1
def eReply (b : List Byte) (o n : Nat) : Nat := natAt b (o + 0x90 + 4 * n) 4
def replyOn (w : Nat) : Bool := w.testBit 31
def posIn (b : List Byte) (c r : Nat) : Bool := decide (c < 8 * imgWidth b ∧ r < 4 * imgHeight b)
/-- An element record at a position. -/
def recAt (b : List Byte) (c r : Nat) : Option Nat := (elemRecs b).find? fun o => eCol b o == c && eRow b o == r

/-- A plane of an element record. -/
def planeAt (b : List Byte) (off : Nat) : PlaneMem :=
  let h := natAt b off 8
  let w (n : Nat) : BitVec 64 := BitVec.ofNat 64 (natAt b (off + 8 + 8 * n) 8)
  { order := BitVec.ofNat 2 (fld h 16 2), valid := BitVec.ofNat 16 (fld h 0 16)
    slots := ⟨Oct.of w, Oct.of fun n => w (8 + n)⟩ }

/-- Some valid reply entry of the image names an input (R95). -/
def replyFeeds (b : List Byte) (c r ch : Nat) : Bool :=
  (elemRecs b).any fun o => (List.range 32).any fun n =>
    let w := eReply b o n
    replyOn w && fld w 10 7 == c && fld w 4 6 == r && fld w 0 3 == ch

/-! ## Channel records (R40) -/

/-- A channel record: its fields. The gateway records of a gang have the same layout (R278). -/
structure ChanRec where
  pc : Nat
  pr : Nat
  out : Nat
  cc : Nat
  cr : Nat
  inp : Nat
  flags : Nat
  stamping : Nat
  accept : Nat
  divout : Nat
  ring : Nat
  pm : Nat          -- members, in a gateway record
  cm : Nat
  rest : Nat
  deriving DecidableEq, Repr

def chanRec (b : List Byte) (o : Nat) : ChanRec :=
  let p := natAt b o 2
  let c := natAt b (o + 2) 2
  ⟨fld p 9 7, fld p 3 6, fld p 0 3, fld c 9 7, fld c 3 6, fld c 0 3, natAt b (o + 4) 1, natAt b (o + 5) 1,
    natAt b (o + 6) 1, natAt b (o + 7) 1, natAt b (o + 8) 2, natAt b (o + 10) 1, natAt b (o + 11) 1, natAt b (o + 12) 4⟩

def ChanRec.back (x : ChanRec) : Bool := x.flags.testBit 0
def ChanRec.spill (x : ChanRec) : Bool := x.flags.testBit 1
def ChanRec.stamp (x : ChanRec) : Bool := x.flags.testBit 2
def ChanRec.divert (x : ChanRec) : Bool := x.flags.testBit 3
def ChanRec.vc (x : ChanRec) : Nat := fld x.flags 4 1
def ChanRec.imps (x : ChanRec) : Nat := fld x.stamping 4 3
def ChanRec.stamps (x : ChanRec) : Nat := fld x.stamping 0 3

def chanRecs (b : List Byte) : List ChanRec := (records b 1).map (chanRec b)

/-- The fields of one record are well formed. -/
def ChanRec.fieldsOk (x : ChanRec) : Bool :=
  decide (x.out < 6 ∧ x.inp < 6) && fld x.flags 5 3 == 0 && fld x.stamping 3 1 == 0 && fld x.stamping 7 1 == 0 &&
  (x.stamp || x.stamping == 0) && x.accept != 0 && fld x.divout 3 5 == 0 &&
  (if x.divert then decide (x.divout < 6) else x.divout == 7) && (x.spill || x.ring == 0xFFFF) && x.rest == 0

/-- An output or input has a channel record on a virtual channel. -/
def hasOut (cs : List ChanRec) (vc c r o : Nat) : Bool := cs.any fun x => x.vc == vc && x.pc == c && x.pr == r && x.out == o
def hasIn (cs : List ChanRec) (vc c r i : Nat) : Bool := cs.any fun x => x.vc == vc && x.cc == c && x.cr == r && x.inp == i

/-- Errors of one channel record, the earlier ones given: LINK, or NOCHAN for a divert output without a record.
See log entry 21 (DEDUCED). The fault names the consumer's position: see log entry 95 (DESIGN CHOICE). -/
def chanFault (b : List Byte) (cs before : List ChanRec) (x : ChanRec) : Option LoadFault :=
  let ends := match recAt b x.pc x.pr, recAt b x.cc x.cr with
    | some p, some c => x.vc == 0 || (eHasS b p && eHasS b c)
    | _, _ => false
  let ringOk := !x.spill || x.ring == 0xFFFF ||
    (match (records b 4)[x.ring]? with
     | some o => natAt b o 1 == x.cr / 4 && natAt b (o + 1) 1 == x.cc / 8 && natAt b (o + 8) 4 % 64 == 0
     | none => false)
  let alone := !(before.any fun y => y.vc == x.vc && y.cc == x.cc && y.cr == x.cr && y.inp == x.inp)
  let few := decide ((before.filter fun y => y.vc == x.vc && y.pc == x.pc && y.pr == x.pr && y.out == x.out).length < 4)
  let oneImport := !x.stamp || !(before.any fun y => y.stamp && y.cc == x.cc && y.cr == x.cr && y.imps == x.imps)
  let ok := x.fieldsOk && x.pm == 0 && x.cm == 0 && ends && ringOk && alone && few && oneImport &&
    !replyFeeds b x.cc x.cr x.inp
  lowFault [faultAt (!ok) .link 0xF x.cc x.cr,
    faultAt (x.divert && decide (x.divout < 6) && !hasOut cs x.vc x.cc x.cr x.divout) .noChan 0xF x.cc x.cr]

/-- The gateway records of a member as channel records of its image's validation (R278); an end in another member feeds
nothing here, and takes no import. -/
def gatesFor (m : Nat) (gates : List ChanRec) : List ChanRec :=
  gates.flatMap fun g =>
    (if g.pm = m then [{ g with cc := 127, cr := 63, inp := 7, flags := g.flags &&& 0xFB }] else []) ++
    (if g.cm = m then [{ g with pc := 127, pr := 63, out := 7 }] else [])

/-- Errors of one gateway record of a gang, as member m of `last` + 1 members sees them at its own end; `before` are the
records before it in the list (R40, R43, R278). See log entry 21 (DEDUCED). -/
def gateFault (b : List Byte) (cs : List ChanRec) (m last : Nat) (before : List ChanRec) (x : ChanRec) : Option LoadFault :=
  let recOk (c r : Nat) : Bool := match recAt b c r with | some e => x.vc == 0 || eHasS b e | none => false
  let producerOk := decide (x.pm ≠ m) || (recOk x.pc x.pr &&
    decide ((before.filter fun y => y.pm == m && y.vc == x.vc && y.pc == x.pc && y.pr == x.pr && y.out == x.out).length < 4))
  let ringOk := !x.spill || x.ring == 0xFFFF ||
    (match (records b 4)[x.ring]? with
     | some o => natAt b o 1 == x.cr / 4 && natAt b (o + 1) 1 == x.cc / 8 && natAt b (o + 8) 4 % 64 == 0
     | none => false)
  let consumerOk := decide (x.cm ≠ m) || (recOk x.cc x.cr && ringOk && !replyFeeds b x.cc x.cr x.inp &&
    !(before.any fun y => y.cm == m && y.cc == x.cc && y.cr == x.cr &&
      ((y.vc == x.vc && y.inp == x.inp) || (x.stamp && y.stamp && y.imps == x.imps))))
  let (col, row) := if x.cm = m then (x.cc, x.cr) else if x.pm = m then (x.pc, x.pr) else (0, 0)
  let ok := x.fieldsOk && decide (x.pm ≤ last ∧ x.cm ≤ last) && producerOk && consumerOk
  lowFault [faultAt (!ok) .link 0xF col row,
    faultAt (decide (x.cm = m) && x.divert && decide (x.divout < 6) && !hasOut cs x.vc x.cc x.cr x.divout) .noChan 0xF col row]

/-! ## Slots (R43) -/

/-- The reply entries a slot names (R94, R99, R102). -/
def repliesNamed (i : Instr) : List Nat :=
  match encode i with
  | some w =>
    let n := w.toNat
    let c := fld n 28 4
    let o := fld n 24 8
    if o = 0xA0 ∨ o = 0xA1 ∨ o = 0xA4 ∨ o = 0xA6 ∨ o = 0xA7 then [fld n 3 5]
    else if c = 0xB then (if fld n 0 3 = 7 then [] else [fld n 0 3])
    else if c = 0xC ∧ (o < 0xC7 ∨ 0xCC ≤ o) then (if fld n 3 5 = 0 then [] else [fld n 3 5])
    else []
  | none => []

/-- The input channel that SPILL names in Q (R102, R120), whatever else is wrong with its word. -/
def spillInput (w : BitVec 64) : Option Nat :=
  let n := (slotOp w).toNat
  if fld n 24 8 = 0xC9 ∧ fld n 3 5 < 6 then some (fld n 3 5) else none

/-- Inputs and outputs a slot names (R31, R43, R120); STEER's second output raises no NOCHAN. -/
def slotChansOk (b : List Byte) (cs : List ChanRec) (vc c r : Nat) (t : Trig) (spill : Option Nat) : Bool :=
  let inOk (ch : Nat) : Bool := hasIn cs vc c r ch || replyFeeds b c r ch
  ((t.a.toList ++ t.b.toList).all fun h => h.ch == 6 || inOk h.ch) &&
  (match t.outq with | some o => hasOut cs vc c r o | none => true) && spill.toList.all inOk

/-- Errors of one valid slot: of several the one of the lowest reason (R43). -/
def slotFault (b : List Byte) (cs : List ChanRec) (o : Nat) (pl : Plane) (n : Nat) (w : BitVec 64) : Option LoadFault :=
  let c := eCol b o
  let r := eRow b o
  let t := Trig.ofWord (slotTrig w)
  let vc := match pl with | .work => 0 | .s => 1
  let slot := (match pl with | .work => 0 | .s => 16) + n
  lowFault [
    (match decodeSlot pl w with
     | .bad x => faultAt true x slot c r
     | .ok i => faultAt ((repliesNamed i).any fun k => !replyOn (eReply b o k)) .reply slot c r),
    faultAt (match pl with | .s => t.names 6 | .work => false) .chanName slot c r,
    faultAt (!slotChansOk b cs vc c r t (spillInput w)) .noChan slot c r]

/-- Errors of one plane: its header, then its valid slots. -/
def planeFault (b : List Byte) (cs : List ChanRec) (o : Nat) (pl : Plane) (off : Nat) : Option LoadFault :=
  let p := planeAt b off
  let hdr := (match pl with | .work => 0 | .s => 16) + 0xF
  match faultAt (natAt b off 8 / 2 ^ 18 != 0) .rsvField hdr (eCol b o) (eRow b o) with
  | some f => some f
  | none => firstFault (fun n =>
      if p.valid.getLsbD n then slotFault b cs o pl n (p.slots.get n) else none) (List.range 16)

/-- Errors of one element record and its planes. Of a reply entry with VALID 0 only the reserved bits are checked, not CH
and not its receiver position: log entry 83 (DESIGN CHOICE). See log entry 22 (DEDUCED). -/
def elemFault (b : List Byte) (cs : List ChanRec) (before : List Nat) (o : Nat) : Option LoadFault :=
  let c := eCol b o
  let r := eRow b o
  let planes := natAt b (o + 2) 1
  let reps := (List.range 32).map (eReply b o)
  let here := lowFault [
    faultAt (!posIn b c r || reps.any fun w => replyOn w && !posIn b (fld w 10 7) (fld w 4 6)) .shape 0xF c r,
    faultAt (planes % 2 == 0 || planes / 4 != 0 || natAt b (o + 3) 1 != 0 || natAt b (o + 12) 4 != 0 ||
      (before.any fun q => eCol b q == c && eRow b q == r) ||
      (reps.any fun w => fld w 17 14 != 0 || fld w 3 1 != 0 ||
        (replyOn w && (decide (6 ≤ fld w 0 3) || (recAt b (fld w 10 7) (fld w 4 6)).isNone)))) .table 0xF c r]
  match here with
  | some f => some f
  | none =>
    match planeFault b cs o .work (o + 0x110) with
    | some f => some f
    | none => if eHasS b o then planeFault b cs o .s (o + 0x198) else none

/-! ## The other sections -/

def routeFault (b : List Byte) (before : List Nat) (o : Nat) : Option LoadFault :=
  let w := natAt b o 4
  lowFault [
    faultAt (!posIn b (fld w 10 7) (fld w 4 6)) .shape 0xF 0 0,
    faultAt (!w.testBit 31 || fld w 17 7 != 0 || fld w 2 2 != 0 || (recAt b (fld w 10 7) (fld w 4 6)).isNone ||
      before.any fun q => fld (natAt b q 4) 24 7 == fld w 24 7) .table 0xF 0 0]

def joinFault (b : List Byte) (before : List Nat) (o : Nat) : Option LoadFault :=
  faultAt (natAt b o 4 / 512 != 0 || before.any fun q => natAt b q 4 == natAt b o 4) .table 0xF 0 0

/-- A ring record as ring bytes: tile row and column, bank, base, size. -/
def ringBytes (b : List Byte) (o : Nat) : Nat × Nat × Nat × Nat × Nat :=
  (natAt b o 1, natAt b (o + 1) 1, natAt b (o + 2) 1, natAt b (o + 4) 4, natAt b (o + 8) 4)

def runsMeet (x y : Nat × Nat × Nat × Nat × Nat) : Bool :=
  x.1 == y.1 && x.2.1 == y.2.1 && x.2.2.1 == y.2.2.1 &&
    decide (x.2.2.2.1 < y.2.2.2.1 + y.2.2.2.2 ∧ y.2.2.2.1 < x.2.2.2.1 + x.2.2.2.2)

def ringFault (b : List Byte) (before : List Nat) (o : Nat) : Option LoadFault :=
  let x := ringBytes b o
  lowFault [
    faultAt (decide (imgHeight b ≤ x.1 ∨ imgWidth b ≤ x.2.1)) .shape 0xF 0 0,
    faultAt (decide (16 ≤ x.2.2.1) || natAt b (o + 3) 1 != 0 || natAt b (o + 12) 4 != 0 || x.2.2.2.1 % 32 != 0 ||
      x.2.2.2.2 % 32 != 0 || decide (x.2.2.2.2 < 32) || decide (65536 < x.2.2.2.1 + x.2.2.2.2) ||
      before.any fun q => runsMeet (ringBytes b q) x) .table 0xF 0 0]

def relocFault (b : List Byte) (o : Nat) : Option LoadFault :=
  let t := natAt b o 4
  let k := natAt b (o + 4) 1
  faultAt (decide (imgLength b < t + 4) || decide (2 < k) || natAt b (o + 5) 3 != 0 ||
    (k == 2 && !((elemRecs b).any fun e => decide (e + 0x10 ≤ t ∧ t + 4 ≤ e + 0x90)))) .table 0xF 0 0

def nodeFault (b : List Byte) (before : List Nat) (o : Nat) : Option LoadFault :=
  faultAt (decide (secCount b 0 ≤ natAt b o 2) || decide (32 ≤ natAt b (o + 2) 1) ||
    before.any fun q => natAt b q 3 == natAt b o 3) .table 0xF 0 0

/-- Data segments (R37): one with any of FE, RND, PIN, I or a KIND begins on a page, and one of KIND 1 needs a fixed
placement (R276). A segment that leaves the data area, or meets another, is accepted: see log entry 94 (DESIGN CHOICE). -/
def segFault (b : List Byte) (fixed : Bool) (o : Nat) : Option LoadFault :=
  let attr := natAt b (o + 12) 2
  faultAt (natAt b (o + 14) 2 != 0 || decide (128 ≤ attr) || fld attr 4 2 == 3 ||
    decide (imgLength b < natAt b (o + 8) 4 + natAt b (o + 4) 4) || (fld attr 4 2 == 1 && !fixed) ||
    (fld attr 1 6 != 0 && natAt b o 4 % 65536 != 0)) .table 0xF 0 0

/-! ## The tile map (R76, R77, R86) -/

def mapTile (m : List Byte) (t : Nat) : List Byte := bytesAt m (t * 256) 256
def bankWord (m : List Byte) (n : Nat) : Nat := natAt m (8 * n) 8
def areaOf (m : List Byte) (i : Nat) : Nat × Nat := (natAt m (0x80 + 8 * i) 4, natAt m (0x84 + 8 * i) 4)
/-- Data-area range of a fabric cache bank. -/
def bankRange (w : Nat) : Nat × Nat := (fld w 16 15 * 65536, 2 ^ fld w 32 5)

def bankOk (w : Nat) : Bool :=
  fld w 62 2 != 3 && fld w 37 23 == 0 && fld w 31 1 == 0 && fld w 0 16 == 0 &&
  (if fld w 62 2 = 2 then
    decide (16 ≤ fld w 32 5) && (bankRange w).1 % (bankRange w).2 == 0 && decide ((bankRange w).1 + (bankRange w).2 ≤ 2 ^ 31)
   else fld w 32 5 == 0 && fld w 16 15 == 0)

/-- A reserved area: absent, or inside one scratchpad bank. -/
def areaOk (m : List Byte) (a : Nat × Nat) : Bool :=
  a.2 == 0 || (decide (a.1 < 2 ^ 20) && a.2 % 64 == 0 && decide (a.1 % 65536 + a.2 ≤ 65536) &&
    fld (bankWord m (a.1 / 65536)) 62 2 == 1)

def areaMeets (a c : Nat × Nat) : Bool := a.2 != 0 && c.2 != 0 && decide (a.1 < c.1 + c.2 ∧ c.1 < a.1 + a.2)

/-- A node entry (R86): the owner of a streaming node has a record and a valid reply entry. -/
def nodeEntryOk (b m : List Byte) (tr tc n : Nat) : Bool :=
  let o := 0xA0 + 24 * n
  let mode := natAt m o 1
  if mode = 2 then
    let owner := natAt m (o + 1) 1
    let reply := natAt m (o + 2) 1
    decide (owner < 32 ∧ reply < 32 ∧ natAt m (o + 3) 1 < 8) && natAt m (o + 14) 2 == 0 &&
    decide (1 ≤ natAt m (o + 8) 2 ∧ 1 ≤ natAt m (o + 10) 2 ∧ 1 ≤ natAt m (o + 12) 2) &&
    (match recAt b (tc * 8 + owner % 8) (tr * 4 + owner / 8) with
     | some e => replyOn (eReply b e reply)
     | none => false)
  else decide (mode < 4) && (List.range 23).all fun i => natAt m (o + 1 + i) 1 == 0

/-- The fabric cache ranges of tiles before this one, as (start, length). -/
def cacheRanges (map : List Byte) (tiles : Nat) : List (Nat × Nat) :=
  (List.range tiles).flatMap fun t => (List.range 16).filterMap fun n =>
    let w := bankWord (mapTile map t) n
    if fld w 62 2 = 2 then some (bankRange w) else none

def rangesApart : List (Nat × Nat) → Bool
  | [] => true
  | x :: xs => xs.all (fun y => decide (x.1 + x.2 ≤ y.1 ∨ y.1 + y.2 ≤ x.1)) && rangesApart xs

/-- The end of the data area: its data segments reach no further. -/
def dataEnd (b : List Byte) : Nat := (records b 7).foldl (fun n o => max n (natAt b o 4 + natAt b (o + 4) 4)) 0

/-- Errors of the tile map's record of region tile t, at element (8 × tcol, 4 × trow) (R77); the map lies inside the data
area. See log entry 22 (DEDUCED). A ring that meets a reserved area is judged here: see log entry 95 (DESIGN CHOICE). -/
def tileFault (b map : List Byte) (t : Nat) : Option LoadFault :=
  let w := imgWidth b
  let (tr, tc) := (t / w, t % w)
  let m := mapTile map t
  let areas := [areaOf m 0, areaOf m 1, areaOf m 2]
  let rings := ((records b 4).map (ringBytes b)).filter fun x => x.1 == tr && x.2.1 == tc
  let bad := !((List.range 16).all fun n => bankOk (bankWord m n)) || natAt m 0x98 8 != 0 || !(areas.all (areaOk m)) ||
    areaMeets (areaOf m 0) (areaOf m 1) || areaMeets (areaOf m 0) (areaOf m 2) || areaMeets (areaOf m 1) (areaOf m 2) ||
    (rings.any fun x => fld (bankWord m x.2.2.1) 62 2 != 1 ||
      areas.any fun a => areaMeets a (x.2.2.1 * 65536 + x.2.2.2.1, x.2.2.2.2)) ||
    !((List.range 4).all fun n => nodeEntryOk b m tr tc n) ||
    !rangesApart (cacheRanges map (t + 1)) || decide (dataEnd b < 256 * (t + 1))
  faultAt bad .table 0xF (8 * tc) (4 * tr)

/-! ## The whole image (R42) -/

/-- The first error of an image with the tile map of its data area, for a member of a gang of `last` + 1 with a gateway
list. An element record that leaves the image ends the element records that there are. See log entry 22 (DEDUCED). -/
def imageFault (b map : List Byte) (gates : List ChanRec) (member last : Nat) (fixed : Bool) : Option LoadFault :=
  let mine := gatesFor member gates
  let cs := chanRecs b ++ mine
  let sec (i : Nat) (f : List Nat → Nat → Option LoadFault) : Option LoadFault :=
    firstFault (fun x => f x.1 x.2) (withBefore [] (records b i))
  [fun _ => headerFault b,
   fun _ => firstFault (fun x => elemFault b cs x.1 x.2) (withBefore [] (elemRecs b)),
   fun _ => faultAt (!elemsInside b) .image 0xF 0 0,
   fun _ => firstFault (fun x => chanFault b cs (x.1 ++ mine) x.2) (withBefore [] (chanRecs b)),
   fun _ => firstFault (fun x => gateFault b cs member last x.1 x.2) (withBefore [] gates),
   fun _ => sec 2 (routeFault b),
   fun _ => sec 3 (joinFault b),
   fun _ => sec 4 (ringFault b),
   fun _ => sec 5 fun _ => relocFault b,
   fun _ => sec 6 (nodeFault b),
   fun _ => sec 7 fun _ => segFault b fixed,
   fun _ => firstFault (tileFault b map) (List.range (imgWidth b * imgHeight b))].findSome? fun (f : Unit → Option LoadFault) => f ()

/-! ## Placement (R37, R277) -/

def setBytes (b : List Byte) (off : Nat) (x : List Byte) : List Byte := b.take off ++ x ++ b.drop (off + x.length)

/-- Relocations of KIND 2 at a placement: counter identifiers become absolute. -/
def relocate (b : List Byte) (die trow tcol : Nat) : List Byte :=
  (records b 5).foldl (fun l o =>
    let t := natAt b o 4
    let w := natAt b t 4
    if natAt b (o + 4) 1 ≠ 2 ∨ w = 0xFFFFFFFF then l
    else
      let k := fld w 15 8
      let tile := (trow + k / imgWidth b) * 16 + tcol + k % imgWidth b
      setBytes l t (leBytes 4 (w % 2 ^ 15 + tile * 2 ^ 15 + die * 2 ^ 23 + Config.pkg * 2 ^ 26))) b

end Sys2Proof.Machine
end

