-- ==== Sys2Proof/Machine/Loading.lean ====
section
/-! DEFINITION. Placing and loading a consist (R16, R42, R85, R144, R160, R164, R276 to R281, R285): rectangles,
planes, the swap, the tables of a region, banks and start tokens. -/
namespace Sys2Proof.Machine

/-! ## CONSIST records (R273) -/

def consistOf (b : List Byte) : Consist :=
  { flags := natAt b 1 1, edges := natAt b 2 1, place := natAt b 3 1, image := natAt b 4 6, scount := natAt b 10 2
    dbase := natAt b 12 4 * 65536, arbw := BitVec.ofNat 32 (natAt b 16 4), slist := natAt b 20 4
    gang := BitVec.ofNat 32 (natAt b 24 4), gwoff := natAt b 28 4 }

def Consist.isGang (c : Consist) : Bool := c.flags.testBit 1
def Consist.fixed (c : Consist) : Bool := c.place.testBit 7
def Consist.pkg (c : Consist) : Nat := fld c.gang.toNat 26 6
def Consist.member (c : Consist) : Nat := fld c.gang.toNat 20 6
def Consist.last (c : Consist) : Nat := fld c.gang.toNat 14 6
def Consist.rlog (c : Consist) : Nat := fld c.flags 3 5
def Consist.share (c : Consist) : Nat := fld c.arbw.toNat 24 7

/-- Reserved fields of the record (RECORD when one is not 0). -/
def Consist.reservedOk (c : Consist) : Bool :=
  fld c.flags 2 1 == 0 && fld c.edges 4 4 == 0 && fld c.place 3 4 == 0
/-- The limits of the record (TABLE when one is broken); `m` is the member it has to be. -/
def Consist.limitsOk (c : Consist) (m : Option Nat) : Bool :=
  (c.rlog == 0 || decide (12 ≤ c.rlog ∧ c.rlog ≤ 24)) && c.image % 8 == 0 && decide (c.share ≤ 64) &&
  (!c.arbw.getLsbD 31 || c.share != 0) && (c.scount == 0 || c.slist % 8 == 0) &&
  (c.fixed || c.pkg == Config.pkg) &&
  (match m with
   | some k => c.fixed && c.member == k && decide (c.member ≤ c.last) && c.gwoff % 16 == 0 && (k == 0 || c.gwoff == 0)
   | none => true)

/-! ## Rectangles (R276) -/

/-- Wheel entries no region of the package owns (R144). See log entry 34 (DESIGN CHOICE). -/
def State.freeWheel (s : State) : List Nat :=
  (List.range 64).filter fun i => !(s.regions.any fun r => r.2.wheel.contains i)

/-- The entries that a placement takes of the free ones: which they are is not architected (R144).
See log entry 34 (DESIGN CHOICE). -/
def State.wheelFor (s : State) (share : Nat) : List Nat :=
  let free := s.freeWheel
  let turn := Config.wheelPhase s.nextId % max 1 free.length
  (free.drop turn ++ free.take turn).take share

def rectsMeet (r1 c1 h1 w1 r2 c2 h2 w2 : Nat) : Bool :=
  decide (r1 < r2 + h2 ∧ r2 < r1 + h1 ∧ c1 < c2 + w2 ∧ c2 < c1 + w1)

/-- Every edge that EDGES names lies on the die boundary (R273, R276). -/
def edgesMet (edges tr tc h w : Nat) : Bool :=
  (!edges.testBit 0 || tr == 0) && (!edges.testBit 1 || tc + w == 16) && (!edges.testBit 2 || tr + h == 16) &&
  (!edges.testBit 3 || tc == 0)

/-- A rectangle of usable tiles that meets the edges, free of the regions that `blocks` counts. -/
def State.rectOk (s : State) (die w h edges : Nat) (blocks : Region → Bool) (tr tc : Nat) : Bool :=
  decide (tr + h ≤ 16 ∧ tc + w ≤ 16) &&
  ((List.range (w * h)).all fun k => (s.usable.get die).getLsbD ((tr + k / w) * 16 + tc + k % w)) &&
  edgesMet edges tr tc h w && !(s.regions.any fun r => r.2.die == die && blocks r.2 && rectsMeet tr tc h w r.2.trow r.2.tcol r.2.h r.2.w)

/-- The qualifying rectangle whose north-west tile has the lowest index. -/
def State.findRect (s : State) (die w h edges : Nat) (blocks : Region → Bool) : Option (Nat × Nat) :=
  ((List.range 256).find? fun i => s.rectOk die w h edges blocks (i / 16) (i % 16)).map fun i => (i / 16, i % 16)

def isReserved (r : Region) : Bool := match r.phase with | .reserved => true | _ => false

/-- A region of a walk on a rectangle, with nothing loaded. -/
def freshRegion (wk : Nat) (x : Walk) (die tr tc w h : Nat) (c : Consist) (wheel : List Nat) (phase : Phase) (now : Nat) : Region :=
  { walk := wk, die := die, trow := tr, tcol := tc, w := w, h := h, asid := x.asid, run := x.run, cons := c
    image := none, next := none, phase := phase, rings := [], routes := [], joins := [], joinQ := [], joinIn := [], events := 0
    round := 0, cut := none, cutAsked := none, lastCut := now, snap := none, undo := [], log := [], replay := [], arms := []
    half := false, slpos := 0, slHeld := none, halted := false, voidAsked := [], voidTag := none, t0 := 0, t0At := 0, lastMove := now
    dlRaised := false, startTime := 0, gangId := none, member := c.member, peers := [], gates := [], done := x.consists
    wheel := wheel }

/-- Place a region of a walk: its tiles belong to it. -/
def State.placeRegion (s : State) (r : Region) : Nat × State :=
  let (k, s) := s.fresh
  (k, forAll (fun s t => s.modTile t fun x => { x with region := some k, started := false, passed := false })
    r.tiles (s.setRegion k r))

/-! ## Prefetch (R280 steps 1 and 2) -/

/-- The consist that is being loaded into a region, with its image. -/
def Region.coming (r : Region) : Option (Consist × ImageRec) :=
  match r.next with
  | some x => some x
  | none => (match r.phase, r.image with | .loading, some i => some (r.cons, i) | _, _ => none)

/-- The elements an image gives a record in a region, with the offsets of the records in image order. -/
def Region.members (r : Region) (img : List Byte) : List (Nat × Nat × Nat) :=
  (elemRecs img).zipIdx.filterMap fun o => (r.elemAt (eCol img o.1) (eRow img o.1)).map fun e => (e, o.1, o.2)

/-- The idle working planes take the image, and plane S is staged. -/
def State.writePlanes (s : State) (r : Region) (img : List Byte) : State :=
  forAll (fun s (m : Nat × Nat × Nat) => s.modElem m.1 fun x =>
    let p := planeAt img (m.2.1 + 0x110)
    let st := if eHasS img m.2.1 then some (planeAt img (m.2.1 + 0x198)) else none
    if x.onB then { x with planeA := p, staged := st, ready := false }
    else { x with planeB := p, staged := st, ready := false }) (r.members img) s

/-- A resident route of plane S would cross the border of the region (R160). -/
def State.residentCross (s : State) (r : Region) (img : List Byte) : Option (Nat × Nat) :=
  let inside (e : Nat) : Bool := r.tiles.contains (tileOf e)
  let renewed (e : Nat) : Bool := (r.members img).any fun m => m.1 == e && eHasS img m.2.1
  ((r.members img).find? fun m =>
    !eHasS img m.2.1 &&
      s.ports.any fun p => portVc p.1 == 1 && (match p.2.branch with
        | some b => (portElem p.1 == m.1 && !inside b.prod && !renewed b.prod) ||
            (b.prod == m.1 && !inside (portElem p.1) && !renewed (portElem p.1))
        | none => false)).map fun m => (eCol img m.2.1, eRow img m.2.1)

/-- Fetch and validate the image and tile map of a consist for a region (R41, R42, R77). -/
def State.fetchImage (s : State) (r : Region) (c : Consist) (gates : List ChanRec) : LoadFault ⊕ (ImageRec × State) :=
  let none' : LoadFault := ⟨.fetch, 0xF, 0, 0⟩
  match s.fetchVirt r.die r.asid c.image 96 with
  | none => .inl none'
  | some (hdr, s) =>
    match headerFault hdr with
    | some f => .inl f
    | none =>
      let w := imgWidth hdr
      let h := imgHeight hdr
      if w ≠ r.w ∨ h ≠ r.h then .inl ⟨.shape, 0xF, 0, 0⟩
      else match s.fetchVirt r.die r.asid c.image (imgLength hdr) with
        | none => .inl none'
        | some (img, s) =>
          match s.fetchVirt r.die r.asid c.dbase (w * h * 256) with
          | none => .inl none'
          | some (map, s) =>
            match imageFault img map gates c.member c.last c.fixed with
            | some f => .inl f
            | none =>
              match s.residentCross r img with
              | some (col, row) => .inl ⟨.link, 0xF, col, row⟩
              | none => .inr (⟨w, h, relocate img r.die r.trow r.tcol, map⟩, s)

/-! ## The swap (R164, R281) -/

/-- The streams of an element record. -/
def streamsAt (img : List Byte) (o : Nat) : Oct Stream := Oct.of fun i =>
  let b := natAt img (o + 4 + i) 1
  { Stream.reset with
    limit := fld b 0 6 + 1
    scope := match fld b 6 2 with | 0 => .tile | 1 => .die | 2 => .package | _ => .domain }

def kregsAt (img : List Byte) (o : Nat) : Quad (Oct W) :=
  let k (n : Nat) : Oct W := Oct.of fun l => BitVec.ofNat 32 (natAt img (o + 0x10 + 32 * n + 4 * l) 4)
  ⟨k 0, k 1, k 2, k 3⟩
def repliesAt (img : List Byte) (o : Nat) : Quad (Oct ReplyWord) :=
  let k (n : Nat) : Oct ReplyWord := Oct.of fun l => BitVec.ofNat 32 (eReply img o (8 * n + l))
  ⟨k 0, k 1, k 2, k 3⟩

/-- The state of an element at consist load (R164), but for its planes. -/
def Elem.init (x : Elem) (rg index o : Nat) (img : List Byte) : Elem :=
  let w := { WRegs.zero with jord := (x.plane .work).order }
  { x with
    region := some rg, index := index, wr := w, k := kregsAt img o, g := Quad.rep Counter.zero
    streams := streamsAt img o, tport := [], sendBuf := [], reply := repliesAt img o, cmds := Oct.rep none
    free := [0, 1, 2, 3, 4, 5, 6, 7], issuedOrder := [], inflight := [], estat := 0, latec := 0, timeh := none
    fires := 0, round := 0, loss := Hex.rep 0, lossS := Hex.rep 0, firings := 0, sendReady := 0, ended := false, stopped := none, trapNow := false, skipBrk := false
    lateQ := [], savedCut := none, heldMarks := [], cutStopped := false, sinceSave := 0, doneFire := false }

/-- An element swaps planes; one without a record in the new image falls idle. See log entry 15 (DEDUCED). -/
def State.swapElem (s : State) (rg : Nat) (r : Region) (img : List Byte) (e : Nat) : State :=
  match (r.members img).find? fun m => m.1 == e with
  | some m => s.modElem e fun x =>
      let x := { x with onB := !x.onB, planeS := x.staged.getD x.planeS, staged := none, ready := false }
      x.init rg m.2.2 m.2.1 img
  | none => s.modElem e fun x => { x with region := none, ended := true, ready := false, stopped := none }

/-! ## The tables of a region (R40, R84, R95, R160, R164, R255) -/

/-- An import stream of consumer c is bound to a stream of producer p, and has its scope (R255). -/
def State.bindImport (s : State) (c imp p st : Nat) : State :=
  let sc := ((s.elem p).streams.get st).scope
  s.modElem c fun y => { y with streams := y.streams.set imp { y.streams.get imp with src := some (p, st), scope := sc } }

/-- Stamped channels of plane S that stay resident with elements of a region are bound again (R160, R255). -/
def State.bindResident (s : State) (es : List Nat) : State :=
  forAll (fun s (p : Nat × Port) =>
    match p.2.branch with
    | some b => (match b.stampS with
      | some st => if portVc p.1 = 1 ∧ (es.contains (portElem p.1) ∨ es.contains b.prod) then s.bindImport (portElem p.1) b.imp b.prod st else s
      | none => s)
    | none => s) s.ports s

/-- Install one channel: the consumer's input, the producer's output, and the import stream of a stamped one. -/
def State.installChan (s : State) (x : ChanRec) (p c : Nat) (rg : Nat) (gateway : Bool) : State :=
  let key := portKey c x.vc x.inp
  let br : Branch := { prod := p, out := x.out, back := x.back, stampS := if x.stamp then some x.stamps else none
                       imp := x.imps, accept := BitVec.ofNat 8 x.accept
                       divert := if x.divert then some x.divout else none, gateway := gateway }
  let s := s.setPort key { Port.empty with
    branch := some br, ring := if x.spill ∧ x.ring ≠ 0xFFFF then some (rg, x.ring) else none }
  let ok := portKey p x.vc x.out
  let s : State := { s with outs := s.outs.put ok (s.outPorts ok ++ [key]) }
  let s := if x.spill ∧ x.ring ≠ 0xFFFF then s.modRegion rg fun r =>
      (match r.rings[x.ring]? with
       | some g => { r with rings := r.rings.set x.ring { g with spill := some key } }
       | none => r)
    else s
  if x.stamp then s.bindImport c x.imps p x.stamps else s

/-- Island addresses that a region declares, with the keys of their islands (R12, R121). -/
def Region.islands (r : Region) : List (Nat × Nat) :=
  (List.range (r.w * r.h)).flatMap fun k => [0, 1, 2, 3].filterMap fun edge =>
    let a := k / r.w * 256 + k % r.w * 16 + edge
    (r.island? a).map fun i => (a, i.1)

/-- The region's tables from its image: rings, routes, join cells, nodes and areas; then the channels and the inputs
that reply entries name. Resident channels of plane S stay joined; the instances of elements that take a record are empty
(R164), without a spill ring of the consist before. A void asked during the load stays (R312). -/
def State.installTables (s : State) (rg : Nat) : State :=
  match s.region? rg with
  | none => s
  | some r =>
    match r.image with
    | none => s
    | some im =>
      let img := im.bytes
      let ms := r.members img
      let newS (e : Nat) : Bool := ms.any fun m => m.1 == e && eHasS img m.2.1
      let inside (e : Nat) : Bool := r.tiles.contains (tileOf e)
      let prodOf (p : Port) : Option Nat := p.branch.map (·.prod)
      let gone (k : Nat) (p : Port) : Bool :=
        if portVc k = 0 then inside (portHome (k, p))
        else newS (portElem k) || (match prodOf p with | some q => newS q | none => false)
      let dead := (s.ports.filter fun p => gone p.1 p.2).map (·.1)
      let emptied (k : Nat) : Bool := ms.any fun m => m.1 == portElem k
      let fresh (p : Nat × Port) : Nat × Port := if !emptied p.1 then p else
        (p.1, { Port.empty with branch := p.2.branch, replyFed := p.2.replyFed, nodeFed := p.2.nodeFed })
      let rings := (records img 4).map fun o =>
        let b := ringBytes img o
        (⟨r.die * 256 + (r.trow + b.1) * 16 + r.tcol + b.2.1, b.2.2.1, b.2.2.2.1, b.2.2.2.2, 0, 0, 0, none, none, none⟩ : Ring)
      let routes := (records img 2).foldl (fun (m : SMap (Nat × Nat)) o =>
        let w := natAt img o 4
        match r.elemAt (fld w 10 7) (fld w 4 6) with
        | some e => m.put (fld w 24 7) (e, fld w 0 2)
        | none => m) []
      let joins := (records img 3).foldl (fun (m : SMap JoinCell) o =>
        m.put (natAt img o 4 % 512) ⟨BitVec.ofNat 32 (natAt img (o + 4) 4), none, 0, none⟩) []
      let s : State := { s with
        ports := (s.ports.filter fun p => !dead.contains p.1).map fresh
        outs := (s.outs.map fun o => (o.1, o.2.filter fun k => !dead.contains k)).filter fun o => !o.2.isEmpty
        flights := s.flights.filter fun f => !dead.contains f.2.port && !emptied f.2.port
        credits := s.credits.filter fun f => !dead.contains f.2.port && !emptied f.2.port }
      let s := s.setRegion rg { r with
        rings := rings, routes := routes, joins := joins, joinQ := [], joinIn := [], events := 0, round := 0, cut := none
        snap := none, undo := [], log := [], replay := [], arms := [], half := false, slpos := 0, slHeld := none, voidTag := none
        dlRaised := false, lastMove := s.tick }
      let s := forAll (fun s (i : Nat × Nat) => s.modIsland i.2 fun x => { Island.reset with pool := x.pool }) r.islands s
      let s := forAll (fun s (t : Nat × Nat) =>
        let m := mapTile im.map t.2
        s.modTile t.1 fun x =>
          let node (n : Nat) : MNode :=
            let o := 0xA0 + 24 * n
            let mode : NodeMode := match natAt m o 1 with | 0 => .off | 1 => .random | 2 => .streaming | _ => .ordered
            { MNode.off with
              mode := mode, owner := natAt m (o + 1) 1, reply := natAt m (o + 2) 1, tag := D.tagOf (natAt m (o + 3) 1)
              base := BitVec.ofNat 32 (natAt m (o + 4) 4)
              count := (natAt m (o + 8) 2, natAt m (o + 10) 2, natAt m (o + 12) 2)
              stride1 := BitVec.ofNat 32 (natAt m (o + 16) 4), stride2 := BitVec.ofNat 32 (natAt m (o + 20) 4) }
          { x with save := areaOf m 0, log := areaOf m 1, undo := areaOf m 2, nodes := ⟨node 0, node 1, node 2, node 3⟩ })
        r.tiles.zipIdx s
      let s := s.bindResident (ms.map (·.1))
      let s := forAll (fun s (x : ChanRec) =>
        match r.elemAt x.pc x.pr, r.elemAt x.cc x.cr with
        | some p, some c => s.installChan x p c rg false
        | _, _ => s) (chanRecs img) s
      let s := forAll (fun s (m : Nat × Nat × Nat) => forAll (fun s n =>
        let w := eReply img m.2.1 n
        if !replyOn w then s
        else match r.elemAt (fld w 10 7) (fld w 4 6) with
          | some e => forAll (fun s vc =>
              let k := portKey e vc (fld w 0 3)
              if vc = 1 ∧ !dead.contains k ∧ (s.ports.get? k).isSome then s
              else s.setPort k { Port.empty with replyFed := true }) [0, 1] s
          | none => s) (List.range 32) s) ms s
      forAll (fun s (x : Nat × Nat) =>
        let n := (s.tile x.1).nodes.get x.2
        match n.mode with
        | .streaming =>
          (match s.replyPort (x.1 * 32 + n.owner) .work n.reply with
           | some p => s.modPort p fun y => { y with nodeFed := some (x.1 * 4 + x.2) }
           | none => s)
        | _ => s) (r.tiles.flatMap fun t => (List.range 4).map fun n => (t, n)) s

/-- The packages to which gateways lead from members of this one. -/
def gatePkgs (peers : List (Nat × Nat)) (gates : List ChanRec) : List Nat :=
  let away (m : Nat) : Bool := peers.any fun p => p.1 == m
  ((peers.filter fun p => gates.any fun g => (g.pm == p.1 && !away g.cm) || (g.cm == p.1 && !away g.pm)).map (·.2)).eraseDups

/-- A gateway from element x to a member of another package: a branch of x's output, as far as this package shows it. -/
def State.installFar (s : State) (g : ChanRec) (i x : Nat) : State :=
  let key := farKey g.cm i g.vc
  let ok := portKey x g.vc g.out
  let br : Branch := { prod := x, out := g.out, back := g.back, stampS := none, imp := g.imps
                       accept := BitVec.ofNat 8 g.accept, divert := none, gateway := true }
  let s := s.setPort key { Port.empty with branch := some br }
  { s with outs := s.outs.put ok (s.outPorts ok ++ [key]) }

/-- The gateway channels of a gang (R278): whole between regions of this package, the near end of the others. -/
def State.installGates (s : State) (rs : List Nat) (gates : List ChanRec) : State :=
  let find (m : Nat) : Option (Nat × Region) :=
    rs.findSome? fun k => (s.region? k).bind fun r => if r.member = m then some (k, r) else none
  let s := forAll (fun s k => s.modRegion k fun r => { r with gates := gatePkgs r.peers gates }) rs s
  forAll (fun s (x : ChanRec × Nat) =>
    let g := x.1
    let prod := (find g.pm).bind fun m => m.2.elemAt g.pc g.pr
    let cons := (find g.cm).bind fun m => (m.2.elemAt g.cc g.cr).map fun y => (m.1, y)
    match prod, cons with
    | some p, some (k, y) => s.installChan g p y k true
    | some p, none => s.installFar g x.2 p
    | none, some (_, y) => s.modPort (portKey y g.vc g.inp) fun z => { z with farFrom := some g.pm }
    | none, none => s) gates.zipIdx s

/-! ## Banks and start (R85, R285) -/

def zeroBank (m : Mem) (t b : Nat) : Mem := m.filter fun c => c.1 / 65536 != t * 16 + b

/-- A bank passes to the consist: zeroed unless a consist of the same run left it after completing normally. -/
def State.takeBank (s : State) (r : Region) (t b : Nat) : State :=
  match r.image with
  | none => s
  | some im =>
    let k := (t % 256 / 16 - r.trow) * r.w + (t % 16 - r.tcol)
    let w := bankWord (mapTile im.map k) b
    let x := (s.tile t).banks.get b
    let keep := x.clean && x.run == some r.walk
    let s : State := if keep then s else { s with
      spm := zeroBank s.spm t b
      poisonRows := s.poisonRows.filter fun row => row / 2048 != t * 16 + b }
    let role : BankRole := match fld w 62 2 with | 1 => .scratch | 2 => .cache | _ => .unused
    let nb : Bank := ⟨role, fld w 60 2, fld w 32 5, fld w 16 15, some r.walk, false, true⟩
    s.modTile t fun y => { y with banks := y.banks.set b nb }

/-- The start instant of a region is fixed: no earlier than a tick, nor than `clock` comes to a value (R279, R285). -/
def State.startRamp (s : State) (rg : Nat) (t0 : Nat) (t0At : Int) : State :=
  s.modRegion rg fun r => { r with phase := .starting, t0 := t0, t0At := t0At }

/-- The start instant has come. -/
def State.startNow (s : State) (r : Region) : Bool := decide (r.t0 ≤ s.tick ∧ r.t0At ≤ s.clock)

/-- T0: RAMP is read, and the start tokens are due (R285): tile k of N at T0 + floor(k × RAMP ÷ N). -/
def State.beginRamp (s : State) (rg : Nat) : State :=
  match s.region? rg with
  | none => s
  | some r =>
    let pending : Bool := match r.phase with
      | .starting => r.tiles.all fun t => (s.tile t).startDue.isNone && !(s.tile t).started
      | _ => false
    if !pending || !s.startNow r then s
    else
      let ramp := fld (s.die r.die).rampctl.toNat 0 16
      let n := r.w * r.h
      let s := s.setRegion rg { r with t0 := s.tick, t0At := s.clock }
      forAll (fun s (t : Nat × Nat) => s.modTile t.1 fun x => { x with startDue := some (s.tick + t.2 * ramp / n) })
        r.tiles.zipIdx s

end Sys2Proof.Machine
end

