-- ==== Sys2Proof/Machine/Saves.lean ====
section
/-! DEFINITION. What a cut writes down (R292, R296, R297, R316): element save records, variable records, tile headers,
and their bytes; and the way back from bytes. -/
namespace Sys2Proof.Machine

/-! ## Element save records (R296) -/

/-- Words of lanes. -/
def lanesBytes (x : Oct W) : List Byte := x.toList.flatMap fun w => leBytes 4 w.toNat
def lanesAt (b : List Byte) (o : Nat) : Oct W := Oct.of fun l => BitVec.ofNat 32 (natAt b (o + 4 * l) 4)

/-- The 800 bytes of an element save record. -/
def ElemSave.bytes (v : ElemSave) : List Byte :=
  v.wr.v.toList.flatMap (fun r => lanesBytes r.lane) ++
  leBytes 8 ((v.wr.v.toList.zipIdx.map fun r => E.tag r.1.tag * 8 ^ r.2).foldl (· + ·) 0) ++
  v.wr.p.toList.flatMap (fun m => leBytes 1 m.toNat) ++
  v.k.toList.flatMap lanesBytes ++
  v.g.toList.flatMap (fun w => leBytes 4 w.toNat) ++
  v.streams.toList.flatMap (fun x => leBytes 2 x.issued.toNat ++ leBytes 2 x.perf.toNat) ++
  v.streams.toList.flatMap (fun x => leBytes 2 x.stamp.toNat) ++
  v.streams.toList.flatMap (fun x => leBytes 8 x.opened.toNat) ++
  leBytes 4 v.estat.toNat ++ leBytes 4 v.wr.jord.toNat ++ leBytes 4 v.wr.fflags.toNat ++
  leBytes 4 ((if v.ended then 1 else 0) + (if v.stopped then 2 else 0))

/-- The record that 800 bytes hold; `like` gives what the bytes do not carry. -/
def ElemSave.ofBytes (b : List Byte) (like : ElemSave) : ElemSave :=
  let tag (i : Nat) : Tag := D.tagOf (fld (natAt b 0x200 8) (3 * i) 3)
  let v : Nat → VReg := fun i => ⟨lanesAt b (32 * i), tag i⟩
  let oct (o : Nat) : Oct VReg := Oct.of fun i => v (o + i)
  let st : Oct Stream := Oct.of fun i =>
    let x := like.streams.get i
    let stamp := BitVec.ofNat 16 (natAt b (0x2C0 + 2 * i) 2)
    let opened := BitVec.ofNat 64 (natAt b (0x2D0 + 8 * i) 8)
    { x with
      issued := BitVec.ofNat 16 (natAt b (0x2A0 + 4 * i) 2), perf := BitVec.ofNat 16 (natAt b (0x2A2 + 4 * i) 2)
      ahead := [], stamp := stamp, opened := opened, set := x.src.isSome && (stamp != 0 || opened != 0) }
  let g (i : Nat) : W := BitVec.ofNat 32 (natAt b (0x290 + 4 * i) 4)
  let k (i : Nat) : Oct W := lanesAt b (0x210 + 32 * i)
  { like with
    wr := { v := ⟨oct 0, oct 8⟩, p := Oct.of fun i => BitVec.ofNat 8 (natAt b (0x208 + i) 1)
            jord := BitVec.ofNat 2 (natAt b 0x314 4), fflags := BitVec.ofNat 20 (natAt b 0x318 4) }
    k := ⟨k 0, k 1, k 2, k 3⟩, g := ⟨g 0, g 1, g 2, g 3⟩, streams := st, estat := BitVec.ofNat 8 (natAt b 0x310 4)
    ended := (natAt b 0x31C 4).testBit 0, stopped := (natAt b 0x31C 4).testBit 1, toks := [], pkts := [], ops := [] }

/-- What an element would save as it stands, without tokens, packets and operations. -/
def Elem.saveOf (x : Elem) : ElemSave :=
  { wr := x.wr, k := x.k, g := ⟨x.g.q0.g, x.g.q1.g, x.g.q2.g, x.g.q3.g⟩, streams := x.streams, estat := x.estat
    ended := x.ended, stopped := x.stopped.isSome, toks := [], pkts := [], ops := [] }

/-! ## Variable records (R297) -/

def varRec (ty chan elem : Nat) (body : List Byte) : List Byte :=
  leBytes 1 ty ++ leBytes 1 chan ++ leBytes 1 (body.length / 8) ++ leBytes 1 0 ++ leBytes 2 elem ++ leBytes 2 0 ++ body

def tokRec (elem ch : Nat) (t : Tok) : List Byte := varRec 1 ch elem ((tokBytes t).take 36 ++ leBytes 4 0)
def pktRec (elem : Nat) (p : Packet) : List Byte :=
  varRec 2 6 elem (leBytes 4 p.w0.toNat ++ leBytes 4 p.w1.toNat ++
    leBytes 4 (p.label + 256 * p.handler + if p.two then 1024 else 0) ++ leBytes 4 0)
def OpRec.bytes (elem : Nat) (o : OpRec) : List Byte :=
  varRec 3 (o.entry.getD 0xFF) elem (leBytes 4 o.word.toNat ++ leBytes 4 o.fires.toNat ++ leBytes 1 o.lanes.toNat ++
    leBytes 1 o.reply ++ leBytes 6 0 ++ lanesBytes o.aLanes ++ lanesBytes o.dLanes ++ leBytes 4 o.status.toNat ++
    leBytes 4 o.progress.toNat)
def ringRec (i : Nat) (g : Ring) : List Byte :=
  varRec 4 0 0xFFFF (leBytes 4 i ++ leBytes 4 g.head.toNat ++ leBytes 4 g.tail.toNat ++ leBytes 4 g.hpos)
def joinRec (i : Nat) (c : JoinCell) : List Byte :=
  varRec 5 0 0xFFFF (leBytes 4 i ++ leBytes 4 c.val.toNat ++
    leBytes 4 (match c.arm with | some l => 2 ^ 31 + l | none => 0) ++ leBytes 4 0)
def bandRec (unit seq : Nat) : List Byte := varRec 6 0 0xFFFF (leBytes 2 unit ++ leBytes 2 seq ++ leBytes 4 0)

/-- The variable records of one element, in the order tokens of each input, packets, operations. -/
def ElemSave.recs (v : ElemSave) (elem : Nat) : List (List Byte) :=
  ((List.range 6).flatMap fun ch => (v.toks.filter fun t => t.1 == ch).map fun t => tokRec elem ch t.2) ++
  v.pkts.map (pktRec elem) ++ v.ops.map (OpRec.bytes elem)

/-- M0 to M3 of a tile as a cut saves them. -/
def nodesBytes (t : Nat) (nodes : SMap ((Nat × Nat × Nat) × Bool)) : List Byte :=
  (List.range 4).flatMap fun n =>
    match nodes.get? (t * 4 + n) with
    | some ((i0, i1, i2), done) => leBytes 2 i0 ++ leBytes 2 i1 ++ leBytes 2 i2 ++ leBytes 2 (if done then 1 else 0)
    | none => leBytes 8 0

/-- The snapshot a cut comes to when it completes: what is common to save areas and save images. -/
def Cut.snapshot (c : Cut) (r : Region) : Snapshot :=
  let cell (x : JoinCell) : JoinCell := { val := x.val - x.newSum, arm := x.oldArm.getD x.arm, newSum := 0, oldArm := none }
  { round := r.round + 1, time := c.time, elems := c.elems, nodes := c.nodes, rings := c.rings
    joins := r.joins.map fun x => (x.1, cell x.2), slpos := c.slpos, seqs := c.seqs, armed := c.armed }

/-- The side-band sequence numbers of a region's islands as they stand. -/
def State.seqsNow (s : State) (r : Region) : SMap (BitVec 16 × BitVec 16) :=
  r.islands.foldl (fun (m : SMap (BitVec 16 × BitVec 16)) i => m.put i.2 ((s.island i.2).iseq, (s.island i.2).tseq)) []

/-- The list position from which every entry that some sequence numbers leave to be used lies ahead (R195).
See log entry 47 (DEDUCED). -/
def State.scalesFrom (s : State) (r : Region) (seqs : SMap (BitVec 16 × BitVec 16)) : Nat :=
  ((List.range r.slpos).find? fun i => !s.scaleTaken r seqs i).getD r.slpos

/-- Records of the region as a whole for one of its tiles: its rings, and in tile 0 join cells and side-band units. -/
def Region.wideRecs (r : Region) (t : Nat) (n : Snapshot) : List (List Byte) :=
  (n.rings.zipIdx.filterMap fun g => if g.1.tile = t then some (ringRec g.2 g.1) else none) ++
  (if r.tileAt 0 0 = some t then
    (n.joins.filterMap fun c => if c.2.val = 0 ∧ c.2.arm.isNone then none else some (joinRec c.1 c.2)) ++
    (r.islands.flatMap fun i => match n.seqs.get? i.2 with
      | some (is, ts) => (if is = 0 then [] else [bandRec i.1 is.toNat]) ++ (if ts = 0 then [] else [bandRec (32768 + i.1) ts.toNat])
      | none => [])
   else [])

/-- An armed command as an operation record of no element. See log entry 60 (DEDUCED). -/
def Cmd.armedRec (c : Cmd) : OpRec :=
  { word := 0xC5000000, fires := 0, lanes := 0, reply := 0, aLanes := c.desc, dLanes := (Oct.rep 0).set 0 (BitVec.ofNat 32 c.count)
    status := c.status, progress := c.progress, entry := none, plane := .work, stream := 0, ord := 0, cmd := some c, op := none }

/-- Every variable record of a tile of the region. -/
def Region.tileRecs (r : Region) (t : Nat) (n : Snapshot) (img : List Byte) : List (List Byte) :=
  ((r.members img).flatMap fun m =>
    if tileOf m.1 = t then (match n.elems.get? m.1 with | some v => v.recs m.2.2 | none => []) else []) ++
  r.wideRecs t n ++
  (if r.tileAt 0 0 = some t then n.armed.map fun c => (Cmd.armedRec c.2).bytes 0xFFFF else [])

/-- The tile header of a save half. -/
def tileHeader (round nrec : Nat) (time : BitVec 64) (nodes : List Byte) (slpos : Nat) : List Byte :=
  leBytes 4 round ++ leBytes 4 nrec ++ leBytes 8 time.toNat ++ nodes ++ leBytes 4 slpos ++ leBytes 12 0

/-! ## The save area (R294, R296) -/

/-- First byte of the half that the cut in progress writes, and the size of a half. -/
def State.openHalf (s : State) (r : Region) (t : Nat) : Nat × Nat :=
  let (start, size) := (s.tile t).save
  (t * 2 ^ 20 + start + (if r.half then 0 else size / 2), size / 2)

/-- Elements of a tile that have a record, in image order. -/
def Region.tileElems (r : Region) (t : Nat) : List Nat :=
  match r.image with
  | some im => (r.members im.bytes).filterMap fun m => if tileOf m.1 = t then some m.1 else none
  | none => []

/-- Bytes that the records of a tile take in a half. -/
def Region.saveSize (r : Region) (t : Nat) (n : Snapshot) : Nat :=
  match r.image with
  | some im => 64 + 800 * (r.tileElems t).length + ((r.tileRecs t n im.bytes).map (·.length)).foldl (· + ·) 0
  | none => 64

/-- A tile's half can hold what the open cut writes (R294, R296); an absent area holds nothing (log entry 41). -/
def State.saveFits (s : State) (r : Region) (t : Nat) (c : Cut) : Bool :=
  let (_, size) := (s.tile t).save
  decide (r.saveSize t (c.snapshot r) ≤ size / 2)

/-- The bytes that a completed cut leaves in the half of a tile. -/
def State.writeHalf (s : State) (r : Region) (t : Nat) (n : Snapshot) : State :=
  match r.image with
  | none => s
  | some im =>
    let (a, size) := s.openHalf r t
    if size = 0 then s
    else
      let recs := r.tileRecs t n im.bytes
      let slpos := if r.tileAt 0 0 = some t then n.slpos else 0
      let head := tileHeader n.round recs.length n.time (nodesBytes t n.nodes) slpos
      let body := (r.tileElems t).flatMap fun e => match n.elems.get? e with | some v => v.bytes | none => leBytes 800 0
      let s : State := { s with spm := s.spm.write a (head ++ body) }
      if 64 + body.length + (recs.flatMap id).length ≤ size then
        { s with spm := s.spm.write (a + 64 + body.length) (recs.flatMap id) } else s

/-- The bytes of an element's record, written at its save. -/
def State.writeSave (s : State) (r : Region) (e : Nat) (v : ElemSave) : State :=
  let (a, size) := s.openHalf r (tileOf e)
  let k := ((r.tileElems (tileOf e)).takeWhile (· ≠ e)).length
  if 64 + 800 * (k + 1) ≤ size then { s with spm := s.spm.write (a + 64 + 800 * k) v.bytes } else s

end Sys2Proof.Machine
end

