-- ==== Sys2Proof/Machine/MemSteps.lean ====
section
/-! DEFINITION. Steps of the memory system (R57, R63 to R74, R87 to R97, R247 to R255, R267): opening gates, requests
on their way, lanes at their memories, replies, deferred full-empty entries, translations and their faults,
shootdowns, page moves, visitor ways, streaming nodes. -/
namespace Sys2Proof.Machine

/-! ## Requests (R91, R93, R247, R253) -/

/-- Cycles from the translation to the beat, and ns on links, for a data-area address (R93). Another package is 130 ns
away, less the cycles that the rest of the request takes. See log entries 18 and 19 (DEDUCED). -/
def State.reachTime (s : State) (e pa : Nat) (pl : Place) : Nat × Int :=
  let t := tileOf e
  match pl with
  | .fabric u _ => (7 + hops t u, s.acrossNs 0)
  | .visitor => (31 + hops t (s.visitTile (dieOf e) pa), s.acrossNs 0)
  | .home =>
    match localDie pa with
    | some _ => let u := s.homeTile pa; (31 + hops t u, s.acrossNs (linkNs t u))
    | none => (0, s.afterNs 130 - 50)

/-- Where a lane goes when its gates have opened. -/
def State.laneStart (s : State) (o : MemOp) (l : Nat) : LaneSt :=
  let a := o.addr l
  match Instr.kind o.instr with
  | .pref => .granted 0 0
  | .cache => .granted 0 0
  | k =>
    if isSp a then (match s.spLane (s.elem o.elem).region k a with | some key => .node key | none => .abandoned)
    else .xlate

/-- The gates of an operation have opened (R253): its lanes set out. Lanes of scratchpad addresses that cannot be
served are abandoned, and the element stops (R91). It waits while its placeholder or the stores that its gates push out
find no room (R301). -/
def State.openOp (s : State) (k : Nat) : State :=
  match s.ops.get? k with
  | none => s
  | some o =>
    let placed := if o.owed then s.putHolder o.elem o.plane o.stream o.round o.ord o.instr else some s
    match placed.bind fun s => s.openGates o.elem o.gates with
    | none => (match (s.elem o.elem).region with | some r => s.askCut r false [] | none => s)
    | some s =>
      let ls := Oct.of fun l => match o.lanes.get l with | .wait => s.laneStart o l | x => x
      let gone := maskOf fun l => match ls.get l with | .abandoned => true | _ => false
      let far := lanes.foldl (fun n l => match ls.get l with | .node key => max n (hops (tileOf o.elem) (key / 2 ^ 20)) | _ => n) 0
      let left := match Instr.kind o.instr with
        | .pref => 1
        | .cache => 1
        | _ => if lanes.any (fun l => match ls.get l with | .xlate => true | _ => false) then 3 else 6 + far
      let s := s.modOp k fun o => { o with
        gated := true, gates := [], skipBefore := s.skipTime o.elem o.gates, lanes := ls, owed := false
        gone := if gone = 0 then 0 else (if Instr.single o.instr then o.part else gone), left := left, due := s.acrossNs 0 }
      if gone = 0 then s
      else s.stall o.elem 8 o.plane o.slot true o.fires o.firedIn (gone.setWidth 32) 0

/-- An older operation of the element that has not finished with a location of this lane (R247). -/
def MemOp.behind (o : MemOp) (l : Nat) (x : MemOp) : Bool :=
  x.elem == o.elem && decide (x.seq < o.seq) && !x.isWatch &&
    (match Instr.kind x.instr with | .pref => false | .cache => false | _ => true) &&
    (List.range 8).any fun j => !laneOver (x.lanes.get j) &&
      decide (o.addr l < x.addr j + Instr.bytes x.instr ∧ x.addr j < o.addr l + Instr.bytes o.instr)

/-- A lower lane of the operation has not finished with the location of this lane (R94, R97, R99). -/
def MemOp.lower (o : MemOp) (l : Nat) : Bool :=
  (List.range 8).any fun j => decide (j < l) && !laneOver (o.lanes.get j) && o.addr j == o.addr l &&
    (match o.lanes.get j, o.lanes.get l with | .node _, .node _ => false | .port _ _, .port _ _ => false | .deferred .., _ => false | _, _ => true)

/-- The arbiter a lane passes (R146). See log entry 42 (DEDUCED). -/
def State.lanePort (s : State) (o : MemOp) (l : Nat) : Option Nat :=
  match o.lanes.get l with
  | .node key => some (nodePort (s.nodeIdx key))
  | .port pa leaf =>
    (match s.place (o.acc s) leaf (o.addr l) pa with
     | .fabric t b => some (nodePort (t * 4 + ((s.tile t).banks.get b).node))
     | .visitor => if s.reachable pa then some (slicePort (s.visitTile (dieOf o.elem) pa)) else none
     | .home => s.homePort pa)
  | _ => none

/-- The lanes of an operation that have reached their port ask for a beat; the age of all of them is that of the operation's
first request there (R141). -/
def State.offerOp (s : State) (k : Nat) : State :=
  match s.ops.get? k with
  | none => s
  | some o =>
    if !o.gated ∨ o.left ≠ 0 ∨ s.clock < o.due then s
    else forAll (fun s l =>
      match s.lanePort o l with
      | none => s
      | some p =>
        if (s.ops.any fun x => o.behind l x.2) || o.lower l then s
        else
          let first := ((s.ops.get? k).bind fun o => o.asked.find? fun x => x.1 == p).map (·.2)
          let s := match first with
            | some _ => s
            | none => s.modOp k fun o => { o with asked := (p, s.tick) :: o.asked }
          s.offer p ⟨.lane k l, (s.elem o.elem).region, none, 0, 1, false, first.getD s.tick, inPortOf o.elem⟩) lanes s

/-- A lane that found a full buffer or area sets out again. -/
def State.retryLanes (s : State) (k : Nat) : State :=
  s.modOp k fun o =>
    let again (l : Nat) : LaneSt := match o.lanes.get l with | .full => s.laneStart o l | x => x
    { o with lanes := Oct.of again }

/-- An operation whose lanes are all over owes its reply, or its acknowledgement is on its way, or it has performed
(R93, R249): back at the element the acknowledgement has taken the time of a reply. PREF, L1WB and L1INV, and an operation
that no memory has served, have nothing to wait for. -/
def State.opDone (s : State) (k : Nat) : State :=
  match s.ops.get? k with
  | none => s
  | some o =>
    if !o.gated || !o.lanesOver then s
    else match o.reply, o.back with
      | some _, _ => { s with agenda := .act (.replySend k) :: s.agenda }
      | none, some (0, due) => if due ≤ s.clock then s.retire k o else s
      | none, some _ => s
      | none, none =>
        match o.far with
        | none => if o.isWatch then s.modOp k fun o => { o with back := some (1, s.acrossNs 0) } else s.retire k o
        | some (h, ns) => s.modOp k fun o => { o with back := some (1 + h, s.acrossNs ns) }

/-- PREF has performed when its requests have left the tile (R98, R249); its lanes may still wait for a way (R82). -/
def State.prefLeaves (s : State) (k : Nat) : State :=
  match s.ops.get? k with
  | some o => (match Instr.kind o.instr with
    | .pref => if o.performed then s else
        (s.streamDone o.elem o.stream o.ord).modOp k fun o => { o with performed := true }
    | _ => s)
  | none => s

/-! ## Nodes (R87, R88) -/

/-- The lanes of an operation that a node has been granted in the beat of a lane: those in its 32-byte row. -/
def MemOp.beatOf (o : MemOp) (key : Nat) : List Nat :=
  Sys2Proof.lanes.filter fun l => match o.lanes.get l with | .granted y 0 => y / 32 == key / 32 | _ => false

/-- One granted lane at its node (R87, R88). An atomic occupies its word and its bank for four cycles.
See log entry 89 (DEDUCED). -/
def State.acceptLane (s : State) (op l : Nat) : State :=
  match s.ops.get? op with
  | none => s
  | some o =>
    match o.lanes.get l with
    | .granted key 0 =>
      let s := (s.noteServed op l (key / 2 ^ 20) 0).nodeApply op l key o
      let n := s.nodeIdx key
      (match Instr.kind o.instr with
       | .atomic => s.modTile (n / 4) fun t =>
           let x := t.nodes.get (n % 4)
           let rest := x.busy.filter fun (b : Nat × Nat) => b.1 / 4 != key / 4
           { t with nodes := t.nodes.set (n % 4) { x with busy := rest ++ [(key, 4)] } }
       | _ => s)
    | _ => s

/-- NODE_REQUEST_ACCEPT (R87, R88): the node takes the lanes of a granted beat, in ascending order, and applies them; a
beat that has written a whole row with unpoisoned data clears its poison bit (R311). -/
def execNodeRequestAccept (op l : Nat) (s : State) : Host.Outcome State Fault Refusal :=
  match s.ops.get? op with
  | none => .next s
  | some o =>
    match o.lanes.get l with
    | .granted key 0 =>
      let ls := match Instr.kind o.instr with | .store => o.beatOf key | _ => [l]
      let s := forAll (fun s k => s.acceptLane op k) ls s
      let whole : Bool := o.coversRow ls && (match s.ops.get? op with
        | some o => ls.all fun k => match o.lanes.get k with | .done => true | _ => false
        | none => false)
      .next ((if whole then s.cleanRow key else s).opDone op)
    | _ => .next s

/-! ## Homes (R68, R97, R249) -/

/-- The oldest deferred lane on a word that may act now (R97). See log entry 27 (DEDUCED). -/
def State.nextDeferred (s : State) (pa : Nat) : Option Deferred :=
  (s.tile (s.homeTile pa)).deferred.find? fun d =>
    d.pa == pa && (match s.ops.get? d.op with | some o => feReady o.instr (s.feFull pa) | none => false)

def State.serveDeferred (s : State) (pa : Nat) : Nat → State
  | 0 => s
  | n + 1 =>
    match s.nextDeferred pa with
    | none => s
    | some d =>
      match s.ops.get? d.op with
      | none => s
      | some o =>
        let leaf : BitVec 64 := match o.lanes.get d.lane with | .deferred _ leaf => leaf | _ => 0x17
        if s.homeFull o leaf (o.addr d.lane) pa then s
        else
          let s := s.modTile (s.homeTile pa) fun t => { t with deferred := t.deferred.filter (· ≠ d) }
          let s := (s.feAct d.op d.lane pa leaf o).stir (s.elem o.elem).region
          (s.opDone d.op).serveDeferred pa n

/-- FE_DEFERRED_SERVE (R97): the entries that wait for a word, in the order of their arrival, as far as it allows. -/
def execFeDeferredServe (pa : Nat) (s : State) : Host.Outcome State Fault Refusal :=
  .next (s.serveDeferred pa (s.tile (s.homeTile pa)).deferred.length)

/-- The lanes of an operation that a fabric cache bank has been granted in one beat (R93), and their bank. -/
def State.bankBeat (s : State) (op : Nat) : Option (Nat × Nat × List Nat) :=
  (s.ops.get? op).bind fun o =>
    let at_ (l : Nat) : Option (Nat × Nat) := match o.lanes.get l with
      | .granted pa leaf => if leaf = 0 then none else (match s.place (o.acc s) leaf (o.addr l) pa with
          | .fabric t b => some (t, b) | _ => none)
      | _ => none
    (lanes.findSome? at_).map fun x => (x.1, x.2, lanes.filter fun l => (at_ l).isSome)

/-- A beat of a store that has written a whole row of a fabric cache bank with unpoisoned data clears its poison bit
(R311). -/
def State.cleanBank (s : State) (op : Nat) (beat : Option (Nat × Nat × List Nat)) : State :=
  match beat, s.ops.get? op with
  | some (t, b, l :: ls), some o =>
    let done := (l :: ls).all fun k => match o.lanes.get k with | .done => true | _ => false
    if done && o.coversRow (l :: ls) then
      (match s.fcFind t b (o.addr l) with | some (k, _) => s.cleanRow (fcData k + o.addr l % 64) | none => s)
    else s
  | _, _ => s

/-- MEMORY_OP_PERFORM (R249, R251): the granted lanes of an operation are served at their places, and the operation
has performed when they are all over. -/
def execMemoryOpPerform (op : Nat) (s : State) : Host.Outcome State Fault Refusal :=
  let beat := s.bankBeat op
  let s := forAll (fun s l =>
    match s.ops.get? op with
    | none => s
    | some o =>
      match o.lanes.get l with
      | .granted pa leaf =>
        let s := s.laneApply op l pa leaf o
        if (s.nextDeferred pa).isSome then { s with agenda := .act (.feDeferredServe pa) :: s.agenda } else s
      | _ => s) lanes (s.prefLeaves op)
  .next ((s.cleanBank op beat).opDone op)

/-- FE_LOAD_REISSUE (R68): a returned full-empty lane is sent again. See log entry 27 (DEDUCED). -/
def execFeLoadReissue (op l : Nat) (s : State) : Host.Outcome State Fault Refusal :=
  match s.ops.get? op with
  | none => .next s
  | some o =>
    match o.lanes.get l with
    | .returned 0 => .next (s.setLane op l .xlate)
    | _ => .next s

/-! ## Replies (R95) -/

/-- REPLY_SEND (R95): the reply leaves when its channel has room and no earlier reply of its entry is owed. Its
arrival performs the operation. See log entry 19 (DEDUCED). -/
def execReplySend (op : Nat) (s : State) : Host.Outcome State Fault Refusal :=
  match s.ops.get? op with
  | none => .next s
  | some o =>
    match o.reply with
    | none => .next s
    | some n =>
      if !o.gated || !o.lanesOver || s.replyBehind op o then .next s
      else match s.replyPort o.elem o.plane n with
        | none => .next s
        | some p =>
          let t := s.replyTile o
          if s.portSpace t p then
            .next (State.sendTo { s with ops := s.ops.del op } (replySrc o.elem n) o.extra t p o.token
              (some (o.elem, o.stream, o.ord)))
          else .next s

/-! ## Translation (R63 to R65, R72, R73) -/

/-- A lane's address has been translated: it goes on to its port. -/
def State.laneTranslated (s : State) (op l : Nat) (o : MemOp) (va : Nat) (lf : Leaf) : State :=
  let pa := lf.pa va
  let more := s.reachTime o.elem pa (s.place (o.acc s) lf.bits (o.addr l) pa)
  s.modOp op fun o =>
    let longer : Bool := decide (max o.due s.clock + 10 * o.left < max more.2 s.clock + 10 * more.1)
    { o with
      lanes := o.lanes.set l (.port pa lf.bits)
      due := if longer then more.2 else o.due
      left := if longer then more.1 else o.left }

/-- TLB_LOOKUP (R65): a lane at its owning TLB slice hits, or asks for a walk. -/
def execTlbLookup (op l : Nat) (s : State) : Host.Outcome State Fault Refusal :=
  match s.ops.get? op with
  | none => .next s
  | some o =>
    match o.lanes.get l, s.regionOf o.elem with
    | .xlate, some (rg, r) =>
      let va := r.cons.dbase + o.addr l
      let a := OpKind.access (Instr.kind o.instr)
      (match s.tlbFind (dieOf o.elem) r.asid va a with
       | some lf => .next ((s.tlbUse (dieOf o.elem) r.asid va lf).laneTranslated op l o va lf)
       | none => .next (s.wantWalk (dieOf o.elem) r.asid ⟨.lane op l, a, va, elidOf o.elem, some rg⟩))
    | _, _ => .next s

/-- Requests that the tables permit are told; the others are held under a tag, and one record names the first of them.
Faults on one page in one slice make one record (R72, R74). -/
def State.walkFault (s : State) (k : Nat) (p : PWalk) (bad : List (Req × XReason × Nat)) : State :=
  let twin := s.pwalks.find? fun x => x.1 != k && x.2.tile == p.tile && x.2.asid == p.asid &&
    x.2.va / 65536 == p.va / 65536 && x.2.fault.isSome
  match twin, bad with
  | _, [] => { s with pwalks := s.pwalks.del k }
  | some (j, y), _ =>
    let tag := match y.fault with | some (_, _, t) => t | none => 0
    let s : State := { s with pwalks := (s.pwalks.del k).put j ((bad.map (·.1)).foldl PWalk.join y) }
    let s := forAll (fun s x => s.tell x.1.who (some tag)) bad s
    if y.recorded then s.voidFor tag (bad.map (·.1)) else s
  | none, (q, r, level) :: _ =>
    let (tag, s) := s.freshTag
    let p' := { p with
      va := q.va, acc := q.acc, elid := q.elid, region := q.region, waiters := bad.map (·.1)
      fault := some (r, level, tag), recorded := false }
    let s : State := { s with pwalks := s.pwalks.put k p' }
    let s := s.modDie p.die fun d => { d with xlateQ := d.xlateQ ++ [k] }
    forAll (fun s x => s.tell x.1.who (some tag)) bad s

/-- PAGE_WALK (R63, R65): a walk reads the tables; every request that waits for it learns its own outcome. -/
def execPageWalk (k : Nat) (s : State) : Host.Outcome State Fault Refusal :=
  match s.pwalks.get? k with
  | none => .next s
  | some p =>
    if p.fault.isSome || s.inTransit p.die p.asid p.va then .next s
    else
      let bad := p.waiters.filterMap fun q => (s.fails p.die p.asid q).map fun f => (q, f.1, f.2)
      let fine := p.waiters.filter fun q => (s.fails p.die p.asid q).isNone
      let s := forAll (fun s q => match s.walkFor p.die p.asid q.va q.acc with
        | .inr (lf, s) => s.tlbFill p.die p.asid q.va lf
        | .inl _ => s) fine s
      let s := forAll (fun s q => s.tell q.who none) fine s
      .next (s.walkFault k p bad)

def Access.num : Access → Nat
  | .load => 0 | .store => 1 | .atomic => 2 | .engRead => 3 | .engWrite => 4 | .fetch => 5 | .feLoad => 6 | .feStore => 7
  | .node => 8
def XReason.num : XReason → Nat
  | .notvalid => 1 | .perm => 2 | .malformed => 3 | .rsvbits => 4 | .fekind => 5

/-- The 32 bytes of a fault record (R72). -/
def State.faultBytes (s : State) (p : PWalk) (r : XReason) (level tag policy : Nat) : List Byte :=
  leBytes 8 p.va ++ leBytes 4 p.elid.toNat ++ leBytes 2 p.asid ++ leBytes 1 p.acc.num ++ leBytes 1 r.num ++
  leBytes 1 level ++ leBytes 1 policy ++ leBytes 2 (dieOfTile p.tile * 256 + p.tile % 256) ++ leBytes 4 tag ++
  leBytes 8 s.now.toNat

def isFetch (p : PWalk) : Bool := match p.acc with | .fetch => true | _ => false
/-- A request that its fault holds; a fetch is held only for a scale list, and else goes on without (R41, R194). -/
def Req.holds (q : Req) : Bool :=
  match q.acc, q.who with | .fetch, .scales _ => true | .fetch, _ => false | _, _ => true
/-- The fault of a fetch is held when it stops a scale list or another request, and else leaves nothing behind (R41, R194).
See log entry 85 (DESIGN CHOICE). -/
def PWalk.kept (p : PWalk) : Bool := p.waiters.any Req.holds

/-- TRANSLATION_FAULT (R72, R73): the oldest faulted walk of a die writes its record, when the queue has room. The round of
every region under VOID that has a request with it is voided; a fetch waits for nothing. -/
def execTranslationFault (die : Nat) (s : State) : Host.Outcome State Fault Refusal :=
  let d := s.die die
  let log := fld d.fqctl.toNat 0 8
  match d.xlateQ with
  | [] => .next s
  | k :: rest =>
    match s.pwalks.get? k with
    | none => .next (s.setDie die { d with xlateQ := rest })
    | some p =>
      match p.fault with
      | none => .next (s.setDie die { d with xlateQ := rest })
      | some (r, level, tag) =>
        if log < 4 ∨ 16 < log ∨ (d.fqtail - d.fqhead).toNat = 2 ^ log then .next s
        else
          let void : Bool := match p.region with
            | some rg => (match s.region? rg with | some x => x.voids | none => false)
            | none => false
          let policy := if isFetch p then 2 else if void then 1 else 0
          let a := fld d.fqbase.toNat 5 47 * 32 + d.fqtail.toNat % 2 ^ log * 32
          let s : State := { s.setDie die { d with xlateQ := rest, fqtail := d.fqtail + 1, coreIrq := true } with
            mem := s.mem.write a (s.faultBytes p r level tag policy) }
          let s : State := { s with
            pwalks := if p.kept then s.pwalks.put k { p with recorded := true } else s.pwalks.del k }
          .next (s.voidFor tag p.waiters)

/-! ## Shootdowns (R66, R74) -/

/-- A translation that a shootdown removes. See log entry 25 (DEDUCED). -/
def shotBy (ctl : Nat) (sva asid va : Nat) (global : Bool) (big : Bool) : Bool :=
  (if global then fld ctl 16 1 == 1 else fld ctl 17 1 == 1 || asid == fld ctl 0 12) &&
  (fld ctl 18 1 == 1 || (if big || fld ctl 19 1 == 1 then va / 2 ^ 29 == sva / 2 ^ 29 else va / 65536 == sva / 65536))

/-- Lanes that hold a translation and have not performed, in a die. -/
def State.translatedLanes (s : State) (hit : Nat → Nat → Nat → BitVec 64 → Bool) : List (Nat × Nat) :=
  s.ops.flatMap fun o => lanes.filterMap fun l =>
    match s.regionOf o.2.elem with
    | none => none
    | some (_, r) =>
      let va := r.cons.dbase + o.2.addr l
      (match o.2.lanes.get l with
       | .port _ leaf => if hit r.die r.asid va leaf then some (o.1, l) else none
       | .granted _ leaf => if leaf ≠ 0 ∧ hit r.die r.asid va leaf then some (o.1, l) else none
       | .deferred _ leaf => if hit r.die r.asid va leaf then some (o.1, l) else none
       | _ => none)

/-- Remove the entries a shootdown names from the slices of the dies of a mask. -/
def State.shoot (s : State) (mask : Nat → Bool) (ctl sva : Nat) : State :=
  let hit (x : TlbEnt) : Bool :=
    shotBy ctl sva x.asid (if x.big then x.vpn * 2 ^ 29 else x.vpn * 65536) (lbit x.leaf 8) x.big
  let ts := s.tiles.map fun t =>
    if mask (dieOfTile t.1) then (t.1, { t.2 with tlb := t.2.tlb.filter fun x => !hit x }) else t
  { s with tiles := ts }

/-- A lane still holds the translation it held when a shootdown began. -/
def State.stillHolds (s : State) (x : Nat × Nat) : Bool :=
  match s.ops.get? x.1 with
  | some o => (match o.lanes.get x.2 with | .port _ _ => true | .granted _ _ => true | .deferred .. => true | _ => false)
  | none => false

/-- The shootdown of a page that moves (R71, R74): every entry of the package that names its frame goes, under whatever
ASID it was filled, since another ASID may reach the page through the same leaf entry. -/
def State.shootFrame (s : State) (frame : Nat) : State :=
  { s with tiles := s.tiles.map fun t =>
      (t.1, { t.2 with tlb := t.2.tlb.filter fun x => x.big || pfn x.leaf != frame }) }

/-- SHOOTDOWN_COMPLETE (R66): BUSY clears when every access that used a removed entry has performed. -/
def execShootdownComplete (die : Nat) (s : State) : Host.Outcome State Fault Refusal :=
  let d := s.die die
  if d.sdctl.getLsbD 31 && d.sdWait.all (fun x => !s.stillHolds x) then
    .next (s.setDie die { d with sdctl := d.sdctl &&& 0x7FFFFFFF, sdWait := [] })
  else .next s

/-! ## Streaming nodes' patterns (R89) -/

def MNode.blocks (n : MNode) : Nat := n.count.1 * n.count.2.1 * n.count.2.2
/-- The number of a position in the order of the blocks. -/
def MNode.index (n : MNode) : Nat := n.pos.1 + n.count.1 * (n.pos.2.1 + n.count.2.1 * n.pos.2.2)
def MNode.posOf (n : MNode) (i : Nat) : Nat × Nat × Nat :=
  (i % n.count.1, i / n.count.1 % n.count.2.1, i / n.count.1 / n.count.2.1)
/-- The address word of block i. -/
def MNode.addrOf (n : MNode) (i : Nat) : Nat :=
  let p := n.posOf i
  (n.base + BitVec.ofNat 32 (32 * p.1) + n.stride1 * BitVec.ofNat 32 p.2.1 + n.stride2 * BitVec.ofNat 32 p.2.2).toNat / 32 * 32

/-- The stream window of a node is open: from its start until its EOS. -/
def MNode.isOpen (n : MNode) : Bool := n.mode == .streaming && n.started && !n.done && !isSp n.base.toNat

/-- The lowest-needed address that an open window publishes (R89), as a data-area offset. -/
def MNode.lowest (n : MNode) : Int :=
  let (s1, s2) := (n.stride1.toInt, n.stride2.toInt)
  if 0 ≤ s1 ∧ 0 ≤ s2 then (n.base.toNat : Int) + s2 * n.pos.2.2
  else (n.base.toNat : Int) + min 0 (s1 * (n.count.2.1 - 1 : Nat)) + min 0 (s2 * (n.count.2.2 - 1 : Nat))

/-- The open stream windows of the package, each with its region. -/
def State.windows (s : State) : List (Region × MNode) :=
  s.tiles.flatMap fun t => match t.2.region.bind s.region? with
    | some r => (t.2.nodes.toList.filter MNode.isOpen).map fun n => (r, n)
    | none => []

/-! ## Migration (R69 to R71) -/

/-- low(a) of R70: the smallest lowest-needed address of the open windows of an ASID. -/
def State.lowNeeded (s : State) (asid : Nat) : Option Int :=
  (s.windows.filter fun w => w.1.asid == asid).foldl (fun (m : Option Int) w =>
    let a := (w.1.cons.dbase : Int) + w.2.lowest
    some (match m with | some x => min x a | none => a)) none

/-- Near-memory frames of a die that its migrator holds. -/
def Die.holds (d : Die) (frame : Nat) : Bool := d.migUsed.any fun x => x.1 == frame

/-- A page that the migrator may move (R70). See log entry 26 (DEDUCED). -/
def State.movablePage (s : State) (l : BitVec 64) : Bool :=
  let lo := pfn l * 65536
  let here (pa : Nat) : Bool := decide (lo ≤ pa ∧ pa < lo + 65536)
  lkind l == 0 && !lbit l 9 && !lbit l 5 &&
    s.tiles.all fun t => (t.2.deferred.all fun d => !here d.pa) && (t.2.watches.all fun w => !here (w.line * 64))

/-- Pages in near memory that no open window of their ASID needs any more (R70): ASID and virtual page. -/
def State.passedPages (s : State) (d : Die) : List (Nat × Nat) :=
  d.migUsed.filterMap fun x => match s.lowNeeded x.2.1 with
    | some low => if (x.2.2 * 65536 + 65535 : Int) < low then some x.2 else none
    | none => none

/-- The leaf entry of a page that the migrator of a die may move now, and where it lies. -/
def State.movableLeaf (s : State) (die asid vpn : Nat) : Option (BitVec 64 × Nat) :=
  match s.walkTables die asid (vpn * 65536) with
  | .ok l at_ => if !l.big && lhome l.bits == die && s.movablePage l.bits then some (l.bits, at_) else none
  | .fault _ _ => none

/-- The clock sweep of R70 over frames in order: the first page whose A bit is clear, A bits cleared on the way. -/
def State.sweep (s : State) (die : Nat) : List (Nat × Nat × Nat) → Option (Nat × Nat) × State
  | [] => (none, s)
  | (frame, asid, vpn) :: rest =>
    let s := s.modDie die fun d => { d with migHand := frame + 1 }
    match s.movableLeaf die asid vpn with
    | none => s.sweep die rest
    | some (l, at_) =>
      if !lbit l 6 then (some (asid, vpn), s)
      else State.sweep { s with mem := s.mem.write at_ (leBytes 8 (l.toNat - 64)) } die rest

def insertFrame (x : Nat × Nat × Nat) : List (Nat × Nat × Nat) → List (Nat × Nat × Nat)
  | [] => [x]
  | y :: ys => if x.1 ≤ y.1 then x :: y :: ys else y :: insertFrame x ys

/-- The victims of a demotion (R70): a page that the windows have passed, or the one that the clock sweep picks; with them
the state the choice leaves. Only a migrator without a free frame demotes: its quota is used up, or the frames that the
control cores have given it, which no register names. See log entry 26 (DEDUCED). -/
def State.victims (s : State) (die : Nat) : List (Nat × Nat) × State :=
  let d := s.die die
  let passed := (s.passedPages d).filter fun x => (s.movableLeaf die x.1 x.2).isSome
  if !passed.isEmpty then (passed, s)
  else
    let l := d.migUsed.foldr insertFrame []
    let l := (l.filter fun x => decide (d.migHand ≤ x.1)) ++ l.filter fun x => decide (x.1 < d.migHand)
    let (v, s) := s.sweep die (l ++ l)
    (v.toList, s)

/-- Pages of LPDDR that an open window will reach next (R70): of each window the first page ahead that the migrator may
move and that is not in near memory. -/
def State.wantedPages (s : State) (die : Nat) : List (Nat × Nat) :=
  s.windows.filterMap fun w =>
    (List.range (w.2.blocks - w.2.index)).findSome? fun i =>
      let vpn := (w.1.cons.dbase + w.2.addrOf (w.2.index + i)) / 65536
      match s.movableLeaf die w.1.asid vpn with
      | some (l, _) => if isNear (pfn l * 65536) then none else some (w.1.asid, vpn)
      | none => none

/-- Step 4 and 5 of R71: the bytes, the presence bits and the poison marks move, and the leaf names the new frame. Lines
that round buffers hold of the page move with it. See log entry 26 (DEDUCED). -/
def State.movePage (s : State) (at_ : Nat) (l : BitVec 64) (frame : Nat) : State :=
  let src := pfn l * 65536
  let dst := frame * 65536
  let s := forAll (fun s (v : Nat × VLine) =>
    if vLine v.1 / 65536 = pfn l then s.vWriteBack v.1 else s) s.visitor s
  let shifted (unit : Nat) (xs : List Nat) : List Nat :=
    let inOld := xs.filter fun x => decide (src ≤ x * unit ∧ x * unit < src + 65536)
    (inOld.map fun x => (dst + (x * unit - src)) / unit).foldl (fun m x => insertNat x m)
      (xs.filter fun x => !decide (dst ≤ x * unit ∧ x * unit < dst + 65536))
  let e : BitVec 64 := BitVec.ofNat 64 (l.toNat - src + dst)
  let m := Mem.write (Mem.write s.mem dst (Mem.read s.mem src 65536)) at_ (leBytes 8 e.toNat)
  let here (x : RndLine) : Bool := x.pa / 1024 == pfn l
  let held := s.tiles.flatMap fun t => t.2.rnd.filter here
  let s := forAll (fun s t => s.modTile t fun x => { x with rnd := x.rnd.filter fun y => !here y })
    ((s.tiles.filter fun t => t.2.rnd.any here).map (·.1)) s
  let s := forAll (fun s (x : RndLine) =>
    let y := { x with pa := frame * 1024 + x.pa % 1024 }
    s.modTile (s.homeTile (y.pa * 64)) fun t => { t with rnd := t.rnd ++ [y] }) held s
  { s with
    mem := m
    feEmpty := shifted 4 s.feEmpty
    poisonLines := shifted 64 s.poisonLines }

/-- Lanes that hold a translation into a frame and have not performed (R71). -/
def State.lanesInto (s : State) (frame : Nat) : List (Nat × Nat) :=
  s.ops.flatMap fun o => lanes.filterMap fun l =>
    match o.2.lanes.get l with
    | .port pa _ => if pa / 65536 == frame then some (o.1, l) else none
    | .granted pa leaf => if leaf ≠ 0 ∧ pa / 65536 = frame then some (o.1, l) else none
    | .deferred pa _ => if pa / 65536 == frame then some (o.1, l) else none
    | _ => none

/-- A page leaves the transit table of a die. -/
def Die.leaveTransit (d : Die) (asid vpn frame : Nat) : Die :=
  { d with transit := d.transit.filter fun m => !(m.asid == asid && m.vpn == vpn && m.frame == frame) }

/-- A move that can be made (R69, R70): a KIND 0 page whose HOME is the die, to the other kind of memory of the die, a
promotion within the quota and into a free frame. -/
def State.moveOk (s : State) (die : Nat) (l : Leaf) (frame : Nat) : Bool :=
  let d := s.die die
  let near := isNear (frame * 65536)
  !l.big && lkind l.bits == 0 && lhome l.bits == die && s.movablePage l.bits &&
    populated (frame * 65536) && paDie (frame * 65536) == Config.pkg * 8 + die && isNear (pfn l.bits * 65536) != near &&
    (if near then decide (d.migUsed.length < d.migquota.toNat) && !d.holds frame else d.holds (pfn l.bits))

/-- Steps 3 to 5 of R71, once every access already translated has performed. -/
def State.finishMove (s : State) (die asid vpn frame : Nat) (l : Leaf) (at_ : Nat) : State :=
  if !(s.lanesInto (pfn l.bits)).isEmpty then s
  else (s.movePage at_ l.bits frame).modDie die fun d => { d.leaveTransit asid vpn frame with
    migUsed := if isNear (frame * 65536) then d.migUsed ++ [(frame, asid, vpn)]
      else d.migUsed.filter fun x => x.1 != pfn l.bits }

/-- MIGRATION_MOVE (R69 to R71): promotion of a page into a near-memory frame, or demotion into LPDDR, of a page that the
migrator would pick. The page stands in the transit table until every access already translated has performed.
See log entry 26 (DEDUCED). -/
def execMigrationMove (die asid vpn frame : Nat) (s : State) : Host.Outcome State Fault Refusal :=
  let d := s.die die
  match s.walkTables die asid (vpn * 65536) with
  | .fault _ _ => .next (s.setDie die (d.leaveTransit asid vpn frame))
  | .ok l at_ =>
    if !s.moveOk die l frame then .next (s.setDie die (d.leaveTransit asid vpn frame))
    else if d.transit.any fun m => m.asid == asid && m.vpn == vpn && m.frame == frame then
      .next (s.finishMove die asid vpn frame l at_)
    else if !d.migEn ∨ 16 ≤ d.transit.length then .next s
    else
      let (picked, s') : List (Nat × Nat) × State :=
        if isNear (frame * 65536) then (let w := s.wantedPages die; (if w.isEmpty then [(asid, vpn)] else w, s))
        else s.victims die
      if !picked.contains (asid, vpn) then .next s
      else match s'.walkTables die asid (vpn * 65536) with
        | .fault _ _ => .next s
        | .ok l at_ =>
          let s := (s'.shootFrame (pfn l.bits)).modDie die fun d => { d with transit := d.transit ++ [⟨asid, vpn, frame, at_⟩] }
          .next (s.finishMove die asid vpn frame l at_)

/-! ## Visitor ways (R57) -/

/-- VISCFG_CHANGE_DONE (R57): the die's visitor lines are written back and gone, and the new split applies. -/
def execViscfgChangeDone (die : Nat) (s : State) : Host.Outcome State Fault Refusal :=
  if !(s.die die).visBusy then .next s
  else
    let s := forAll (fun s (v : Nat × VLine) => if v.1 / 2 ^ 46 = die then s.vWriteBack v.1 else s) s.visitor s
    let s : State := { s with visitor := s.visitor.filter fun v => v.1 / 2 ^ 46 != die }
    .next (s.modDie die fun d => { d with vways := d.visNew, visBusy := false })

/-! ## Streaming nodes (R89, R267) -/

def State.modNode (s : State) (t n : Nat) (f : MNode → MNode) : State :=
  s.modTile t fun x => { x with nodes := x.nodes.set n (f (x.nodes.get n)) }

/-- The round that the tokens of a node belong to. -/
def Region.nodeRound (r : Region) (t n : Nat) : Nat :=
  match r.cut with
  | some c => if (c.nodes.get? (t * 4 + n)).isSome then r.round + 1 else r.round
  | none => r.round

/-- STREAM_NODE_START (R89): the start token has reached the node's tile. -/
def execStreamNodeStart (t n : Nat) (s : State) : Host.Outcome State Fault Refusal :=
  let x := (s.tile t).nodes.get n
  if (s.tile t).started && x.mode == .streaming && !x.started then .next (s.modNode t n fun x => { x with started := true })
  else .next s

/-- The node reads the next block of its pattern into the staging buffer, a beat of the node for the sketches (R338).
See log entry 20 (DEDUCED). -/
def State.nodeRead (s : State) (t n : Nat) : State :=
  let x := (s.tile t).nodes.get n
  let i := x.index + x.buf.length
  let e := t * 32 + x.owner
  if !x.started || x.done || x.broken || x.held.isSome || decide (64 ≤ x.buf.length) || decide (x.blocks ≤ i) then s
  else match (s.tile t).region with
    | none => s
    | some rg =>
      match s.region? rg with
      | none => s
      | some r =>
        let a := x.addrOf i
        let tok (bs : List Byte) : Tok :=
          { kind := .data, tag := x.tag, lvm := 0xFF, data := Oct.of fun l => BitVec.ofNat 32 (natAt bs (4 * l) 4), stamp := 0, round := 0 }
        let put (y : Tok) (s : State) : State :=
          (s.modNode t n fun x => { x with buf := x.buf ++ [y] }).sketch (dieOfTile t) 3 0xFFFFFFFF r.run
        if isSp a then
          match s.spKey (some rg) a with
          | some key => put (if s.spmPoison key 32 then poisonTok unknownPa 0 else tok (s.spm.read key 32)) s
          | none =>
            let s := s.modNode t n fun x => { x with broken := true }
            s.stall e 8 .work 0x1F true (s.elem e).fires (s.elem e).round 0xFF 0
        else
          let va := r.cons.dbase + a
          match s.tlbFind r.die r.asid va .node with
          | none => s.wantWalk r.die r.asid ⟨.node t n, .node, va, elidOf e, some rg⟩
          | some lf =>
            let s := s.tlbUse r.die r.asid va lf
            if !s.reachable (lf.pa va) then s else
            let acc : Acc := { who := ⟨e, .work, 16, (s.elem e).fires⟩, rg := some rg, die := r.die, scope := .domain
                               skip := none, fabric := false, home := false, atom := false, round := r.nodeRound t n, st := 0 }
            match s.readAt acc lf.bits a (lf.pa va) 32 with
            | some (bs, pz, s) => put (if pz then poisonTok (lf.pa va / 64 * 64) 0 else tok bs) s
            | none => s

/-- STREAM_NODE_SEND (R89, R267, R289): one token leaves when its channel has room, the MARK of an open cut first; and
the node reads ahead by one block. See log entry 20 (DEDUCED). -/
def execStreamNodeSend (t n : Nat) (s : State) : Host.Outcome State Fault Refusal :=
  let x := (s.tile t).nodes.get n
  match (s.tile t).region with
  | none => .next s
  | some rg =>
    match s.region? rg, s.replyPort (t * 32 + x.owner) .work x.reply with
    | some r, some p =>
      let next : Option (Tok × MNode) :=
        if x.markDue then some (markTok r.round, { x with markDue := false })
        else if x.stopCut || !x.started || x.done then none
        else match x.buf with
          | b :: rest => some ({ b with round := r.nodeRound t n }, { x with buf := rest, pos := x.posOf (x.index + 1) })
          | [] => if x.blocks ≤ x.index then some (eosTok (r.nodeRound t n), { x with done := true }) else none
      let s := match next with
        | some (y, x') =>
          if s.portSpace t p then ((s.modNode t n fun _ => x').sendTo (nodeSrc t n) 0 t p y none).stir (some rg) else s
        | none => s
      .next (s.nodeRead t n)
    | _, _ => .next s

end Sys2Proof.Machine
end

