-- ==== Sys2Proof/Machine/Shunter.lean ====
section
/-! DEFINITION. The shunter (R269 to R285): launches, walks and graph records, placement and gangs, loading and
starting a consist, its completion, aborts and urgent launches. -/
namespace Sys2Proof.Machine

/-! ## What a walk reads and writes -/

/-- The first page of a run of virtual addresses that a kind of access may not use. -/
def State.badPage (s : State) (die asid va : Nat) (a : Access) : Nat → Nat → Option (Nat × XReason × Nat)
  | 0, _ => none
  | fuel + 1, n =>
    if n = 0 then none
    else
      let m := min n (65536 - va % 65536)
      match s.slicePass die asid va a with
      | .inl (r, level) => some (va, r, level)
      | .inr _ => s.badPage die asid (va + m) a fuel (n - m)

/-- A fault of the shunter's own access is recorded (R72); the walk is held unless the access is a fetch (R73, R284). One
that meets a fault held on its page in its slice joins it: one record, and both resume together (R74). -/
def State.shunterFault (s : State) (w : Nat) (x : Walk) (die va : Nat) (a : Access) (r : XReason) (level : Nat) : State :=
  let t := s.tlbTile die x.asid va
  let q : Req := ⟨.shunter w, a, va, 0, none⟩
  let hold (s : State) (tag : Nat) : State := if q.holds then s.modWalk w fun y => { y with held := some tag } else s
  let twin := s.pwalks.find? fun p => p.2.tile == t && p.2.asid == x.asid && p.2.va / 65536 == va / 65536 &&
    p.2.fault.isSome && p.2.kept
  match twin with
  | some (k, p) =>
    let tag := match p.fault with | some (_, _, t) => t | none => 0
    hold { s with pwalks := s.pwalks.put k (if q.holds then p.join q else p) } tag
  | none =>
    let (k, s) := s.fresh
    let (tag, s) := s.freshTag
    let p : PWalk := ⟨die, t, x.asid, va, a, [q], some (r, level, tag), false, 0, none⟩
    let s : State := { s with pwalks := s.pwalks.put k p }
    hold (s.modDie die fun d => { d with xlateQ := d.xlateQ ++ [k] }) tag

/-- The record of a fetch that failed. -/
def State.fetchFault (s : State) (w : Nat) (x : Walk) (die va n : Nat) : State :=
  match s.badPage die x.asid va .fetch (n / 65536 + 2) n with
  | some (bad, r, level) => s.shunterFault w x die bad .fetch r level
  | none => s

/-- Bytes that a walk reads as data at domain scope; nothing when the walk is held for them. -/
def State.shunterRead (s : State) (w : Nat) (x : Walk) (va n : Nat) : Option (List Byte) × State :=
  if s.runInTransit x.die x.asid va n then (none, s)
  else match s.readVirt x.die x.asid va .load 3 n with
    | some (b, s) => (some b, s)
    | none =>
      match s.badPage x.die x.asid va .load 3 n with
      | some (bad, r, level) => (none, s.shunterFault w x x.die bad .load r level)
      | none => (none, s)

/-- Bytes within one page that a walk writes at domain scope: false when the walk is held for them. -/
def State.shunterWrite (s : State) (w : Nat) (x : Walk) (va : Nat) (bs : List Byte) : Bool × State :=
  if s.inTransit x.die x.asid va then (false, s)
  else match s.slicePass x.die x.asid va .store with
    | .inr (lf, s) => (true, s.applyHome 2 none [x.run] (bs.zipIdx.map fun b => (lf.pa va + b.2, b.1)))
    | .inl (r, level) => (false, s.shunterFault w x x.die va .store r level)

def State.irq (s : State) (die : Nat) : State := s.modDie die fun d => { d with coreIrq := true }

/-! ## Graph records (R273) -/

def zerosAt (b : List Byte) (off n : Nat) : Bool := natAt b off n == 0
def vaOk (n : Nat) : Bool := decide (n < 2 ^ 48)

/-- The reserved fields and limits of a record other than CONSIST. See log entry 57 (DEDUCED). -/
def recordOk (b : List Byte) : Bool :=
  let f (off n : Nat) : Nat := natAt b off n
  let z (off n : Nat) : Bool := zerosAt b off n
  match f 0 1 with
  | 2 => decide (1 ≤ f 1 1 ∧ f 1 1 ≤ 16) && fld (f 2 2) 9 6 == 0 && f 4 4 % 32 == 0 && f 8 4 != 0 && z 12 20
  | 3 => decide (f 1 1 ≤ 3) && fld (f 2 2) 9 7 == 0 && decide (f 12 1 ≤ 6) && z 14 2 && f 16 8 % 4 == 0 && vaOk (f 16 8) &&
      z 24 8
  | 4 => decide (f 1 1 ≤ 1) && z 2 30
  | 5 => decide (f 1 1 ≤ 3) && z 2 2 && z 8 8 && f 16 8 % 4 == 0 && vaOk (f 16 8) && z 24 8
  | 6 => decide (f 1 1 ≤ 6) && z 2 2 && z 12 4 && vaOk (f 16 8) && f 24 8 % 32 == 0 && vaOk (f 24 8)
  | 7 => z 1 23 && f 24 8 % 32 == 0 && vaOk (f 24 8)
  | 8 => z 1 31
  | 9 => z 1 31
  | _ => false

/-- REL (R273). -/
def relHolds (rel : Nat) (v c : W) : Bool :=
  match rel with
  | 0 => v == c
  | 1 => v != c
  | 2 => decide (v.toNat < c.toNat)
  | 3 => decide (c.toNat ≤ v.toNat)
  | 4 => decide (v.toInt < c.toInt)
  | 5 => decide (c.toInt ≤ v.toInt)
  | _ => true

/-- (v and MASK) REL CMP of a WAIT or BRANCH record. See log entry 57 (DEDUCED). -/
def condHolds (b : List Byte) (rel : Nat) (v : W) : Bool :=
  relHolds rel (v &&& BitVec.ofNat 32 (natAt b 8 4)) (BitVec.ofNat 32 (natAt b 4 4))

/-- A walk that is at a record and can act. -/
def State.walkAt (s : State) (w : Nat) : Option Walk :=
  (s.walks.get? w).bind fun x => if x.phase = .fetch ∧ x.held = none then some x else none

/-- The record a walk stands at, when it has a kind. -/
def State.recordAt (s : State) (w kind : Nat) : Option (Walk × List Byte × State) :=
  match s.walkAt w with
  | none => none
  | some x =>
    if s.runInTransit x.die x.asid x.pc 32 then none
    else match s.fetchVirt x.die x.asid x.pc 32 with
    | some (b, s) => if natAt b 0 1 = kind then some (x, b, s) else none
    | none => none

/-- The walk goes on behind n records. -/
def State.nextRecord (s : State) (w n : Nat) : State :=
  s.modWalk w fun x => { x with pc := x.pc + 32 * n, phase := .fetch, record := [] }

/-! ## Regions of a walk -/

/-- The regions of a walk: of its current consist, and one that is being placed. -/
def State.walkRegions (s : State) (w : Nat) : List Nat := (s.regions.filter fun r => r.2.walk == w).map (·.1)

def isComplete (r : Region) : Bool := match r.phase with | .complete => true | _ => false

/-- The consist of a walk is over: none runs, or every region of it has completed. -/
def State.consistOver (s : State) (x : Walk) : Bool :=
  match x.region with
  | none => true
  | some r => (s.gangRegions r).all fun k => match s.region? k with | some y => isComplete y | none => true

/-- Release every region of a walk's current consist. -/
def State.releaseCurrent (s : State) (w : Nat) (x : Walk) : State :=
  match x.region with
  | none => s
  | some r =>
    (forAll (fun s k => s.release k true) (s.gangRegions r) s).modWalk w fun y => { y with region := none }

/-! ## A load that fails (R42, R283) -/

def isFresh (r : Region) : Bool := match r.phase with | .reserved => true | .loading => true | .ready => true | _ => false

/-- Clear the VALID mask of every idle plane of a region and what it has staged. -/
def State.clearIdle (s : State) (r : Region) : State :=
  { s with elems := s.elems.map fun x =>
      if r.tiles.contains (tileOf x.1) then
        (x.1, if x.2.onB then { x.2 with planeA := { x.2.planeA with valid := 0 }, staged := none, ready := false }
              else { x.2 with planeB := { x.2.planeB with valid := 0 }, staged := none, ready := false })
      else x }

/-- CONFIG_FETCH_FAULT: the load stops, the idle planes it wrote are cleared, regions placed for it are released, and
the run ends with STATE 3 once its current consist has completed. -/
def State.loadFailed (s : State) (w : Nat) (f : LoadFault) : State :=
  let mine := s.walkRegions w
  let s := forAll (fun s k =>
    match s.region? k with
    | some r => if isFresh r then (s.clearIdle r).release k false
                else if r.next.isSome then (s.clearIdle r).setRegion k { r with next := none } else s
    | none => s) mine s
  s.modWalk w fun x => { x with
    phase := .ending, state := 3, reason := f.reason.code, slot := f.slot, elem := f.col + 256 * f.row, gang := [] }

/-! ## Launches (R269 to R272, R287) -/

/-- LAUNCH_WRITE: a write to LAUNCHn queues a launch, or sets OVF when the queue is full. -/
def execLaunchWrite (die prio : Nat) (v : BitVec 64) (s : State) : Host.Outcome State Fault Refusal :=
  let d := s.die die
  let n := prio % 4
  let s := s.setDie die { d with shunterGated := false }
  if 16 ≤ (d.launchQ.filter fun l => l.prio == n).length then
    .next (s.modDie die fun d => { d with ovf := d.ovf ||| BitVec.ofNat 4 (2 ^ n) })
  else
    let l : Launch := ⟨(s.now.toNat, Config.pkg, die, d.launched.toNat), n, fld v.toNat 5 47 * 32⟩
    .next (s.modDie die fun d => { d with launchQ := d.launchQ ++ [l], launched := d.launched + 1 })

def isOver (x : Walk) : Bool := match x.phase with | .finished => true | _ => false

/-- The launch a free walk slot takes: the oldest of the highest priority. -/
def nextLaunch (q : List Launch) : Option Launch :=
  [3, 2, 1, 0].findSome? fun p => q.find? fun l => l.prio == p

/-- WALK_START: a walk reads its descriptor without translation. -/
def execWalkStart (die : Nat) (s : State) : Host.Outcome State Fault Refusal :=
  let d := s.die die
  match nextLaunch d.launchQ with
  | none => .next s
  | some l =>
    if d.shunterGated || s.boot.failure ≠ 0 ||
        decide (32 ≤ (s.walks.filter fun w => w.2.die == die && !isOver w.2).length) then .next s
    else
      let s := s.setDie die { d with launchQ := d.launchQ.filter (· ≠ l) }
      let b := s.mem.read l.desc 32
      let result := natAt b 8 8
      if result % 32 ≠ 0 ∨ 2 ^ 48 ≤ result then
        .next ((s.modDie die fun d => { d with baddesc := true }).irq die)
      else
        let first := natAt b 0 8
        let bad := decide (first % 32 ≠ 0 ∨ 2 ^ 48 ≤ first) || fld (natAt b 16 2) 12 4 != 0 || natAt b 18 2 != 0 ||
          natAt b 24 8 != 0
        let (k, s) := s.fresh
        let x : Walk := { die := die, prio := l.prio, lsn := l.lsn, desc := l.desc, asid := fld (natAt b 16 2) 0 12
                          run := BitVec.ofNat 32 (natAt b 20 4), result := result, pc := first, stack := []
                          phase := if bad then .writing else .fetch, region := none, prev := none, gang := []
                          consists := 0, trail := 0, abandon := 0, state := if bad then 2 else 0
                          cause := if bad then 7 else 0, reason := 0, slot := 0, elem := 0, unit := 0, use := 0, seq := 0
                          record := [], gates := [], held := none, blocked := false }
        .next { s with walks := s.walks.put k x }

/-! ## Placement (R276 to R279) -/

/-- The records of the step a walk is at. -/
def Walk.cons (x : Walk) (m : Nat) : Consist := consistOf (bytesAt x.record (32 * m) 32)
def Walk.count (x : Walk) : Nat := x.record.length / 32

/-- Shape of the image of a consist, or the fault of its header. -/
def State.shapeOf (s : State) (x : Walk) (c : Consist) : LoadFault ⊕ ((Nat × Nat) × State) :=
  let die := if c.fixed then fld c.place 0 3 else x.die
  match s.fetchVirt die x.asid c.image 96 with
  | none => .inl ⟨.fetch, 0xF, 0, 0⟩
  | some (hdr, s) =>
    match headerFault hdr with
    | some f => .inl f
    | none => .inr ((imgWidth hdr, imgHeight hdr), s)

/-- The page of a header is moving, so that the fetch waits (R71). -/
def State.headInTransit (s : State) (x : Walk) (c : Consist) : Bool :=
  (c.pkg == Config.pkg || !c.fixed) && s.runInTransit (if c.fixed then fld c.place 0 3 else x.die) x.asid c.image 96

/-- A consist can be loaded into a region that the walk holds (R280), where its EDGES also lie on the die boundary (R273).
See log entry 100 (DEDUCED). -/
def Region.fits (r : Region) (c : Consist) (w h : Nat) : Bool :=
  r.w == w && r.h == h && r.cons.place == c.place && r.cons.gang == c.gang && r.cons.isGang == c.isGang &&
    edgesMet c.edges r.trow r.tcol h w

/-- The first members that record no shape, or all shapes. -/
def State.shapesOf (s : State) (x : Walk) : List Consist → LoadFault ⊕ (List (Nat × Nat) × State)
  | [] => .inr ([], s)
  | c :: cs =>
    if c.pkg ≠ Config.pkg ∧ c.fixed then
      match s.shapesOf x cs with
      | .inl f => .inl f
      | .inr (l, s) => .inr ((0, 0) :: l, s)
    else match s.shapeOf x c with
      | .inl f => .inl f
      | .inr (wh, s) =>
        match s.shapesOf x cs with
        | .inl f => .inl f
        | .inr (l, s) => .inr (wh :: l, s)

/-- CONSIST_RECORD (R274, R278, R280): one consist, or the members of a gang as one step. It is loaded into the
regions of the current consist when they fit, and placed otherwise. -/
def execConsistRecord (w : Nat) (s : State) : Host.Outcome State Fault Refusal :=
  match s.recordAt w 1 with
  | none => .next s
  | some (x, b, s) =>
    let c := consistOf b
    if !c.reservedOk then .next (s.abortWalk w 7)
    else
      let n := if c.isGang then c.last + 1 else 1
      if s.runInTransit x.die x.asid x.pc (32 * n) then .next s
      else match s.fetchVirt x.die x.asid x.pc (32 * n) with
      | none => .next ((s.fetchFault w x x.die x.pc (32 * n)).loadFailed w ⟨.fetch, 0xF, 0, 0⟩)
      | some (all, s) =>
        let x := { x with record := all }
        let cs := (List.range n).map x.cons
        let ok := cs.zipIdx.all fun m => m.1.limitsOk (if c.isGang then some m.2 else none) &&
          (!c.isGang || (m.1.isGang && m.1.last == c.last))
        let s := s.modWalk w fun y => { y with record := all }
        if !cs.zipIdx.all fun m => m.1.reservedOk && natAt all (32 * m.2) 1 == 1 then .next (s.abortWalk w 7)
        else if !ok then .next (s.loadFailed w ⟨.table, 0xF, 0, 0⟩)
        else if cs.any fun c => s.headInTransit x c then .next s
        else match s.shapesOf x cs with
          | .inl f =>
            let s := if f.reason = .fetch then
                (match cs.find? fun c => (s.fetchVirt (if c.fixed then fld c.place 0 3 else x.die) x.asid c.image 96).isNone with
                 | some c => s.fetchFault w x (if c.fixed then fld c.place 0 3 else x.die) c.image 96
                 | none => s)
              else s
            .next (s.loadFailed w f)
          | .inr (shapes, s) =>
            let held := match x.region with | some r => s.gangRegions r | none => []
            let own (m : Nat) : Bool := (cs.getD m c).pkg == Config.pkg || !(cs.getD m c).fixed
            let local' := (List.range n).filter own
            let reuse := !held.isEmpty && held.length == local'.length && held.all fun k =>
              match s.region? k with
              | some r =>
                let m := if c.isGang then r.member else 0
                let wh := shapes.getD m (0, 0)
                decide (m < n) && r.fits (cs.getD m c) wh.1 wh.2
              | none => false
            if reuse then .next (s.modWalk w fun y => { y with phase := .loading (held.headD 0), gang := held })
            else .next (s.modWalk w fun y => { y with phase := .placing, gang := [] })

/-- Take a rectangle for member m of a walk's step. -/
def State.takeRect (s : State) (w : Nat) (x : Walk) (m : Nat) (phase : Phase) (wh : Nat × Nat)
    (blocks : Region → Bool) : Option (Nat × State) :=
  let c := x.cons m
  let die := if c.fixed then fld c.place 0 3 else x.die
  if c.share ≤ s.freeWheel.length then
    match s.findRect die wh.1 wh.2 c.edges blocks with
    | some (tr, tc) =>
      some (s.placeRegion (freshRegion w x die tr tc wh.1 wh.2 c (s.wheelFor c.share) phase s.tick))
    | none => none
  else none

/-- PLACEMENT_ATTEMPT (R16, R276): the current consist completes and is released first; then the lowest rectangle is
taken, or the placement waits. -/
def execPlacementAttempt (w : Nat) (s : State) : Host.Outcome State Fault Refusal :=
  match s.walks.get? w with
  | none => .next s
  | some x =>
    if x.phase ≠ .placing then .next s
    else if x.region.isSome then
      if s.consistOver x then .next (s.releaseCurrent w x) else .next s
    else
      let c := x.cons 0
      if c.isGang then .next (s.modWalk w fun y => { y with phase := .gang (List.range x.count) })
      else if c.fixed && c.pkg != Config.pkg || s.headInTransit x c then .next s
      else match s.shapeOf x c with
        | .inl f => .next (s.loadFailed w f)
        | .inr (wh, s) =>
          match s.takeRect w x 0 .loading wh (fun _ => true) with
          | none => .next s
          | some (k, s) => .next (s.modWalk w fun y => { y with phase := .loading k, gang := [k] })

def lsnLt (a b : Nat × Nat × Nat × Nat) : Bool :=
  decide (a.1 < b.1) || (a.1 == b.1 && (decide (a.2.1 < b.2.1) || (a.2.1 == b.2.1 &&
    (decide (a.2.2.1 < b.2.2.1) || (a.2.2.1 == b.2.2.1 && decide (a.2.2.2 < b.2.2.2))))))

/-- A gang gives up its reservations, and reserves again once something has been released on one of its dies (R279). -/
def State.dropReservations (s : State) (w : Nat) : State :=
  let mine := (s.regions.filter fun r => r.2.walk == w && isReserved r.2).map (·.1)
  (forAll (fun s k => s.release k false) mine s).modWalk w fun y => { y with
    phase := match y.phase with | .gang _ => .gang (List.range y.count) | p => p
    gang := if mine.isEmpty then y.gang else [], blocked := true }

/-- Reservations of other gangs that leave no room for member m: those that overlap the rectangle it would take, or
all that own wheel entries when those run short. -/
def State.collides (s : State) (w : Nat) (x : Walk) (m : Nat) (wh : Nat × Nat) : List Nat :=
  let c := x.cons m
  let die := if c.fixed then fld c.place 0 3 else x.die
  let others := s.regions.filter fun r => isReserved r.2 && r.2.walk != w
  let wheel := if s.freeWheel.length < c.share then others.filter fun r => !r.2.wheel.isEmpty else []
  let rect := match s.findRect die wh.1 wh.2 c.edges (fun r => !isReserved r || r.walk == w) with
    | some (tr, tc) => others.filter fun r => r.2.die == die && rectsMeet tr tc wh.2 wh.1 r.2.trow r.2.tcol r.2.h r.2.w
    | none => []
  (wheel ++ rect).map (·.2.walk)

/-- GANG_RESERVE (R279): one member takes a reservation. In a collision the gang of greater LSN gives up all it holds,
and the other takes the room at once; when the last member has its reservation, every member is loaded. For a member of
another package this is the report of that package's shunter. See log entry 56 (DEDUCED). -/
def execGangReserve (w m : Nat) (s : State) : Host.Outcome State Fault Refusal :=
  match s.walks.get? w with
  | none => .next s
  | some x =>
    match x.phase with
    | .gang left =>
      let c := x.cons m
      if !left.contains m || x.blocked || s.headInTransit x c then .next s
      else
        let settle (s : State) (k : Option Nat) : State :=
          let rest := left.filter (· ≠ m)
          let g := x.gang ++ k.toList
          if rest.isEmpty then
            let peers := (List.range x.count).filterMap fun i =>
              if (x.cons i).pkg = Config.pkg then none else some (i, (x.cons i).pkg)
            let s := forAll (fun s k => s.modRegion k fun r => { r with phase := .loading, gangId := some w, peers := peers }) g s
            s.modWalk w fun y => { y with phase := .loading (g.headD 0), gang := g }
          else s.modWalk w fun y => { y with phase := .gang rest, gang := g }
        if c.pkg ≠ Config.pkg then .next (settle s none)
        else match s.shapeOf x c with
          | .inl f => .next (s.loadFailed w f)
          | .inr (wh, s) =>
            match s.takeRect w x m .reserved wh (fun _ => true) with
            | some (k, s) => .next (settle s (some k))
            | none =>
              let foes := s.collides w x m wh
              let older (v : Nat) : Bool := match s.walks.get? v with | some y => lsnLt y.lsn x.lsn | none => false
              if foes.isEmpty then .next s
              else if foes.any older then .next (s.dropReservations w)
              else
                let s := forAll (fun s v => s.dropReservations v) foes s
                match s.takeRect w x m .reserved wh (fun _ => true) with
                | some (k, s) => .next (settle s (some k))
                | none => .next s
    | _ => .next s

/-! ## Loading (R280, R281, R285) -/

/-- The gateway list of a gang (R278): member 0's data area, read with fetch accesses, so that its pages need I.
See log entry 86 (DESIGN CHOICE). -/
def State.gateList (s : State) (x : Walk) : Option (List Byte × State) :=
  let c := x.cons 0
  if !c.isGang then some ([], s) else s.fetchVirt x.die x.asid (c.dbase + c.gwoff) (16 * fld c.gang.toNat 0 14)
def gateRecs (b : List Byte) : List ChanRec := (List.range (b.length / 16)).map fun i => chanRec b (16 * i)

/-- Head tokens of the six inputs of an element are RECON. -/
def State.reconReady (s : State) (e : Nat) : Bool :=
  (List.range 6).all fun ch => match (s.port (portKey e 0 ch)).queue with
    | t :: _ => (match t.kind with | .recon => true | _ => false)
    | [] => false

def reconTok : Tok := { kind := .recon, tag := .raw, lvm := 0, data := Oct.rep 0 }

/-- RECON is released for the elements of an old consist (R281). -/
def State.sendRecon (s : State) (e : Nat) : State :=
  forAll (fun s ch =>
    let p := portKey e 0 ch
    match (s.port p).branch with
    | some b => (s.modPort p fun x => { x with win := x.win + 1, known := x.known + 1 }).launch (tileOf b.prod) p reconTok
    | none => s.modPort p fun x => { x with queue := x.queue ++ [reconTok], win := x.win + 1, known := x.known + 1 })
    (List.range 6) s

/-- The image a region swaps to. -/
def Region.newBytes (r : Region) : List Byte :=
  match r.next with | some y => y.2.bytes | none => (match r.image with | some im => im.bytes | none => [])

/-- The last element has swapped: the tables of every region are set, and the banks begin to pass (R280 step 5). -/
def State.finishSwap (s : State) (w : Nat) : State :=
  match s.walks.get? w with
  | none => s
  | some x =>
    let swapping (k : Nat) : Bool := match s.region? k with
      | some r => (match r.phase with | .swapping => true | _ => false)
      | none => false
    let waits (k : Nat) : Bool := match s.region? k with
      | some r => r.tiles.any fun t => (List.range 32).any fun i => (s.elem (t * 32 + i)).ready
      | none => false
    if !(x.gang.all fun k => swapping k && !waits k) then s
    else
      let s := forAll (fun s k =>
        match s.region? k with
        | none => s
        | some r =>
          let r := match r.next with | some y => { r with cons := y.1, image := some y.2, next := none } | none => r
          let s := s.setRegion k { r with
            phase := .banks, done := x.consists, startTime := 0, t0 := 0, halted := false }
          let s := forAll (fun s t => s.modTile t fun y => { y with started := false, startDue := none, passed := false })
            r.tiles s
          s.installTables k) x.gang s
      s.installGates x.gang (gateRecs x.gates)

/-- The regions of a walk's step are ready: the swap begins once no region still runs the previous consist. -/
def State.beginSwap (s : State) (w : Nat) : State :=
  match s.walks.get? w with
  | none => s
  | some x =>
    match x.phase with
    | .prevDone _ =>
      let can (k : Nat) : Bool := match s.region? k with
        | some r => (match r.phase with | .ready => true | .complete => true | _ => false)
        | none => false
      if !x.gang.all can then s
      else
        forAll (fun s k =>
          match s.region? k with
          | none => s
          | some r =>
            let old := s.regionElems k
            let new := (r.members r.newBytes).map (·.1)
            let s := s.setRegion k { r with phase := .swapping }
            let s := forAll (fun s e => s.modElem e fun y => { y with ready := true }) (old ++ new) s
            if isComplete r then forAll (fun s e => s.sendRecon e) (old ++ new.filter fun e => !old.contains e) s else s)
          x.gang s |>.finishSwap w
    | _ => s

/-- Every element of every region of the step has reported its plane ready. -/
def State.allReady (s : State) (x : Walk) : Bool :=
  x.gang.all fun k => match s.region? k with
    | some r => (match r.coming with
      | some y => (r.members y.2.bytes).all fun m => (s.elem m.1).ready
      | none => false)
    | none => false

/-- When all are ready, new regions are ready to start and the walk waits for the previous consist. -/
def State.readyCheck (s : State) (w : Nat) : State :=
  match s.walks.get? w with
  | none => s
  | some x =>
    match x.phase with
    | .loading r =>
      if !s.allReady x then s
      else
        let s := forAll (fun s k => s.modRegion k fun y => if isFresh y then { y with phase := .ready } else y) x.gang s
        (s.modWalk w fun y => { y with phase := .prevDone r }).beginSwap w
    | _ => s

/-- Images of the regions of a step, fetched one after another. -/
def State.fetchAll (s : State) (w : Nat) (x : Walk) (gates : List ChanRec) : List Nat → State
  | [] => s
  | k :: ks =>
    match s.region? k with
    | none => s
    | some r =>
      let c := x.cons (if r.gangId.isSome then r.member else 0)
      match s.fetchImage r c gates with
      | .inl f =>
        let s := if f.reason = .fetch then
            let n := match s.fetchVirt r.die r.asid c.image 96 with | some (h, _) => imgLength h | none => 96
            (match s.badPage r.die r.asid c.image .fetch (n / 65536 + 2) n with
             | some (bad, q, lv) => s.shunterFault w x r.die bad .fetch q lv
             | none => s.fetchFault w x r.die c.dbase (r.w * r.h * 256))
          else s
        s.loadFailed w f
      | .inr (im, s) =>
        let s := if isFresh r then s.setRegion k { r with cons := c, image := some im }
                 else s.setRegion k { r with next := some (c, im) }
        State.fetchAll (s.writePlanes r im.bytes) w x gates ks

/-- A page that the load of a step reads is moving, so that the load waits (R71). -/
def State.loadInTransit (s : State) (x : Walk) : Bool :=
  (x.gang.any fun k => match s.region? k with
    | some r =>
      let c := x.cons (if r.gangId.isSome then r.member else 0)
      s.runInTransit r.die r.asid c.image 96 || s.runInTransit r.die r.asid c.dbase (r.w * r.h * 256) ||
        (match s.fetchVirt r.die r.asid c.image 96 with
         | some (h, _) => s.runInTransit r.die r.asid c.image (imgLength h)
         | none => false)
    | none => false) ||
  ((x.cons 0).isGang && s.runInTransit x.die x.asid ((x.cons 0).dbase + (x.cons 0).gwoff) (16 * fld (x.cons 0).gang.toNat 0 14))

/-- IMAGE_PREFETCH (R41, R42): images and tile maps are fetched and validated, and the idle planes written. -/
def execImagePrefetch (w : Nat) (s : State) : Host.Outcome State Fault Refusal :=
  match s.walks.get? w with
  | none => .next s
  | some x =>
    match x.phase with
    | .loading _ =>
      if x.gang.any fun k => match s.region? k with | some r => r.coming.isSome | none => false then .next s
      else if s.loadInTransit x then .next s
      else match s.gateList x with
        | none =>
          let c := x.cons 0
          .next ((s.fetchFault w x x.die (c.dbase + c.gwoff) (16 * fld c.gang.toNat 0 14)).loadFailed w ⟨.fetch, 0xF, 0, 0⟩)
        | some (b, s) =>
          .next (((s.fetchAll w x (gateRecs b) x.gang).modWalk w fun y => { y with gates := b }).readyCheck w)
    | _ => .next s

/-- PLANE_READY (R280): an element reports its plane ready. -/
def execPlaneReady (e : Nat) (s : State) : Host.Outcome State Fault Refusal :=
  match (s.tile (tileOf e)).region with
  | none => .next s
  | some k =>
    match s.region? k with
    | none => .next s
    | some r =>
      match r.coming with
      | none => .next s
      | some y =>
        if (r.members y.2.bytes).any fun m => m.1 == e then
          .next ((s.modElem e fun x => { x with ready := true }).readyCheck r.walk)
        else .next s

/-- PLANE_SWAP (R281): in a new region at once; otherwise with RECON at the head of every input, no firing in flight
and no urgent work. -/
def execPlaneSwap (e : Nat) (s : State) : Host.Outcome State Fault Refusal :=
  match (s.tile (tileOf e)).region with
  | none => .next s
  | some k =>
    match s.region? k with
    | none => .next s
    | some r =>
      let x := s.elem e
      let new := r.next.isNone
      let ok : Bool := match r.phase with
        | .swapping => x.ready && (new || (s.reconReady e && x.inflight.isEmpty)) && !x.inS
        | _ => false
      if !ok then .next s
      else
        let s := if new then s else
          forAll (fun s ch => s.modPort (portKey e 0 ch) fun p => { p with queue := p.queue.drop 1 }) (List.range 6) s
        .next ((s.swapElem k r r.newBytes e).finishSwap r.walk)

/-- Every bank of a region has its token. -/
def State.banksHeld (s : State) (r : Region) : Bool :=
  r.tiles.all fun t => (s.tile t).banks.toList.all fun b => b.token

/-- BANK_TOKEN_GRANT (R85): one bank passes; the start instant of a consist that is no gang member is the tick after
the last grant. -/
def execBankTokenGrant (k t b : Nat) (s : State) : Host.Outcome State Fault Refusal :=
  match s.region? k with
  | none => .next s
  | some r =>
    match r.phase with
    | .banks =>
      if !r.tiles.contains t || ((s.tile t).banks.get (b % 16)).token then .next s
      else
        let s := s.takeBank r t (b % 16)
        if r.gangId.isNone && s.banksHeld r then .next (s.startRamp k (s.tick + 1) s.clock) else .next s
    | _ => .next s

/-- GANG_COMMIT (R279): every member is ready; the start instant lies 2 µs ahead on the time base. In a gang with members
in another package this is the word that they are ready as well. See log entry 56 (DEDUCED). -/
def execGangCommit (w : Nat) (s : State) : Host.Outcome State Fault Refusal :=
  match s.walks.get? w with
  | none => .next s
  | some x =>
    let ok (k : Nat) : Bool := match s.region? k with
      | some r => (match r.phase with | .banks => r.gangId.isSome && s.banksHeld r | _ => false)
      | none => false
    if x.gang.isEmpty || !x.gang.all ok then .next s
    else .next (forAll (fun s k => s.startRamp k s.tick (s.afterNs 2000)) x.gang s)

/-- A pre-empted walk goes on where its record and its state say it was (R317). See log entry 56 (DEDUCED). -/
def State.resumeWalk (s : State) (w : Nat) (x : Walk) : State :=
  s.modWalk w fun y => { y with
    region := x.gang.head?, gang := []
    phase := if x.state ≠ 0 then .ending else if natAt x.record 0 1 = 3 then .waiting s.tick false else .fetch }

/-- START_TOKEN_ARRIVE (R285): a tile starts. When every tile of the step has started the walk moves on. -/
def execStartTokenArrive (k t : Nat) (s : State) : Host.Outcome State Fault Refusal :=
  match s.region? k with
  | none => .next s
  | some r =>
    let due : Bool := match (s.tile t).startDue with | some d => decide (d ≤ s.tick) | none => false
    match r.phase with
    | .starting =>
      if !due || !r.tiles.contains t then .next s
      else
        let first := !(r.tiles.any fun u => (s.tile u).started)
        let s := s.modTile t fun x => { x with started := true, startDue := none }
        let s := if first then
            { s.modRegion k fun r => { r with startTime := s.now, lastCut := s.tick, lastMove := s.tick } with firstConsist := true }
          else s
        if !r.tiles.all fun u => (s.tile u).started then .next s
        else
          let s := s.modRegion k fun r => { r with phase := .running }
          match s.walks.get? r.walk with
          | none => .next s
          | some x =>
            let up (q : Nat) : Bool := match s.region? q with
              | some y => (match y.phase with | .starting => false | .banks => false | .swapping => false | _ => true)
              | none => false
            if x.phase = .suspended then .next (if x.gang.all up then s.resumeWalk r.walk x else s)
            else if x.gang.all up && !x.gang.isEmpty then
              .next ((s.modWalk r.walk fun y => { y with region := x.gang.head?, prev := none, gang := [] }).nextRecord r.walk x.count)
            else .next s
    | _ => .next s

/-! ## Completion (R282) -/

/-- The conditions of R282 for one region, with no task packet on its way. See log entry 54 (DEDUCED). -/
def State.consistDone (s : State) (k : Nat) (r : Region) : Bool :=
  let es := s.regionElems k
  let mine (e : Nat) : Bool := es.contains e
  es.all (fun e =>
    let x := s.elem e
    x.ended && x.tport.isEmpty && x.sendBuf.isEmpty && x.inflight.isEmpty && x.cmds.toList.all fun c =>
      match c with | some c => c.over && !c.tokenDue | none => true) &&
  !(s.ports.any fun p => mine (portElem p.1) && (p.2.win != 0 || !p.2.queue.isEmpty)) &&
  !(s.flights.any fun f => mine (portElem f.2.port)) &&
  !(s.packets.any fun f => mine f.2.dest) && r.joinQ.isEmpty && r.joinIn.isEmpty &&
  !(s.armedOf.any fun a => a.2 == k) && !(s.ops.any fun o => mine o.2.elem && !o.2.performed)

/-- The round of a region's lines commits at the homes (R293 step 1, R298), each update in its order.
See log entry 54 (DEDUCED). -/
def State.commitRound (s : State) (k round : Nat) : State :=
  let lines := s.tiles.flatMap fun t => t.2.rnd.filter fun l => l.region == k && l.round == round
  let s : State := { s with
    tiles := s.tiles.map fun t => (t.1, { t.2 with rnd := t.2.rnd.filter fun l => !(l.region == k && l.round == round) }) }
  forAll (fun s (l : RndLine) =>
    let new := l.over (s.mem.read (l.pa * 64) 64)
    let bs := l.offs.map fun i => (l.pa * 64 + i, new.getD i 0)
    match s.region? k with
    | some r => (s.applyHome 5 none [r.run] bs).refreshVisitor r.die bs
    | none => s.applyHome 5 none [] bs) lines s

/-- CONSIST_COMPLETE (R282, R302): the open round commits, with what a cut in progress has begun of the next; watches end,
and the completion token sets out. -/
def execConsistComplete (k : Nat) (s : State) : Host.Outcome State Fault Refusal :=
  match s.region? k with
  | none => .next s
  | some r =>
    let free : Bool := match r.phase with | .running => r.voidAsked.isEmpty && r.voidTag.isNone | _ => false
    if !free || !s.consistDone k r then .next s
    else
      let s := (s.commitRound k r.round).commitRound k (r.round + 1)
      let isWalk (c : CutFor) : Bool := match c with | .walk _ => true | _ => false
      let waits := (match r.cut with | some c => c.waits.filter isWalk | none => []) ++
        (match r.cutAsked with | some (_, _, l) => l.filter isWalk | none => [])
      let asked := match r.cutAsked with
        | some (t, st, l) => let l := l.filter fun c => !isWalk c; if l.isEmpty then none else some (t, st, l)
        | none => none
      let s := s.setRegion k { r with
        phase := .completing, round := r.round + 1, undo := [], log := [], replay := [], arms := [], cut := none, cutAsked := asked }
      let es := s.regionElems k
      let s : State := { s with
        tiles := s.tiles.map fun t => (t.1, { t.2 with watches := t.2.watches.filter fun w => w.region != k })
        elems := s.elems.map fun x => if es.contains x.1 then (x.1, { x.2 with savedCut := none, cutStopped := false, heldMarks := [] }) else x }
      .next (forAll (fun s (c : CutFor) => match c with
        | .walk w => s.nextRecord w 1
        | _ => s) waits s)

/-- The visitor lines that hold stores of an element go home (R259). -/
def State.flushVisitors (s : State) (mine : Nat → Bool) : State :=
  forAll (fun s v => s.vWriteBack v)
    ((s.visitor.filter fun v => v.2.writers.any fun w => mine (w / 8)).map (·.1)) s

/-- COMPLETION_TOKEN_PASS (R82, R85, R259, R282): the token passes a tile: write-backs, and the banks are released. -/
def execCompletionTokenPass (k t : Nat) (s : State) : Host.Outcome State Fault Refusal :=
  match s.region? k with
  | none => .next s
  | some r =>
    match r.phase with
    | .completing =>
      if !r.tiles.contains t || (s.tile t).passed then .next s
      else
        let here := (s.fc.filter fun l => l.1 / 16384 == t).map (·.1)
        let s := forAll (fun s l => (s.fcWriteBack k l).getD s) here s
        let s : State := { s with fc := s.fc.filter fun l => l.1 / 16384 != t }
        let s := s.flushVisitors fun e => tileOf e == t
        let give (b : Bank) : Bank := { Bank.none with run := some r.walk, clean := true, token := b.token && false }
        let s := s.modTile t fun x => { x with passed := true, banks := ⟨x.banks.lo.map give, x.banks.hi.map give⟩ }
        if !r.tiles.all fun u => (s.tile u).passed then .next s
        else
          let s := s.modRegion k fun y => { y with phase := .complete }
          .next ((s.modWalk r.walk fun y => { y with consists := y.consists + 1 }).beginSwap r.walk)
    | _ => .next s

/-! ## The other records (R274, R275) -/

/-- ARM_RECORD (R275): N island commands of the current consist. Their descriptors are read with fetch accesses (R37); one
that cannot be read is a descriptor fault. See log entry 57 (DEDUCED). -/
def execArmRecord (w : Nat) (s : State) : Host.Outcome State Fault Refusal :=
  match s.recordAt w 2 with
  | none => .next s
  | some (x, b, s) =>
    match recordOk b, x.region with
    | true, some k =>
      (match s.region? k with
       | none => .next s
       | some r =>
         let n := natAt b 1 1
         let va := r.cons.dbase + natAt b 4 4
         if s.runInTransit x.die x.asid va (32 * n) then .next s
         else match s.fetchVirt x.die x.asid va (32 * n) with
         | none => .next ((s.fetchFault w x x.die va (32 * n)).abortWalk w 4)
         | some (ds, s) =>
           let cell := if (natAt b 2 2).testBit 15 then some (natAt b 2 2 % 512) else none
           let desc (i : Nat) : Oct W := Oct.of fun l => BitVec.ofNat 32 (natAt ds (32 * i + 4 * l) 4)
           let good (d : Oct W) : Bool := mxmmOk (d.set 3 (BitVec.ofNat 32 (Oct.nat d 3 / 65536 * 65536 + 1)))
           if !(List.range n).all fun i => good (desc i) then .next (s.abortWalk w 4)
           else
             let s := match cell with
               | some j => s.modRegion k fun r =>
                   let y := r.joins.getD j ⟨0, none, 0, none⟩
                   { r with joins := r.joins.put j { y with val := y.val + BitVec.ofNat 32 n } }
               | none => s
             let s := forAll (fun s i =>
               let (q, s) := s.fresh
               let c : Cmd := { freshCmd (.mxmm 0 0 0 0) with desc := desc i, count := natAt b 8 4, jc := cell }
               let s : State := { s with armed := s.armed.put (2 ^ 20 + q) c, armedOf := s.armedOf.put (2 ^ 20 + q) k }
               s.modRegion k fun r => { r with arms := r.arms ++ [(2 ^ 20 + q, c, if r.cut.isSome then r.round + 1 else r.round)] })
               (List.range n) s
             .next (s.nextRecord w 1))
    | _, _ => .next (s.abortWalk w 7)

/-- The consist of a walk is current (R274): it has started and is not over. -/
def State.current (s : State) (x : Walk) : Option (Nat × Region) :=
  x.region.bind fun k => (s.region? k).map fun r => (k, r)

/-- WAIT_RECORD: the walk waits. -/
def execWaitRecord (w : Nat) (s : State) : Host.Outcome State Fault Refusal :=
  match s.recordAt w 3 with
  | none => .next s
  | some (x, b, s) =>
    let src := natAt b 1 1
    if !recordOk b || ((src == 0 || src == 2) && (s.current x).isNone) then .next (s.abortWalk w 7)
    else .next (s.modWalk w fun y => { y with phase := .waiting s.tick false, record := b })

/-- WAIT_POLL: the word of a memory WAIT is read at domain scope, at the record and every 1,024 ticks after. -/
def execWaitPoll (w : Nat) (s : State) : Host.Outcome State Fault Refusal :=
  match s.walks.get? w with
  | none => .next s
  | some x =>
    match x.phase with
    | .waiting polled ready =>
      if natAt x.record 1 1 ≠ 1 || ready || x.held.isSome || decide (s.tick < polled) then .next s
      else match s.shunterRead w x (natAt x.record 16 8) 4 with
        | (none, s) => .next s
        | (some v, s) =>
          let ok := condHolds x.record (natAt x.record 12 1) (BitVec.ofNat 32 (leNat v))
          .next (s.modWalk w fun y => { y with phase := .waiting (s.tick + 1024) ok })
    | _ => .next s

/-- The condition of a WAIT holds. -/
def State.waitOver (s : State) (x : Walk) (ready : Bool) : Bool :=
  match natAt x.record 1 1 with
  | 0 => (match s.current x with
    | some (_, r) => condHolds x.record (natAt x.record 12 1) (r.joins.getD (natAt x.record 2 2) ⟨0, none, 0, none⟩).val
    | none => false)
  | 1 => ready
  | 2 => (match s.current x with | some (_, r) => r.events.getLsbD (natAt x.record 13 1) | none => false)
  | _ => s.consistOver x

/-- WAIT_RELEASE: the walk moves on; an event bit is cleared. -/
def execWaitRelease (w : Nat) (s : State) : Host.Outcome State Fault Refusal :=
  match s.walks.get? w with
  | none => .next s
  | some x =>
    match x.phase with
    | .waiting _ ready =>
      if !s.waitOver x ready then .next s
      else
        let s := match natAt x.record 1 1, x.region with
          | 2, some k => s.modRegion k fun r =>
              { r with events := r.events &&& ~~~(1#256 <<< natAt x.record 13 1) }
          | _, _ => s
        .next (s.nextRecord w 1)
    | _ => .next s

/-- CUT_RECORD: a cut of the current consist. -/
def execCutRecord (w : Nat) (s : State) : Host.Outcome State Fault Refusal :=
  match s.recordAt w 4 with
  | none => .next s
  | some (x, b, s) =>
    match recordOk b, x.region with
    | true, some k =>
      let stop := natAt b 1 1 == 1
      let ended : Bool := match s.region? k with
        | some r => (match r.phase with | .completing => true | .complete => true | _ => false)
        | none => true
      if ended then .next (s.nextRecord w 1)
      else
        let s := s.askCut k stop ([.walk w] ++ if stop then [.halt] else [])
        .next (s.modWalk w fun y => { y with phase := .cutting })
    | _, _ => .next (s.abortWalk w 7)

/-- SIGNAL_RECORD: the write first, then the interrupt. -/
def execSignalRecord (w : Nat) (s : State) : Host.Outcome State Fault Refusal :=
  match s.recordAt w 5 with
  | none => .next s
  | some (x, b, s) =>
    if !recordOk b then .next (s.abortWalk w 7)
    else
      let op := natAt b 1 1
      let (done, s) := if op.testBit 0 then s.shunterWrite w x (natAt b 16 8) (bytesAt b 4 4) else (true, s)
      if !done then .next s
      else
        let s := if op.testBit 1 then s.irq x.die else s
        .next (s.nextRecord w 1)

/-- BRANCH_RECORD. -/
def execBranchRecord (w : Nat) (s : State) : Host.Outcome State Fault Refusal :=
  match s.recordAt w 6 with
  | none => .next s
  | some (x, b, s) =>
    if !recordOk b then .next (s.abortWalk w 7)
    else match s.shunterRead w x (natAt b 16 8) 4 with
      | (none, s) => .next s
      | (some v, s) =>
        if condHolds b (natAt b 1 1) (BitVec.ofNat 32 (leNat v)) then .next (s.modWalk w fun y => { y with pc := natAt b 24 8 })
        else .next (s.nextRecord w 1)

/-- CALL_RECORD: sixteen return addresses. -/
def execCallRecord (w : Nat) (s : State) : Host.Outcome State Fault Refusal :=
  match s.recordAt w 7 with
  | none => .next s
  | some (x, b, s) =>
    if !recordOk b then .next (s.abortWalk w 7)
    else if 16 ≤ x.stack.length then .next (s.abortWalk w 6)
    else .next (s.modWalk w fun y => { y with pc := natAt b 24 8, stack := (x.pc + 32) :: x.stack })

/-- RETURN_RECORD. -/
def execReturnRecord (w : Nat) (s : State) : Host.Outcome State Fault Refusal :=
  match s.recordAt w 8 with
  | none => .next s
  | some (x, b, s) =>
    if !recordOk b then .next (s.abortWalk w 7)
    else match x.stack with
      | [] => .next (s.abortWalk w 6)
      | a :: rest => .next (s.modWalk w fun y => { y with pc := a, stack := rest })

/-! ## The end of a run (R284) -/

/-- The completion record. -/
def Walk.completion (x : Walk) : List Byte :=
  leBytes 1 x.state ++ leBytes 1 x.cause ++ leBytes 1 x.reason ++ leBytes 1 x.slot ++ leBytes 2 x.elem ++ leBytes 2 x.unit ++
  leBytes 2 x.use ++ leBytes 2 x.seq ++ leBytes 4 x.run.toNat ++ leBytes 4 x.consists ++ leBytes 4 x.trail ++
  leBytes 4 x.abandon ++ leBytes 4 x.pc

/-- The record has been written or dropped: the interrupt, and the walk is over. -/
def State.endWalk (s : State) (w : Nat) (x : Walk) : State :=
  State.irq { s with walks := s.walks.del w } x.die

/-- COMPLETION_RECORD_WRITE. -/
def State.writeCompletion (s : State) (w : Nat) (x : Walk) : State :=
  if x.held.isSome then s
  else match s.shunterWrite w x x.result x.completion with
    | (true, s) => s.endWalk w x
    | (false, s) => s

/-- END_RECORD: an END record, or a record that cannot be acted on; then the wait for the current consist, its
release and the completion record. -/
def execEndRecord (w : Nat) (s : State) : Host.Outcome State Fault Refusal :=
  match s.walks.get? w with
  | none => .next s
  | some x =>
    match x.phase with
    | .fetch =>
      if x.held.isSome || s.runInTransit x.die x.asid x.pc 32 then .next s
      else match s.fetchVirt x.die x.asid x.pc 32 with
        | none => .next ((s.fetchFault w x x.die x.pc 32).loadFailed w ⟨.fetch, 0xF, 0, 0⟩)
        | some (b, s) =>
          match natAt b 0 1 with
          | 1 => .next s
          | 9 => if recordOk b then .next (s.modWalk w fun y => { y with phase := .ending, state := 1 }) else .next (s.abortWalk w 7)
          | _ => if recordOk b then .next s else .next (s.abortWalk w 7)
    | .ending =>
      if s.consistOver x then .next ((s.releaseCurrent w x).modWalk w fun y => { y with phase := .writing }) else .next s
    | .writing => .next (s.writeCompletion w x)
    | _ => .next s

/-- GABORT (R283): every run of the die with that RUN. -/
def execGabort (die : Nat) (run : W) (s : State) : Host.Outcome State Fault Refusal :=
  let s := s.modDie die fun d => { d with shunterGated := false }
  .next (forAll (fun s w => s.abortWalk w 1)
    ((s.walks.filter fun w => w.2.die == die && w.2.run == run && !isOver w.2).map (·.1)) s)

/-! ## Urgent launches (R271, R313) -/

def rectElems (die tr tc h w : Nat) : List Nat :=
  (List.range (w * h)).flatMap fun k => (List.range 32).map fun i =>
    (die * 256 + (tr + k / w) * 16 + tc + k % w) * 32 + i

/-- URGENT_LAUNCH: a write of LURG; a rectangle that leaves the die sets nothing. See log entry 58 (DEDUCED). -/
def execUrgentLaunch (die : Nat) (v : W) (s : State) : Host.Outcome State Fault Refusal :=
  let d := s.die die
  let n := v.toNat
  let (tr, tc, h, w) := (fld n 12 4, fld n 8 4, fld n 4 4 + 1, fld n 0 4 + 1)
  let s := s.setDie die { d with shunterGated := false }
  let fields : W := v &&& 0x0000FFFF
  if 16 < tr + h ∨ 16 < tc + w then .next s
  else if d.lurg.getLsbD 31 then .next (s.modDie die fun d => { d with lurg := fields ||| 0x80000000 })
  else
    if !v.getLsbD 31 then .next (s.modDie die fun d => { d with lurg := fields })
    else
      let es := (rectElems die tr tc h w).filter fun e => (s.elem e).planeS.valid != 0
      let s := s.modDie die fun d => { d with lurg := if es.isEmpty then fields else fields ||| 0x80000000 }
      .next (forAll (fun s e => s.modElem e fun x => { x with urgent := true }) es s)

/-- PLANE_S_SWITCH (R313): an element switches; plane S takes its own jet order. See log entry 15 (DEDUCED). -/
def execPlaneSSwitch (e : Nat) (s : State) : Host.Outcome State Fault Refusal :=
  let x := s.elem e
  if !x.urgent then .next s
  else
    let y := if x.inS then { x with urgent := false }
      else { x with urgent := false, inS := true, sr := { x.sr with jord := x.planeS.order } }
    .next ((s.setElem e y).settleUrgent (dieOf e))

end Sys2Proof.Machine
end

