-- ==== Sys2Proof/Machine/SaveImage.lean ====
section
/-! DEFINITION. The restore point of a region (R302, R303), what a region holds as it stands, and save images (R315,
R316, R318). -/
namespace Sys2Proof.Machine

/-! ## Restore points (R302) -/

/-- An element as the load set it. -/
def State.initialSave (s : State) (k : Nat) (img : List Byte) (m : Nat × Nat × Nat) : ElemSave :=
  let x := s.elem m.1
  let zero (y : Stream) : Stream := { Stream.reset with limit := y.limit, scope := y.scope, src := y.src }
  { (x.init k m.2.2 m.2.1 img).saveOf with streams := x.streams.map zero }

/-- The last completed cut, or the start of the consist. -/
def State.restorePoint (s : State) (k : Nat) (r : Region) : Snapshot :=
  match r.snap with
  | some n => n
  | none =>
    let img := match r.image with | some im => im.bytes | none => []
    let nodes := r.tiles.flatMap fun t => (List.range 4).filterMap fun n =>
      match ((s.tile t).nodes.get n).mode with | .streaming => some (t * 4 + n, ((0, 0, 0), false)) | _ => none
    { round := r.round, time := r.startTime
      elems := (r.members img).foldl (fun (m : SMap ElemSave) e => m.put e.1 (s.initialSave k img e)) []
      nodes := nodes.foldl (fun (m : SMap ((Nat × Nat × Nat) × Bool)) x => m.put x.1 x.2) []
      rings := r.rings.map fun g => { g with head := 0, tail := 0, hpos := 0 }
      joins := (records img 3).foldl (fun (m : SMap JoinCell) o =>
        m.put (natAt img o 4 % 512) ⟨BitVec.ofNat 32 (natAt img (o + 4) 4), none, 0, none⟩) []
      slpos := 0, seqs := [], armed := [] }

/-! ## Operations that have not performed (R292, R315) -/

/-- The operation word of an instruction. -/
def wordOf (i : Instr) : W := match encode i with | some w => w | none => 0

/-- An unfinished command as an operation record. -/
def Cmd.record (c : Cmd) (n : Nat) : OpRec :=
  { word := wordOf c.instr, fires := c.fires, lanes := 0, reply := c.reply.getD 0, aLanes := c.desc, dLanes := Oct.rep 0
    status := c.status, progress := c.progress, entry := some n, plane := c.plane, stream := c.stream, ord := c.ord
    cmd := some c, op := none }

/-- A full-empty operation as an operation record. -/
def MemOp.record (o : MemOp) : OpRec :=
  { word := wordOf o.instr, fires := o.fires, lanes := o.part, reply := o.reply.getD 0, aLanes := o.a, dLanes := o.d
    status := 0, progress := 0, entry := none, plane := o.plane, stream := o.stream, ord := o.ord, cmd := none, op := some o }

def isFe (i : Instr) : Bool := match Instr.kind i with | .feLoad => true | .feStore => true | _ => false
def isSort (i : Instr) : Bool := match i with | .mxsort .. => true | _ => false

/-- Working-plane commands of an element that have not finished. -/
def Elem.openRecs (x : Elem) (skipSort : Bool) : List OpRec :=
  (List.range 8).filterMap fun n => match x.cmds.get n with
    | some c => if c.over || c.plane == .s || (skipSort && isSort c.instr) then none else some (c.record n)
    | none => none

/-! ## A region as it stands (R315) -/

/-- Tokens of one input, the oldest first: queue, spill ring, then those on their way. -/
def State.sweepPort (s : State) (p : Nat) : List Tok :=
  let live (t : Tok) : Bool := t.kind != .mark && t.kind != .recon
  (s.portToks p ++ (s.flights.filter fun f => f.2.port == p).map (·.2.tok)).filter live

/-- A completion token that has not left. -/
def Cmd.owedTok (c : Cmd) : Tok :=
  { kind := .data, tag := .int32, lvm := 3, data := ((Oct.rep 0).set 0 c.status).set 1 c.progress, round := c.endRound }

/-- Completion tokens an element's commands owe, with the inputs they go to. -/
def State.owedToks (s : State) (e : Nat) : List (Nat × Tok) :=
  (s.elem e).cmds.toList.filterMap fun c => match c with
    | some c =>
      if c.tokenDue then
        (match c.reply with
         | some q => (s.replyPort e c.plane q).map fun p => (p, c.owedTok)
         | none => none)
      else none
    | none => none

/-- The live state of an element, its channels swept. -/
def State.sweepElem (s : State) (owed : List (Nat × Tok)) (e : Nat) : ElemSave :=
  let x := s.elem e
  let toks := (List.range 6).flatMap fun ch =>
    let p := portKey e 0 ch
    (s.sweepPort p ++ (owed.filter fun o => o.1 == p).map (·.2)).map fun t => (ch, t)
  let pkts := x.tport ++ (s.packets.filter fun f => f.2.dest == e).map (·.2.pkt)
  let ops := (s.ops.filter fun o => o.2.elem == e && !o.2.performed && o.2.plane == .work && !o.2.isWatch).map fun o => o.2.record
  { x.saveOf with toks := toks, pkts := pkts, ops := x.openRecs false ++ ops }

/-- A region as it stands, for a pre-emption. -/
def State.liveSnapshot (s : State) (k : Nat) (r : Region) (time : BitVec 64) : Snapshot :=
  let es := s.regionElems k
  let owed := es.flatMap s.owedToks
  let nodes := r.tiles.flatMap fun t => (List.range 4).filterMap fun n =>
    let x := (s.tile t).nodes.get n
    match x.mode with | .streaming => some (t * 4 + n, (x.pos, x.done)) | _ => none
  { round := r.round, time := time
    elems := es.foldl (fun (m : SMap ElemSave) e => m.put e (s.sweepElem owed e)) []
    nodes := nodes.foldl (fun (m : SMap ((Nat × Nat × Nat) × Bool)) x => m.put x.1 x.2) []
    rings := r.rings, joins := r.joins, slpos := s.scalesFrom r (s.seqsNow r), seqs := s.seqsNow r
    armed := (s.armed.filter fun a => s.armedOf.get? a.1 == some k) }

/-! ## Save images (R316) -/

def align64 (n : Nat) : Nat := (n + 63) / 64 * 64
def padTo (n : Nat) (b : List Byte) : List Byte := b ++ List.replicate (n - b.length) 0
/-- Scratchpad banks of a region: tile, bank. -/
def State.scratchBanks (s : State) (r : Region) : List (Nat × Nat) :=
  r.tiles.flatMap fun t => (List.range 16).filterMap fun b =>
    match ((s.tile t).banks.get b).role with | .scratch => some (t, b) | _ => none

/-- Tile memory with the undo records of a region applied, the newest first. -/
def Region.undone (r : Region) (m : Mem) : Mem :=
  r.undo.foldr (fun u m => match u.fc with | none => m.write u.key u.bytes | some _ => m) m

/-- The round log of a region as an image holds it: the LOG areas of its tiles in region tile order, an unused record zero,
so that a restore can tell whose a record is. See log entry 84 (DESIGN CHOICE). -/
def State.logAreas (s : State) (r : Region) (log : List LogRec) : List (List Byte) :=
  r.tiles.flatMap fun t => (List.range ((s.tile t).log.2 / 64)).map fun p =>
    match log.find? fun l => tileOf l.elem == t && l.pos == p with
    | some l => logBytes l
    | none => List.replicate 64 0

/-- One save image. `next` is the offset of the next member's image. -/
def State.saveImage (s : State) (r : Region) (kind : Nat) (n : Snapshot) (mem : Mem) (log : List LogRec) (next : Nat) : List Byte :=
  let img := match r.image with | some im => im.bytes | none => []
  let ms := r.members img
  let elems := ms.flatMap fun m => match n.elems.get? m.1 with | some v => v.bytes | none => leBytes 800 0
  let own (m : Nat × Nat × Nat) : List (List Byte) := match n.elems.get? m.1 with | some v => v.recs m.2.2 | none => []
  let per := ms.map own
  let t7 := r.tiles.zipIdx.map fun t => varRec 7 0 0xFFFF (leBytes 8 t.2 ++ nodesBytes t.1 n.nodes)
  let recs := per.flatten ++ (r.tiles.flatMap fun t => r.wideRecs t n) ++
    (n.armed.map fun c => (Cmd.armedRec c.2).bytes 0xFFFF) ++ t7
  let banks := s.scratchBanks r
  let recOff := align64 (128 + elems.length)
  let bankOff := align64 (recOff + recs.flatten.length)
  let logOff := bankOff + 65536 * banks.length
  let logs := s.logAreas r log
  let indexOff := align64 (logOff + 64 * logs.length)
  let c := r.cons
  let head := leBytes 4 0x51505356 ++ leBytes 2 1 ++ leBytes 1 kind ++ leBytes 1 (if r.gangId.isSome then r.member else 0) ++
    leBytes 1 r.w ++ leBytes 1 r.h ++ leBytes 2 r.asid ++ leBytes 4 r.run.toNat ++ leBytes 8 c.image ++
    leBytes 4 (c.dbase / 65536) ++ leBytes 4 c.arbw.toNat ++ leBytes 4 r.done ++ leBytes 4 n.round ++ leBytes 8 n.time.toNat ++
    leBytes 4 ms.length ++ leBytes 4 recs.length ++ leBytes 4 banks.length ++ leBytes 4 logs.length ++
    leBytes 4 128 ++ leBytes 4 recOff ++ leBytes 4 bankOff ++ leBytes 4 logOff ++ leBytes 4 (if kind = 1 then indexOff else 0) ++
    leBytes 4 n.slpos ++ leBytes 8 next ++ leBytes 1 c.flags ++ leBytes 1 c.edges ++ leBytes 1 c.place ++ leBytes 1 0 ++
    leBytes 2 c.scount ++ leBytes 2 0 ++ leBytes 4 c.slist ++ leBytes 4 c.gang.toNat ++ leBytes 4 c.gwoff ++ leBytes 12 0
  let index (i : Nat) (m : Nat × Nat × Nat) : List Byte :=
    let before := ((per.take i).flatten).flatten.length
    let mine := (per.getD i []).length
    leBytes 4 (elidOf m.1).toNat ++ leBytes 4 (128 + 800 * i) ++ leBytes 4 (if mine = 0 then 0 else recOff + before) ++ leBytes 4 mine
  let body := padTo recOff (head ++ elems) ++ padTo (bankOff - recOff) recs.flatten ++
    banks.flatMap (fun b => mem.read (spmKey b.1 b.2 0) 65536) ++ logs.flatten
  if kind = 1 then padTo indexOff body ++ (ms.zipIdx.flatMap fun m => index m.2 m.1) else body

/-- Insert a region by its member number. -/
def insertMember (s : State) (q : Nat) : List Nat → List Nat
  | [] => [q]
  | y :: ys =>
    let m (z : Nat) : Nat := match s.region? z with | some r => r.member | none => 0
    if m q < m y then q :: y :: ys else y :: insertMember s q ys
/-- The regions of a gang in this package in member order. -/
def State.gangByMember (s : State) (k : Nat) : List Nat := (s.gangRegions k).foldl (fun l q => insertMember s q l) []

/-- Images of the members of a gang one behind the other, linked by NEXT. -/
def chainImages : List (Nat → List Byte) → List Byte
  | [] => []
  | [f] => f 0
  | f :: rest =>
    let n := align64 (f 0).length
    padTo n (f n) ++ chainImages rest

end Sys2Proof.Machine
end

