-- ==== Sys2Proof/Machine/Cuts.lean ====
section
/-! DEFINITION. Cuts (R288 to R294), the pre-emption and the dump that a cut serves (R315, R318), and the halt it
establishes (R341). -/
namespace Sys2Proof.Machine

/-- A debugger halts the region or another member of its gang (R20, R341). -/
def State.quiet (s : State) (k : Nat) : Bool :=
  s.gangHalted (some k) || (s.gangRegions k).any fun q => match s.region? q with | some r => r.halted | none => false

/-- The region is running, or at its start instant. -/
def State.running (s : State) (r : Region) : Bool :=
  match r.phase with | .running => true | .starting => s.startNow r | _ => false

/-- Round length in ticks (R273). -/
def Consist.round (c : Consist) : Nat := 2 ^ (if c.rlog = 0 then 17 else c.rlog)

/-- ROUND_TIMER_EXPIRY (R288): the timer asks for a cut; it stays pending while a debugger halts the gang (R341). -/
def execRoundTimerExpiry (k : Nat) (s : State) : Host.Outcome State Fault Refusal :=
  match s.region? k with
  | none => .next s
  | some r =>
    if !s.running r || r.cut.isSome || r.cutAsked.isSome || r.voidTag.isSome || s.quiet k ||
        decide (s.tick < r.lastCut + r.cons.round) then .next s
    else .next (s.askCut k false [])

/-! ## The start (R289, R312) -/

/-- CUT_START (R289): streaming nodes owe a MARK and record their positions. -/
def execCutStart (k : Nat) (s : State) : Host.Outcome State Fault Refusal :=
  match s.region? k with
  | none => .next s
  | some r =>
    match r.cutAsked with
    | none => .next s
    | some (due, stop, who) =>
      if !s.running r || r.cut.isSome || r.voidTag.isSome || decide (s.tick < due) then .next s
      else
        let ns := r.tiles.flatMap fun t => (List.range 4).filterMap fun n =>
          match ((s.tile t).nodes.get n).mode with | .streaming => some (t, n) | _ => none
        let pos := ns.foldl (fun (m : SMap ((Nat × Nat × Nat) × Bool)) x =>
          let y := (s.tile x.1).nodes.get x.2
          m.put (x.1 * 4 + x.2) (y.pos, y.done)) []
        let armed := s.armed.filter fun a => s.armedOf.get? a.1 == some k
        let c : Cut := { start := s.tick, stop := stop, waits := who, elems := [], nodes := pos, rings := r.rings, time := s.now
                         slpos := r.slpos, seqs := s.seqsNow r, armed := armed, timedOut := false, full := false }
        let s := s.setRegion k { r with cut := some c, cutAsked := none }
        .next (forAll (fun s (x : Nat × Nat) =>
          s.modNode x.1 x.2 fun y => { y with markDue := true, stopCut := y.stopCut || stop }) ns s)

/-! ## The save (R290 to R292) -/

/-- A marker stands at each input it has to, no working-plane firing is in flight, and no WATCH is open. -/
def State.canSave (s : State) (e : Nat) : Bool :=
  s.mustSave e && !((s.elem e).inflight.any fun f => f.plane == .work) &&
    !(s.ops.any fun o => o.2.elem == e && o.2.isWatch && o.2.plane == .work)

/-- The counters of the rings that the commands of an element move are those at its save. See log entry 53 (DEDUCED). -/
def ringsAtSave (e : Nat) (now saved : List Ring) : List Ring :=
  saved.zipIdx.map fun g =>
    match now[g.2]? with
    | some y =>
      let a := if y.maker == some e then { g.1 with tail := y.tail } else g.1
      if y.popper == some e then { a with head := y.head, hpos := y.hpos } else a
    | none => g.1

/-- Deferred lanes of a full-empty operation go back to their tile (R292). -/
def State.undefer (s : State) (k : Nat) : State :=
  let s : State := { s with tiles := s.tiles.map fun t => (t.1, { t.2 with deferred := t.2.deferred.filter fun d => d.op != k }) }
  s.modOp k fun o => { o with
    round := o.round + 1
    lanes := o.lanes.map fun l => match l with | .deferred .. => .xlate | .returned _ => .xlate | y => y }

def isDeferred : LaneSt → Bool | .deferred .. => true | .returned _ => true | _ => false

/-- A port of a lower number to the same package is up and carries its traffic. See log entry 80 (DESIGN CHOICE). -/
def State.lowerPort (s : State) (port peer : Nat) : Bool :=
  s.links.any fun l => l.2.up && l.2.peer == peer && decide (l.1 < port)

/-- HALT_ESTABLISHED (R341): every member of the gang in this package has saved and its nodes have sent their MARKs. -/
def State.checkHalt (s : State) (k : Nat) : State :=
  let isHalt (c : CutFor) : Bool := match c with | .halt => true | _ => false
  let ready (q : Nat) : Bool := match s.region? q with
    | some r => r.halted || (match r.cut with
      | some c => c.stop && ((s.regionElems q).all fun e => (c.elems.get? e).isSome) &&
          c.nodes.all fun n => !((s.tile (n.1 / 4)).nodes.get (n.1 % 4)).markDue
      | none => false)
    | none => true
  let asked := (s.gangRegions k).any fun q => match s.region? q with
    | some r => (match r.cut with | some c => c.waits.any isHalt | none => false)
    | none => false
  match s.region? k with
  | none => s
  | some r =>
    if !asked || !(s.gangRegions k).all ready || r.halted then s
    else
      let s := forAll (fun s q => s.modRegion q fun x => { x with halted := true }) (s.gangRegions k) s
      let s := s.trace r.die 7 1 0 0xFFFFFFFF 0 r.run 0
      let links := s.links.map fun l =>
        if l.2.up && r.gates.contains l.2.peer && !s.lowerPort l.1 l.2.peer then (l.1, { l.2 with reports := true }) else l
      let s : State := { s with links := links }
      let still := s.regions.any fun x => x.2.run == r.run && !x.2.halted
      if still then s
      else forAll (fun s d => s.modDie d fun x =>
        if x.dbgOp == 1 && x.dbgAct == r.run then { x with dbgBusy := false } else x) (List.range 8) s

/-- At a save, records of a log being replayed whose operations the element has not fired again yet pass to the round
after the cut, their ORD counted from the save (R300, R304). -/
def Elem.laterLog (x : Elem) (r : Region) (e : Nat) (v : ElemSave) (l : LogRec) : LogRec :=
  let o := l.ord - ((v.streams.get l.stream).issued - r.savedIssued e l.stream x.round)
  if l.elem == e && decide (l.round ≤ x.round) && !o.msb then { l with round := x.round + 1, ord := o } else l

/-- Records of the LOG area of an element's tile as they now are. -/
def State.rewriteLog (s : State) (e : Nat) (l : List LogRec) (f : LogRec → LogRec) : State :=
  let (start, size) := (s.tile (tileOf e)).log
  forAll (fun s y =>
    if 0 < size ∧ (y.pos + 1) * 64 ≤ size then
      { s with spm := s.spm.write (tileOf e * 2 ^ 20 + start + y.pos * 64) (logBytes (f y)) } else s) l s

/-! ## The cut-timeout event (R294, R295) -/

def cutTicks (cutcfg : W) : Nat := max 1 (fld cutcfg.toNat 0 16) * 1024

/-- The event of R294: one CUTTMO record for each element that has not saved or is still recording. -/
def State.cutEvent (s : State) (k : Nat) (c : Cut) (info1 : W) : State :=
  forAll (fun s e =>
    let saved := (c.elems.get? e).isSome
    let ins := List.range 6
    let waits := ins.filter fun ch => let p := portKey e 0 ch
      !saved && (s.cutInputs e).contains p && !((s.port p).queue.any fun t => t.kind == .mark)
    let recs := ins.filter fun ch => let y := s.port (portKey e 0 ch); saved && y.back && !y.markSeen
    if saved && recs.isEmpty then s
    else
      let sum (l : List Nat) : Nat := (l.map fun i => 2 ^ i).foldl (· + ·) 0
      let x := s.elem e
      s.eventRecord e 18 .work 0x1F x.fires x.round (BitVec.ofNat 32 (sum waits + 256 * sum recs)) info1)
    (s.regionElems k) s

/-- A save area that cannot hold what the cut has to record raises the event at once, with INFO1 = 1: once in a cut.
`before` is the cut as it stood before the record. -/
def State.fullEvent (s : State) (k : Nat) (before : Cut) : State :=
  match s.region? k with
  | none => s
  | some r =>
    match r.cut with
    | none => s
    | some c =>
      if c.full || r.tiles.all fun t => s.saveFits r t c then s
      else (s.cutEvent k before 1).modRegion k fun r => { r with cut := r.cut.map fun c => { c with full := true } }

/-- CUT_TIMEOUT (R294): the cut has not completed in time, or a token or packet recorded since a save has no room. -/
def execCutTimeout (k : Nat) (s : State) : Host.Outcome State Fault Refusal :=
  match s.region? k with
  | none => .next s
  | some r =>
    match r.cut with
    | none => .next s
    | some c =>
      if s.quiet k then .next s
      else
        let s := s.fullEvent k c
        if c.timedOut || decide (s.tick < c.start + cutTicks (s.die r.die).cutcfg) then .next s
        else .next ((s.cutEvent k c 0).modRegion k fun r => { r with cut := r.cut.map fun c => { c with timedOut := true } })

/-- ELEMENT_SAVE (R290, R291, R292): the record, the MARKs consumed and sent, and the new round. -/
def execElementSave (e : Nat) (s : State) : Host.Outcome State Fault Refusal :=
  match s.regionOf e with
  | none => .next s
  | some (k, r) =>
    match r.cut with
    | none => .next s
    | some c =>
      if !s.canSave e then .next s
      else
        let x := s.elem e
        let ports := (List.range 6).map fun ch => portKey e 0 ch
        let old (t : Tok) : Bool := decide (t.round ≤ x.round) && t.kind != .mark && t.kind != .recon
        let kept (p : Nat) : Bool := let y := s.port p; y.back || (y.branch.isNone && y.replyFed)
        let standing := ports.flatMap fun p =>
          if kept p then ((s.portToks p).filter old).map fun t => (portCh p, t) else []
        let fe := s.ops.filter fun o => o.2.elem == e && o.2.plane == .work && isFe o.2.instr && o.2.lanes.toList.any isDeferred
        let v : ElemSave := { x.saveOf with
          toks := standing, pkts := x.tport.filter fun p => decide (p.round ≤ x.round)
          ops := x.openRecs true ++ fe.map fun o => o.2.record }
        let c' : Cut := { c with elems := c.elems.put e v, rings := ringsAtSave e r.rings c.rings }
        let later := x.laterLog r e v
        let s := s.setRegion k { r with cut := some c', log := r.log.map later, replay := r.replay.map later }
        let s := s.rewriteLog e (r.log.filter fun l => later l != l) later
        let s := s.writeSave r e v
        let s := forAll (fun s (o : Nat × MemOp) => s.undefer o.1) fe s
        let s := forAll (fun s p => if s.markAt p then s.dequeue p else s) ports s
        let s := s.modElem e fun y => { y with savedCut := some c.start, sinceSave := 0, cutStopped := y.cutStopped || c.stop }
        let s := forAll (fun s o => forAll (fun s p =>
          if s.portSpace (tileOf e) p then s.sendTo 0 0 (tileOf e) p (markTok x.round) none
          else s.modElem e fun y => { y with heldMarks := y.heldMarks ++ [(o, p)] })
          ((s.outPorts (portKey e 0 o)).filter fun p => !isFar p) s) (List.range 6) s
        .next (((s.fullEvent k c).checkHalt k).stir (some k))

/-! ## Completion (R293) -/

/-- One region's part of the cut is over: every element has saved, back edges have their MARK, and nothing of the old
round is still to arrive or to perform. See log entry 52 (DEDUCED). -/
def State.cutDone (s : State) (k : Nat) (r : Region) (c : Cut) : Bool :=
  let es := s.regionElems k
  let mine (e : Nat) : Bool := es.contains e
  es.all (fun e => (c.elems.get? e).isSome && (s.elem e).sendBuf.all fun p => decide (r.round < p.round)) &&
  !(s.ports.any fun p => portVc p.1 == 0 && mine (portElem p.1) && p.2.back && !p.2.markSeen) &&
  !(s.flights.any fun f => portVc f.2.port == 0 && mine (portElem f.2.port) && decide (f.2.tok.round ≤ r.round) &&
      f.2.tok.kind != .mark && (s.port f.2.port).branch.isNone) &&
  !(s.packets.any fun f => mine f.2.dest && decide (f.2.pkt.round ≤ r.round)) &&
  !((r.joinIn ++ r.joinQ).any fun m => decide (m.round ≤ r.round)) &&
  !(s.ops.any fun o => mine o.2.elem && o.2.plane == .work && decide (o.2.round ≤ r.round) && !o.2.performed) &&
  es.all (fun e => (s.elem e).cmds.toList.all fun c => match c with
    | some c => c.plane == .s || (!(isSort c.instr && !c.over && decide (c.round ≤ r.round)) &&
        !(c.tokenDue && c.over && decide (c.endRound ≤ r.round)))
    | none => true) &&
  (c.nodes.all fun n => !((s.tile (n.1 / 4)).nodes.get (n.1 % 4)).markDue) &&
  r.tiles.all fun t => s.saveFits r t c

/-- The dump of R318: the last completed cut, banks as they stood then, and the log since. -/
def State.takeDump (s : State) (die k : Nat) : State :=
  let fs := (s.gangByMember k).filterMap fun q => (s.region? q).map fun r => fun next =>
    s.saveImage r 1 (s.restorePoint q r) (r.undone s.spm) r.log next
  let a := fld (s.die die).psave.toNat 6 46 * 64
  ({ s with mem := s.mem.write a (chainImages fs) }).modDie die fun d => { d with pctlBusy := false, pctlFail := false }

/-- The join units of a region have nothing left to do. See log entry 70 (DEDUCED). -/
def State.settleJoins (s : State) (k : Nat) : Nat → State
  | 0 => s
  | n + 1 =>
    match s.region? k with
    | none => s
    | some r =>
      if r.joinQ.isEmpty && r.joinIn.isEmpty && (s.regionElems k).all fun e => (s.elem e).sendBuf.isEmpty then s
      else match execJoinUnitCycle k (s.joinArrive k) with
        | .next s => s.settleJoins k n
        | _ => s

/-- The walk stops until a restore (R315). What it was doing is told by its record and its state. -/
def Walk.suspend (x : Walk) : Walk := { x with phase := .suspended, region := none, prev := none, gang := [] }

/-- THE PRE-EMPTION of R315, once its cut has completed: what has been written since it commits, so that the state as it
stands is the restore point and no log is needed behind it; write-backs, images, release, and the walk is suspended.
See log entry 61 (DEDUCED). -/
def State.takePreempt (s : State) (die k : Nat) : State :=
  let ks := s.gangByMember k
  let s := forAll (fun s q => s.settleJoins q 4) ks s
  let commit (s : State) (q : Nat) : State := match s.region? q with | some r => s.commitRound q r.round | none => s
  let s := forAll (fun s q =>
    let s := commit s q
    let mine := (s.fc.filter fun l => match s.region? q with | some r => r.tiles.contains (l.1 / 16384) | none => false).map (·.1)
    let s := commit (forAll (fun s l => (s.fcWriteBack q l).getD s) mine s) q
    let es := s.regionElems q
    s.flushVisitors fun e => es.contains e) ks s
  let fs := ks.filterMap fun q => (s.region? q).map fun r => fun next =>
    s.saveImage r 0 (s.liveSnapshot q r (match r.snap with | some n => n.time | none => s.now)) s.spm [] next
  let a := fld (s.die die).psave.toNat 6 46 * 64
  let s : State := { s with mem := s.mem.write a (chainImages fs) }
  let w := match s.region? k with | some r => r.walk | none => 0
  let s := forAll (fun s q =>
    let ids := s.openCmds q (s.regionElems q)
    (forAll (fun s id => s.dropCmd id) ids s).release q false) ks s
  (s.modWalk w fun x => if isOver x then x else x.suspend).modDie die fun d => { d with pctlBusy := false, pctlFail := false }

/-- What waits for the cut goes on. -/
def State.cutServed (s : State) (k : Nat) (c : CutFor) : State :=
  match c with
  | .walk w => (match s.walks.get? w with
    | some x => (match x.phase with | .cutting => s.nextRecord w 1 | _ => s)
    | none => s)
  | .preempt die => s.takePreempt die k
  | _ => s

/-- One region completes the cut: R293 steps 2 to 5. -/
def State.completeCut (s : State) (k : Nat) (r : Region) (c : Cut) : State :=
  let n := { c with slpos := s.scalesFrom r c.seqs }.snapshot r
  let s := forAll (fun s t => s.writeHalf r t n) r.tiles s
  let es := s.regionElems k
  let s : State := { s with
    elems := s.elems.map fun x =>
      if es.contains x.1 then (x.1, { x.2 with round := r.round + 1, savedCut := none, fires := x.2.sinceSave, sinceSave := 0 }) else x
    ports := s.ports.map fun p => if es.contains (portElem p.1) then (p.1, { p.2 with markSeen := false }) else p }
  s.modRegion k fun r => { r with
    cut := none, round := r.round + 1, lastCut := s.tick, snap := some n, half := !r.half
    undo := r.undo.filter fun u => decide (r.round < u.round), log := r.log.filter fun l => decide (r.round < l.round)
    replay := r.replay.filter fun l => decide (r.round < l.round), arms := r.arms.filter fun a => decide (r.round < a.2.2)
    joins := r.joins.map fun x => (x.1, { x.2 with newSum := 0, oldArm := none }) }

/-- CUT_COMPLETE (R293): the cut of a region, or of every member of a gang. A halt that the commit of a line asks for (R334)
joins this cut. -/
def execCutComplete (k : Nat) (s : State) : Host.Outcome State Fault Refusal :=
  let ks := s.gangRegions k
  let ready (q : Nat) : Bool := match s.region? q with
    | some r => r.voidAsked.isEmpty && (match r.cut with | some c => s.cutDone q r c | none => false)
    | none => false
  if ks.isEmpty || !ks.all ready then .next s
  else
    let waits := ks.flatMap fun q => match s.region? q with
      | some r => (match r.cut with | some c => c.waits | none => [])
      | none => []
    let s := forAll (fun s w => match w with | .dump die => s.takeDump die k | _ => s) waits s
    let s := forAll (fun s q => match s.region? q with | some r => s.commitRound q r.round | none => s) ks s
    let s := forAll (fun s q => s.checkHalt q) ks s
    let s := forAll (fun s q => match s.region? q with
      | some r => (match r.cut with | some c => s.completeCut q r c | none => s)
      | none => s) ks s
    .next (forAll (fun s w => s.cutServed k w) waits s)

end Sys2Proof.Machine
end

