-- ==== Sys2Proof/Machine/Elementary.lean ====
section
/-! DEFINITION. The meanings of class 0x5 (R228 to R233). -/
namespace Sys2Proof.Machine

/-- FEXP (R229). -/
def execFexp (d : Dst) (a : Src) (pu : Option Pu) (z : FSz) (rm : Rm) (s : State) :
    Host.Outcome State Fault Refusal :=
  fire (.fexp d a pu z rm) s fun c => c.fun1 z rm d a pu (c.byOrder 16 24 32 40) jFexp

/-- FEXP2 (R229). -/
def execFexp2 (d : Dst) (a : Src) (pu : Option Pu) (z : FSz) (rm : Rm) (s : State) :
    Host.Outcome State Fault Refusal :=
  fire (.fexp2 d a pu z rm) s fun c => c.fun1 z rm d a pu (c.byOrder 16 24 32 40) jFexp2

/-- FLOG (R230). -/
def execFlog (d : Dst) (a : Src) (pu : Option Pu) (z : FSz) (rm : Rm) (s : State) :
    Host.Outcome State Fault Refusal :=
  fire (.flog d a pu z rm) s fun c => c.fun1 z rm d a pu (c.byOrder 16 26 36 46) jFlog

/-- FLOG2 (R230). -/
def execFlog2 (d : Dst) (a : Src) (pu : Option Pu) (z : FSz) (rm : Rm) (s : State) :
    Host.Outcome State Fault Refusal :=
  fire (.flog2 d a pu z rm) s fun c => c.fun1 z rm d a pu (c.byOrder 16 26 36 46) jFlog2

/-- FSIN (R231). -/
def execFsin (d : Dst) (a : Src) (pu : Option Pu) (z : FSz) (rm : Rm) (s : State) :
    Host.Outcome State Fault Refusal :=
  fire (.fsin d a pu z rm) s fun c => c.fun1 z rm d a pu (c.byOrder 18 26 34 42) jFsin

/-- FCOS (R231). -/
def execFcos (d : Dst) (a : Src) (pu : Option Pu) (z : FSz) (rm : Rm) (s : State) :
    Host.Outcome State Fault Refusal :=
  fire (.fcos d a pu z rm) s fun c => c.fun1 z rm d a pu (c.byOrder 18 26 34 42) jFcos

/-- FTANH (R232). -/
def execFtanh (d : Dst) (a : Src) (pu : Option Pu) (z : FSz) (rm : Rm) (s : State) :
    Host.Outcome State Fault Refusal :=
  fire (.ftanh d a pu z rm) s fun c => c.fun1 z rm d a pu (c.byOrder 20 30 40 50) jFtanh

/-- FSIGM (R232). -/
def execFsigm (d : Dst) (a : Src) (pu : Option Pu) (z : FSz) (rm : Rm) (s : State) :
    Host.Outcome State Fault Refusal :=
  fire (.fsigm d a pu z rm) s fun c => c.fun1 z rm d a pu (c.byOrder 20 30 40 50) jFsigm

/-- FERF (R232). -/
def execFerf (d : Dst) (a : Src) (pu : Option Pu) (z : FSz) (rm : Rm) (s : State) :
    Host.Outcome State Fault Refusal :=
  fire (.ferf d a pu z rm) s fun c => c.fun1 z rm d a pu (c.byOrder 20 32 44 56) jFerf

/-- FLOG1P (R230). -/
def execFlog1p (d : Dst) (a : Src) (pu : Option Pu) (z : FSz) (rm : Rm) (s : State) :
    Host.Outcome State Fault Refusal :=
  fire (.flog1p d a pu z rm) s fun c => c.fun1 z rm d a pu (c.byOrder 16 26 36 46) jFlog1p

/-- FEXPM1 (R229). -/
def execFexpm1 (d : Dst) (a : Src) (pu : Option Pu) (z : FSz) (rm : Rm) (s : State) :
    Host.Outcome State Fault Refusal :=
  fire (.fexpm1 d a pu z rm) s fun c => c.fun1 z rm d a pu (c.byOrder 16 24 32 40) jFexpm1

/-- FSINCOS (R231): sv to the group at V<d>, cv to the group behind it; r(l) is judged on sv. -/
def execFsincos (d : Fin 16) (a : Src) (pu : Option Pu) (z : FSz) (rm : Rm) (s : State) :
    Host.Outcome State Fault Refusal :=
  fire (.fsincos d a pu z rm) s fun c => 
    let j2 := fun l h => jFsincos (c.jin z rm a a a l h)
    let s1 := c.fjet z (.v d) [a] pu (c.byOrder 18 26 34 42) fun l h => (j2 l h).1
    let j := c.jets z fun l h => (j2 l h).2
    let co (k : Nat) : Oct W := if c.k < k then Oct.rep 0 else j.lane z k
    { s1 with
      regs := s1.regs ++ (List.range c.g).map fun k => (d.val + c.g + k, c.act, co k, (FSz.tag z))
      flags := s1.flags ||| j.flags }

/-- FPOWI (R233): n from the single operand B. -/
def execFpowi (d : Dst) (a b : Src) (pu : Option Pu) (z : FSz) (rm : Rm) (s : State) :
    Host.Outcome State Fault Refusal :=
  fire (.fpowi d a b pu z rm) s fun c => 
    c.fjet z d [a, b] pu (c.byOrder 20 30 40 50) fun l h => jFpowi (c.count z b l h) (c.jin z rm a a a l h)

end Sys2Proof.Machine
end

