-- ==== Sys2Proof/Machine/Float.lean ====
section
/-! DEFINITION. The meanings of class 0x4 (R222 to R227). -/
namespace Sys2Proof.Machine

/-- FADD (R223). -/
def execFadd (d : Dst) (a b : Src) (pu : Option Pu) (z : FSz) (rm : Rm) (s : State) :
    Host.Outcome State Fault Refusal :=
  fire (.fadd d a b pu z rm) s fun c => c.fun2 z rm d a b pu (4) jFadd

/-- FSUB (R223). -/
def execFsub (d : Dst) (a b : Src) (pu : Option Pu) (z : FSz) (rm : Rm) (s : State) :
    Host.Outcome State Fault Refusal :=
  fire (.fsub d a b pu z rm) s fun c => c.fun2 z rm d a b pu (4) jFsub

/-- FMUL (R223): the product rule. -/
def execFmul (d : Dst) (a b : Src) (pu : Option Pu) (z : FSz) (rm : Rm) (s : State) :
    Host.Outcome State Fault Refusal :=
  fire (.fmul d a b pu z rm) s fun c => c.fun2 z rm d a b pu (c.byOrder 4 6 8 10) jFmul

/-- FMA (R223). -/
def execFma (d : Fin 16) (a b : Src) (pu : Option Pu) (z : FSz) (rm : Rm) (s : State) :
    Host.Outcome State Fault Refusal :=
  fire (.fma d a b pu z rm) s fun c => c.fun3 z rm d a b pu (c.byOrder 4 6 8 10) jFma

/-- FMS (R223): a × b − d. -/
def execFms (d : Fin 16) (a b : Src) (pu : Option Pu) (z : FSz) (rm : Rm) (s : State) :
    Host.Outcome State Fault Refusal :=
  fire (.fms d a b pu z rm) s fun c => c.fun3 z rm d a b pu (c.byOrder 4 6 8 10) jFms

/-- FNMA (R223): d − a × b. -/
def execFnma (d : Fin 16) (a b : Src) (pu : Option Pu) (z : FSz) (rm : Rm) (s : State) :
    Host.Outcome State Fault Refusal :=
  fire (.fnma d a b pu z rm) s fun c => c.fun3 z rm d a b pu (c.byOrder 4 6 8 10) jFnma

/-- FDIV (R224). -/
def execFdiv (d : Dst) (a b : Src) (pu : Option Pu) (z : FSz) (rm : Rm) (s : State) :
    Host.Outcome State Fault Refusal :=
  fire (.fdiv d a b pu z rm) s fun c => c.fun2 z rm d a b pu (c.byOrder 12 20 28 36) jFdiv

/-- FRCP (R224). -/
def execFrcp (d : Dst) (a : Src) (pu : Option Pu) (z : FSz) (rm : Rm) (s : State) :
    Host.Outcome State Fault Refusal :=
  fire (.frcp d a pu z rm) s fun c => c.fun1 z rm d a pu (c.byOrder 10 18 26 34) jFrcp

/-- FSQRT (R225). -/
def execFsqrt (d : Dst) (a : Src) (pu : Option Pu) (z : FSz) (rm : Rm) (s : State) :
    Host.Outcome State Fault Refusal :=
  fire (.fsqrt d a pu z rm) s fun c => c.fun1 z rm d a pu (c.byOrder 12 20 28 36) jFsqrt

/-- FRSQ (R225). -/
def execFrsq (d : Dst) (a : Src) (pu : Option Pu) (z : FSz) (rm : Rm) (s : State) :
    Host.Outcome State Fault Refusal :=
  fire (.frsq d a pu z rm) s fun c => c.fun1 z rm d a pu (c.byOrder 10 20 30 40) jFrsq

/-- FNEG (R226): flips every sign bit. -/
def execFneg (d : Dst) (a : Src) (pu : Option Pu) (z : FSz) (s : State) :
    Host.Outcome State Fault Refusal :=
  fire (.fneg d a pu z) s fun c => c.fun1 z .rn d a pu 1 fun i => each i.t fun k => copied (i.a k).neg

/-- FABS (R226). -/
def execFabs (d : Dst) (a : Src) (pu : Option Pu) (z : FSz) (s : State) :
    Host.Outcome State Fault Refusal :=
  fire (.fabs d a pu z) s fun c => 
    c.fjet z d [a] pu 1 fun l h => jFabs (fun k => signBit z (c.raw z a l h k)) (c.jin z .rn a a a l h)

/-- FMIN (R226). -/
def execFmin (d : Dst) (a b : Src) (pu : Option Pu) (z : FSz) (s : State) :
    Host.Outcome State Fault Refusal :=
  fire (.fmin d a b pu z) s fun c => c.fun2 z .rn d a b pu 2 (jMinmax true)

/-- FMAX (R226). -/
def execFmax (d : Dst) (a b : Src) (pu : Option Pu) (z : FSz) (s : State) :
    Host.Outcome State Fault Refusal :=
  fire (.fmax d a b pu z) s fun c => c.fun2 z .rn d a b pu 2 (jMinmax false)

/-- FSCALE (R227): times 2ⁿ, n from the single operand B. -/
def execFscale (d : Dst) (a b : Src) (pu : Option Pu) (z : FSz) (rm : Rm) (s : State) :
    Host.Outcome State Fault Refusal :=
  fire (.fscale d a b pu z rm) s fun c => 
    c.fjet z d [a, b] pu 2 fun l h => jFscale (c.count z b l h) (c.jin z rm a a a l h)

/-- FCPYS (R226): FABS of A, then every sign flipped when B's c(0) is negative. -/
def execFcpys (d : Dst) (a b : Src) (pu : Option Pu) (z : FSz) (s : State) :
    Host.Outcome State Fault Refusal :=
  fire (.fcpys d a b pu z) s fun c => 
    c.fjet z d [a, b] pu 1 fun l h =>
      let x := jFabs (fun k => signBit z (c.raw z a l h k)) (c.jin z .rn a a a l h)
      if signBit z (subBits z ((c.val b).get l) h) then x.map fun y => (y.1.neg, y.2) else x

end Sys2Proof.Machine
end

