-- ==== Sys2Proof/Machine/Jet.lean ====
section
/-! DEFINITION. The meanings of class 0x7 (R240 to R244). -/
namespace Sys2Proof.Machine

/-- JORD (R241): the order of the firing plane from the next cycle on. -/
def execJord (k : Fin 4) (s : State) : Host.Outcome State Fault Refusal :=
  fireWith (.jord k) s (fun _ => {}) fun c s => s.modElem c.e fun x => x.setJord c.pl (BitVec.ofNat 2 k.val)

/-- JSEED (R242): c(0) from A, c(1) from B, the rest 0; tags by SZ. See log entry 12 (DEDUCED). -/
def execJseed (d : Dst) (a b : Src) (pu : Option Pu) (z : FSz) (s : State) : Host.Outcome State Fault Refusal :=
  fire (.jseed d a b pu z) s fun c =>
    let v (j : Nat) : Oct W := if j = 0 then c.val a else if j = 1 then c.val b else Oct.rep 0
    ((c.putGroup d (fun j => (v j, FSz.tag z)) (c.valid [a, b])).withPu c pu (nonzeroF z (v 0))).raise 0

/-- JCONST (R242): c(0) from A, the rest 0; tags by SZ. See log entry 12 (DEDUCED). -/
def execJconst (d : Dst) (a : Src) (pu : Option Pu) (z : FSz) (s : State) : Host.Outcome State Fault Refusal :=
  fire (.jconst d a pu z) s fun c =>
    ((c.putGroup d (fun j => (if j = 0 then c.val a else Oct.rep 0, FSz.tag z)) (c.valid [a])).withPu c pu
      (nonzeroF z (c.val a))).raise 0

/-- JEXT (R242): coefficient j of group A with its tag; +0 with c0's tag beyond t. -/
def execJext (d : Dst) (a : Src) (j : Fin 4) (s : State) : Host.Outcome State Fault Refusal :=
  fire (.jext d a j) s fun c =>
    let x := if c.top < j.val then (Oct.rep 0, c.tag a) else c.coef a j
    (c.put d x.1 x.2 (c.valid [a])).raise 0

/-- JINS (R242): A into coefficient j of group D; nothing is written beyond t. At order 2 the fourth register of the group
becomes 0 with the tag that c0 then has (R216). See log entry 71 (DEDUCED). -/
def execJins (d : Fin 16) (a : Src) (j : Fin 4) (s : State) : Host.Outcome State Fault Refusal :=
  fire (.jins d a j) s fun c =>
    let tag0 := if j = 0 then c.tag a else (c.el.vreg c.pl d.val).tag
    let last := if c.top = 2 then [(d.val + 3, c.act, Oct.rep 0, tag0)] else []
    ({ regs := if c.top < j.val then [] else (d.val + j.val, c.act, c.val a, c.tag a) :: last } : Res).raise 0

/-- JDIFF (R243). -/
def execJdiff (d : Dst) (a : Src) (pu : Option Pu) (z : FSz) (rm : Rm) (s : State) :
    Host.Outcome State Fault Refusal :=
  fire (.jdiff d a pu z rm) s fun c => c.fun1 z rm d a pu 4 jJdiff

/-- JINTG (R243): c(0) from the single operand B. -/
def execJintg (d : Dst) (a b : Src) (pu : Option Pu) (z : FSz) (rm : Rm) (s : State) :
    Host.Outcome State Fault Refusal :=
  fire (.jintg d a b pu z rm) s fun c =>
    c.fjet z d [a, b] pu 12 fun l h => jJintg (c.fval z b l h 0) (c.jin z rm a a a l h)

/-- JEVAL (R243): the polynomial at B's value; one register. -/
def execJeval (d : Dst) (a b : Src) (pu : Option Pu) (z : FSz) (rm : Rm) (s : State) :
    Host.Outcome State Fault Refusal :=
  fire (.jeval d a b pu z rm) s fun c =>
    let js := c.jets z fun l h => [jJeval (c.fval z b l h 0) (c.jin z rm a a a l h)]
    (((c.put d (js.lane z 0) (FSz.tag z) (c.valid [a, b])).withPu c pu (nonzeroF z (js.lane z 0))).late
      (c.byOrder 4 4 8 12)).raise js.flags

/-- JMOV (R242): each register with its tag. -/
def execJmov (d : Dst) (a : Src) (pu : Option Pu) (s : State) : Host.Outcome State Fault Refusal :=
  fire (.jmov d a pu) s fun c =>
    ((c.putGroup d (c.coef a) (c.valid [a])).withPu c pu (nonzero (c.val a))).raise 0

/-- JSCAL (R243): c(j) times the j-th power of B's value. -/
def execJscal (d : Dst) (a b : Src) (pu : Option Pu) (z : FSz) (rm : Rm) (s : State) :
    Host.Outcome State Fault Refusal :=
  fire (.jscal d a b pu z rm) s fun c =>
    c.fjet z d [a, b] pu 4 fun l h => jJscal (c.fval z b l h 0) (c.jin z rm a a a l h)

/-- JTRNC (R242): coefficients above m become 0 and keep their tags. -/
def execJtrnc (d : Dst) (a : Src) (m : Fin 4) (s : State) : Host.Outcome State Fault Refusal :=
  fire (.jtrnc d a m) s fun c =>
    (c.putGroup d (fun j => (if j ≤ m.val then (c.coef a j).1 else Oct.rep 0, (c.coef a j).2)) (c.valid [a])).raise 0

/-- The bits JFLAG clears (R244). -/
def jflagMask (cmask : BitVec 4) (fmask : BitVec 5) : BitVec 20 :=
  (List.range 4).foldl (fun m j => if cmask.getLsbD j then m ||| flagsAt j fmask else m) 0

/-- JFLAG (R244): FFLAGS to D, then the chosen flags cleared. -/
def execJflag (d : Dst) (cmask : BitVec 4) (fmask : BitVec 5) (s : State) : Host.Outcome State Fault Refusal :=
  fireWith (.jflag d cmask fmask) s
    (fun c => c.put d (Oct.rep ((c.el.fflags c.pl).setWidth 32)) .int32 c.act)
    fun c s => s.modElem c.e fun x => x.setFflags c.pl (x.fflags c.pl &&& ~~~(jflagMask cmask fmask))

end Sys2Proof.Machine
end

