-- ==== Sys2Proof/Machine/Lane.lean ====
section
/-! DEFINITION. The meanings of class 0x8 (R209 to R213), with the fixed orders of R196. -/
namespace Sys2Proof.Machine

/-! ## Moves across lanes (R210, R211) -/

/-- A move whose destination lane l takes source lane `from l`, or 0. -/
def Ctx.across (c : Ctx) (d : Dst) (a : Src) (pick : Nat → Option Nat) : Res :=
  let x := c.val a
  let v := Oct.of fun l => match pick l with | some k => x.get k | none => 0
  let lvm := maskOf fun l => bit c.act l && (match pick l with | some k => bit (c.lvm a) k | none => true)
  c.put d v (c.tag a) lvm

/-- LBC (R210). -/
def execLbc (d : Dst) (a : Src) (k : Fin 8) (s : State) : Host.Outcome State Fault Refusal :=
  fire (.lbc d a k) s fun c => c.across d a fun _ => some k.val

/-- LSHF (R210): `n7` is n + 7. -/
def execLshf (d : Dst) (a : Src) (n7 : Fin 15) (s : State) : Host.Outcome State Fault Refusal :=
  fire (.lshf d a n7) s fun c =>
    c.across d a fun l => if n7.val ≤ l + 7 ∧ l + 7 - n7.val < 8 then some (l + 7 - n7.val) else none

/-- LROT (R210). -/
def execLrot (d : Dst) (a : Src) (n : Fin 8) (s : State) : Host.Outcome State Fault Refusal :=
  fire (.lrot d a n) s fun c => c.across d a fun l => some ((l + 8 - n.val) % 8)

/-- The active lanes in order, paired with what each receives. -/
def Ctx.deal (c : Ctx) (f : Nat → Option (W × Bool)) : Oct (Option (W × Bool)) :=
  let ls := lanesOf c.act
  Oct.of fun l => (ls.findIdx? (· == l)).bind f

/-- LCMPR (R211). -/
def execLcmpr (d : Dst) (a : Src) (p : Fin 8) (pu : Option Pu) (s : State) : Host.Outcome State Fault Refusal :=
  fire (.lcmpr d a p pu) s fun c =>
    let x := c.val a
    let src := (lanesOf (((c.el.preds c.pl).get p) &&& c.lvm a)).map fun l => x.get l
    let got := c.deal fun j => (src[j]?).map fun v => (v, true)
    let m := maskOf fun l => (got.get l).isSome
    ((c.put d (got.map fun y => match y with | some v => v.1 | none => 0) (c.tag a) m).withPu c pu m).late 2

/-- The values LEXPD places: the selected active lanes in order take A's lanes from 0 on. -/
def expandGo (pm : Mask) (x : Oct W) (valid : Mask) : List Nat → Nat → List (Nat × W × Bool)
  | [], _ => []
  | l :: ls, j =>
    if bit pm l then (l, x.get j, bit valid j) :: expandGo pm x valid ls (j + 1)
    else expandGo pm x valid ls j

/-- LEXPD (R211). -/
def execLexpd (d : Dst) (a : Src) (p : Fin 8) (pu : Option Pu) (s : State) : Host.Outcome State Fault Refusal :=
  fire (.lexpd d a p pu) s fun c =>
    let pm := (c.el.preds c.pl).get p
    let got := expandGo pm (c.val a) (c.lvm a) (lanesOf c.act) 0
    let v := Oct.of fun l => ((got.find? fun y => y.1 == l).map (·.2.1)).getD 0
    let lvm := maskOf fun l => ((got.find? fun y => y.1 == l).map (·.2.2)).getD false
    ((c.put d v (c.tag a) lvm).withPu c pu (c.act &&& pm)).late 2

/-! ## Integer reductions (R212) -/

def els (z : ISz) (signd : Bool) (x : W) : List Int :=
  (List.range (ISz.n z)).map fun i => if signd then sx (ISz.w z) (el (ISz.w z) x i) else (el (ISz.w z) x i : Int)

/-- The values of the participating elements, by ascending index. -/
def Ctx.intEls (c : Ctx) (z : ISz) (signd : Bool) (a : Src) : List Int :=
  (lanesOf (c.valid [a])).flatMap fun l => els z signd ((c.val a).get l)

def narrowSum (m : SumMode) (t : Int) : Nat :=
  match m with
  | .wrap => wrap 32 t
  | .sat => satS 32 t
  | .uwrap => wrap 32 t
  | .usat => satU 32 t

/-- LSUMI (R212). -/
def execLsumi (d : Dst) (a : Src) (pu : Option Pu) (z : ISz) (m : SumMode) (s : State) :
    Host.Outcome State Fault Refusal :=
  fire (.lsumi d a pu z m) s fun c =>
    let sg := match m with | .wrap => true | .sat => true | _ => false
    let v := Oct.rep (BitVec.ofNat 32 (narrowSum m ((c.intEls z sg a).foldl (· + ·) 0)))
    ((c.put d v .int32 c.act).withPu c pu (nonzero v)).late 2

/-- The running sums of one lane's elements: packed value, and the sum carried on. -/
def scanEls (w : Nat) (narrow : Int → Nat) (part : Bool) : List Int → Nat → Int → Nat × Int
  | [], _, t => (0, t)
  | v :: vs, i, t =>
    let t := if part then t + v else t
    let (r, u) := scanEls w narrow part vs (i + 1) t
    (narrow t * 2 ^ (w * i) + r, u)

/-- The scan over lanes 0 to 7. -/
def scanLanes (w : Nat) (narrow : Int → Nat) (valid : Mask) (x : Nat → List Int) : List Nat → Int → List W
  | [], _ => []
  | l :: ls, t =>
    let (r, u) := scanEls w narrow (bit valid l) (x l) 0 t
    BitVec.ofNat 32 r :: scanLanes w narrow valid x ls u

def listOct (xs : List W) : Oct W := Oct.of fun l => xs.getD l 0

/-- LSCANI (R212). -/
def execLscani (d : Dst) (a : Src) (pu : Option Pu) (z : ISz) (m : ScanMode) (s : State) :
    Host.Outcome State Fault Refusal :=
  fire (.lscani d a pu z m) s fun c =>
    let w := ISz.w z
    let (sg, narrow) : Bool × (Int → Nat) :=
      match m with | .wrap => (true, wrap w) | .sat => (true, satS w) | .usat => (false, satU w)
    let v := listOct (scanLanes w narrow (c.valid [a]) (fun l => els z sg ((c.val a).get l)) lanes 0)
    ((c.put d v (c.tag a) c.act).withPu c pu (nonzero v)).late 2

/-- Every element of a lane value set to one pattern. -/
def fill (w n v : Nat) : W := BitVec.ofNat 32 (packEls w (fun _ => v) n)

def Ctx.intMost (c : Ctx) (z : ISz) (sg isMax : Bool) (d : Dst) (a : Src) (pu : Option Pu) : Res :=
  let m : Int := match c.intEls z sg a with
    | [] => 0
    | v :: vs => vs.foldl (fun x y => if isMax then max x y else min x y) v
  let v := Oct.rep (fill (ISz.w z) (ISz.n z) (wrap (ISz.w z) m))
  ((c.put d v (c.tag a) c.act).withPu c pu (nonzero v)).late 2

/-! ## Floating-point reductions (R196, R213) -/

/-- The values of the participating sub-elements by index, `none` where one does not take part. -/
def Ctx.fpEls (c : Ctx) (z : FSz) (a : Src) (m : Mask) : List (Option FVal) :=
  lanes.flatMap fun l => (List.range (FSz.n z)).map fun h =>
    if bit m l then some (c.fval z a l h 0) else none

/-- One level of the pairwise tree: a missing operand passes the other unchanged. -/
def treeLevel (r : Rd) : List (Option FVal) → List (Option FVal) × Fl
  | x :: y :: xs =>
    let (zs, f) := treeLevel r xs
    (match x, y with
     | some a, some b => let s := r.add a b; (some s.1 :: zs, f ||| s.2)
     | some a, none => (some a :: zs, f)
     | none, b => (b :: zs, f))
  | xs => (xs, 0)

def tree (r : Rd) : Nat → List (Option FVal) → Option FVal × Fl
  | 0, xs => (xs.headD none, 0)
  | n + 1, xs =>
    let (ys, f) := treeLevel r xs
    let (v, g) := tree r n ys
    (v, f ||| g)

/-- The tree over 8 or 16 values; +0 when all are missing. A lone value that is a NaN is the canonical one. -/
def Ctx.treeSum (c : Ctx) (z : FSz) (rm : Rm) (xs : List (Option FVal)) : FVal × Fl :=
  let (v, f) := tree (c.rd z rm) (if FSz.n z = 1 then 3 else 4) xs
  let sg := xs.foldl (fun a x => match x with | some y => a ||| sigFlag y | none => a) (0 : Fl)
  (match v with | some (.nan _) => .nan false | some y => y | none => .zero, f ||| sg)

/-- One value in every element of every active lane; flags to C0. -/
def Ctx.spread (c : Ctx) (z : FSz) (d : Dst) (pu : Option Pu) (lat : Nat) (x : FVal × Fl) : Res :=
  let v := Oct.rep (fill (FSz.fmt z).width (FSz.n z) ((FSz.fmt z).bits x.1))
  (((c.put d v (FSz.tag z) c.act).withPu c pu (nonzeroF z v)).late lat).raise (flagsAt 0 x.2)

/-- LSUM (R213). -/
def execLsum (d : Dst) (a : Src) (pu : Option Pu) (z : FSz) (rm : Rm) (s : State) :
    Host.Outcome State Fault Refusal :=
  fire (.lsum d a pu z rm) s fun c =>
    c.spread z d pu (if FSz.n z = 1 then 12 else 16) (c.treeSum z rm (c.fpEls z a (c.valid [a])))

/-- LDOT (R213). -/
def execLdot (d : Dst) (a b : Src) (pu : Option Pu) (z : FSz) (rm : Rm) (s : State) :
    Host.Outcome State Fault Refusal :=
  fire (.ldot d a b pu z rm) s fun c =>
    let m := c.valid [a, b]
    let ps := (c.fpEls z a m).zip (c.fpEls z b m)
    let qs : List (Option (FVal × Fl)) := ps.map fun x =>
      match x with | (some u, some v) => some ((c.rd z rm).mul u v) | _ => none
    let t := c.treeSum z rm (qs.map fun q => q.map (·.1))
    c.spread z d pu (if FSz.n z = 1 then 16 else 20) (withFl t (qs.foldl (fun f q => match q with | some y => f ||| y.2 | none => f) 0))

/-- The left-to-right scan of R196. -/
def scanGo (r : Rd) : List (Option FVal) → Option FVal → List FVal × Fl
  | [], _ => ([], 0)
  | x :: xs, acc =>
    let (acc, f) : Option FVal × Fl := match acc, x with
      | none, some v => (some v, sigFlag v)
      | some a, some v => let s := r.add a v; (some s.1, s.2)
      | a, none => (a, 0)
    let (ys, g) := scanGo r xs acc
    ((match acc with | some (.nan _) => .nan false | some v => v | none => .zero) :: ys, f ||| g)

/-- LSCAN (R213). -/
def execLscan (d : Dst) (a : Src) (pu : Option Pu) (z : FSz) (rm : Rm) (s : State) :
    Host.Outcome State Fault Refusal :=
  fire (.lscan d a pu z rm) s fun c =>
    let (ys, f) := scanGo (c.rd z rm) (c.fpEls z a (c.valid [a])) none
    let v := Oct.of fun l => packF z fun h => (FSz.fmt z).bits (ys.getD (FSz.n z * l + h) .zero)
    (((c.put d v (FSz.tag z) c.act).withPu c pu (nonzeroF z v)).late (if FSz.n z = 1 then 28 else 60)).raise (flagsAt 0 f)

def Ctx.fpMost (c : Ctx) (z : FSz) (isMax : Bool) (d : Dst) (a : Src) (pu : Option Pu) : Res :=
  let xs := (c.fpEls z a (c.valid [a])).filterMap id
  let f := xs.foldl (fun f x => f ||| sigFlag x) (0 : Fl)
  let m : FVal :=
    if xs.any FVal.isNan then .nan false
    else match xs with
      | [] => .zero
      | v :: vs => vs.foldl (fun x y => if isMax then (if ltV x y then y else x) else (if ltV y x then y else x)) v
  c.spread z d pu 3 (m, f)

/-- LMAX (R212, R213). -/
def execLmax (d : Dst) (a : Src) (pu : Option Pu) (k : MmKind) (s : State) : Host.Outcome State Fault Refusal :=
  fire (.lmax d a pu k) s fun c =>
    match k with
    | .s z => c.intMost z true true d a pu
    | .u z => c.intMost z false true d a pu
    | .f z => c.fpMost z true d a pu

/-- LMIN (R212, R213). -/
def execLmin (d : Dst) (a : Src) (pu : Option Pu) (k : MmKind) (s : State) : Host.Outcome State Fault Refusal :=
  fire (.lmin d a pu k) s fun c =>
    match k with
    | .s z => c.intMost z true false d a pu
    | .u z => c.intMost z false false d a pu
    | .f z => c.fpMost z false d a pu

end Sys2Proof.Machine
end

