-- ==== Sys2Proof/Machine/Voids.lean ====
section
/-! DEFINITION. Voiding a round and replaying it (R303 to R305), the deadlock event with the stall walker's chain (R319,
R336, R337), the trap queue (R307), and uncorrectable errors with undervolting (R311, R347, R348). -/
namespace Sys2Proof.Machine

/-! ## Restoring (R303 step 6) -/

/-- A stream as it stood at the cut: every ordinal but those of the recorded operations has performed. -/
def Stream.restore (x : Stream) (saved : Stream) (openOrds : List (BitVec 16)) : Stream :=
  let n := (saved.issued - saved.perf).toNat
  let ords := (List.range n).map fun i => saved.perf + BitVec.ofNat 16 i
  let y : Stream := { x with issued := saved.issued, perf := saved.perf, ahead := [], stamp := saved.stamp
                             opened := saved.opened, set := saved.set }
  (ords.filter fun o => !openOrds.contains o).foldl Stream.complete y

/-- An element at the restore point (R303, R136, R305): LATEC stays. -/
def Elem.restore (x : Elem) (v : ElemSave) (round : Nat) : Elem :=
  let ords (i : Nat) : List (BitVec 16) := (v.ops.filter fun o => o.stream == i).map (·.ord)
  let g (i : Nat) : Counter := { x.g.get i with g := v.g.get i }
  { x with
    wr := v.wr, k := v.k, g := ⟨g 0, g 1, g 2, g 3⟩
    streams := Oct.of fun i => (x.streams.get i).restore (v.streams.get i) (ords i)
    tport := v.pkts.map (fun p => { p with round := round }), sendBuf := [], cmds := Oct.rep none
    free := [0, 1, 2, 3, 4, 5, 6, 7], issuedOrder := [], inflight := [], estat := v.estat, fires := 0, round := round
    loss := Hex.rep 0, lossS := Hex.rep 0, sendReady := 0, ended := v.ended, stopped := none, trapNow := false, skipBrk := false, lateQ := []
    savedCut := none, heldMarks := [], sinceSave := 0, doneFire := false }

/-- Recorded tokens stand at the heads of their inputs, in recorded order. -/
def State.placeToks (s : State) (e : Nat) (toks : List (Nat × Tok)) (round : Nat) : State :=
  forAll (fun s ch =>
    let q := (toks.filter fun t => t.1 == ch).map fun t => { t.2 with round := round }
    if q.isEmpty then s
    else s.modPort (portKey e 0 ch) fun p => { p with queue := q, win := q.length, known := q.length }) (List.range 6) s

/-! ## Issuing recorded operations again (R303 step 8) -/

/-- The log record that satisfies a recorded operation. -/
def Region.logFor (r : Region) (e : Nat) (v : ElemSave) (o : OpRec) : Option LogRec :=
  r.replay.find? fun x => x.elem == e && x.kind != 5 && x.stream == o.stream &&
    x.ord == o.ord - (v.streams.get o.stream).issued

/-- A command begun again: STRM and MXMM at their progress, MXMM with the side-band scales it has taken; REDC behind the
updates that the cut has committed, so that each acts once (R114); any other from its start. See log entry 48 (DEDUCED). -/
def Cmd.again (c : Cmd) : Cmd :=
  let z := { freshCmd c.instr with
    desc := c.desc, plane := c.plane, slot := c.slot, stream := c.stream, scope := c.scope, ord := c.ord, gates := c.gates
    skipBefore := c.skipBefore, reply := c.reply, fires := c.fires, round := c.round, firedIn := c.firedIn
    ftz := c.ftz, count := c.count, jc := c.jc }
  match c.instr with
  | .strm _ _ _ _ true => { z with progress := c.progress, out := c.out, eosSent := c.eosSent, late := c.late }
  | .strm .. =>
    let coded := fld (c.lane 5) 16 1 == 1
    let pos := if coded then c.pos else 32 * c.out
    { z with
      progress := c.progress, out := c.out, pos := pos, srcPos := pos, issPos := pos, acc := c.acc, accPz := c.accPz
      dec := c.dec, decPz := c.decPz, tile := c.tile, late := c.late, staged := if coded then c.staged else [] }
  | .mxmm .. =>
    { z with
      progress := c.progress, tile := c.tile, begun := c.begun, acc := c.acc, tint := c.tint, scales := c.scales, nv := c.nv
      ovf := c.ovf }
  | .redc .. =>
    let begun := if c.wr.moved.isEmpty then [] else c.staged.take 1
    let pos := c.out + (begun.flatMap (·.bytes)).length
    { z with
      progress := c.progress, out := c.out, srcPos := pos, issPos := pos, staged := begun
      wr := { Pieces.empty with moved := c.wr.moved }, snap := c.snap, mem0 := c.mem0, poison0 := c.poison0, nv := c.nv
      ovf := c.ovf, late := c.late }
  | _ => z

/-- A recorded command takes its entry again. -/
def State.reissueCmd (s : State) (e : Nat) (n : Nat) (c : Cmd) (l : Option LogRec) (round : Nat) : State :=
  let id := e * 8 + n
  let s := s.modElem e fun x => { x with
    free := x.free.filter (· ≠ n), issuedOrder := n :: x.issuedOrder.filter (· ≠ n) }
  let s := (s.setCmd id { c.again with round := round }).claimRings e c
  match l with
  | some r =>
    s.answerCmd id (r.vals.get 0) (r.vals.get 1)
  | none => s

/-- A recorded full-empty operation is issued again; lanes that the log lists are done. -/
def State.reissueOp (s : State) (o : MemOp) (l : Option LogRec) (round : Nat) : State :=
  let (k, s) := s.fresh
  let lm : Mask := match l with | some r => r.lanes | none => 0
  let o' : MemOp := { o with
    round := round, seq := k, logged := lm, performed := false, gated := false, left := 0, due := 0, poison := none, gone := 0
    srv := none, extra := 0, far := none, back := none
    vals := match l with | some r => keep r.lanes r.vals | none => Oct.rep 0
    lanes := Oct.of fun i => if bit (o.lanesMade) i then (if bit lm i then .done else .wait) else .off }
  { s with ops := s.ops.put k o' }

/-- The recorded operations of an element, in their order. -/
def State.reissue (s : State) (k e : Nat) (v : ElemSave) (round : Nat) : State :=
  forAll (fun s (o : OpRec) =>
    let l := match s.region? k with | some r => r.logFor e v o | none => none
    match o.entry, o.cmd, o.op with
    | some n, some c, _ => s.reissueCmd e n c l round
    | none, _, some m => s.reissueOp m l round
    | _, _, _ => s) v.ops s

/-- Armed commands of the region: those of the cut at their progress, and those armed since from their start, which
add themselves to their join cells again. See log entry 60 (DEDUCED). -/
def State.rearm (s : State) (k : Nat) (r : Region) (n : Snapshot) : State :=
  let put (s : State) (id : Nat) (c : Cmd) : State :=
    { s with armed := s.armed.put id c, armedOf := s.armedOf.put id k }
  let s := forAll (fun s (a : Nat × Cmd) => put s a.1 a.2.again) n.armed s
  forAll (fun s (a : Nat × Cmd × Nat) =>
    if (SMap.get? n.armed a.1).isSome then s
    else
      let s := put s a.1 a.2.1
      match a.2.1.jc with
      | some j => s.modCell k j fun x => { x with val := x.val + 1 }
      | none => s) r.arms s

/-- The operations of a rolled-back region are issued again (R303 step 8). -/
def State.replayRegion (s : State) (k : Nat) : State :=
  match s.region? k with
  | none => s
  | some r =>
    let n := s.restorePoint k r
    (forAll (fun s (v : Nat × ElemSave) => s.reissue k v.1 v.2 r.round) n.elems s).rearm k r n

/-! ## Undoing memory (R299, R303 step 4) -/

/-- The bytes of a run that do not lie in a ring of the region, as the run has them; ring bytes stay as they are (R84). -/
def Region.besideRings (r : Region) (key : Nat) (bs : List Byte) : List (Nat × Byte) :=
  bs.zipIdx.filterMap fun b => if r.inRing (key + b.2) then none else some (key + b.2, b.1)

/-- Undo records, the newest first: bytes outside rings, poison bits, and tags of fabric cache lines with the bytes they
had stored. -/
def State.applyUndo (s : State) (k : Nat) (r : Region) : State :=
  let s := r.undo.foldr (fun (u : Undo) (s : State) =>
    let row := u.key / 32
    let set (i : Nat) (l : List Nat) : List Nat :=
      if u.fc.isNone && r.inRing (u.key + 32 * i) then l
      else if u.poison.testBit i then insertNat (row + i) l else removeNat (row + i) l
    let bs := if u.fc.isNone then r.besideRings u.key u.bytes else u.bytes.zipIdx.map fun b => (u.key + b.2, b.1)
    let s : State := { s with
      spm := bs.foldl (fun m b => Mem.put m b.1 b.2) s.spm
      poisonRows := set 0 (set 1 s.poisonRows) }
    match u.fc with
    | none => s
    | some (lk, tag) =>
      if tag = 0x7FFFFFFF then { s with fc := s.fc.del lk }
      else
        let off := tag % 2 ^ 31
        let pa := match s.walkTables r.die r.asid (r.cons.dbase + off) with
          | .ok l _ => l.pa (r.cons.dbase + off)
          | .fault _ _ => 0
        { s with fc := s.fc.put lk ⟨off, pa, decide (2 ^ 31 ≤ tag), u.mask, none, u.writers, s.tick⟩ }) s
  s.modRegion k fun r => { r with undo := [] }

/-- The log of both rounds, counted from the restore point. -/
def Region.replayLog (r : Region) (n : Snapshot) : List LogRec :=
  let since (x : LogRec) : BitVec 16 :=
    match r.cut with
    | some c =>
      if r.round < x.round then
        (match c.elems.get? x.elem with
         | some a => (a.streams.get x.stream).issued -
             (match n.elems.get? x.elem with | some b => (b.streams.get x.stream).issued | none => 0)
         | none => 0)
      else 0
    | none => 0
  r.log.map fun x => { x with ord := x.ord + since x, round := r.round }

/-! ## ROUND_VOID (R303) -/

/-- Everything of a region stops and what is in flight goes (R303 steps 1 to 5). -/
def State.voidStop (s : State) (k : Nat) (r : Region) : State :=
  let es := s.regionElems k
  let s := s.dropOps fun _ o => es.contains o.elem
  let ids := (es.flatMap fun e => (List.range 8).filterMap fun n => (s.elem e).cmds.get n |>.map fun _ => e * 8 + n)
  let s := forAll (fun s id => match s.cmd? id with
    | some c => s.leaveUnit id c
    | none => s) ids s
  let s := forAll (fun s id => s.dropCmd id)
    ((s.armed.filter fun a => s.armedOf.get? a.1 == some k).map (·.1)) s
  let mine (w : Waiter) : Bool := match w with | .node t _ => r.tiles.contains t | .scales rg => rg == k | _ => false
  let strip (t : Tile) : Tile := { t with rnd := t.rnd.filter fun l => l.region != k }
  let s := State.dropWaiters { s with tiles := s.tiles.map fun t => (t.1, strip t.2) } mine
  let s := (s.dropWalks).applyUndo k r
  s.emptyChannels es

/-- A streaming node at the restore point. -/
def MNode.restore (x : MNode) (y : (Nat × Nat × Nat) × Bool) : MNode :=
  { x with pos := y.1, done := y.2, buf := [], held := none, markDue := false, broken := false }

/-- A region at its restore point (R303 step 6); with a tag it waits for FRESUME (step 7), and otherwise its operations are
issued at once. -/
def State.voidRestore (s : State) (k : Nat) (r : Region) (tag : Option Nat) : State :=
  let n := s.restorePoint k r
  let log := r.replayLog n
  let ring (g : Ring) : Ring := if g.spill.isSome then { g with head := g.tail, hpos := (g.hpos + g.occ) % max 1 g.size } else g
  let live := match r.cut with | some c => c.waits | none => []
  let stop := match r.cut with | some c => c.stop | none => false
  let asked := match r.cutAsked with
    | some (t, st, w) => some (t, st || (stop && !live.isEmpty), live ++ w)
    | none => if live.isEmpty then none else some (s.tick + 1, stop, live)
  let rings := n.rings.zipIdx.map fun g => ring { g.1 with spill := (r.rings[g.2]?).bind (·.spill) }
  let s := s.setRegion k { r with
    rings := rings, joins := n.joins, joinQ := [], joinIn := [], cut := none, cutAsked := asked, slpos := n.slpos, slHeld := none, undo := []
    log := log, replay := log, voidAsked := [], voidTag := tag, lastMove := s.tick }
  let s := forAll (fun s (i : Nat × Nat) =>
    let q := (n.seqs.get? i.2).getD (0, 0)
    s.modIsland i.2 fun x => { x with iseq := q.1, tseq := q.2, iband := [], tband := [] }) r.islands s
  let s := forAll (fun s t => forAll (fun s m =>
    match n.nodes.get? (t * 4 + m) with
    | some y => s.modNode t m fun x => { x.restore y with stopCut := r.halted }
    | none => s.modNode t m fun x => { x with busy := [] }) [0, 1, 2, 3] s) r.tiles s
  let s := forAll (fun s (v : Nat × ElemSave) =>
    (s.modElem v.1 fun x => { x.restore v.2 r.round with cutStopped := r.halted }).placeToks v.1 v.2.toks r.round) n.elems s
  if tag.isSome then s else s.replayRegion k

/-- ROUND_VOID (R303, R302): the whole region, or every member of its gang, once its urgent work has ended. Each cause
writes its record; under VOID the region waits for FRESUME. -/
def execRoundVoid (k : Nat) (s : State) : Host.Outcome State Fault Refusal :=
  let ks := s.gangRegions k
  let asked (q : Nat) : Bool := match s.region? q with | some r => !r.voidAsked.isEmpty | none => false
  let up (q : Nat) : Bool := match s.region? q with | some r => s.running r | none => false
  let urgent := ks.any fun q => (s.regionElems q).any fun e => (s.elem e).inS
  if !ks.any asked || !ks.all up || urgent then .next s
  else
    let s := forAll (fun s q => match s.region? q with
      | some r => forAll (fun s (v : Nat × W × W × Option Nat) => s.voidRecord q v.1 v.2.1 v.2.2.1) r.voidAsked s
      | none => s) ks s
    let tag := ks.findSome? fun q => (s.region? q).bind fun r => r.voidAsked.findSome? fun v => v.2.2.2
    let s := forAll (fun s q => match s.region? q with | some r => s.voidStop q r | none => s) ks s
    .next (forAll (fun s q => match s.region? q with | some r => s.voidRestore q r tag | none => s) ks s)

/-- A cause asks for a void. -/
def State.askVoid (s : State) (k cause : Nat) (info0 info1 : W) (tag : Option Nat) : State :=
  s.modRegion k fun r => { r with voidAsked := r.voidAsked ++ [(cause, info0, info1, tag)] }

/-! ## The stall walker (R336, R337) -/

/-- What the walker finds at an element. -/
structure Hop where
  reason : Nat
  chan   : Nat                      -- channel, bit 3 set for an output
  win    : Nat
  slot   : Option (Plane × Nat)
  next   : Option Nat
  deriving DecidableEq, Repr

/-- The lowest valid slot of the active plane whose guard holds. -/
def State.guardSlot (s : State) (e : Nat) : Option (Plane × Nat × Ctx × Instr) :=
  let x := s.elem e
  let pl : Plane := if x.inS then .s else .work
  (List.range 16).findSome? fun n =>
    let m := x.plane pl
    if !m.valid.getLsbD n then none
    else match decodeSlot pl (m.slots.get n) with
      | .ok i =>
        let c := Ctx.of { s with cur := ⟨e, pl, n⟩ }
        if guardOk c.trig c.act then some (pl, n, c, i) else none
      | .bad _ => none

/-- An output of a slot that has no room: its lowest full branch. -/
def Ctx.fullBranch (c : Ctx) (i : Instr) : Option (Nat × Nat) :=
  let outs : List (Nat × Nat) :=
    (match c.trig.outq with | some o => [(o, c.room i)] | none => []) ++
    (match i with
     | .steer o _ _ => [(2 * o.val + 1, 1)]
     | _ => [])
  outs.findSome? fun o => ((c.s.outPorts (portKey c.e (vcOf c.pl) o.1)).find? fun p =>
    decide (c.s.capacity p < (c.s.port p).known + o.2)).map fun p => (o.1, p)

/-- One element of a chain: an input with a MARK at its head counts as empty (R289). See log entry 59 (DEDUCED). -/
def State.hopAt (s : State) (e : Nat) : Hop :=
  let x := s.elem e
  if x.stopped.isSome || (x.ended && (x.region.isSome || !x.inS)) || (x.cutStopped && !x.inS) then ⟨8, 0, 0, none, none⟩
  else match s.guardSlot e with
    | none => ⟨7, 0, 0, none, none⟩
    | some (pl, n, c, i) =>
      let sl := some (pl, n)
      match c.firstFail i with
      | 2 =>
        (match c.tests.find? fun h => !c.headOk i h with
         | some h =>
           if h.ch = 6 then ⟨if x.tport.isEmpty then 1 else 2, 6, x.tport.length, sl, none⟩
           else
             let p := portKey e (vcOf pl) h.ch
             let y := s.port p
             let short := y.queue.isEmpty || s.markAt p || (decide (y.queue.length < c.need i h.ch) && y.queue.all fun t => kindOk t h.test)
             if short then (match y.farFrom with
               | some m => ⟨10, h.ch, m, sl, none⟩
               | none => ⟨1, h.ch, y.win, sl, y.branch.map (·.prod)⟩)
             else ⟨2, h.ch, y.win, sl, none⟩
         | none => ⟨2, 0, 0, sl, none⟩)
      | 3 => (match c.fullBranch i with
        | some (o, p) => if isFar p then ⟨10, 8 + o, farMember p, sl, none⟩ else ⟨3, 8 + o, (s.port p).win, sl, some (portElem p)⟩
        | none => ⟨3, 8 + (c.trig.outq.getD 0), 0, sl, none⟩)
      | 4 => ⟨4, 0, 0, sl, none⟩
      | 5 => ⟨5, 0, 0, sl, none⟩
      | 6 => ⟨6, 0, 0, sl, none⟩
      | _ => ⟨0, 0, 0, sl, none⟩

/-- The hop an element gives at a place of a chain: LOOP and BORDER replace a next hop that cannot be taken. -/
def State.hopIn (s : State) (chain : List Nat) (e : Nat) : Hop × Nat :=
  let h := s.hopAt e
  match h.next with
  | none => (h, h.win)
  | some x =>
    let mine := (s.elem e).region
    let his := (s.elem x).region
    if chain.contains x || x == e then ({ h with reason := 9, next := none }, h.win)
    else if his != mine then
      ({ h with reason := 10, next := none }, match his.bind s.region? with | some r => r.member | none => 0)
    else (h, h.win)

/-- Write the record of a hop; the node is that of the slot examined. -/
def State.traceHop (s : State) (d e : Nat) (h : Hop) (info1 : Nat) : State :=
  let node := match h.slot with | some (pl, n) => s.nodeNumber e pl n | none => 0xFFFFFFFF
  s.trace d 5 h.reason (elidOf e) node (s.elem e).fires (BitVec.ofNat 32 h.chan) (BitVec.ofNat 32 info1)

/-- The hops of a chain at one instant, as the deadlock event writes them. See log entry 59 (DEDUCED). -/
def State.traceChain (s : State) (d : Nat) : Nat → List Nat → Nat → State
  | 0, _, _ => s
  | n + 1, chain, e =>
    let (h, info) := s.hopIn chain e
    let s := s.traceHop d e h info
    match h.next with
    | some x => s.traceChain d n (chain ++ [e]) x
    | none => s

/-! ## DEADLOCK_EVENT (R319, R20) -/

def dlTicks (cutcfg : W) : Nat := max 4 (fld cutcfg.toNat 16 16) * 1024

/-- DEADLOCK_EVENT: a channel holds a token also where one stands at its entry and cannot enter (R158). -/
def execDeadlockEvent (k : Nat) (s : State) : Host.Outcome State Fault Refusal :=
  match s.region? k with
  | none => .next s
  | some r =>
    let es := s.regionElems k
    let full := (s.ports.any fun p => es.contains (portElem p.1) && (!p.2.queue.isEmpty || !p.2.spilled.isEmpty)) ||
      s.flights.any fun f => es.contains (portElem f.2.port) && f.2.left == 0 && decide (f.2.due ≤ s.clock)
    if !s.running r || r.dlRaised || s.quiet k || !full || decide (s.tick < r.lastMove + dlTicks (s.die r.die).cutcfg) then .next s
    else
      let s := s.setRegion k { r with dlRaised := true }
      let ins (e vc : Nat) : List Nat := (List.range 6).filter fun ch => !(s.port (portKey e vc ch)).queue.isEmpty
      let vcAt (e : Nat) : Nat := if (s.elem e).inS then 1 else 0
      let stuck := (es.filter fun e => !(ins e (vcAt e)).isEmpty).take 64
      let s := s.trace r.die 8 0 0 0xFFFFFFFF 0 0 0
      .next (forAll (fun s e =>
        let vc := vcAt e
        let heads := (ins e vc).foldl (fun n ch =>
          n + 2 ^ ch + (match (s.port (portKey e vc ch)).queue with | t :: _ => kindNum t.kind * 2 ^ (6 + 3 * ch) | [] => 0)) 0
        let noRoom := (List.range 6).foldl (fun n o =>
          let k := portKey e vc o
          n + if !(s.outPorts k).isEmpty && !s.space e vc o 1 then 2 ^ o else 0) 0
        let x := s.elem e
        let s := s.eventRecord e 17 (if vc = 1 then .s else .work) 0x1F x.fires x.round (BitVec.ofNat 32 heads) (BitVec.ofNat 32 noRoom)
        let s := s.trace r.die 4 0 (elidOf e) 0xFFFFFFFF x.fires 0 0
        s.traceChain r.die (fld (s.die r.die).swctl.toNat 0 4 + 1) [] e) stuck s)

/-! ## The trap queue (R307) -/

/-- STALL_TRAP_RECORD: the oldest record that waits is written, when the queue is enabled and has room. -/
def execStallTrapRecord (die : Nat) (s : State) : Host.Outcome State Fault Refusal :=
  let d := s.die die
  let log := fld d.tqctl.toNat 0 8
  match d.trapQ with
  | [] => .next s
  | x :: rest =>
    if log < 4 ∨ 16 < log ∨ (d.tqtail - d.tqhead).toNat = 2 ^ log then .next s
    else
      let a := fld d.tqbase.toNat 6 46 * 64 + d.tqtail.toNat % 2 ^ log * 64
      .next { s.setDie die { d with trapQ := rest, tqtail := d.tqtail + 1, coreIrq := true } with mem := s.mem.write a x.bytes }

/-! ## Uncorrectable errors (R311, R347, R348) -/

def quadrant (t : Nat) : Nat := 2 * (t % 256 / 16 / 8) + t % 16 / 8

/-- The tile whose arrays an error lies in, and its address when it has one. -/
def State.errTile (s : State) : ErrSite → Option Nat × Option Nat
  | .committed pa => (if dieKey pa < 8 then some (s.homeTile pa) else none, some pa)
  | .tileRow key => (some (key / 2 ^ 20), none)
  | .uncommitted _ pa tile => (some tile, if pa < 2 ^ 52 then some pa else none)
  | .restoring _ tile => (some tile, none)

/-- UNDERVOLT_TRIP (R348): the quadrant returns to nominal, at once; for 4 µs from then UVSTAT follows the errors of the
quadrant, which bring no further return (R358). See log entry 98 (DESIGN CHOICE). -/
def State.trip (s : State) (site : ErrSite) : State :=
  match s.errTile site with
  | (some t, pa) =>
    let d := dieOfTile t
    let q := quadrant t
    let x := s.die d
    let c := x.uvctl.get q
    let stat : BitVec 64 := match pa with | some a => BitVec.ofNat 64 a | none => BitVec.ofNat 64 (2 ^ 63)
    let noted : Die := { x with uvstat := x.uvstat.set q stat }
    if fld c.toNat 0 4 ≠ 0 then
      s.setDie d { noted with
        uvctl := x.uvctl.set q ((c &&& 0x7FFFFFF0) ||| 0x40000000), uvTrip := x.uvTrip.set q (some s.clock) }
    else match x.uvTrip.get q with
      | some at_ => if s.clock < at_ + 17 * 4000 then s.setDie d noted else s
      | none => s
  | _ => s

/-- The region that has an undo record of an open round for the line of a row of tile memory: what the row holds is
uncommitted (R311). -/
def State.openUndo (s : State) (key : Nat) : Option Nat :=
  (s.regions.find? fun r => !r.2.inRing key && r.2.undo.any fun u => u.key / 64 == key / 64).map (·.1)

/-- UNCORRECTABLE_ERROR (R311): uncommitted state voids the round, committed data is poisoned, and an error in restoring
state aborts the run. -/
def execUncorrectableError (site : ErrSite) (s : State) : Host.Outcome State Fault Refusal :=
  let s := s.trip site
  .next (match site with
    | .committed pa => s.poisonLine pa
    | .tileRow key =>
      (match s.openUndo key with
       | some rg => s.askVoid rg 33 0xFFFFFFFF 0x800FFFFF none
       | none => { s with poisonRows := insertNat (key / 32) s.poisonRows })
    | .uncommitted rg pa _ =>
      let lo : W := if pa < 2 ^ 52 then BitVec.ofNat 32 pa else 0xFFFFFFFF
      let hi : W := if pa < 2 ^ 52 then BitVec.ofNat 32 (pa / 2 ^ 32) else 0x800FFFFF
      s.askVoid rg 33 lo hi none
    | .restoring rg _ => s.abortRegion rg 8)

/-- UNDERVOLT_STEP (R347): once a millisecond the regulator of a quadrant moves one step. -/
def execUndervoltStep (die q events : Nat) (s : State) : Host.Outcome State Fault Refusal :=
  let c := ((s.die die).uvctl.get q).toNat
  let step := fld c 0 4
  let ceth := fld c 16 8
  let step' := if fld c 31 1 = 0 then step
    else if events < ceth ∧ step < fld c 8 4 then step + 1
    else if ceth < events ∧ 0 < step then step - 1
    else step
  .next (s.modDie die fun d => { d with uvctl := d.uvctl.set q (BitVec.ofNat 32 (c / 16 * 16 + step')) })

end Sys2Proof.Machine
end

