-- ==== Sys2Proof/Machine/Pctl.lean ====
section
/-! DEFINITION. What the control cores ask of a run: pre-emption, restore, dump and void (R314 to R318, R340), halting
and resuming (R341), and resuming after faults and traps (R73, R310). -/
namespace Sys2Proof.Machine

/-! ## PCTL (R314) -/

/-- The region of a run that PCTL acts on: the first of a walk of the die. See log entry 62 (DEDUCED). -/
def State.runRegion (s : State) (die : Nat) (run : W) : Option Nat :=
  (s.regions.find? fun r => r.2.run == run && !isReserved r.2 &&
    (match s.walks.get? r.2.walk with | some w => w.die == die | none => false)).map (·.1)

/-- PCTL starts an operation. -/
def Die.startPctl (d : Die) (op : BitVec 2) (busy fail : Bool) : Die :=
  { d with pctlOp := op, pctlBusy := busy, pctlFail := fail, shunterGated := false }

/-- OP 0, 2 and 3 on the run of PRUN; FAIL when there is no such run. -/
def State.pctlOn (s : State) (die : Nat) (op : BitVec 2) (f : Nat → State → State) : State :=
  if (s.die die).pctlBusy then s
  else match s.runRegion die (s.die die).prun with
    | none => s.modDie die fun d => d.startPctl op false true
    | some k => f k (s.modDie die fun d => d.startPctl op true false)

/-- PREEMPT (R315): a cut with stop, then the rest at its completion. -/
def execPreempt (die : Nat) (s : State) : Host.Outcome State Fault Refusal :=
  .next (s.pctlOn die 0 fun k s => s.askCut k true [.preempt die])

/-- DUMP (R318): the next cut copies the last completed one. -/
def execDump (die : Nat) (s : State) : Host.Outcome State Fault Refusal :=
  .next (s.pctlOn die 2 fun k s => s.askCut k false [.dump die])

/-- PCTL_VOID (R303). -/
def execPctlVoid (die : Nat) (s : State) : Host.Outcome State Fault Refusal :=
  .next (s.pctlOn die 3 fun k s => s.askVoid k 34 0 0 none)

/-! ## RESTORE (R317) -/

/-- A save image in memory. -/
structure Img where
  at_    : Nat
  kind   : Nat
  w      : Nat
  h      : Nat
  asid   : Nat
  run    : W
  cons   : Consist
  done   : Nat
  round  : Nat
  time   : BitVec 64
  nelem  : Nat
  nrec   : Nat
  nbank  : Nat
  nlog   : Nat
  elemOff : Nat
  recOff  : Nat
  bankOff : Nat
  logOff  : Nat
  slpos  : Nat
  next   : Nat
  deriving DecidableEq, Repr

/-- The header at an address, when it is well formed. -/
def State.imgAt (s : State) (a : Nat) : Option Img :=
  let b := s.mem.read a 128
  let f (o n : Nat) : Nat := natAt b o n
  let c : Consist := { flags := f 0x60 1, edges := f 0x61 1, place := f 0x62 1, image := f 0x10 8, scount := f 0x64 2
                       dbase := f 0x18 4 * 65536, arbw := BitVec.ofNat 32 (f 0x1C 4), slist := f 0x68 4
                       gang := BitVec.ofNat 32 (f 0x6C 4), gwoff := f 0x70 4 }
  let x : Img := { at_ := a, kind := f 6 1, w := f 8 1, h := f 9 1, asid := f 10 2, run := BitVec.ofNat 32 (f 12 4), cons := c
                   done := f 0x20 4, round := f 0x24 4, time := BitVec.ofNat 64 (f 0x28 8), nelem := f 0x30 4, nrec := f 0x34 4
                   nbank := f 0x38 4, nlog := f 0x3C 4, elemOff := f 0x40 4, recOff := f 0x44 4, bankOff := f 0x48 4
                   logOff := f 0x4C 4, slpos := f 0x54 4, next := f 0x58 8 }
  let ok := f 0 4 == 0x51505356 && f 4 2 == 1 && decide (x.kind ≤ 1 ∧ 1 ≤ x.w ∧ x.w ≤ 16 ∧ 1 ≤ x.h ∧ x.h ≤ 16) &&
    decide (x.asid < 4096 ∧ c.image < 2 ^ 48) && c.reservedOk && x.elemOff % 64 == 0 && x.recOff % 64 == 0 &&
    x.bankOff % 64 == 0 && x.logOff % 64 == 0
  if ok then some x else none

/-- The images of a gang, along NEXT. -/
def State.imgChain (s : State) (a : Nat) : Nat → Option (List Img)
  | 0 => none
  | n + 1 =>
    match s.imgAt a with
    | none => none
    | some x =>
      if x.next = 0 then some [x]
      else (s.imgChain (a + x.next) n).map fun l => x :: l

/-- The variable records of an image: type, channel, element, body. -/
def recsFrom (b : List Byte) : Nat → List (Nat × Nat × Nat × List Byte)
  | 0 => []
  | n + 1 =>
    let len := natAt b 2 1 * 8
    (natAt b 0 1, natAt b 1 1, natAt b 4 2, bytesAt b 8 len) :: recsFrom (b.drop (8 + len)) n

/-- An operation record of an image. The ordinals of a stream's records are its last ones. -/
def opRecOf (chan : Nat) (b : List Byte) : OpRec :=
  let w := BitVec.ofNat 32 (natAt b 0 4)
  let i := match decode w with | .ok i => i | .bad _ => .nop
  { word := w, fires := BitVec.ofNat 32 (natAt b 4 4), lanes := BitVec.ofNat 8 (natAt b 8 1), reply := natAt b 9 1
    aLanes := lanesAt b 0x10, dLanes := lanesAt b 0x30, status := BitVec.ofNat 32 (natAt b 0x50 4)
    progress := BitVec.ofNat 32 (natAt b 0x54 4), entry := if chan = 0xFF then none else some chan, plane := .work
    stream := match streamOf i with | some (st, _) => st | none => 0
    ord := 0, cmd := none, op := none }

/-- Ordinals for the records of one element: the last of each stream, in order. See log entry 61 (DEDUCED). -/
def giveOrds (issued : Nat → BitVec 16) (l : List OpRec) : List OpRec :=
  l.zipIdx.map fun x =>
    let after := ((l.drop (x.2 + 1)).filter fun y => y.stream == x.1.stream).length
    { x.1 with ord := issued x.1.stream - BitVec.ofNat 16 (after + 1) }

/-- Gates of a restored operation: what its mask names and stood before it. See log entry 61 (DEDUCED). -/
def State.gatesFor (s : State) (e : Nat) (own : Scope) (mask : Mask) (seen : List OpRec) : List Gate :=
  let upTo (m : Nat) : BitVec 16 :=
    match (seen.filter fun o => o.stream == m).getLast? with
    | some o => o.ord + 1
    | none => ((s.elem e).streams.get m).perf
  (s.gatesOf e own mask ((s.elem e).streams.map (·.issued))).map fun g =>
    if g.elem = e ∧ g.viaImport.isNone then { g with n := upTo g.stream } else g

/-- The progress of a command read from an image; a decoding tender passes over what it has written (R303 step 8).
See log entry 48 (DEDUCED). -/
def Cmd.atProgress (c : Cmd) (p : W) : Cmd :=
  let n := p.toNat
  match c.instr with
  | .strm .. =>
    if fld (c.lane 5) 16 1 = 1 then { c with progress := p, out := n / 32, tile := n }
    else { c with progress := p, out := n / 32, pos := n, srcPos := n, issPos := n }
  | .mxmm .. => { c with progress := p, tile := n }
  | .redc .. => { c with progress := p, out := n, srcPos := n, issPos := n }
  | _ => c

/-- Bytes out of which a record's commands and operations are made again. -/
def State.rebuild (s : State) (e round : Nat) (ftz : Bool) : List OpRec → List OpRec → List OpRec
  | _, [] => []
  | seen, o :: rest =>
    let i := match decode o.word with | .ok i => i | .bad _ => .nop
    let mask := match streamOf i with | some (_, m) => m | none => 0
    let scope := ((s.elem e).streams.get o.stream).scope
    let gs := s.gatesFor e scope mask seen
    let o' : OpRec := match o.entry with
      | some _ => { o with cmd := some ({ freshCmd i with
          desc := o.aLanes, stream := o.stream, scope := scope, ord := o.ord, gates := gs
          reply := if o.reply = 0 then none else some o.reply, fires := o.fires, round := round, firedIn := round
          ftz := ftz, count := fld (o.aLanes.get 3).toNat 0 16 }.atProgress o.progress) }
      | none => { o with op := some {
          instr := i, elem := e, plane := .work, slot := 0x1F, stream := o.stream, ord := o.ord, scope := scope
          skipBefore := none, gates := gs, a := o.aLanes, d := o.dLanes, d2 := Oct.rep 0, part := o.lanes, ftz := ftz
          reply := if (Instr.kind i) = .feLoad then some o.reply else none
          tag := (match i with | .ldf _ _ _ _ t => t | .ldfe _ _ _ _ t => t | _ => .raw)
          lanes := Oct.rep .off, vals := Oct.rep 0, poison := none, gone := 0, logged := 0, fires := o.fires, round := round, firedIn := round, asked := []
          gated := false, performed := false, left := 0, due := 0, seq := 0, isWatch := false, watchPu := none
          srv := none, extra := 0, far := none, back := none, owed := false } }
    o' :: s.rebuild e round ftz (seen ++ [o]) rest

/-- The log of an image: the LOG areas of the region's tiles in turn; the parity says whether a record is of the image's
round or of the next. See log entry 84 (DESIGN CHOICE). -/
def State.logIn (s : State) (r : Region) (b : List Byte) (n round : Nat) (elems : List Nat) : List LogRec :=
  let places := r.tiles.flatMap fun t => (List.range ((s.tile t).log.2 / 64)).map fun p => (t, p)
  (places.take n).zipIdx.filterMap fun q =>
    let x := bytesAt b (64 * q.2) 64
    let f (o k : Nat) : Nat := natAt x o k
    if f 1 1 = 0 then none
    else (elems.find? fun e => e % 32 == f 0 1 && tileOf e == q.1.1).map fun e =>
      { elem := e, kind := f 1 1, stream := fld (f 2 1) 0 3, round := round + (round + f 2 1 / 128) % 2, lanes := BitVec.ofNat 8 (f 3 1)
        ord := BitVec.ofNat 16 (f 4 2), opc := f 6 1, tag := D.tagOf (f 7 1), vals := lanesAt x 8, pos := q.1.2 }

/-- Everything of an image that takes the place of the initial state (R317). An element saved stopped stays stopped, and no
TAG names it. See log entry 96 (DESIGN CHOICE). -/
def State.restoreInto (s : State) (k : Nat) (x : Img) : State :=
  match s.region? k with
  | none => s
  | some r =>
    match r.image with
    | none => s
    | some im =>
      let ms := r.members im.bytes
      let recs := recsFrom (s.mem.read (x.at_ + x.recOff) (x.bankOff - x.recOff)) x.nrec
      let tyOf (t : Nat) : List (Nat × Nat × List Byte) := recs.filterMap fun y => if y.1 = t then some y.2 else none
      let elem (m : (Nat × Nat × Nat) × Nat) : ElemSave :=
        let b := s.mem.read (x.at_ + x.elemOff + 800 * m.2) 800
        let v := ElemSave.ofBytes b (s.initialSave k im.bytes m.1)
        let mine (t : Nat) : List (Nat × Nat × List Byte) := (tyOf t).filter fun y => y.2.1 == m.1.2.2
        let pkt (b : List Byte) : Packet :=
          let w := natAt b 8 4
          ⟨fld w 0 7, fld w 8 2, BitVec.ofNat 32 (natAt b 0 4), BitVec.ofNat 32 (natAt b 4 4), fld w 10 1 == 1, x.round⟩
        let ops := giveOrds (fun st => (v.streams.get st).issued) ((mine 3).map fun y => opRecOf y.1 y.2.2)
        { v with
          toks := (mine 1).map fun y => (y.1, tokOf y.2.2 x.round)
          pkts := (mine 2).map fun y => pkt y.2.2, ops := ops }
      let elems := ms.zipIdx.map fun m => (m.1.1, elem m)
      let stop (v : ElemSave) : Option StopInfo := if v.stopped then some ⟨0, 0x1F, .work, 2 ^ 30⟩ else none
      let s := forAll (fun s (v : Nat × ElemSave) =>
        s.modElem v.1 fun y => { y.restore v.2 x.round with stopped := stop v.2 }) elems s
      let elems := elems.map fun v => (v.1, { v.2 with ops := s.rebuild v.1 x.round (v.2.estat.getLsbD 0) [] v.2.ops })
      let rings := r.rings.zipIdx.map fun g =>
        match (tyOf 4).find? fun y => natAt y.2.2 0 4 == g.2 with
        | some y => { g.1 with head := BitVec.ofNat 32 (natAt y.2.2 4 4), tail := BitVec.ofNat 32 (natAt y.2.2 8 4), hpos := natAt y.2.2 12 4 }
        | none => g.1
      let rings := rings.map fun g => if g.spill.isSome then { g with head := g.tail, hpos := (g.hpos + g.occ) % max 1 g.size } else g
      let joins := (tyOf 5).foldl (fun (m : SMap JoinCell) y =>
        let w := natAt y.2.2 8 4
        m.put (natAt y.2.2 0 4) ⟨BitVec.ofNat 32 (natAt y.2.2 4 4), if w.testBit 31 then some (w % 128) else none, 0, none⟩) []
      let seqs := (tyOf 6).foldl (fun (m : SMap (BitVec 16 × BitVec 16)) y =>
        let u := natAt y.2.2 0 2
        let q := BitVec.ofNat 16 (natAt y.2.2 2 2)
        match r.island? (u % 4096) with
        | some (i, _) =>
          let o := (m.get? i).getD (0, 0)
          m.put i (if 32768 ≤ u then (o.1, q) else (q, o.2))
        | none => m) []
      let nodes := (tyOf 7).foldl (fun (m : SMap ((Nat × Nat × Nat) × Bool)) y =>
        match r.tiles[natAt y.2.2 0 1]? with
        | some t => (List.range 4).foldl (fun (m : SMap ((Nat × Nat × Nat) × Bool)) n =>
            let f (o : Nat) : Nat := natAt y.2.2 (8 + 8 * n + o) 2
            if ((s.tile t).nodes.get n).mode = .streaming then m.put (t * 4 + n) ((f 0, f 2, f 4), f 6 % 2 == 1) else m) m
        | none => m) []
      let armed := ((tyOf 3).filter fun y => y.2.1 == 0xFFFF).zipIdx.map fun y =>
        let o := opRecOf y.1.1 y.1.2.2
        (2 ^ 20 + s.nextId + y.2, { freshCmd (.mxmm 0 0 0 0) with
          desc := o.aLanes, count := (o.dLanes.get 0).toNat, progress := o.progress, tile := o.progress.toNat })
      let s : State := { s with nextId := s.nextId + armed.length }
      let banks := s.scratchBanks r
      let s := forAll (fun s (b : (Nat × Nat) × Nat) =>
        if b.2 < x.nbank then
          { s with spm := s.spm.write (spmKey b.1.1 b.1.2 0) (s.mem.read (x.at_ + x.bankOff + 65536 * b.2) 65536) }
        else s) banks.zipIdx s
      let log := s.logIn r (s.mem.read (x.at_ + x.logOff) (64 * x.nlog)) x.nlog x.round (ms.map (·.1))
      let n : Snapshot := { round := x.round, time := x.time, elems := elems, nodes := nodes, rings := rings, joins := joins
                            slpos := x.slpos, seqs := seqs, armed := armed }
      let s := s.modRegion k fun r => { r with
        rings := rings, joins := joins, slpos := x.slpos, round := x.round, done := x.done, snap := some n, log := log
        replay := log }
      let s := forAll (fun s (i : Nat × Nat) =>
        let q := (SMap.get? seqs i.2).getD (0, 0)
        s.modIsland i.2 fun y => { y with iseq := q.1, tseq := q.2 }) r.islands s
      let s := forAll (fun s (y : Nat × (Nat × Nat × Nat) × Bool) => s.modNode (y.1 / 4) (y.1 % 4) fun z => z.restore y.2) nodes s
      let s := forAll (fun s (v : Nat × ElemSave) => (s.placeToks v.1 v.2.toks x.round).reissue k v.1 v.2 x.round) elems s
      forAll (fun s (a : Nat × Cmd) =>
        { s with armed := s.armed.put a.1 a.2, armedOf := s.armedOf.put a.1 k }) armed s

/-- Place one image and load its consist, with the elements swapped and the banks taken; nothing when no rectangle is
free, or the fault of its load. -/
def State.restoreOne (s : State) (w : Nat) (y : Walk) (gates : List ChanRec) (x : Img) : LoadFault ⊕ Option (Nat × State) :=
  let c := x.cons
  let die := if c.fixed then fld c.place 0 3 else y.die
  if s.freeWheel.length < c.share then .inr none
  else match s.findRect die x.w x.h c.edges (fun _ => true) with
    | none => .inr none
    | some (tr, tc) =>
      let (k, s) := s.placeRegion { freshRegion w y die tr tc x.w x.h c (s.wheelFor c.share) .loading s.tick with
        asid := x.asid, gangId := if c.isGang then some w else none }
      match s.region? k with
      | none => .inr none
      | some r =>
        match s.fetchImage r c gates with
        | .inl f => .inl f
        | .inr (im, s) =>
          let s := s.setRegion k { r with image := some im }
          let s := s.writePlanes r im.bytes
          let s := forAll (fun s (m : Nat × Nat × Nat) => s.swapElem k r im.bytes m.1) (r.members im.bytes) s
          let s := s.installTables k
          let s := match s.region? k with
            | some r => forAll (fun s (b : Nat × Nat) => s.takeBank r b.1 b.2)
                (r.tiles.flatMap fun t => (List.range 16).map fun b => (t, b)) s
            | none => s
          .inr (some (k, s))

def State.restoreMany (s : State) (w : Nat) (y : Walk) (gates : List ChanRec) : List Img → LoadFault ⊕ Option (List (Nat × Img) × State)
  | [] => .inr (some ([], s))
  | x :: xs =>
    match s.restoreOne w y gates x with
    | .inl f => .inl f
    | .inr none => .inr none
    | .inr (some (k, s)) =>
      match s.restoreMany w y gates xs with
      | .inl f => .inl f
      | .inr none => .inr none
      | .inr (some (l, s)) => .inr (some ((k, x) :: l, s))

/-- The gateway list that the images of a gang name: it lies in member 0's data area (R278). -/
def State.imgGates (s : State) (die : Nat) (imgs : List Img) : List ChanRec :=
  match imgs.find? fun x => x.cons.isGang && x.cons.member == 0 with
  | some x =>
    let n := fld x.cons.gang.toNat 0 14
    (match s.fetchVirt die x.asid (x.cons.dbase + x.cons.gwoff) (16 * n) with
     | some (b, _) => (List.range n).map fun i => chanRec b (16 * i)
     | none => [])
  | none => []

/-- One attempt of the restore that PSAVE names, for the suspended walk of PRUN. The members of a gang in this package are
placed here, and start at the instant that R279 chooses once all are ready. See log entry 62 (DEDUCED). -/
def State.tryRestore (s : State) (die : Nat) : State :=
  let d := s.die die
  let fail (s : State) : State := s.modDie die fun d => { d with pctlBusy := false, pctlFail := true }
  match s.walks.find? fun w => w.2.die == die && w.2.run == d.prun && (match w.2.phase with | .suspended => true | _ => false) with
  | none => fail s
  | some (w, y) =>
    match s.imgChain (fld d.psave.toNat 6 46 * 64) 64 with
    | none => fail s
    | some imgs =>
      let away (x : Img) : Bool := x.cons.fixed && x.cons.pkg != Config.pkg
      let peers := (imgs.filter away).map fun x => (x.cons.member, x.cons.pkg)
      if !imgs.all fun x => x.run == d.prun then fail s
      else match s.restoreMany w y (s.imgGates die imgs) (imgs.filter fun x => !away x) with
        | .inl f => fail (s.loadFailed w f)
        | .inr none => s
        | .inr (some (l, s)) =>
          let s := forAll (fun s (x : Nat × Img) => s.modRegion x.1 fun r => { r with peers := peers }) l s
          let s := s.installGates (l.map (·.1)) (s.imgGates die imgs)
          let s := forAll (fun s (x : Nat × Img) =>
            let s := s.restoreInto x.1 x.2
            if x.2.cons.isGang then s.modRegion x.1 fun r => { r with phase := .banks }
            else s.startRamp x.1 (s.tick + 1) s.clock) l s
          (s.modWalk w fun y => { y with gang := l.map (·.1) }).modDie die fun d => { d with pctlBusy := false, pctlFail := false }

/-- RESTORE (R317): while no rectangle is free it waits. -/
def execRestore (die : Nat) (s : State) : Host.Outcome State Fault Refusal :=
  let d := s.die die
  if d.pctlBusy then (if d.pctlOp = 1 then .next (s.tryRestore die) else .next s)
  else .next ((s.modDie die fun d => d.startPctl 1 true false).tryRestore die)

/-! ## Halting (R341, R342) -/

/-- DEBUG_HALT: a cut with stop of every region of the run in the package. Where one is open in which everything has saved,
the halt is established at once. -/
def execDebugHalt (die : Nat) (s : State) : Host.Outcome State Fault Refusal :=
  let d := s.die die
  if d.dbgBusy then .next s
  else
    let open' := s.regions.any fun r => r.2.run == d.dbgrun && !r.2.halted
    let s := s.modDie die fun d => { d with dbgOp := 1, dbgBusy := open', dbgAct := d.dbgrun }
    let mine := (s.regions.filter fun r => r.2.run == d.dbgrun).map (·.1)
    .next (forAll (fun s k => s.checkHalt k) mine (s.haltRun d.dbgrun))

/-- A cut that still runs when its gang is resumed stops nobody further and halts nobody again; `keep` says that a
pre-emption waits for it, which needs the stop. -/
def Cut.resumed (c : Cut) (now : Nat) (keep : Bool) : Cut :=
  { c with start := now, timedOut := false, stop := c.stop && keep
           waits := c.waits.filter fun w => match w with | .halt => false | _ => true }

/-- A halted region goes on; its elements and nodes stay stopped only where a pre-emption waits for the open cut (R315). -/
def State.resumeRegion (s : State) (k : Nat) (r : Region) : State :=
  let gang := s.gangRegions k
  let keep := gang.any fun q => match s.region? q with
    | some x => (match x.cut with
      | some c => c.waits.any fun w => match w with | .preempt _ => true | _ => false
      | none => false)
    | none => false
  let s := s.setRegion k { r with halted := false }
  let go (n : MNode) : MNode := { n with stopCut := false }
  let s := if keep then s else
    let s := forAll (fun s e => s.modElem e fun x => { x with cutStopped := false }) (s.regionElems k) s
    forAll (fun s t => s.modTile t fun x => { x with
      nodes := ⟨go x.nodes.q0, go x.nodes.q1, go x.nodes.q2, go x.nodes.q3⟩ }) r.tiles s
  let told (p : Nat) : Bool := s.regions.any fun q => q.2.halted && q.2.gates.contains p
  let links := s.links.map fun l => if r.gates.contains l.2.peer && !told l.2.peer then (l.1, { l.2 with reports := false }) else l
  let s : State := { s with links := links }
  forAll (fun s q => s.modRegion q fun x => { x with
    lastMove := s.tick, cut := x.cut.map fun c => c.resumed s.tick keep }) gang s

/-- DEBUG_RESUME: the halted regions of the run go on, and their windows start afresh. -/
def execDebugResume (die : Nat) (s : State) : Host.Outcome State Fault Refusal :=
  let d := s.die die
  if d.dbgBusy then .next s
  else
    let halted := s.regions.filter fun r => r.2.run == d.dbgrun && r.2.halted
    let s := s.modDie die fun d => { d with dbgOp := 2 }
    let s := forAll (fun s (x : Nat × Region) => match s.region? x.1 with
      | some r => s.resumeRegion x.1 r
      | none => s) halted s
    match halted with
    | [] => .next s
    | (_, r) :: _ => .next (s.trace r.die 7 2 0 0xFFFFFFFF 0 r.run 0)

/-! ## FRESUME (R73, R284) -/

/-- The recorded fault of a tag. -/
def State.faultOf (s : State) (die tag : Nat) : Option (Nat × PWalk) :=
  s.pwalks.find? fun p => p.2.die == die && p.2.recorded && (match p.2.fault with | some (_, _, t) => t == tag | none => false)

/-- FRESUME names a tag: a region that is to be voided for it does not wait, and one that waits rolled back replays
(R73, R303 step 8). -/
def State.freeVoid (s : State) (tag : Nat) : State :=
  let waiting := (s.regions.filter fun r => r.2.voidTag == some tag).map (·.1)
  let free (r : Region) : Region :=
    let r : Region := { r with voidAsked := r.voidAsked.map fun v => if v.2.2.2 = some tag then (v.1, v.2.1, v.2.2.1, none) else v }
    if r.voidTag = some tag then { r with voidTag := none, lastMove := s.tick } else r
  let s : State := { s with regions := s.regions.map fun r => (r.1, free r.2) }
  forAll (fun s k => s.replayRegion k) waiting s

/-- FRESUME_RETRY: the held requests walk again. -/
def execFresumeRetry (die tag : Nat) (s : State) : Host.Outcome State Fault Refusal :=
  let s := s.freeVoid tag
  match s.faultOf die tag with
  | none => .next s
  | some (k, p) =>
    let s : State := { s with pwalks := s.pwalks.del k }
    .next (forAll (fun s (q : Req) => match q.who with
      | .shunter x => s.modWalk x fun y => { y with held := none }
      | w => s.tell w none) p.waiters s)

/-- FRESUME_ABORT: the consist is aborted; requests of other regions that the fault held look again; a completion record
that cannot be written is dropped. -/
def execFresumeAbort (die tag : Nat) (s : State) : Host.Outcome State Fault Refusal :=
  let waiting := (s.regions.filter fun r => r.2.voidTag == some tag).map (·.1)
  let s := forAll (fun s k => s.abortRegion k 2) waiting s
  match s.faultOf die tag with
  | none => .next s
  | some (k, p) =>
    let s : State := { s with pwalks := s.pwalks.del k }
    let s := match p.region with | some rg => s.abortRegion rg 2 | none => s
    .next (forAll (fun s (q : Req) => match q.who with
      | .shunter x =>
        (match s.walks.get? x with
         | some y => (match y.phase with
           | .writing => s.endWalk x y
           | _ => (s.modWalk x fun z => { z with held := none }).abortWalk x 2)
         | none => s)
      | w => s.tell w none) p.waiters s)

/-! ## TRESUME (R310, R333) -/

/-- The stopped element of the die whose record has a tag. -/
def State.stoppedBy (s : State) (die tag : Nat) : Option (Nat × StopInfo) :=
  s.elems.findSome? fun e =>
    match e.2.stopped with
    | some i => if dieOf e.1 = die ∧ i.tag = tag then some (e.1, i) else none
    | none => none

/-- The element goes on; a lateness trap that has been waiting is taken (R148). -/
def State.resumeElem (s : State) (e : Nat) : State :=
  let s := s.unstall e
  match (s.elem e).lateQ with
  | [] => s.stir (s.elem e).region
  | (c, t) :: rest => (s.modElem e fun x => { x with lateQ := rest }).lateTrap e c t

/-- TRESUME_RESUME. -/
def execTresumeResume (die tag : Nat) (s : State) : Host.Outcome State Fault Refusal :=
  match s.stoppedBy die tag with
  | some (e, _) => .next (s.resumeElem e)
  | none => .next s

/-- POISON tokens at the heads that a slot tests go, and free their slots. See log entry 64 (DEDUCED). -/
def State.dropPoison (s : State) (e : Nat) (pl : Plane) (slot : Nat) : State :=
  match decodeSlot pl (((s.elem e).plane pl).slots.get slot) with
  | .bad _ => s
  | .ok i =>
    let c := Ctx.of { s with cur := ⟨e, pl, slot⟩ }
    forAll (fun s h =>
      if h.ch = 6 then s
      else
        let p := portKey e (vcOf pl) h.ch
        let x := s.port p
        let n := c.need i h.ch
        let isPoison (t : Tok) : Bool := match t.kind with | .poison => true | _ => false
        let gone := ((x.queue.take n).filter isPoison).length
        let s := s.setPort p { x with
          queue := (x.queue.take n).filter (fun t => !isPoison t) ++ x.queue.drop n, win := x.win - gone }
        forAll (fun s _ => match x.branch with
          | some b => s.credit p (tileOf b.prod)
          | none => s.agingCredit p) (List.range gone) s) c.tests s

/-- TRESUME_CLEAR_POISON. See log entry 64 (DEDUCED). -/
def execTresumeClearPoison (die tag : Nat) (s : State) : Host.Outcome State Fault Refusal :=
  match s.stoppedBy die tag with
  | some (e, i) =>
    let s := if i.slot < 16 then s.dropPoison e i.plane i.slot else s
    .next (s.resumeElem e)
  | none => .next s

/-- TRESUME_VOID. See log entry 63 (DEDUCED). -/
def execTresumeVoid (die tag : Nat) (s : State) : Host.Outcome State Fault Refusal :=
  match s.stoppedBy die tag with
  | some (e, _) => .next (match (s.elem e).region with | some k => s.askVoid k 34 0 0 none | none => s)
  | none => .next s

/-- TRESUME_ABORT: as GABORT does. See log entry 63 (DEDUCED). -/
def execTresumeAbort (die tag : Nat) (s : State) : Host.Outcome State Fault Refusal :=
  match s.stoppedBy die tag with
  | some (e, _) => .next (match (s.elem e).region with | some k => s.abortRegion k 1 | none => s)
  | none => .next s

end Sys2Proof.Machine
end

