-- ==== Sys2Proof/Machine/Registers.lean ====
section
/-! DEFINITION. The device-register window (R14, R53, R57, R66, R68, R72, R269, R295, R307, R314, R329 to R338, R344 to
R351, R353, R355): what a write of each register does and what a read returns, and the control cores' accesses. -/
namespace Sys2Proof.Machine

/-- The state a step of the table leaves. -/
def after (o : Host.Outcome State Fault Refusal) (s : State) : State := match o with | .next t => t | _ => s

/-! ## Power tokens (R344, R345) -/

/-- The effective grants of one region: tile, grant, hint, in region tile order. See log entry 68 (DEDUCED). -/
def effective (l : List (Nat × Nat × Hint)) : List (Nat × Nat) :=
  let isLow (h : Hint) : Bool := match h with | .low => true | _ => false
  let isHigh (h : Hint) : Bool := match h with | .high => true | _ => false
  let f := l.foldl (fun n x => if isLow x.2.2 then n + (x.2.1 - x.2.1 / 2) else n) 0
  let n := (l.filter fun x => isHigh x.2.2).length
  let first := (l.find? fun x => isHigh x.2.2).map (·.1)
  l.map fun x =>
    let e := if isLow x.2.2 then x.2.1 / 2
      else if isHigh x.2.2 then x.2.1 + f / n + (if first = some x.1 then f % n else 0)
      else x.2.1
    (x.1, min e 65535)

def Die.grant (d : Die) (tile : Nat) : Nat := d.ptgrant.getD (tile % 256) 32768

/-- POWER_REFILL (R344, R345): every pool of the die is set to its grant, and the hints return to normal. A tile or
island that is not listed holds the reset grant, which it keeps (log entry 6). See log entry 68 (DEDUCED). -/
def execPowerRefill (die : Nat) (s : State) : Host.Outcome State Fault Refusal :=
  let d := s.die die
  let fill (s : State) (x : Nat × Nat) : State := s.modTile x.1 fun t => { t with tokens := x.2, hint := .normal }
  let mine := s.regions.filter fun r => r.2.die == die
  let listed := (s.tiles.filter fun t => dieOfTile t.1 == die).map (·.1) ++ d.ptgrant.map fun x => die * 256 + x.1
  let loose := listed.filter fun t => (s.tile t).region.isNone
  let s := forAll fill (loose.map fun t => (t, d.grant t)) s
  let s := forAll (fun s (r : Nat × Region) =>
    forAll fill (effective (r.2.tiles.map fun t => (t, d.grant t, (s.tile t).hint))) s) mine s
  let isl := (s.islands.filter fun i => i.1 / 64 == die).map (·.1) ++ d.islgrant.map (fun x => die * 64 + x.1) ++ mine.flatMap fun r => r.2.islands.map (·.2)
  .next (forAll (fun s i => s.modIsland i fun x => { x with pool := d.islgrant.getD (i % 64) 64 }) isl s)

/-! ## Queues and counts -/

/-- FQHEAD_WRITE (R72). -/
def execFqheadWrite (die : Nat) (v : W) (s : State) : Host.Outcome State Fault Refusal :=
  .next (s.modDie die fun d => { d with fqhead := v })

/-- FQCTL_WRITE (R72). -/
def execFqctlWrite (die : Nat) (v : W) (s : State) : Host.Outcome State Fault Refusal :=
  .next (s.modDie die fun d => { d with fqctl := v &&& 0xFF })

/-- TQHEAD_WRITE (R307). -/
def execTqheadWrite (die : Nat) (v : W) (s : State) : Host.Outcome State Fault Refusal :=
  .next (s.modDie die fun d => { d with tqhead := v })

/-- TQCTL_WRITE (R307). -/
def execTqctlWrite (die : Nat) (v : W) (s : State) : Host.Outcome State Fault Refusal :=
  .next (s.modDie die fun d => { d with tqctl := v &&& 0xFF })

/-- FERETRY_READ (R68). -/
def execFeretryRead (die : Nat) (s : State) : Host.Outcome State Fault Refusal :=
  .next { s.modDie die fun d => { d with feretry := 0 } with lastRead := (s.die die).feretry.setWidth 64 }

/-- TRDROP_READ (R330). -/
def execTrdropRead (die : Nat) (s : State) : Host.Outcome State Fault Refusal :=
  .next { s.modDie die fun d => { d with trdrop := 0 } with lastRead := (s.die die).trdrop.setWidth 64 }

/-- LSTAT_WRITE (R269). -/
def execLstatWrite (die : Nat) (v : W) (s : State) : Host.Outcome State Fault Refusal :=
  .next (s.modDie die fun d => { d with
    baddesc := d.baddesc && !v.getLsbD 24, ovf := d.ovf &&& ~~~v.extractLsb' 20 4, shunterGated := false })

/-- VISCFG_WRITE (R57): ignored while a change is in progress, and for the reserved value. -/
def execViscfgWrite (die : Nat) (v : W) (s : State) : Host.Outcome State Fault Refusal :=
  .next (s.modDie die fun d => if d.visBusy || v.extractLsb' 0 2 == 3 then d
    else { d with visBusy := true, visNew := v.extractLsb' 0 2 })

/-- SDCTL_WRITE (R66): ignored while BUSY; with BUSY the slices of the dies of the mask lose the matching entries. -/
def execSdctlWrite (die : Nat) (v : W) (s : State) : Host.Outcome State Fault Refusal :=
  let d := s.die die
  if d.sdctl.getLsbD 31 then .next s
  else
    let c := v &&& 0x8FFF0FFF
    let s := s.setDie die { d with sdctl := c }
    if !v.getLsbD 31 then .next s
    else
      let n := c.toNat
      let mask (k : Nat) : Bool := decide (k < 8) && n.testBit (20 + k)
      let held := s.translatedLanes fun k asid va leaf => mask k && shotBy n d.sdva.toNat asid va (lbit leaf 8) true
      .next ((s.shoot mask n d.sdva.toNat).modDie die fun d => { d with sdWait := held })

/-! ## Debug (R330, R336 to R338) -/

/-- STALL_WALK (R336): a write of SWCTL; with BUSY the walk starts at SWELID. See log entry 58 (DEDUCED). -/
def execStallWalk (die : Nat) (v : W) (s : State) : Host.Outcome State Fault Refusal :=
  let d := s.die die
  if d.swctl.getLsbD 31 then .next s
  else if !v.getLsbD 31 then .next (s.setDie die { d with swctl := v &&& 15, shunterGated := false })
  else
    let e := elemOfElid d.swelid
    let s := s.setDie die { d with
      swctl := (v &&& 15) ||| 0x80000000, swalk := some ⟨e, [], 0⟩, shunterGated := false }
    .next (s.trace die 4 0 (elidOf e) 0xFFFFFFFF (s.elem e).fires 0 0)

/-- STALL_WALK_HOP (R336, R337): one element is examined; the walk ends with it or goes on to the next. -/
def execStallWalkHop (die : Nat) (s : State) : Host.Outcome State Fault Refusal :=
  match (s.die die).swalk with
  | none => .next s
  | some x =>
    let (h, info) := s.hopIn x.chain x.elem
    let s := s.traceHop die x.elem h info
    let limit := fld (s.die die).swctl.toNat 0 4 + 1
    match h.next with
    | some y =>
      if x.hops + 1 < limit then
        .next (s.modDie die fun d => { d with swalk := some ⟨y, x.chain ++ [x.elem], x.hops + 1⟩ })
      else .next (s.modDie die fun d => { d with swalk := none, swctl := d.swctl &&& 0x7FFFFFFF })
    | none => .next (s.modDie die fun d => { d with swalk := none, swctl := d.swctl &&& 0x7FFFFFFF })

/-- Sketch j of a die. -/
def Die.sk (d : Die) (j : Nat) : Sketch := if j = 0 then d.sk0 else d.sk1
def Die.setSk (d : Die) (j : Nat) (x : Sketch) : Die := if j = 0 then { d with sk0 := x } else { d with sk1 := x }

/-- SKETCH_CLEAR (R338): a write of SKCTL with CLR; the seed written takes effect. -/
def execSketchClear (die j : Nat) (v : W) (s : State) : Host.Outcome State Fault Refusal :=
  .next (s.modDie die fun d =>
    let x := d.sk j
    { d.setSk j { x with ctl := v &&& 0x80000037, seed := x.seedNew, total := 0, counts := [] } with shunterGated := false })

/-! ## Clocks (R346) -/

/-- SPINE_WRITE (R346). See log entry 37 (DEDUCED). -/
def execSpineWrite (die n : Nat) (v : W) (s : State) : Host.Outcome State Fault Refusal :=
  let f := fld v.toNat 0 12
  if n = 0 ∨ 8 ≤ n ∨ f < 400 ∨ 2100 < f then .next s
  else .next (s.modDie die fun d => { d with spine := d.spine.set n ((d.spine.get n).1, some f) })

/-- SPINE_CHANGE_DONE (R346). -/
def execSpineChangeDone (die n : Nat) (s : State) : Host.Outcome State Fault Refusal :=
  .next (s.modDie die fun d => match d.spine.get n with
    | (_, some f) => { d with spine := d.spine.set n (f, none) }
    | _ => d)

/-- A tile begins to switch to another spine: at most 64 cycles (log entry 2). -/
def State.switchTile (s : State) (t n : Nat) : State :=
  let x := s.tile t
  if (x.nextSpine.getD (s.spineOf t)) = n then s
  else
    let (v, s) := s.draw
    s.setTile t { x with nextSpine := some n, switching := v.toNat % 64 + 1 }

/-- TCLK_WRITE (R346): the tiles of one register whose spine changes switch. -/
def execTclkWrite (die m : Nat) (v : W) (s : State) : Host.Outcome State Fault Refusal :=
  .next (forAll (fun s j => s.switchTile (die * 256 + (m % 32) * 8 + j) (fld v.toNat (4 * j) 3)) lanes s)

/-- TILE_CLOCK_SWITCH_DONE (R346). -/
def execTileClockSwitchDone (die tile : Nat) (s : State) : Host.Outcome State Fault Refusal :=
  let t := die * 256 + tile % 256
  let x := s.tile t
  match x.nextSpine with
  | none => .next s
  | some n =>
    .next ((s.setTile t { x with nextSpine := none, switching := 0 }).modDie die fun d => { d with tclk := d.tclk.put t n })

/-! ## Undervolting and gating (R347, R349, R350) -/

/-- UVCTL_WRITE (R347). See log entry 37 (DEDUCED). -/
def execUvctlWrite (die q : Nat) (v : W) (s : State) : Host.Outcome State Fault Refusal :=
  .next (s.modDie die fun d =>
    let c := d.uvctl.get q
    let trip : W := if v.getLsbD 30 then 0 else c &&& 0x40000000
    { d with uvctl := d.uvctl.set q ((v &&& 0x80FF0F00) ||| trip ||| (c &&& 15)) })

/-- CACHE_WAY_GATE (R349): the estimator gates one way, with its dirty lines written back; the layer's contents show in
no value. -/
def execCacheWayGate (die : Nat) (s : State) : Host.Outcome State Fault Refusal :=
  .next (s.modDie die fun d => if d.clAuto && decide (d.clMin < d.clWays) then { d with clWays := d.clWays - 1 } else d)

/-- CACHE_WAY_ENABLE (R349). -/
def execCacheWayEnable (die : Nat) (s : State) : Host.Outcome State Fault Refusal :=
  .next (s.modDie die fun d => { d with clWays := min 16 (d.clWays + 1) })

/-- An interrupt to the die's control cores is raised (R72, R274, R284, R307). See log entry 38 (DEDUCED). -/
def Die.irqUp (d : Die) : Bool := d.coreIrq || d.fqhead != d.fqtail || d.tqhead != d.tqtail

/-- CLUSTER_GATE (R350): its four cores have waited for 100 µs and no interrupt is raised. -/
def execClusterGate (die : Nat) (s : State) : Host.Outcome State Fault Refusal :=
  .next (s.modDie die fun d => if d.irqUp then d else { d with coresGated := true })

/-- CLUSTER_WAKE (R350). -/
def execClusterWake (die : Nat) (s : State) : Host.Outcome State Fault Refusal :=
  .next (s.modDie die fun d => { d with coresGated := false, coreIrq := false })

/-- The shunter of a die has nothing to do (R350). -/
def State.shunterIdle (s : State) (die : Nat) : Bool :=
  (s.die die).launchQ.isEmpty && !(s.walks.any fun w => w.2.die == die) && !(s.regions.any fun r => r.2.die == die)

/-- SHUNTER_GATE (R350): after 100 µs without a walk, a launch or a region. -/
def execShunterGate (die : Nat) (s : State) : Host.Outcome State Fault Refusal :=
  if s.shunterIdle die && decide ((s.die die).idleSince + 17 * 100000 ≤ s.clock) then
    .next (s.modDie die fun d => { d with shunterGated := true })
  else .next s

/-- SHUNTER_WAKE (R350). -/
def execShunterWake (die : Nat) (s : State) : Host.Outcome State Fault Refusal :=
  .next (s.modDie die fun d => { d with shunterGated := false, idleSince := s.clock })

/-! ## The register window -/

def bool32 (b : Bool) (n : Nat) : Nat := if b then 2 ^ n else 0

/-- Offset of a 64-bit register (R53, R269, R307, R314, R329, R347, R351). -/
def wide (off : Nat) : Bool :=
  [0x200, 0x300, 0x400, 0x800, 0x808, 0x810, 0x818, 0x840, 0x860, 0xA00, 0xB08, 0xB10, 0xB18, 0xC10, 0xC18, 0x1608].contains off ||
  (decide (0x910 ≤ off ∧ off < 0x990) && off % 8 == 0) || (decide (0x990 ≤ off ∧ off < 0x9D0) && off % 16 == 0) ||
  (decide (0x1420 ≤ off ∧ off < 0x1440) && off % 8 == 0)

/-- The input CCSEL selects (R335). See log entry 38 (DEDUCED). -/
def State.ccPort (s : State) (die : Nat) : Port :=
  let v := (s.die die).ccsel
  if 6 ≤ v.toNat % 8 then Port.empty
  else
    let p := s.port (portKey (elemOfElid v) 0 (v.toNat % 8))
    match p.branch with | some _ => p | none => { p with ccFull := 0, ccEmpty := 0, ccMove := 0 }

/-- A 64-bit register as it reads. See log entry 67 (DEDUCED). -/
def State.read64 (s : State) (die off : Nat) : BitVec 64 :=
  let d := s.die die
  match off with
  | 0x200 => d.atbase
  | 0x300 => d.sdva
  | 0x400 => d.fqbase
  | 0x840 => d.psave
  | 0x860 => d.tqbase
  | 0xA00 => d.trbase
  | 0xB08 => BitVec.ofNat 64 (s.ccPort die).ccFull
  | 0xB10 => BitVec.ofNat 64 (s.ccPort die).ccEmpty
  | 0xB18 => BitVec.ofNat 64 (s.ccPort die).ccMove
  | 0xC10 => d.sk0.total
  | 0xC18 => d.sk1.total
  | 0x1608 => s.now
  | _ =>
    if 0x910 ≤ off ∧ off < 0x990 then
      let n := (off - 0x910) / 16
      if off % 16 = 0 then d.sbpa.get n else d.sbpb.get n
    else if 0x990 ≤ off ∧ off < 0x9D0 then d.dwpa.get ((off - 0x990) / 16)
    else if 0x1420 ≤ off ∧ off < 0x1440 then d.uvstat.get ((off - 0x1420) / 8)
    else 0

/-- The run that DBGRUN names is halted in this package (R329). -/
def State.haltedRun (s : State) (run : W) : Bool :=
  (s.regions.any fun r => r.2.run == run) && s.regions.all fun r => r.2.run != run || r.2.halted

def dbgctlRead (s : State) (d : Die) : Nat :=
  bool32 d.dbgBusy 31 + bool32 (s.haltedRun d.dbgrun) 4 + bool32 (s.brkRuns.contains d.dbgrun) 3 + d.dbgOp.toNat

/-- LSTAT as it reads (R269). -/
def lstatRead (d : Die) : Nat :=
  bool32 d.baddesc 24 + d.ovf.toNat * 2 ^ 20 +
  [0, 1, 2, 3].foldl (fun n p => n + min 16 (d.launchQ.filter fun l => l.prio == p).length * 2 ^ (5 * p)) 0

/-- RLSTATp as it reads (R353). -/
def rlstat (p : RlPort) : Nat :=
  bool32 p.up 31 + bool32 p.train 30 + bool32 p.halt 29 + p.peer % 64 * 2 ^ 16 + min p.retry 65535

/-- This package is the grandmaster (R351). -/
def State.grandmaster (s : State) : Bool := s.dies.toList.any fun d => d.tbGm

/-- A 32-bit register as it reads; a register that is not listed, or can only be written, reads 0 (R53).
See log entry 67 (DEDUCED). While VISCFG.BUSY is 1, VWAYS reads the value being installed: see log entry 81
(DESIGN CHOICE). -/
def State.read32 (s : State) (die off : Nat) : Nat :=
  let d := s.die die
  match off with
  | 0x100 => bool32 d.visBusy 31 + (if d.visBusy then d.visNew else d.vways).toNat
  | 0x308 => d.sdctl.toNat
  | 0x408 => d.fqctl.toNat
  | 0x40C => d.fqhead.toNat
  | 0x410 => d.fqtail.toNat
  | 0x500 => bool32 d.migEn 0
  | 0x504 => d.migquota.toNat
  | 0x600 => d.feretry.toNat
  | 0x820 => lstatRead d
  | 0x828 => d.lurg.toNat
  | 0x830 => d.rampctl.toNat
  | 0x848 => bool32 d.pctlBusy 31 + bool32 d.pctlFail 2 + d.pctlOp.toNat
  | 0x84C => d.prun.toNat
  | 0x850 => d.cutcfg.toNat
  | 0x868 => d.tqctl.toNat
  | 0x86C => d.tqhead.toNat
  | 0x870 => d.tqtail.toNat
  | 0x900 => d.dbgrun.toNat
  | 0x904 => dbgctlRead s d
  | 0xA08 => d.trctl.toNat
  | 0xA0C => d.trhead.toNat
  | 0xA10 => d.trtail.toNat
  | 0xA14 => d.trdrop.toNat
  | 0xA20 => d.swctl.toNat
  | 0xA24 => d.swelid.toNat
  | 0xB00 => d.ccsel.toNat
  | 0xC00 => d.sk0.ctl.toNat
  | 0xC04 => d.sk1.ctl.toNat
  | 0xC08 => d.sk0.seedNew.toNat
  | 0xC0C => d.sk1.seedNew.toNat
  | 0x1500 => bool32 d.clAuto 31 + d.clMin * 2 ^ 16 + d.clWays
  | 0x1600 => bool32 d.tbGm 31 + bool32 (s.synced || s.grandmaster) 30
  | 0x1800 => if die = 0 then s.boot.phase + s.boot.failure * 256 else 0
  | _ =>
    if off < 0x20 then fld (s.usable.get die).toNat (8 * off) 32
    else if 0x998 ≤ off ∧ off < 0x9D0 ∧ off % 16 = 8 then (d.dwpc.get ((off - 0x998) / 16)).toNat
    else if 0xD00 ≤ off ∧ off < 0x1100 then d.ptgrant.getD ((off - 0xD00) / 4) 32768
    else if 0x1100 ≤ off ∧ off < 0x1200 then d.islgrant.getD ((off - 0x1100) / 4) 64
    else if 0x1200 ≤ off ∧ off < 0x1220 then
      let x := d.spine.get ((off - 0x1200) / 4)
      bool32 x.2.isSome 31 + x.2.getD x.1
    else if 0x1300 ≤ off ∧ off < 0x1380 then
      lanes.foldl (fun n j =>
        let t := die * 256 + (off - 0x1300) / 4 * 8 + j
        n + (s.tile t).nextSpine.getD (s.spineOf t) * 2 ^ (4 * j)) 0
    else if 0x1400 ≤ off ∧ off < 0x1410 then (d.uvctl.get ((off - 0x1400) / 4)).toNat
    else if 0x1700 ≤ off ∧ off < 0x1740 then rlstat (s.link ((off - 0x1700) / 4))
    else if 0x10000 ≤ off ∧ off < 0x18000 then
      let n := (off - 0x10000) / 4
      (((d.sk (n / 4096)).counts).getD (n % 4096) 0).toNat
    else 0

/-- Four bytes of the window as they read. -/
def State.readWord (s : State) (die off : Nat) : Nat :=
  let o := off / 8 * 8
  if wide o then fld (s.read64 die o).toNat (8 * (off - o)) 32 else s.read32 die off

/-- The flits of a port that were replayed since its count was last looked at (R353): nothing in the package shows how
many, so the count rises by a free number. See log entry 39 (DEDUCED). -/
def State.replayed (s : State) (port : Nat) : State :=
  match s.links.get? port with
  | some x =>
    if x.up then
      let (n, s) := s.draw
      { s with links := s.links.put port { x with retry := min 65535 (x.retry + n.toNat % 2 ^ 16) } }
    else s
  | none => s

/-- What a read of four bytes of the window brings up to date. -/
def State.lookAt (s : State) (off : Nat) : State :=
  if 0x1700 ≤ off ∧ off < 0x1740 then s.replayed ((off - 0x1700) / 4) else s

/-- What a read of four bytes of the window clears (R68, R330, R353). -/
def State.readClears (s : State) (die off : Nat) : State :=
  if off = 0x600 then s.modDie die fun d => { d with feretry := 0 }
  else if off = 0xA14 then s.modDie die fun d => { d with trdrop := 0 }
  else if 0x1700 ≤ off ∧ off < 0x1740 then
    let p := (off - 0x1700) / 4
    match s.links.get? p with
    | some x => { s with links := s.links.put p { x with retry := 0 } }
    | none => s
  else s

/-- A write of a 64-bit register (R53): its writable fields. -/
def State.write64 (s : State) (die off : Nat) (v : BitVec 64) : State :=
  let set (f : Die → Die) : State := s.modDie die f
  match off with
  | 0x200 => set fun d => { d with atbase := v &&& 0x000FFFFFFFFF8000 }
  | 0x300 => set fun d => if d.sdctl.getLsbD 31 then d else { d with sdva := v &&& 0x0000FFFFFFFF0000 }
  | 0x400 => set fun d => { d with fqbase := v &&& 0x000FFFFFFFFFFFE0 }
  | 0x800 => after (execLaunchWrite die 0 v s) s
  | 0x808 => after (execLaunchWrite die 1 v s) s
  | 0x810 => after (execLaunchWrite die 2 v s) s
  | 0x818 => after (execLaunchWrite die 3 v s) s
  | 0x840 => set fun d => if d.pctlBusy then d else { d with psave := v &&& 0x000FFFFFFFFFFFC0, shunterGated := false }
  | 0x860 => set fun d => { d with tqbase := v &&& 0x000FFFFFFFFFFFC0 }
  | 0xA00 => set fun d => { d with trbase := v &&& 0x000FFFFFFFFFFFE0, shunterGated := false }
  | _ =>
    if 0x910 ≤ off ∧ off < 0x990 then
      let n := (off - 0x910) / 16
      if off % 16 = 0 then set fun d => { d with sbpa := d.sbpa.set n (v &&& 0xE000001FFFFFFFFF), shunterGated := false }
      else set fun d => { d with sbpb := d.sbpb.set n v, shunterGated := false }
    else if 0x990 ≤ off ∧ off < 0x9D0 then
      set fun d => { d with dwpa := d.dwpa.set ((off - 0x990) / 16) (v &&& 0x000FFFFFFFFFFFC0), shunterGated := false }
    else s

/-- A write of PCTL (R314). -/
def State.writePctl (s : State) (die : Nat) (v : W) : State :=
  if (s.die die).pctlBusy then s
  else if !v.getLsbD 31 then s.modDie die fun d => { d with pctlOp := v.extractLsb' 0 2, shunterGated := false }
  else match v.toNat % 4 with
    | 0 => after (execPreempt die s) s
    | 1 => after (execRestore die s) s
    | 2 => after (execDump die s) s
    | _ => after (execPctlVoid die s) s

/-- A write of DBGCTL (R329, R341): BRKEN of the run DBGRUN names, and the operation. -/
def State.writeDbgctl (s : State) (die : Nat) (v : W) : State :=
  let d := s.die die
  if d.dbgBusy || v.toNat % 4 == 3 then s
  else
    let others := s.brkRuns.filter (· ≠ d.dbgrun)
    let s : State := { s with brkRuns := if v.getLsbD 3 then others ++ [d.dbgrun] else others }
    let s := s.modDie die fun d => { d with dbgOp := v.extractLsb' 0 2, shunterGated := false }
    if !v.getLsbD 31 then s
    else match v.toNat % 4 with
      | 1 => after (execDebugHalt die s) s
      | 2 => after (execDebugResume die s) s
      | _ => s

/-- The trace ring's address lies in the near memory of the die (R330). -/
def nearOf (die pa : Nat) : Bool := paDie pa == Config.pkg * 8 + die && isNear pa && populated pa

/-- A write of a 32-bit register. TRCTL.EN keeps its value where a write of 1 is ineffective (R330). Registers that are not listed or read-only ignore it (R53). -/
def State.write32 (s : State) (die off : Nat) (v : W) : State :=
  let set (f : Die → Die) : State := s.modDie die f
  let n := v.toNat
  match off with
  | 0x100 => after (execViscfgWrite die v s) s
  | 0x308 => after (execSdctlWrite die v s) s
  | 0x408 => after (execFqctlWrite die v s) s
  | 0x40C => after (execFqheadWrite die v s) s
  | 0x418 => if v.getLsbD 31 then after (execFresumeAbort die (n % 2 ^ 31) s) s else after (execFresumeRetry die n s) s
  | 0x500 => set fun d => { d with migEn := v.getLsbD 0 }
  | 0x504 => set fun d => { d with migquota := v }
  | 0x820 => after (execLstatWrite die v s) s
  | 0x828 => after (execUrgentLaunch die v s) s
  | 0x830 => set fun d => { d with rampctl := v &&& 0xFFFF, shunterGated := false }
  | 0x838 => after (execGabort die v s) s
  | 0x848 => s.writePctl die v
  | 0x84C => set fun d => if d.pctlBusy then d else { d with prun := v, shunterGated := false }
  | 0x850 => set fun d => { d with cutcfg := v }
  | 0x868 => after (execTqctlWrite die v s) s
  | 0x86C => after (execTqheadWrite die v s) s
  | 0x874 =>
    let tag := n % 2 ^ 30
    (match n / 2 ^ 30 with
     | 0 => after (execTresumeResume die tag s) s
     | 1 => after (execTresumeClearPoison die tag s) s
     | 2 => after (execTresumeVoid die tag s) s
     | _ => after (execTresumeAbort die tag s) s)
  | 0x900 => set fun d => { d with dbgrun := v, shunterGated := false }
  | 0x904 => s.writeDbgctl die v
  | 0xA08 => set fun d =>
      let c := v &&& 0x80FF3F1F
      let c := if !v.getLsbD 31 || nearOf die (fld d.trbase.toNat 5 47 * 32) then c
        else (c &&& 0x7FFFFFFF) ||| (d.trctl &&& 0x80000000)
      { d with trctl := c, shunterGated := false }
  | 0xA0C => set fun d => { d with trhead := v, shunterGated := false }
  | 0xA20 => after (execStallWalk die v s) s
  | 0xA24 => set fun d => { d with swelid := v, shunterGated := false }
  | 0xB00 => set fun d => { d with ccsel := v &&& 0xFFFFFE07, shunterGated := false }
  | 0xC00 => if v.getLsbD 30 then after (execSketchClear die 0 v s) s
    else set fun d => { d.setSk 0 { d.sk0 with ctl := v &&& 0x80000037 } with shunterGated := false }
  | 0xC04 => if v.getLsbD 30 then after (execSketchClear die 1 v s) s
    else set fun d => { d.setSk 1 { d.sk1 with ctl := v &&& 0x80000037 } with shunterGated := false }
  | 0xC08 => set fun d => { d.setSk 0 { d.sk0 with seedNew := v } with shunterGated := false }
  | 0xC0C => set fun d => { d.setSk 1 { d.sk1 with seedNew := v } with shunterGated := false }
  | 0x1500 => set fun d =>
      let m := fld n 16 5
      let m := if 1 ≤ m ∧ m ≤ 16 then m else d.clMin
      { d with clAuto := v.getLsbD 31, clMin := m, clWays := max d.clWays m }
  | 0x1600 => set fun d => { d with tbGm := v.getLsbD 31 }
  | _ =>
    if 0x998 ≤ off ∧ off < 0x9D0 ∧ off % 16 = 8 then
      set fun d => { d with dwpc := d.dwpc.set ((off - 0x998) / 16) (v &&& 0x80000F17), shunterGated := false }
    else if 0xD00 ≤ off ∧ off < 0x1100 then set fun d => { d with ptgrant := d.ptgrant.put ((off - 0xD00) / 4) (n % 65536) }
    else if 0x1100 ≤ off ∧ off < 0x1200 then
      set fun d => { d with islgrant := d.islgrant.put ((off - 0x1100) / 4) (n % 65536) }
    else if 0x1200 ≤ off ∧ off < 0x1220 then after (execSpineWrite die ((off - 0x1200) / 4) v s) s
    else if 0x1300 ≤ off ∧ off < 0x1380 then after (execTclkWrite die ((off - 0x1300) / 4) v s) s
    else if 0x1400 ≤ off ∧ off < 0x1410 then after (execUvctlWrite die ((off - 0x1400) / 4) v s) s
    else s

/-- A 32-bit write: of a register, or of half of a 64-bit register. -/
def State.writeWord (s : State) (die off : Nat) (v : W) : State :=
  let o := off / 8 * 8
  if wide o then
    let old := (s.read64 die o).toNat
    s.write64 die o (BitVec.ofNat 64 (if off = o then old / 2 ^ 32 * 2 ^ 32 + v.toNat else v.toNat * 2 ^ 32 + old % 2 ^ 32))
  else s.write32 die off v

/-- REGISTER_WRITE (R53): a register is written at its own width. -/
def execRegisterWrite (die off : Nat) (v : BitVec 64) (s : State) : Host.Outcome State Fault Refusal :=
  if off % 4 ≠ 0 ∨ 2 ^ 20 ≤ off then .next s
  else .next (if wide off then s.write64 die off v else s.writeWord die off (v.setWidth 32))

/-! ## Accesses of the control cores (R51 to R53) -/

def inWindow (pa : Nat) : Bool := pa % 2 ^ 43 / 2 ^ 41 == 2 && decide (pa % 2 ^ 41 < 2 ^ 20)

/-- A physical address that raises an access fault on the core (R52). -/
def coreFault (pa : Nat) : Bool := decide (2 ^ 52 ≤ pa) || !(populated pa || inWindow pa)

/-- CORE_ACCESS_FAULT (R52). -/
def execCoreAccessFault (die core pa : Nat) (s : State) : Host.Outcome State Fault Refusal :=
  if coreFault pa then .next (s.modDie die fun d => { d with accFault := d.accFault.set core (some pa) }) else .next s

/-- A load of the register window: an aligned word of four or eight bytes (R53). See log entry 65 (DEDUCED). -/
def State.windowLoad (s : State) (die off n : Nat) : State :=
  if off % n ≠ 0 then { s with lastRead := 0 }
  else if n = 8 then
    let s := (s.lookAt off).lookAt (off + 4)
    let v := s.readWord die off + s.readWord die (off + 4) * 2 ^ 32
    { (s.readClears die off).readClears die (off + 4) with lastRead := BitVec.ofNat 64 v }
  else if n = 4 then
    let s := s.lookAt off
    { s.readClears die off with lastRead := BitVec.ofNat 64 (s.readWord die off) }
  else { s with lastRead := 0 }

/-- A store to the register window. See log entry 65 (DEDUCED). -/
def State.windowStore (s : State) (die off n : Nat) (v : BitVec 64) : State :=
  if off % n ≠ 0 then s
  else if n = 8 then
    (if wide off then s.write64 die off v
     else (s.writeWord die off (v.setWidth 32)).writeWord die (off + 4) (v.extractLsb' 32 32))
  else if n = 4 then s.writeWord die off (v.setWidth 32)
  else s

/-- A store of n bytes at the homes of the lines it meets. It marks the words it writes full, as the loader of R67 does for
a full-empty segment. See log entries 66 (DEDUCED) and 79 (DESIGN CHOICE). -/
def State.coreStore (s : State) (pa n : Nat) (v : BitVec 64) : State :=
  let bs := (List.range n).map fun i => (pa + i, BitVec.ofNat 8 (v.toNat / 256 ^ i))
  let s := (s.applyHome 2 none [] (bs.filter fun b => b.1 / 64 == pa / 64)).applyHome 2 none []
    (bs.filter fun b => b.1 / 64 != pa / 64)
  bs.foldl (fun s b => s.setFe b.1 true) s

/-- CONTROL_CORE_ACCESS (R52, R53): a control core, or the host through its window, loads or stores at the physical
map; an address that faults raises the access fault instead. See log entry 66 (DEDUCED). -/
def execControlCoreAccess (die core pa : Nat) (op : CoreOp) (s : State) : Host.Outcome State Fault Refusal :=
  let s := s.modDie die fun d => { d with coresGated := false, coreIrq := false }
  let n := match op with | .load n => n | .store n _ => n
  if n = 0 ∨ 8 < n then .next s
  else if coreFault pa || coreFault (pa + n - 1) then
    .next (s.modDie die fun d => { d with accFault := d.accFault.set core (some pa) })
  else if inWindow pa then
    match localDie pa with
    | none => .next s
    | some k =>
      .next (match op with
        | .load n => s.windowLoad k (pa % 2 ^ 41) n
        | .store n v => s.windowStore k (pa % 2 ^ 41) n v)
  else
    match op with
    | .load n => .next { s.dwpHit pa 1 none [] with lastRead := BitVec.ofNat 64 (leNat (s.mem.read pa n)) }
    | .store n v => .next (s.coreStore pa n v)

end Sys2Proof.Machine
end

