-- ==== Sys2Proof/Machine/Sha384.lean ====
section
/-! DEFINITION. SHA-384, which boot measurement and the SPDM responder use (R355, R356). The spec names the algorithm;
its steps are those of FIPS 180-4 (PRESUMED, log entry 33). -/
namespace Sys2Proof.Machine

/-- The largest number below 2 ^ n, added to r, whose k-th power is at most x. -/
def rootOf (k x : Nat) : Nat → Nat → Nat
  | 0, r => r
  | n + 1, r => rootOf k x n (if (r + 2 ^ n) ^ k ≤ x then r + 2 ^ n else r)

/-- The primes that the constants come from: the first 80. -/
def primes80 : List Nat := (List.range 410).filter fun n => decide (2 ≤ n) && (List.range n).all fun d => decide (d < 2) || n % d != 0

/-- The first 64 bits of the fractional part of the k-th root of n. -/
def rootBits (k n : Nat) : BitVec 64 := BitVec.ofNat 64 (rootOf k (n * 2 ^ (64 * k)) 70 0)

def shaStart : Oct (BitVec 64) := Oct.of fun i => rootBits 2 (primes80.getD (8 + i) 0)
def shaRounds : List (BitVec 64) := primes80.map (rootBits 3)

/-- The message and its padding: the bit 1, zeros, and the length in bits as 128 bits. -/
def shaPad (m : List Byte) : List Byte :=
  let zeros := (128 - (m.length + 17) % 128) % 128
  m ++ [0x80] ++ List.replicate zeros 0 ++ (List.range 16).map fun i => BitVec.ofNat 8 (m.length * 8 / 256 ^ (15 - i))

def shaWord (b : List Byte) : BitVec 64 := BitVec.ofNat 64 (b.foldl (fun n x => n * 256 + x.toNat) 0)
def shaWords (b : List Byte) (n : Nat) : List (BitVec 64) := (List.range n).map fun i => shaWord ((b.drop (8 * i)).take 8)

/-- The word that joins the schedule behind its last sixteen. -/
def shaNext (w : List (BitVec 64)) : BitVec 64 :=
  let x := w.getD 1 0
  let y := w.getD 14 0
  (y.rotateRight 19 ^^^ y.rotateRight 61 ^^^ (y >>> 6)) + w.getD 9 0 +
    (x.rotateRight 1 ^^^ x.rotateRight 8 ^^^ (x >>> 7)) + w.getD 0 0

/-- The rounds of one block: the round constants, the last sixteen words of the schedule and the working variables. -/
def shaBlock : List (BitVec 64) → List (BitVec 64) → Oct (BitVec 64) → Oct (BitVec 64)
  | [], _, v => v
  | k :: ks, w, v =>
    let e := v.l4
    let a := v.l0
    let t1 := v.l7 + (e.rotateRight 14 ^^^ e.rotateRight 18 ^^^ e.rotateRight 41) +
      ((e &&& v.l5) ^^^ (~~~e &&& v.l6)) + k + w.getD 0 0
    let t2 := (a.rotateRight 28 ^^^ a.rotateRight 34 ^^^ a.rotateRight 39) +
      ((a &&& v.l1) ^^^ (a &&& v.l2) ^^^ (v.l1 &&& v.l2))
    shaBlock ks (w.tail ++ [shaNext w]) ⟨t1 + t2, a, v.l1, v.l2, v.l3 + t1, e, v.l5, v.l6⟩

/-- The n blocks of a padded message, one after the other. -/
def shaBlocks : Nat → List Byte → Oct (BitVec 64) → Oct (BitVec 64)
  | 0, _, h => h
  | n + 1, b, h => shaBlocks n (b.drop 128) (h.zip (· + ·) (shaBlock shaRounds (shaWords b 16) h))

/-- SHA-384 of a message, its first byte in the most significant place. -/
def sha384 (m : List Byte) : BitVec 384 :=
  let b := shaPad m
  let h := shaBlocks (b.length / 128) b shaStart
  BitVec.ofNat 384 ((h.toList.take 6).foldl (fun n x => n * 2 ^ 64 + x.toNat) 0)

/-- A SHA-384 digest as bytes, the most significant first. -/
def digestBytes (x : BitVec 384) : List Byte := (List.range 48).map fun i => BitVec.ofNat 8 (x.toNat / 256 ^ (47 - i))

end Sys2Proof.Machine
end

