-- ==== Sys2Proof/Machine/Links.lean ====
section
/-! DEFINITION. The package and its neighbours (R341, R351, R353 to R356): Ronilawin ports that go down and come up, halt
reports, PTP, module reset, the boot phases and the SPDM responder. The layout of the SPDM messages is that of DMTF
DSP0274 1.3 (PRESUMED, log entry 40). -/
namespace Sys2Proof.Machine

/-! ## Ports (R353, R354) -/

/-- LINK_UP (R353): a port in training has the peer's version, package number and domain. Those of another version or domain
keep it down; with a peer it comes up, and a package that holds a halted member of a gang with the peer reports it.
See log entries 39 (DEDUCED) and 97 (DESIGN CHOICE). -/
def execLinkUp (port : Nat) (peer : LinkPeer) (s : State) : Host.Outcome State Fault Refusal :=
  let p := s.link port
  let q := peer.pkg % 64
  if 16 ≤ port ∨ q = Config.pkg ∨ p.train = false then .next s
  else if peer.version ≠ Config.linkVersion ∨ peer.domain ≠ Config.linkDomain then
    .next { s with links := s.links.put port { p with train := false } }
  else
    let told := !s.lowerPort port q && s.regions.any fun r => r.2.halted && r.2.gates.contains q
    .next { s with links := s.links.put port { p with up := true, train := false, halt := false, reports := told, peer := q } }

/-- The package an address is homed in, when it is another one. -/
def awayFrom (pa : Nat) : Option Nat := if (localDie pa).isNone then some (paDie pa / 8) else none

/-- The physical address of a lane that has been translated. -/
def lanePa : LaneSt → Option Nat
  | .port pa _ => some pa
  | .granted pa leaf => if leaf = 0 then none else some pa
  | .deferred pa _ => some pa
  | _ => none

/-- One lane of an operation that waited on a port to a package (R354): a load or atomic is answered with POISON; a
store is abandoned, logged with no lane performed, and stops its element. See log entry 39 (DEDUCED). -/
def State.loseLane (s : State) (peer k l : Nat) : State :=
  match s.ops.get? k with
  | none => s
  | some o =>
    match lanePa (o.lanes.get l) with
    | none => s
    | some pa =>
      if awayFrom pa ≠ some peer then s
      else
        let s : State := { s with tiles := s.tiles.map fun t => (t.1, { t.2 with
          deferred := t.2.deferred.filter fun d => !(d.op == k && d.lane == l) }) }
        let hit (s : State) : State :=
          let s := s.setLane k l .abandoned
          let s := match (s.elem o.elem).region with
            | some rg =>
              if o.plane == Plane.s then s
              else s.logPut rg ⟨o.elem, 3, o.stream, o.round, 0, s.ordSince o.elem o.stream o.round o.ord, opcOf o.instr, .raw,
                Oct.rep 0, 0⟩
            | none => s
          s.stall o.elem 12 o.plane o.slot false o.fires o.round (BitVec.ofNat 32 pa) (BitVec.ofNat 32 (pa / 2 ^ 32 % 2 ^ 20))
        match Instr.kind o.instr with
        | .store => hit s
        | .feStore => hit s
        | .watch => s.setLane k l .done
        | _ => s.modOp k fun o => { o with
            lanes := o.lanes.set l .done, poison := if o.poison.isNone then some pa else o.poison }

/-- The package that the next beats of a command go to, when it is another one (R354). -/
def State.cmdAway (s : State) (id : Nat) (c : Cmd) : Option Nat :=
  match s.cmdRegion id with
  | none => none
  | some rg =>
    match s.region? rg with
    | none => none
    | some r =>
      let away (a : Nat) : Option Nat :=
        if isSp a then none
        else match s.walkTables r.die r.asid (r.cons.dbase + a) with
          | .ok l _ => awayFrom (l.pa (r.cons.dbase + a))
          | .fault _ _ => none
      match c.instr with
      | .linkx .. => (r.peers.find? fun p => p.1 == fld (c.lane 3) 0 8).map (·.2)
      | .mxmm .. => none
      | .mxsort .. => none
      | .ringi .. => none
      | .ringa .. => none
      | .spill .. => none
      | .strm _ _ _ _ true => none
      | _ =>
        let src := if c.srcPos < c.total then (match s.runAt id c false c.srcPos with | .at_ a _ _ _ _ => away a | _ => none) else none
        let idx := match c.indexRun with | some (.at_ a _ _ _ _) => away a | _ => none
        let dst := match c.instr, c.staged with
          | .strm .., _ => none
          | _, w :: _ => away w.dst
          | _, [] => none
        (src.orElse fun _ => idx).orElse fun _ => dst

/-- A command whose beats wait on a port that is down ends faulted with cause LINKDOWN (R108, R354).
See log entry 39 (DEDUCED). -/
def State.loseCmd (s : State) (peer id : Nat) : State :=
  match s.cmd? id with
  | none => s
  | some c =>
    if c.st = .running ∧ c.cause = .none ∧ s.cmdAway id c = some peer then
      s.failWrite id .linkdown
    else s

/-- Everything that waits on a link to a package is answered (R354). -/
def State.loseLink (s : State) (peer : Nat) : State :=
  let ks := s.ops.map (·.1)
  let s := forAll (fun s k => (forAll (fun s l => s.loseLane peer k l) lanes s).opDone k) ks s
  let ids := (s.elems.flatMap fun x => (List.range 8).map fun n => x.1 * 8 + n) ++ s.armed.map (·.1)
  forAll (fun s id => s.loseCmd peer id) ids s

/-- LINK_DOWN (R354): the port retrains. The runs with a gateway over it are aborted, and what waits on it is answered; the
same holds for what comes later, until the port is up again. A port that takes over its traffic takes over its halt
report. -/
def execLinkDown (port : Nat) (s : State) : Host.Outcome State Fault Refusal :=
  match s.links.get? port with
  | none => .next s
  | some p =>
    if !p.up && !p.train then .next s
    else
      let s : State := { s with links := s.links.put port { p with up := false, train := true, halt := false, reports := false } }
      let heir (l : Nat × RlPort) : Bool := p.reports && l.2.up && l.2.peer == p.peer && !s.lowerPort l.1 p.peer
      let s : State := { s with links := s.links.map fun l => if heir l then (l.1, { l.2 with reports := true }) else l }
      if s.lowerPort port p.peer || (!p.up && s.links.any fun l => l.2.up && l.2.peer == p.peer) then .next s
      else
        let gangs := (s.regions.filter fun r => r.2.gates.contains p.peer).map (·.1)
        .next ((forAll (fun s k => s.abortRegion k 5) gangs s).loseLink p.peer)

/-- RLSTAT_READ (R353): the replay count is read and cleared. -/
def execRlstatRead (port : Nat) (s : State) : Host.Outcome State Fault Refusal :=
  let s := s.replayed port
  let links := match s.links.get? port with | some x => s.links.put port { x with retry := 0 } | none => s.links
  .next { s with lastRead := BitVec.ofNat 64 (rlstat (s.link port)), links := links }

/-- LINK_HALT_REPORT (R341): the peer reports a halted member, or that it goes on: then the windows of its gangs start
afresh. -/
def execLinkHaltReport (port : Nat) (halted : Bool) (s : State) : Host.Outcome State Fault Refusal :=
  let p := s.link port
  if !p.up then .next s
  else
    let s : State := { s with links := s.links.put port { p with halt := halted } }
    if halted || !p.halt then .next s
    else
      let fresh (r : Region) : Region :=
        if r.peers.any fun q => q.2 == p.peer then
          { r with lastMove := s.tick, cut := r.cut.map fun c => { c with start := s.tick, timedOut := false } }
        else r
      .next { s with regions := s.regions.map fun r => (r.1, fresh r.2) }

/-! ## Time (R351) -/

/-- PTP_MESSAGE (R351): `offset` is what the grandmaster's time is ahead, in ns. The time base may step until the first
consist of a run has started, and is slewed from then on. See log entry 36 (DEDUCED). -/
def execPtpMessage (offset : Int) (s : State) : Host.Outcome State Fault Refusal :=
  if s.grandmaster then .next s
  else if !s.firstConsist then .next { s with timeOff := s.timeOff + offset, slew := 0, synced := true }
  else .next { s with slew := offset, synced := decide (offset.natAbs ≤ 40) }

/-! ## Reset and boot (R355) -/

/-- MODULE_RESET (R355): everything but what is fused at test; what waits outside still waits.
See log entry 29 (DESIGN CHOICE). -/
def execModuleReset (s : State) : Host.Outcome State Fault Refusal :=
  .next { State.reset with usable := s.usable, freeCtr := s.freeCtr, inputs := s.inputs }

/-- Phase 2 (R355): each stage in turn extends one of the measurement registers with the digest of the next, the register
being hashed with it. See log entries 30 (DESIGN CHOICE) and 35 (DEDUCED). -/
def measureBoot (m : Oct (BitVec 384)) : Oct (BitVec 384) :=
  (List.range Config.bootStages).foldl (fun m n =>
    let r := (Config.bootRegister n).val
    m.set r (sha384 (digestBytes (m.get r) ++ digestBytes (Config.bootDigest n)))) m

/-- The Ronilawin ports train in phase 6, and one that fails stays down (R353, R355). -/
def State.trainLinks (s : State) (phase : Nat) : State :=
  if phase = 6 then
    { s with links := (List.range 16).foldl (fun m p => m.put p { s.link p with train := !(s.link p).up }) s.links }
  else if phase = 7 then { s with links := s.links.map fun l => (l.1, { l.2 with train := false }) }
  else s

/-- The failure code of a phase, when it can fail (R355). See log entry 35 (DEDUCED). -/
def bootFailure : Nat → Option Nat | 1 => some 1 | 3 => some 3 | 4 => some 4 | 5 => some 5 | _ => none

/-- BOOT_PHASE_COMPLETE (R355): the next phase begins, or the boot stops with the code of its phase.
See log entry 35 (DEDUCED). -/
def execBootPhaseComplete (ok : Bool) (s : State) : Host.Outcome State Fault Refusal :=
  let b := s.boot
  if b.failure ≠ 0 ∨ 7 ≤ b.phase then .next s
  else
    match (if ok then none else bootFailure b.phase) with
    | some f => .next { s with boot := { b with failure := f } }
    | none => .next (State.trainLinks { s with boot := { b with
        phase := b.phase + 1, meas := if b.phase = 2 then measureBoot b.meas else b.meas } } (b.phase + 1))

/-! ## SPDM (R356) -/

/-- A response of the negotiation goes out and joins its transcript. -/
def State.negotiated (s : State) (stage : Nat) (request response : List Byte) : State :=
  { s with spdm := { s.spdm with
    stage := stage, vca := s.spdm.vca ++ request ++ response, certs := [], record := [], response := response } }

/-- A response about certificates goes out. -/
def State.certified (s : State) (request response : List Byte) : State :=
  { s with spdm := { s.spdm with certs := s.spdm.certs ++ request ++ response, record := [], response := response } }

/-- An ERROR response: the transcripts are as they were. -/
def State.spdmError (s : State) (code : Byte) : State :=
  { s with spdm := { s.spdm with response := [0x13, 0x7F, code, 0] } }

/-- A request that may come once a stage of the negotiation has been reached; before it, UnexpectedRequest. -/
def State.spdmAt (s : State) (stage : Nat) (f : State → State) : Host.Outcome State Fault Refusal :=
  if s.spdm.stage < stage then .next (s.spdmError 4) else .next (f s)

/-- SPDM_GET_VERSION: a new transcript; version 1.3. See log entry 40 (PRESUMED). -/
def execSpdmGetVersion (s : State) : Host.Outcome State Fault Refusal :=
  let s : State := { s with spdm := { s.spdm with vca := [] } }
  .next (s.negotiated 1 [0x10, 0x84, 0, 0] [0x10, 0x04, 0, 0, 0, 1, 0x00, 0x13])

/-- SPDM_GET_CAPABILITIES: certificates, challenges and signed measurements; the timing exponent and the two sizes are
open (log entry 40). -/
def execSpdmGetCapabilities (s : State) : Host.Outcome State Fault Refusal :=
  s.spdmAt 1 fun s =>
    let (a, s) := s.draw
    let (b, s) := s.draw
    s.negotiated 2 [0x13, 0xE1, 0, 0]
      ([0x13, 0x61, 0, 0, 0, a.setWidth 8, 0, 0] ++ leBytes 4 0x16 ++ leBytes 8 b.toNat)

/-- SPDM_NEGOTIATE_ALGORITHMS: ECDSA P-384 and SHA-384. See log entry 40 (PRESUMED). -/
def execSpdmNegotiateAlgorithms (s : State) : Host.Outcome State Fault Refusal :=
  s.spdmAt 2 fun s =>
    s.negotiated 3 [0x13, 0xE3, 0, 0]
      ([0x13, 0x63, 0, 0] ++ leBytes 2 36 ++ [1, 0] ++ leBytes 4 4 ++ leBytes 4 0x80 ++ leBytes 4 2 ++ leBytes 16 0)

/-- SPDM_GET_DIGESTS: the digest of the certificate chain in slot 0. -/
def execSpdmGetDigests (s : State) : Host.Outcome State Fault Refusal :=
  s.spdmAt 3 fun s =>
    s.certified [0x13, 0x81, 0, 0] ([0x13, 0x01, 0, 1] ++ digestBytes (sha384 Config.spdmCertificate))

/-- SPDM_GET_CERTIFICATE: the certificate chain. -/
def execSpdmGetCertificate (s : State) : Host.Outcome State Fault Refusal :=
  s.spdmAt 3 fun s =>
    let n := Config.spdmCertificate.length
    s.certified [0x13, 0x82, 0, 0] ([0x13, 0x02, 0, 0] ++ leBytes 2 n ++ leBytes 2 0 ++ Config.spdmCertificate)

/-- Free bytes, eight for each value drawn (log entry 2). -/
def State.drawBytes (s : State) : Nat → List Byte × State
  | 0 => ([], s)
  | n + 1 =>
    let (v, s) := s.draw
    let (bs, s) := s.drawBytes n
    (leBytes 8 v.toNat ++ bs, s)

/-- SPDM_CHALLENGE: slot 0, without a summary of measurements; the identity key signs the negotiation, what was read of
certificates, and this exchange. The response repeats the requester's context. -/
def execSpdmChallenge (req : ChallengeRequest) (s : State) : Host.Outcome State Fault Refusal :=
  s.spdmAt 3 fun s =>
    let request : List Byte := [0x13, 0x83, 0, 0] ++ leBytes 32 req.nonce ++ leBytes 8 req.context
    let (own, s) := s.drawBytes 4
    let body : List Byte := [0x13, 0x03, 0, 1] ++ digestBytes (sha384 Config.spdmCertificate) ++
      own ++ leBytes 2 0 ++ leBytes 8 req.context
    let sign := Config.spdmSign (s.spdm.vca ++ s.spdm.certs ++ request ++ body)
    { s with spdm := { s.spdm with certs := [], record := [], response := body ++ sign } }

/-- The measurement block of register r. -/
def measBlock (m : Oct (BitVec 384)) (r : Nat) : List Byte :=
  leBytes 1 (r + 1) ++ [1] ++ leBytes 2 51 ++ [0] ++ leBytes 2 48 ++ digestBytes (m.get r)

/-- SPDM_GET_MEASUREMENTS: index 0 asks for their number, 1 to 8 for one register, 0xFF for all eight. With a nonce the
requester asks for a signature, over the negotiation and the measurements read since the last one. -/
def execSpdmGetMeasurements (req : MeasurementRequest) (s : State) : Host.Outcome State Fault Refusal :=
  let ⟨index, sign, context⟩ := req
  s.spdmAt 3 fun s =>
    let m := s.boot.meas
    let reply (count n : Nat) (blocks : List Byte) : State :=
      let (own, s) := s.drawBytes 4
      let asked : List Byte := match sign with | some nonce => leBytes 32 nonce ++ [0] | none => []
      let request := [0x13, 0xE0] ++ leBytes 1 (if sign.isSome then 1 else 0) ++ leBytes 1 index ++ asked ++ leBytes 8 context
      let body := [0x13, 0x60] ++ leBytes 1 count ++ [0] ++ leBytes 1 n ++ leBytes 3 blocks.length ++ blocks ++
        own ++ leBytes 2 0 ++ leBytes 8 context
      let record := s.spdm.record ++ request ++ body
      { s with spdm := { s.spdm with
        certs := [], record := if sign.isSome then [] else record
        response := if sign.isSome then body ++ Config.spdmSign (s.spdm.vca ++ record) else body } }
    if index = 0 then reply 8 0 []
    else if index ≤ 8 then reply 0 1 (measBlock m (index - 1))
    else if index = 0xFF then reply 0 8 (lanes.flatMap fun r => measBlock m r)
    else s.spdmError 1

end Sys2Proof.Machine
end

