-- ==== Sys2Proof/Machine/Logic.lean ====
section
/-! DEFINITION. The meanings of class 0x2 (R204 to R206). -/
namespace Sys2Proof.Machine

/-- AND (R204). -/
def execAnd (d : Dst) (a b : Src) (pu : Option Pu) (s : State) : Host.Outcome State Fault Refusal :=
  fire (.and d a b pu) s fun c => c.bin d a b pu (fun x y => x &&& y)

/-- OR (R204). -/
def execOr (d : Dst) (a b : Src) (pu : Option Pu) (s : State) : Host.Outcome State Fault Refusal :=
  fire (.or d a b pu) s fun c => c.bin d a b pu (fun x y => x ||| y)

/-- XOR (R204). -/
def execXor (d : Dst) (a b : Src) (pu : Option Pu) (s : State) : Host.Outcome State Fault Refusal :=
  fire (.xor d a b pu) s fun c => c.bin d a b pu (fun x y => x ^^^ y)

/-- ANDN (R204). -/
def execAndn (d : Dst) (a b : Src) (pu : Option Pu) (s : State) : Host.Outcome State Fault Refusal :=
  fire (.andn d a b pu) s fun c => c.bin d a b pu (fun x y => x &&& ~~~y)

/-- NOT (R204). -/
def execNot (d : Dst) (a : Src) (pu : Option Pu) (s : State) : Host.Outcome State Fault Refusal :=
  fire (.not d a pu) s fun c => c.un d a pu (fun x => ~~~x)

/-- SHL (R204), by the whole element b as an unsigned count. -/
def execShl (d : Dst) (a b : Src) (pu : Option Pu) (z : ISz) (s : State) : Host.Outcome State Fault Refusal :=
  fire (.shl d a b pu z) s fun c => c.bin d a b pu (map2 z (iShl (ISz.w z)))

/-- SHR (R204), by the whole element b as an unsigned count. -/
def execShr (d : Dst) (a b : Src) (pu : Option Pu) (z : ISz) (s : State) : Host.Outcome State Fault Refusal :=
  fire (.shr d a b pu z) s fun c => c.bin d a b pu (map2 z (iShr (ISz.w z)))

/-- SAR (R204), by the whole element b as an unsigned count. -/
def execSar (d : Dst) (a b : Src) (pu : Option Pu) (z : ISz) (s : State) : Host.Outcome State Fault Refusal :=
  fire (.sar d a b pu z) s fun c => c.bin d a b pu (map2 z (iSar (ISz.w z)))

/-- ROL (R204), by the whole element b as an unsigned count. -/
def execRol (d : Dst) (a b : Src) (pu : Option Pu) (z : ISz) (s : State) : Host.Outcome State Fault Refusal :=
  fire (.rol d a b pu z) s fun c => c.bin d a b pu (map2 z (iRol (ISz.w z)))

/-- CLZ (R204). -/
def execClz (d : Dst) (a : Src) (pu : Option Pu) (z : ISz) (s : State) : Host.Outcome State Fault Refusal :=
  fire (.clz d a pu z) s fun c => c.un d a pu (map1 z (iClz (ISz.w z)))

/-- CTZ (R204). -/
def execCtz (d : Dst) (a : Src) (pu : Option Pu) (z : ISz) (s : State) : Host.Outcome State Fault Refusal :=
  fire (.ctz d a pu z) s fun c => c.un d a pu (map1 z (iCtz (ISz.w z)))

/-- POPC (R204). -/
def execPopc (d : Dst) (a : Src) (pu : Option Pu) (z : ISz) (s : State) : Host.Outcome State Fault Refusal :=
  fire (.popc d a pu z) s fun c => c.un d a pu (map1 z (iPopc (ISz.w z)))

/-- BREV (R204). -/
def execBrev (d : Dst) (a : Src) (pu : Option Pu) (z : ISz) (s : State) : Host.Outcome State Fault Refusal :=
  fire (.brev d a pu z) s fun c => c.un d a pu (map1 z (iBrev (ISz.w z)))

/-- BFX (R205): bits [pos + len − 1 : pos] of A, sign-extended when SX. -/
def bfx (pos len : Nat) (sx : Bool) (a : W) : W :=
  let f := fld a.toNat pos len
  if sx && f / 2 ^ (len - 1) % 2 == 1 then BitVec.ofInt 32 ((f : Int) - 2 ^ len) else BitVec.ofNat 32 f

def execBfx (d : Dst) (a : Src) (pos len1 : Fin 32) (sx : Bool) (s : State) : Host.Outcome State Fault Refusal :=
  fire (.bfx d a pos len1 sx) s fun c => c.un d a none (bfx pos (len1 + 1) sx)

/-- BFI (R205): the low len bits of A into bits [pos + len − 1 : pos] of D. -/
def bfi (pos len : Nat) (a d : W) : W :=
  let m : W := BitVec.ofNat 32 ((2 ^ len - 1) * 2 ^ pos)
  (d &&& ~~~m) ||| (BitVec.ofNat 32 (fld a.toNat 0 len * 2 ^ pos))

def execBfi (d : Fin 16) (a : Src) (pos len1 : Fin 32) (s : State) : Host.Outcome State Fault Refusal :=
  fire (.bfi d a pos len1) s fun c =>
    c.lanewise (.v d) a [a] none (Oct.zip (bfi pos (len1 + 1)) (c.val a) (c.el.vreg c.pl d).lane)

/-- SEL (R206): whole lanes by a predicate; the tag of the operand chosen in the lowest active lane. -/
def execSel (d : Dst) (a b : Src) (p : Fin 8) (s : State) : Host.Outcome State Fault Refusal :=
  fire (.sel d a b p) s fun c =>
    let m := (c.el.preds c.pl).get p
    let tag := match lowest c.act with
      | some l => if bit m l then c.tag a else c.tag b
      | none => c.tag a
    c.put d (merge m (c.val a) (c.val b)) tag (c.valid [a, b])

end Sys2Proof.Machine
end

