-- ==== Sys2Proof/Machine/Memory.lean ====
section
/-! DEFINITION. The meanings of class 0xA (R92 to R98): a firing reads its operands and puts one operation on its
stream; the operation's lanes are served by NODE_REQUEST_ACCEPT, MEMORY_OP_PERFORM and FE_DEFERRED_SERVE, and its
reply leaves by REPLY_SEND. -/
namespace Sys2Proof.Machine

/-- LD (R94): one word per participating lane. -/
def execLd (st : Fin 8) (m : BitVec 8) (a : Src) (r : Fin 32) (t : Tag) (s : State) : Host.Outcome State Fault Refusal :=
  fireLoad (.ld st m a r t) st m a r t s

/-- LDB (R94): the 32-byte block at the lowest participating lane's address. -/
def execLdb (st : Fin 8) (m : BitVec 8) (a : Src) (r : Fin 32) (t : Tag) (s : State) : Host.Outcome State Fault Refusal :=
  fireLoad (.ldb st m a r t) st m a r t s

/-- ST (R94). -/
def execSt (st : Fin 8) (m : BitVec 8) (a d : Src) (w : Width) (s : State) : Host.Outcome State Fault Refusal :=
  fireStore (.st st m a d w) st m a d s

/-- STB (R94). -/
def execStb (st : Fin 8) (m : BitVec 8) (a d : Src) (s : State) : Host.Outcome State Fault Refusal :=
  fireStore (.stb st m a d) st m a d s

/-- LDS (R94): one word, broadcast. -/
def execLds (st : Fin 8) (m : BitVec 8) (a : Src) (r : Fin 32) (t : Tag) (s : State) : Host.Outcome State Fault Refusal :=
  fireLoad (.lds st m a r t) st m a r t s

/-- STS (R94): the lowest participating lane's data only. -/
def execSts (st : Fin 8) (m : BitVec 8) (a d : Src) (w : Width) (s : State) : Host.Outcome State Fault Refusal :=
  fireStore (.sts st m a d w) st m a d s

/-- LDF (R97). -/
def execLdf (st : Fin 8) (m : BitVec 8) (a : Src) (r : Fin 32) (t : Tag) (s : State) : Host.Outcome State Fault Refusal :=
  fireLoad (.ldf st m a r t) st m a r t s

/-- LDFE (R97). -/
def execLdfe (st : Fin 8) (m : BitVec 8) (a : Src) (r : Fin 32) (t : Tag) (s : State) : Host.Outcome State Fault Refusal :=
  fireLoad (.ldfe st m a r t) st m a r t s

/-- STE (R97). -/
def execSte (st : Fin 8) (m : BitVec 8) (a d : Src) (s : State) : Host.Outcome State Fault Refusal :=
  fireStore (.ste st m a d) st m a d s

/-- STFF (R97). -/
def execStff (st : Fin 8) (m : BitVec 8) (a d : Src) (s : State) : Host.Outcome State Fault Refusal :=
  fireStore (.stff st m a d) st m a d s

/-- PREF (R98): the lines are brought when MEMORY_OP_PERFORM serves the operation. -/
def execPref (st : Fin 8) (m : BitVec 8) (a : Src) (l : PrefLevel) (s : State) : Host.Outcome State Fault Refusal :=
  fireStore (.pref st m a l) st m a .zr s

end Sys2Proof.Machine
end

