-- ==== Sys2Proof/Machine/Move.lean ====
section
/-! DEFINITION. The meanings of class 0x9 (R166, R173) and the status registers (R165). -/
namespace Sys2Proof.Machine

/-- MOV (R173). -/
def execMov (d : Dst) (a : Src) (pu : Option Pu) (s : State) : Host.Outcome State Fault Refusal :=
  fire (.mov d a pu) s fun c => (c.put d (c.val a) (c.tag a) (c.valid [a])).withPu c pu (nonzero (c.val a))

/-- MOVI (R173): the sign-extended immediate. -/
def execMovi (d : Dst) (imm : BitVec 14) (s : State) : Host.Outcome State Fault Refusal :=
  fire (.movi d imm) s fun c => c.put d (Oct.rep (imm.signExtend 32)) .int32 c.act

/-- MOVL (R173): the zero-extended immediate, with the tag of SEL. -/
def execMovl (d : Fin 16) (t : Tag) (imm : BitVec 16) (s : State) : Host.Outcome State Fault Refusal :=
  fire (.movl d t imm) s fun c => c.put (.v d) (Oct.rep (imm.setWidth 32)) t c.act

/-- MOVH (R173): the immediate in the upper half, the lower half kept, with the tag of SEL. -/
def execMovh (d : Fin 16) (t : Tag) (imm : BitVec 16) (s : State) : Host.Outcome State Fault Refusal :=
  fire (.movh d t imm) s fun c =>
    c.put (.v d) ((c.el.vreg c.pl d).lane.map fun x => imm ++ x.extractLsb' 0 16) t c.act

/-- Outstanding operations of a stream (R248). -/
def Stream.out (x : Stream) : Nat := (x.issued - x.perf).toNat

/-- STRMS (R165). -/
def strms (x : Elem) : W :=
  BitVec.ofNat 32 ((List.range 8).foldl (fun a i =>
    let st := x.streams.get i
    a + (min 7 st.out + (if st.out = st.limit then 8 else 0)) * 2 ^ (4 * i)) 0)

def homeId (e : Nat) : W := BitVec.ofNat 32 (Config.pkg * 2 ^ 11 + dieOf e * 2 ^ 8 + tileOf e % 256)

/-- Status register n as a firing reads it (R165). -/
def Ctx.status (c : Ctx) (n : Nat) : W :=
  match n with
  | 0 => c.el.estat.setWidth 32
  | 1 => (c.el.jord c.pl).setWidth 32
  | 2 => (c.el.fflags c.pl).setWidth 32
  | 3 => elidOf c.e
  | 4 => homeId c.e
  | 5 => c.s.now.extractLsb' 0 32
  | 6 => (match c.el.timeh with | some h => h | none => c.s.now.extractLsb' 32 32)
  | 7 => c.el.latec
  | 8 => strms c.el
  | 9 => BitVec.ofNat 32 c.el.round
  | 10 => c.el.fires
  | n => (c.el.g.get (n - 11)).g

/-- MFS (R166). An MFS of TIMEL captures the upper half of the time for TIMEH. -/
def execMfs (d : Dst) (n : Fin 15) (s : State) : Host.Outcome State Fault Refusal :=
  fireWith (.mfs d n) s (fun c => c.put d (Oct.rep (c.status n.val)) .int32 c.act) fun c s =>
    if n.val = 5 then s.modElem c.e fun x => { x with timeh := some (c.s.now.extractLsb' 32 32) } else s

/-- Status register n written (R165): the rest have no effect. -/
def Elem.setStatus (x : Elem) (pl : Plane) (n : Nat) (a : W) : Elem :=
  match n with
  | 0 => { x with estat := a.extractLsb' 0 8 }
  | 1 => x.setJord pl (a.extractLsb' 0 2)
  | 2 => x.setFflags pl (a.extractLsb' 0 20)
  | 7 => { x with latec := a }
  | _ => x

/-- MTS (R166). -/
def execMts (n : Fin 15) (a : Src) (s : State) : Host.Outcome State Fault Refusal :=
  fireWith (.mts n a) s (fun _ => {}) fun c s =>
    match c.scalar a with
    | some v => s.modElem c.e fun x => x.setStatus c.pl n.val v
    | none => s

end Sys2Proof.Machine
end

