-- ==== Sys2Proof/Machine/System.lean ====
section
/-! DEFINITION. The meanings of class 0xE (R320 to R324). -/
namespace Sys2Proof.Machine

/-- TRAP (R320): the firing dequeues, and the element stops with the code. -/
def execTrap (code : BitVec 14) (s : State) : Host.Outcome State Fault Refusal :=
  fireWith (.trap code) s (fun _ => {}) fun c s =>
    s.stall c.e 1 c.pl c.slot true c.el.fires c.el.round (code.setWidth 32) 0

/-- BRK (R320): as TRAP while breakpoints are enabled for the run, else as NOP. -/
def execBrk (code : BitVec 14) (s : State) : Host.Outcome State Fault Refusal :=
  fireWith (.brk code) s (fun _ => {}) fun c s =>
    if c.region.isSome && s.brkRuns.contains (s.runOf c.e) then
      s.stall c.e 2 c.pl c.slot true c.el.fires c.el.round (code.setWidth 32) 0
    else s

/-- CUTRQ (R321): a cut of the region is requested. -/
def execCutrq (s : State) : Host.Outcome State Fault Refusal :=
  fireWith .cutrq s (fun _ => {}) fun c s => match c.region with | some rg => s.askCut rg false [] | none => s

/-- EVNT (R322): an event bit of the region, and with IRQ an EVENT record. -/
def execEvnt (e : BitVec 8) (irq : Bool) (s : State) : Host.Outcome State Fault Refusal :=
  fireWith (.evnt e irq) s (fun _ => {}) fun c s =>
    let s := match c.region with
      | some rg => s.modRegion rg fun r => { r with events := r.events ||| (1#256 <<< e.toNat) }
      | none => s
    if irq then s.eventRecord c.e 16 c.pl c.slot c.el.fires c.el.round (e.setWidth 32) 0 else s

/-- L1WB (R323). -/
def execL1wb (st : Fin 8) (m : BitVec 8) (a d : Src) (visit : Bool) (s : State) : Host.Outcome State Fault Refusal :=
  fireStore (.l1wb st m a d visit) st m a d s

/-- L1INV (R323). -/
def execL1inv (st : Fin 8) (m : BitVec 8) (a d : Src) (visit : Bool) (s : State) : Host.Outcome State Fault Refusal :=
  fireStore (.l1inv st m a d visit) st m a d s

/-- PWRH (R324): the tile's hint for the next refill. -/
def execPwrh (h : Hint) (s : State) : Host.Outcome State Fault Refusal :=
  fireWith (.pwrh h) s (fun _ => {}) fun c s => s.modTile (tileOf c.e) fun t => { t with hint := h }

end Sys2Proof.Machine
end

