-- ==== Sys2Proof/Machine/Tasks.lean ====
section
/-! DEFINITION. The meanings of class 0xD (R137, R161 to R163, R174 to R176): task packets and join cells, watches,
progress counters and sparse streams. -/
namespace Sys2Proof.Machine

/-- The value of a scalar operand in the lowest active lane. -/
def Ctx.lowVal (c : Ctx) (x : Src) : W := match lowest c.act with | some l => (c.val x).get l | none => 0

/-- A message to the join unit of the firing element's region. See log entry 49 (DEDUCED). -/
def Ctx.toJoin (c : Ctx) (m : Nat → JoinMsg) (s : State) : State :=
  match c.region with
  | some rg => s.modRegion rg fun r => { r with joinQ := r.joinQ ++ [m c.el.tokRound] }
  | none => s

/-- SPAWN (R161, R162, R174): packets enter the send buffer, the cell counts them before they leave, and a label
without a route stops the element after the firing. -/
def execSpawn (a b w : Src) (jc : Fin 512) (s : State) : Host.Outcome State Fault Refusal :=
  fireWith (.spawn a b w jc) s (fun _ => {}) fun c s =>
    let ls := lanesOf (c.valid [a, b, w])
    let label (l : Nat) : Nat := fld ((c.val a).get l).toNat 0 7
    let route (n : Nat) : Option (Nat × Nat) := match c.s.regionOf c.e with
      | some (_, r) => r.routes.get? n
      | none => none
    let two : Bool := match w with | .zr => false | _ => true
    let pkts := ls.filterMap fun l => (route (label l)).map fun x =>
      (⟨label l, x.2, (c.val b).get l, if two then (c.val w).get l else 0, two, c.el.tokRound⟩ : Packet)
    let s := s.modElem c.e fun x => { x with sendBuf := x.sendBuf ++ pkts }
    let s := if pkts.isEmpty then s else c.toJoin (joinAdd jc.val (BitVec.ofNat 32 pkts.length)) s
    match ls.find? fun l => (route (label l)).isNone with
    | some l => s.stall c.e 11 c.pl c.slot true c.el.fires c.el.round (BitVec.ofNat 32 (label l)) 0
    | none => s

/-- TDONE (R174). -/
def execTdone (jc : Fin 512) (s : State) : Host.Outcome State Fault Refusal :=
  fireWith (.tdone jc) s (fun _ => {}) fun c s =>
    let n := popcount c.act
    if n = 0 then s else c.toJoin (joinAdd jc.val (-(BitVec.ofNat 32 n))) s

/-- JARM (R174, R326). A label without a route is an error of the firing, which then has no effect. -/
def execJarm (a : Src) (jc : Fin 512) (s : State) : Host.Outcome State Fault Refusal :=
  fireWith (.jarm a jc) s (fun _ => {}) fun c s =>
    c.toJoin (fun n => ⟨jc.val, some (fld (c.lowVal a).toNat 0 7), 0, false, n⟩) s

/-- WATCH and UNWATCH (R175): a scratchpad address or a label without a route answers at once; otherwise the home
slice does, and the predicate is pending until then. -/
def Ctx.startWatch (c : Ctx) (i : Instr) (a b d : Src) (pu : Option Pu) (s : State) : State :=
  let addr := c.lowVal a
  let label := fld (c.lowVal d).toNat 0 7
  let routed : Bool := match c.s.regionOf c.e with | some (_, r) => (r.routes.get? label).isSome | none => false
  if isSp addr.toNat || !routed then
    match pu with
    | some u => s.modElem c.e fun x =>
        let ps := x.preds c.pl
        x.setPreds c.pl (ps.set u.p.val (updPred u.op c.act 0 (ps.get u.p.val)))
    | none => s
  else
    let (k, s) := s.fresh
    let o := { c.plainOp i 0 (Oct.rep addr) (Oct.rep (c.lowVal b)) (Oct.rep (c.lowVal d)) none .raw with
      part := c.act, scope := .domain, isWatch := true, watchPu := pu.map fun u => (u, c.act), seq := k }
    let o := { o with lanes := Oct.of fun l => if bit o.lanesMade l then .wait else .off }
    { s with ops := s.ops.put k o }

/-- WATCH (R175). -/
def execWatch (a b d : Src) (pu : Option Pu) (s : State) : Host.Outcome State Fault Refusal :=
  fireWith (.watch a b d pu) s (fun _ => {}) fun c s => c.startWatch (.watch a b d pu) a b d pu s

/-- UNWATCH (R175). -/
def execUnwatch (a d : Src) (pu : Option Pu) (s : State) : Host.Outcome State Fault Refusal :=
  fireWith (.unwatch a d pu) s (fun _ => {}) fun c s => c.startWatch (.unwatch a d pu) a .zr d pu s

/-- PGINC (R134, R137). -/
def execPginc (n : Fin 4) (a : Src) (imm : BitVec 14) (s : State) : Host.Outcome State Fault Refusal :=
  fireWith (.pginc n a imm) s (fun _ => {}) fun c s =>
    let inc := (c.scalar a).getD 0 + imm.setWidth 32
    s.modElem c.e fun x =>
      let g := x.g.get n.val
      { x with g := x.g.set n.val { g with
          g := g.g + inc, s := BitVec.ofNat 22 (min (g.s.toNat + inc.toNat) (2 ^ 22 - 1)) } }

/-- PGSET (R137). -/
def execPgset (n : Fin 4) (a : Src) (imm : BitVec 14) (s : State) : Host.Outcome State Fault Refusal :=
  fireWith (.pgset n a imm) s (fun _ => {}) fun c s =>
    s.modElem c.e fun x =>
      let g := x.g.get n.val
      let g := match c.scalar a with | some v => { g with g := v } | none => g
      let g := if imm = 0 then g else { g with rShort := imm.setWidth 24, rLong := imm.setWidth 24, s := 0 }
      { x with g := x.g.set n.val g }

/-! ## Sparse streams (R176) -/

/-- A head token as a list of (coordinate, value), by lane, the coordinate lanes that count. -/
def coords (t : Tok) : List (Nat × W × W) :=
  ([0, 1, 2, 3].filter fun i => bit t.lvm i).map fun i => (i, t.data.get i, t.data.get (i + 4))
def maxCoord (l : List (Nat × W × W)) : Nat := l.foldl (fun m x => max m x.2.1.toNat) 0
def coordAt (l : List (Nat × W × W)) (x : W) : Option W := (l.find? fun y => y.2.1 == x).map (·.2.2)

/-- What a firing of ISECT or UNION does: the lanes marked with their values, the flags, the new lane-valid masks of
the two heads, and which heads are dequeued. -/
structure Sparse where
  lvm  : Mask
  data : Oct W
  fl   : Fl
  va   : Mask
  vb   : Mask
  deqA : Bool
  deqB : Bool

/-- A head whose set is empty is dequeued and nothing is sent. -/
def sparseEmpty (a b : Tok) : Sparse :=
  ⟨0, Oct.rep 0, 0, a.lvm, b.lvm, (coords a).isEmpty, (coords b).isEmpty⟩

def isectOf (a b : Tok) : Sparse :=
  let ca := coords a
  let cb := coords b
  if ca.isEmpty || cb.isEmpty then sparseEmpty a b
  else
    let hits := ca.filterMap fun x => (coordAt cb x.2.1).map fun v => (x.1, x.2.2, v)
    let data := hits.foldl (fun (d : Oct W) h => (d.set h.1 h.2.1).set (h.1 + 4) h.2.2) (Oct.rep 0)
    let la := maxCoord ca
    let lb := maxCoord cb
    ⟨maskOf fun l => hits.any fun h => h.1 == l || h.1 + 4 == l, data, 0, a.lvm, b.lvm, decide (la ≤ lb), decide (lb ≤ la)⟩

def unionOf (ftz : Bool) (a b : Tok) : Sparse :=
  let ca := coords a
  let cb := coords b
  if ca.isEmpty || cb.isEmpty then sparseEmpty a b
  else
    let top := min (maxCoord ca) (maxCoord cb)
    let es := (((ca ++ cb).map fun x => x.2.1.toNat).filter fun n => decide (n ≤ top)).foldl
      (fun l n => insertNat n l) ([] : List Nat)
    let es := (es.take 4).map (BitVec.ofNat 32)
    let r : Rd := ⟨F32, .rn, ftz⟩
    let val (x : W) : W × Fl := match coordAt ca x, coordAt cb x with
      | some v, some w =>
        let y := r.add (F32.read ftz v.toNat) (F32.read ftz w.toNat)
        (BitVec.ofNat 32 (F32.bits y.1), y.2)
      | some v, none => (v, 0)
      | none, some w => (w, 0)
      | none, none => (0, 0)
    let outs := es.map fun x => (x, val x)
    let data := outs.zipIdx.foldl (fun (d : Oct W) y => (d.set y.2 y.1.1).set (y.2 + 4) y.1.2.1) (Oct.rep 0)
    let fl := outs.foldl (fun f y => f ||| y.2.2) (0 : Fl)
    let cleared (t : Tok) : Mask := t.lvm &&& ~~~(maskOf fun l =>
      es.contains (t.data.get (l % 4)) && bit t.lvm (l % 4))
    let va := cleared a
    let vb := cleared b
    ⟨maskOf fun l => decide (l % 4 < es.length), data, fl, va, vb, va &&& 15 == 0, vb &&& 15 == 0⟩

/-- The heads after a firing: lane-valid bits cleared, exhausted heads dequeued. -/
def Ctx.sparsePost (c : Ctx) (a b : Fin 6) (x : Sparse) (s : State) : State :=
  let p (n : Fin 6) : Nat := portKey c.e (vcOf c.pl) n.val
  let mark (s : State) (q : Nat) (m : Mask) : State := s.modPort q fun y =>
    match y.queue with
    | t :: rest => { y with queue := { t with lvm := m } :: rest }
    | [] => y
  let s := if x.deqA then s.dequeue (p a) else mark s (p a) x.va
  if x.deqB then s.dequeue (p b) else mark s (p b) x.vb

def Ctx.sparseRes (c : Ctx) (o : Fin 6) (x : Sparse) : Res :=
  if x.lvm = 0 then {} else { outs := [(o.val, c.tok .data .fp32 x.lvm x.data)] }

def Ctx.sparseOf (c : Ctx) (a b : Fin 6) (f : Tok → Tok → Sparse) : Sparse :=
  match c.head a, c.head b with
  | some x, some y => f x y
  | _, _ => ⟨0, Oct.rep 0, 0, 0, 0, false, false⟩

/-- ISECT (R176): 2 cycles. -/
def execIsect (o a b : Fin 6) (s : State) : Host.Outcome State Fault Refusal :=
  fireWith (.isect o a b) s (fun c => (c.sparseRes o (c.sparseOf a b isectOf)).late 2)
    fun c s => c.sparsePost a b (c.sparseOf a b isectOf) s

/-- UNION (R176): 4 cycles; its flags go to coefficient 0. -/
def execUnion (o a b : Fin 6) (s : State) : Host.Outcome State Fault Refusal :=
  fireWith (.union o a b) s (fun c =>
      let x := c.sparseOf a b (unionOf c.ftz)
      ((c.sparseRes o x).late 4).raise (flagsAt 0 x.fl))
    fun c s => c.sparsePost a b (c.sparseOf a b (unionOf c.ftz)) s

end Sys2Proof.Machine
end

