-- ==== Sys2Proof/Machine/Dispatch.lean ====
section
/-! DEFINITION. One arm per row of the opcode table: a direct call of its meaning. -/
namespace Sys2Proof.Machine

def exec (i : Instr) (s : State) : Host.Outcome State Fault Refusal :=
  match i with
  | .nop => Sys2Proof.Machine.execNop s
  | .send d a pu => Sys2Proof.Machine.execSend d a pu s
  | .sendt o a m => Sys2Proof.Machine.execSendt o a m s
  | .sende o a imm => Sys2Proof.Machine.execSende o a imm s
  | .sendh o a => Sys2Proof.Machine.execSendh o a s
  | .pass d j => Sys2Proof.Machine.execPass d j s
  | .steer o a p => Sys2Proof.Machine.execSteer o a p s
  | .tagq p a tags => Sys2Proof.Machine.execTagq p a tags s
  | .pset p mask => Sys2Proof.Machine.execPset p mask s
  | .plog p pa pb fn mask => Sys2Proof.Machine.execPlog p pa pb fn mask s
  | .pget d p pu => Sys2Proof.Machine.execPget d p pu s
  | .pput p a => Sys2Proof.Machine.execPput p a s
  | .pcnt p pa n mask => Sys2Proof.Machine.execPcnt p pa n mask s
  | .ende => Sys2Proof.Machine.execEnde s
  | .add d a b pu z => Sys2Proof.Machine.execAdd d a b pu z s
  | .sub d a b pu z => Sys2Proof.Machine.execSub d a b pu z s
  | .adds d a b pu z => Sys2Proof.Machine.execAdds d a b pu z s
  | .addus d a b pu z => Sys2Proof.Machine.execAddus d a b pu z s
  | .subs d a b pu z => Sys2Proof.Machine.execSubs d a b pu z s
  | .subus d a b pu z => Sys2Proof.Machine.execSubus d a b pu z s
  | .mul d a b pu z => Sys2Proof.Machine.execMul d a b pu z s
  | .mulh d a b pu z => Sys2Proof.Machine.execMulh d a b pu z s
  | .mulhu d a b pu z => Sys2Proof.Machine.execMulhu d a b pu z s
  | .mad d a b pu z => Sys2Proof.Machine.execMad d a b pu z s
  | .neg d a pu z => Sys2Proof.Machine.execNeg d a pu z s
  | .abs d a pu z => Sys2Proof.Machine.execAbs d a pu z s
  | .addc d a b pu nc => Sys2Proof.Machine.execAddc d a b pu nc s
  | .subb d a b pu nc => Sys2Proof.Machine.execSubb d a b pu nc s
  | .div d a b pu z => Sys2Proof.Machine.execDiv d a b pu z s
  | .divu d a b pu z => Sys2Proof.Machine.execDivu d a b pu z s
  | .and d a b pu => Sys2Proof.Machine.execAnd d a b pu s
  | .or d a b pu => Sys2Proof.Machine.execOr d a b pu s
  | .xor d a b pu => Sys2Proof.Machine.execXor d a b pu s
  | .andn d a b pu => Sys2Proof.Machine.execAndn d a b pu s
  | .not d a pu => Sys2Proof.Machine.execNot d a pu s
  | .shl d a b pu z => Sys2Proof.Machine.execShl d a b pu z s
  | .shr d a b pu z => Sys2Proof.Machine.execShr d a b pu z s
  | .sar d a b pu z => Sys2Proof.Machine.execSar d a b pu z s
  | .rol d a b pu z => Sys2Proof.Machine.execRol d a b pu z s
  | .clz d a pu z => Sys2Proof.Machine.execClz d a pu z s
  | .ctz d a pu z => Sys2Proof.Machine.execCtz d a pu z s
  | .popc d a pu z => Sys2Proof.Machine.execPopc d a pu z s
  | .brev d a pu z => Sys2Proof.Machine.execBrev d a pu z s
  | .bfx d a pos len1 sx => Sys2Proof.Machine.execBfx d a pos len1 sx s
  | .bfi d a pos len1 => Sys2Proof.Machine.execBfi d a pos len1 s
  | .sel d a b p => Sys2Proof.Machine.execSel d a b p s
  | .cmpeq d a b pu z => Sys2Proof.Machine.execCmpeq d a b pu z s
  | .cmpne d a b pu z => Sys2Proof.Machine.execCmpne d a b pu z s
  | .cmplt d a b pu z => Sys2Proof.Machine.execCmplt d a b pu z s
  | .cmple d a b pu z => Sys2Proof.Machine.execCmple d a b pu z s
  | .cmpltu d a b pu z => Sys2Proof.Machine.execCmpltu d a b pu z s
  | .cmpleu d a b pu z => Sys2Proof.Machine.execCmpleu d a b pu z s
  | .min d a b pu z => Sys2Proof.Machine.execMin d a b pu z s
  | .max d a b pu z => Sys2Proof.Machine.execMax d a b pu z s
  | .minu d a b pu z => Sys2Proof.Machine.execMinu d a b pu z s
  | .maxu d a b pu z => Sys2Proof.Machine.execMaxu d a b pu z s
  | .addi d a imm => Sys2Proof.Machine.execAddi d a imm s
  | .muli d a imm => Sys2Proof.Machine.execMuli d a imm s
  | .andi d a imm => Sys2Proof.Machine.execAndi d a imm s
  | .ori d a imm => Sys2Proof.Machine.execOri d a imm s
  | .xori d a imm => Sys2Proof.Machine.execXori d a imm s
  | .shi d a kind c => Sys2Proof.Machine.execShi d a kind c s
  | .fadd d a b pu z rm => Sys2Proof.Machine.execFadd d a b pu z rm s
  | .fsub d a b pu z rm => Sys2Proof.Machine.execFsub d a b pu z rm s
  | .fmul d a b pu z rm => Sys2Proof.Machine.execFmul d a b pu z rm s
  | .fma d a b pu z rm => Sys2Proof.Machine.execFma d a b pu z rm s
  | .fms d a b pu z rm => Sys2Proof.Machine.execFms d a b pu z rm s
  | .fnma d a b pu z rm => Sys2Proof.Machine.execFnma d a b pu z rm s
  | .fdiv d a b pu z rm => Sys2Proof.Machine.execFdiv d a b pu z rm s
  | .frcp d a pu z rm => Sys2Proof.Machine.execFrcp d a pu z rm s
  | .fsqrt d a pu z rm => Sys2Proof.Machine.execFsqrt d a pu z rm s
  | .frsq d a pu z rm => Sys2Proof.Machine.execFrsq d a pu z rm s
  | .fneg d a pu z => Sys2Proof.Machine.execFneg d a pu z s
  | .fabs d a pu z => Sys2Proof.Machine.execFabs d a pu z s
  | .fmin d a b pu z => Sys2Proof.Machine.execFmin d a b pu z s
  | .fmax d a b pu z => Sys2Proof.Machine.execFmax d a b pu z s
  | .fscale d a b pu z rm => Sys2Proof.Machine.execFscale d a b pu z rm s
  | .fcpys d a b pu z => Sys2Proof.Machine.execFcpys d a b pu z s
  | .fexp d a pu z rm => Sys2Proof.Machine.execFexp d a pu z rm s
  | .fexp2 d a pu z rm => Sys2Proof.Machine.execFexp2 d a pu z rm s
  | .flog d a pu z rm => Sys2Proof.Machine.execFlog d a pu z rm s
  | .flog2 d a pu z rm => Sys2Proof.Machine.execFlog2 d a pu z rm s
  | .fsin d a pu z rm => Sys2Proof.Machine.execFsin d a pu z rm s
  | .fcos d a pu z rm => Sys2Proof.Machine.execFcos d a pu z rm s
  | .fsincos d a pu z rm => Sys2Proof.Machine.execFsincos d a pu z rm s
  | .ftanh d a pu z rm => Sys2Proof.Machine.execFtanh d a pu z rm s
  | .fsigm d a pu z rm => Sys2Proof.Machine.execFsigm d a pu z rm s
  | .ferf d a pu z rm => Sys2Proof.Machine.execFerf d a pu z rm s
  | .fpowi d a b pu z rm => Sys2Proof.Machine.execFpowi d a b pu z rm s
  | .flog1p d a pu z rm => Sys2Proof.Machine.execFlog1p d a pu z rm s
  | .fexpm1 d a pu z rm => Sys2Proof.Machine.execFexpm1 d a pu z rm s
  | .fcmpeq d a b pu z => Sys2Proof.Machine.execFcmpeq d a b pu z s
  | .fcmplt d a b pu z => Sys2Proof.Machine.execFcmplt d a b pu z s
  | .fcmple d a b pu z => Sys2Proof.Machine.execFcmple d a b pu z s
  | .fcmpun d a b pu z => Sys2Proof.Machine.execFcmpun d a b pu z s
  | .fclass d a pu z => Sys2Proof.Machine.execFclass d a pu z s
  | .cvtf d a pu z rm => Sys2Proof.Machine.execCvtf d a pu z rm s
  | .cvtfi d a pu z rm => Sys2Proof.Machine.execCvtfi d a pu z rm s
  | .cvtif d a pu z rm => Sys2Proof.Machine.execCvtif d a pu z rm s
  | .qnt d a b pu z rm => Sys2Proof.Machine.execQnt d a b pu z rm s
  | .dqnt d a b pu ix => Sys2Proof.Machine.execDqnt d a b pu ix s
  | .frnd d a pu z rm => Sys2Proof.Machine.execFrnd d a pu z rm s
  | .pack d a b pu bf rm => Sys2Proof.Machine.execPack d a b pu bf rm s
  | .unpk d a pu ix => Sys2Proof.Machine.execUnpk d a pu ix s
  | .jord k => Sys2Proof.Machine.execJord k s
  | .jseed d a b pu z => Sys2Proof.Machine.execJseed d a b pu z s
  | .jconst d a pu z => Sys2Proof.Machine.execJconst d a pu z s
  | .jext d a j => Sys2Proof.Machine.execJext d a j s
  | .jins d a j => Sys2Proof.Machine.execJins d a j s
  | .jdiff d a pu z rm => Sys2Proof.Machine.execJdiff d a pu z rm s
  | .jintg d a b pu z rm => Sys2Proof.Machine.execJintg d a b pu z rm s
  | .jeval d a b pu z rm => Sys2Proof.Machine.execJeval d a b pu z rm s
  | .jmov d a pu => Sys2Proof.Machine.execJmov d a pu s
  | .jscal d a b pu z rm => Sys2Proof.Machine.execJscal d a b pu z rm s
  | .jtrnc d a m => Sys2Proof.Machine.execJtrnc d a m s
  | .jflag d cmask fmask => Sys2Proof.Machine.execJflag d cmask fmask s
  | .lbc d a k => Sys2Proof.Machine.execLbc d a k s
  | .lshf d a n7 => Sys2Proof.Machine.execLshf d a n7 s
  | .lrot d a n => Sys2Proof.Machine.execLrot d a n s
  | .lsum d a pu z rm => Sys2Proof.Machine.execLsum d a pu z rm s
  | .lsumi d a pu z m => Sys2Proof.Machine.execLsumi d a pu z m s
  | .lmax d a pu k => Sys2Proof.Machine.execLmax d a pu k s
  | .lmin d a pu k => Sys2Proof.Machine.execLmin d a pu k s
  | .lscan d a pu z rm => Sys2Proof.Machine.execLscan d a pu z rm s
  | .lscani d a pu z m => Sys2Proof.Machine.execLscani d a pu z m s
  | .lcmpr d a p pu => Sys2Proof.Machine.execLcmpr d a p pu s
  | .lexpd d a p pu => Sys2Proof.Machine.execLexpd d a p pu s
  | .ldot d a b pu z rm => Sys2Proof.Machine.execLdot d a b pu z rm s
  | .mov d a pu => Sys2Proof.Machine.execMov d a pu s
  | .movi d imm => Sys2Proof.Machine.execMovi d imm s
  | .movl d t imm => Sys2Proof.Machine.execMovl d t imm s
  | .movh d t imm => Sys2Proof.Machine.execMovh d t imm s
  | .mfs d n => Sys2Proof.Machine.execMfs d n s
  | .mts n a => Sys2Proof.Machine.execMts n a s
  | .ld st m a r t => Sys2Proof.Machine.execLd st m a r t s
  | .ldb st m a r t => Sys2Proof.Machine.execLdb st m a r t s
  | .st st m a d w => Sys2Proof.Machine.execSt st m a d w s
  | .stb st m a d => Sys2Proof.Machine.execStb st m a d s
  | .lds st m a r t => Sys2Proof.Machine.execLds st m a r t s
  | .sts st m a d w => Sys2Proof.Machine.execSts st m a d w s
  | .ldf st m a r t => Sys2Proof.Machine.execLdf st m a r t s
  | .ldfe st m a r t => Sys2Proof.Machine.execLdfe st m a r t s
  | .ste st m a d => Sys2Proof.Machine.execSte st m a d s
  | .stff st m a d => Sys2Proof.Machine.execStff st m a d s
  | .pref st m a l => Sys2Proof.Machine.execPref st m a l s
  | .aadd st m a d r => Sys2Proof.Machine.execAadd st m a d r s
  | .aadds st m a d r => Sys2Proof.Machine.execAadds st m a d r s
  | .afadd st m a d r => Sys2Proof.Machine.execAfadd st m a d r s
  | .amin st m a d r => Sys2Proof.Machine.execAmin st m a d r s
  | .amax st m a d r => Sys2Proof.Machine.execAmax st m a d r s
  | .aminu st m a d r => Sys2Proof.Machine.execAminu st m a d r s
  | .amaxu st m a d r => Sys2Proof.Machine.execAmaxu st m a d r s
  | .aand st m a d r => Sys2Proof.Machine.execAand st m a d r s
  | .aor st m a d r => Sys2Proof.Machine.execAor st m a d r s
  | .axor st m a d r => Sys2Proof.Machine.execAxor st m a d r s
  | .axch st m a d r => Sys2Proof.Machine.execAxch st m a d r s
  | .acas st m a d r => Sys2Proof.Machine.execAcas st m a d r s
  | .atas st m a d r => Sys2Proof.Machine.execAtas st m a d r s
  | .aincw st m a d r => Sys2Proof.Machine.execAincw st m a d r s
  | .copy st m g q => Sys2Proof.Machine.execCopy st m g q s
  | .copy2d st m g q => Sys2Proof.Machine.execCopy2d st m g q s
  | .gath st m g q e => Sys2Proof.Machine.execGath st m g q e s
  | .scat st m g q e => Sys2Proof.Machine.execScat st m g q e s
  | .strm st m g q chan => Sys2Proof.Machine.execStrm st m g q chan s
  | .mxmm st m g q => Sys2Proof.Machine.execMxmm st m g q s
  | .mxsort st m g q => Sys2Proof.Machine.execMxsort st m g q s
  | .ringi st m g => Sys2Proof.Machine.execRingi st m g s
  | .ringa st m g tail => Sys2Proof.Machine.execRinga st m g tail s
  | .spill st m g ch => Sys2Proof.Machine.execSpill st m g ch s
  | .echk g p upd => Sys2Proof.Machine.execEchk g p upd s
  | .ecan g => Sys2Proof.Machine.execEcan g s
  | .linkx st m g q => Sys2Proof.Machine.execLinkx st m g q s
  | .redc st m g q f => Sys2Proof.Machine.execRedc st m g q f s
  | .spawn a b c jc => Sys2Proof.Machine.execSpawn a b c jc s
  | .tdone jc => Sys2Proof.Machine.execTdone jc s
  | .jarm a jc => Sys2Proof.Machine.execJarm a jc s
  | .watch a b d pu => Sys2Proof.Machine.execWatch a b d pu s
  | .unwatch a d pu => Sys2Proof.Machine.execUnwatch a d pu s
  | .pginc c a imm => Sys2Proof.Machine.execPginc c a imm s
  | .pgset c a imm => Sys2Proof.Machine.execPgset c a imm s
  | .isect o a b => Sys2Proof.Machine.execIsect o a b s
  | .union o a b => Sys2Proof.Machine.execUnion o a b s
  | .trap code => Sys2Proof.Machine.execTrap code s
  | .brk code => Sys2Proof.Machine.execBrk code s
  | .cutrq => Sys2Proof.Machine.execCutrq s
  | .evnt e irq => Sys2Proof.Machine.execEvnt e irq s
  | .l1wb st m a d visit => Sys2Proof.Machine.execL1wb st m a d visit s
  | .l1inv st m a d visit => Sys2Proof.Machine.execL1inv st m a d visit s
  | .pwrh h => Sys2Proof.Machine.execPwrh h s
  | .instructionComplete e k => Sys2Proof.Machine.execInstructionComplete e k s
  | .tokenArrive k => Sys2Proof.Machine.execTokenArrive k s
  | .spillRefill e vc ch => Sys2Proof.Machine.execSpillRefill e vc ch s
  | .creditReturn k => Sys2Proof.Machine.execCreditReturn k s
  | .cfgTokenApply e vc ch => Sys2Proof.Machine.execCfgTokenApply e vc ch s
  | .taskPacketDeliver k => Sys2Proof.Machine.execTaskPacketDeliver k s
  | .joinUnitCycle rg => Sys2Proof.Machine.execJoinUnitCycle rg s
  | .nodeRequestAccept op lane => Sys2Proof.Machine.execNodeRequestAccept op lane s
  | .arbiterBeat port => Sys2Proof.Machine.execArbiterBeat port s
  | .memoryOpPerform op => Sys2Proof.Machine.execMemoryOpPerform op s
  | .replySend op => Sys2Proof.Machine.execReplySend op s
  | .feDeferredServe pa => Sys2Proof.Machine.execFeDeferredServe pa s
  | .feLoadReissue op lane => Sys2Proof.Machine.execFeLoadReissue op lane s
  | .tlbLookup op lane => Sys2Proof.Machine.execTlbLookup op lane s
  | .pageWalk k => Sys2Proof.Machine.execPageWalk k s
  | .translationFault die => Sys2Proof.Machine.execTranslationFault die s
  | .shootdownComplete die => Sys2Proof.Machine.execShootdownComplete die s
  | .migrationMove die asid vpn frame => Sys2Proof.Machine.execMigrationMove die asid vpn frame s
  | .viscfgChangeDone die => Sys2Proof.Machine.execViscfgChangeDone die s
  | .streamNodeStart tile node => Sys2Proof.Machine.execStreamNodeStart tile node s
  | .streamNodeSend tile node => Sys2Proof.Machine.execStreamNodeSend tile node s
  | .commandAccept unit => Sys2Proof.Machine.execCommandAccept unit s
  | .commandStart cmd => Sys2Proof.Machine.execCommandStart cmd s
  | .engineBeat cmd => Sys2Proof.Machine.execEngineBeat cmd s
  | .commandFinish cmd => Sys2Proof.Machine.execCommandFinish cmd s
  | .completionTokenSend cmd => Sys2Proof.Machine.execCompletionTokenSend cmd s
  | .tenderBlockWrite cmd => Sys2Proof.Machine.execTenderBlockWrite cmd s
  | .tenderTokenSend cmd => Sys2Proof.Machine.execTenderTokenSend cmd s
  | .islandBLoadDone cmd => Sys2Proof.Machine.execIslandBLoadDone cmd s
  | .islandTileBegin cmd => Sys2Proof.Machine.execIslandTileBegin cmd s
  | .islandTileEnd cmd => Sys2Proof.Machine.execIslandTileEnd cmd s
  | .ringaApply cmd => Sys2Proof.Machine.execRingaApply cmd s
  | .spillRingChange cmd => Sys2Proof.Machine.execSpillRingChange cmd s
  | .scaleEntryDeliver rg => Sys2Proof.Machine.execScaleEntryDeliver rg s
  | .rateWindowEnd die => Sys2Proof.Machine.execRateWindowEnd die s
  | .beaconSend e c => Sys2Proof.Machine.execBeaconSend e c s
  | .beaconApply k => Sys2Proof.Machine.execBeaconApply k s
  | .beaconSubscribe k => Sys2Proof.Machine.execBeaconSubscribe k s
  | .powerRefill die => Sys2Proof.Machine.execPowerRefill die s
  | .launchWrite die prio value => Sys2Proof.Machine.execLaunchWrite die prio value s
  | .walkStart die => Sys2Proof.Machine.execWalkStart die s
  | .consistRecord w => Sys2Proof.Machine.execConsistRecord w s
  | .armRecord w => Sys2Proof.Machine.execArmRecord w s
  | .waitRecord w => Sys2Proof.Machine.execWaitRecord w s
  | .waitPoll w => Sys2Proof.Machine.execWaitPoll w s
  | .waitRelease w => Sys2Proof.Machine.execWaitRelease w s
  | .cutRecord w => Sys2Proof.Machine.execCutRecord w s
  | .signalRecord w => Sys2Proof.Machine.execSignalRecord w s
  | .branchRecord w => Sys2Proof.Machine.execBranchRecord w s
  | .callRecord w => Sys2Proof.Machine.execCallRecord w s
  | .returnRecord w => Sys2Proof.Machine.execReturnRecord w s
  | .endRecord w => Sys2Proof.Machine.execEndRecord w s
  | .placementAttempt w => Sys2Proof.Machine.execPlacementAttempt w s
  | .gangReserve w mem => Sys2Proof.Machine.execGangReserve w mem s
  | .gangCommit w => Sys2Proof.Machine.execGangCommit w s
  | .imagePrefetch w => Sys2Proof.Machine.execImagePrefetch w s
  | .planeReady e => Sys2Proof.Machine.execPlaneReady e s
  | .consistComplete rg => Sys2Proof.Machine.execConsistComplete rg s
  | .completionTokenPass rg tile => Sys2Proof.Machine.execCompletionTokenPass rg tile s
  | .planeSwap e => Sys2Proof.Machine.execPlaneSwap e s
  | .bankTokenGrant rg tile bank => Sys2Proof.Machine.execBankTokenGrant rg tile bank s
  | .startTokenArrive rg tile => Sys2Proof.Machine.execStartTokenArrive rg tile s
  | .gabort die run => Sys2Proof.Machine.execGabort die run s
  | .urgentLaunch die value => Sys2Proof.Machine.execUrgentLaunch die value s
  | .planeSSwitch e => Sys2Proof.Machine.execPlaneSSwitch e s
  | .roundTimerExpiry rg => Sys2Proof.Machine.execRoundTimerExpiry rg s
  | .cutStart rg => Sys2Proof.Machine.execCutStart rg s
  | .elementSave e => Sys2Proof.Machine.execElementSave e s
  | .cutComplete rg => Sys2Proof.Machine.execCutComplete rg s
  | .cutTimeout rg => Sys2Proof.Machine.execCutTimeout rg s
  | .roundVoid rg => Sys2Proof.Machine.execRoundVoid rg s
  | .deadlockEvent rg => Sys2Proof.Machine.execDeadlockEvent rg s
  | .stallTrapRecord die => Sys2Proof.Machine.execStallTrapRecord die s
  | .uncorrectableError site => Sys2Proof.Machine.execUncorrectableError site s
  | .undervoltStep die q events => Sys2Proof.Machine.execUndervoltStep die q events s
  | .fresumeRetry die tag => Sys2Proof.Machine.execFresumeRetry die tag s
  | .fresumeAbort die tag => Sys2Proof.Machine.execFresumeAbort die tag s
  | .fqheadWrite die v => Sys2Proof.Machine.execFqheadWrite die v s
  | .fqctlWrite die v => Sys2Proof.Machine.execFqctlWrite die v s
  | .feretryRead die => Sys2Proof.Machine.execFeretryRead die s
  | .viscfgWrite die v => Sys2Proof.Machine.execViscfgWrite die v s
  | .sdctlWrite die v => Sys2Proof.Machine.execSdctlWrite die v s
  | .lstatWrite die v => Sys2Proof.Machine.execLstatWrite die v s
  | .tqheadWrite die v => Sys2Proof.Machine.execTqheadWrite die v s
  | .tqctlWrite die v => Sys2Proof.Machine.execTqctlWrite die v s
  | .tresumeResume die tag => Sys2Proof.Machine.execTresumeResume die tag s
  | .tresumeClearPoison die tag => Sys2Proof.Machine.execTresumeClearPoison die tag s
  | .tresumeVoid die tag => Sys2Proof.Machine.execTresumeVoid die tag s
  | .tresumeAbort die tag => Sys2Proof.Machine.execTresumeAbort die tag s
  | .preempt die => Sys2Proof.Machine.execPreempt die s
  | .restore die => Sys2Proof.Machine.execRestore die s
  | .dump die => Sys2Proof.Machine.execDump die s
  | .pctlVoid die => Sys2Proof.Machine.execPctlVoid die s
  | .debugHalt die => Sys2Proof.Machine.execDebugHalt die s
  | .debugResume die => Sys2Proof.Machine.execDebugResume die s
  | .stallWalk die v => Sys2Proof.Machine.execStallWalk die v s
  | .stallWalkHop die => Sys2Proof.Machine.execStallWalkHop die s
  | .trdropRead die => Sys2Proof.Machine.execTrdropRead die s
  | .sketchClear die j v => Sys2Proof.Machine.execSketchClear die j v s
  | .spineWrite die n v => Sys2Proof.Machine.execSpineWrite die n v s
  | .spineChangeDone die n => Sys2Proof.Machine.execSpineChangeDone die n s
  | .tclkWrite die m v => Sys2Proof.Machine.execTclkWrite die m v s
  | .tileClockSwitchDone die tile => Sys2Proof.Machine.execTileClockSwitchDone die tile s
  | .uvctlWrite die q v => Sys2Proof.Machine.execUvctlWrite die q v s
  | .cacheWayGate die => Sys2Proof.Machine.execCacheWayGate die s
  | .cacheWayEnable die => Sys2Proof.Machine.execCacheWayEnable die s
  | .clusterGate die => Sys2Proof.Machine.execClusterGate die s
  | .clusterWake die => Sys2Proof.Machine.execClusterWake die s
  | .shunterGate die => Sys2Proof.Machine.execShunterGate die s
  | .shunterWake die => Sys2Proof.Machine.execShunterWake die s
  | .ptpMessage offset => Sys2Proof.Machine.execPtpMessage offset s
  | .linkUp port peer => Sys2Proof.Machine.execLinkUp port peer s
  | .linkDown port => Sys2Proof.Machine.execLinkDown port s
  | .rlstatRead port => Sys2Proof.Machine.execRlstatRead port s
  | .moduleReset => Sys2Proof.Machine.execModuleReset s
  | .bootPhaseComplete ok => Sys2Proof.Machine.execBootPhaseComplete ok s
  | .spdmGetVersion => Sys2Proof.Machine.execSpdmGetVersion s
  | .spdmGetCapabilities => Sys2Proof.Machine.execSpdmGetCapabilities s
  | .spdmNegotiateAlgorithms => Sys2Proof.Machine.execSpdmNegotiateAlgorithms s
  | .spdmGetDigests => Sys2Proof.Machine.execSpdmGetDigests s
  | .spdmGetCertificate => Sys2Proof.Machine.execSpdmGetCertificate s
  | .spdmChallenge req => Sys2Proof.Machine.execSpdmChallenge req s
  | .spdmGetMeasurements req => Sys2Proof.Machine.execSpdmGetMeasurements req s
  | .coreAccessFault die core pa => Sys2Proof.Machine.execCoreAccessFault die core pa s
  | .registerWrite die off v => Sys2Proof.Machine.execRegisterWrite die off v s
  | .controlCoreAccess die core pa op => Sys2Proof.Machine.execControlCoreAccess die core pa op s
  | .linkHaltReport port halted => Sys2Proof.Machine.execLinkHaltReport port halted s

end Sys2Proof.Machine
end

