-- ==== Sys2Proof/Machine/Schedule.lean ====
section
/-! DEFINITION. What the machine does next: fetching a slot, taking agenda items and outside events, and how a slack
tick begins: the cycles it ends, the counts that run, the slots chosen (R167, R168) and the agenda of the steps that are
due. -/
namespace Sys2Proof.Machine

/-! ## Fetching -/

/-- The 64 bits of a slot (R21) of the active working plane, or of plane S. -/
def State.slotWord (s : State) (e : Nat) (pl : Plane) (slot : Nat) : BitVec 64 :=
  (((s.elem e).plane pl).slots.get slot)

/-- The agenda without its head, and the slot that fires. -/
def State.fetched (s : State) (rest : List Todo) (e : Nat) (pl : Plane) (slot : Nat) : State :=
  { s with agenda := rest, cur := ⟨e, pl, slot⟩ }

def State.next (s : State) (rest : List Todo) : State := { s with agenda := rest }
def State.taken (s : State) (rest : List Instr) : State := { s with inputs := rest }

/-- The trigger word of an unconditional slot (R48). -/
def bareTrigger : BitVec 32 := 0x0000E387

/-- An operation word in slot 0 of the working plane of element 0, about to fire: the slot valid, the tile started
with a power token, the element firing its working plane. -/
def State.placeWord (s : State) (nbits w : Nat) : State :=
  let x := s.elem 0
  let word : BitVec 64 := bareTrigger ++ BitVec.ofNat 32 (w % 2 ^ nbits)
  let p : PlaneMem := { x.plane .work with
    valid := (x.plane .work).valid ||| 1, slots := (x.plane .work).slots.set 0 word }
  let x := if x.onB then { x with planeB := p } else { x with planeA := p }
  let x := { x with inS := false, ended := false, stopped := none, cutStopped := false, lateQ := [] }
  let t := s.tile 0
  { (s.setElem 0 x).setTile 0 { t with started := true, switching := 0, tokens := max 1 t.tokens } with
    agenda := [.fire 0 .work 0] }

/-- The meaning of a step that is due. -/
def Due.run : Due → State → Host.Outcome State Fault Refusal
  | .imagePrefetch w, s => execImagePrefetch w s
  | .planeReady e, s => execPlaneReady e s
  | .consistComplete rg, s => execConsistComplete rg s
  | .completionTokenPass rg tile, s => execCompletionTokenPass rg tile s
  | .planeSwap e, s => execPlaneSwap e s
  | .bankTokenGrant rg tile bank, s => execBankTokenGrant rg tile bank s
  | .startTokenArrive rg tile, s => execStartTokenArrive rg tile s
  | .planeSSwitch e, s => execPlaneSSwitch e s
  | .roundTimerExpiry rg, s => execRoundTimerExpiry rg s
  | .cutStart rg, s => execCutStart rg s
  | .elementSave e, s => execElementSave e s
  | .cutComplete rg, s => execCutComplete rg s
  | .cutTimeout rg, s => execCutTimeout rg s
  | .roundVoid rg, s => execRoundVoid rg s
  | .deadlockEvent rg, s => execDeadlockEvent rg s
  | .stallTrapRecord die, s => execStallTrapRecord die s
  | .undervoltStep die q events, s => execUndervoltStep die q events s
  | .restore die, s => execRestore die s
  | .stallWalkHop die, s => execStallWalkHop die s
  | .spineChangeDone die n, s => execSpineChangeDone die n s
  | .tileClockSwitchDone die tile, s => execTileClockSwitchDone die tile s
  | .cacheWayGate die, s => execCacheWayGate die s
  | .cacheWayEnable die, s => execCacheWayEnable die s
  | .clusterWake die, s => execClusterWake die s
  | .shunterGate die, s => execShunterGate die s
  | .shunterWake die, s => execShunterWake die s
  | .linkDown port, s => execLinkDown port s

/-! ## Ticks and cycles (R4, R346) -/

/-- A tile faster than spine 0 has a second cycle in this tick. -/
def State.secondCycle (s : State) : Bool := s.tiles.any fun t => decide (1700 ≤ t.2.acc)

/-- The cycles that end now: in each slack tick a tile's clock moves on by its frequency; a tile with a cycle left over
takes it before the next tick. -/
def State.clocks (s : State) : State :=
  let again := s.secondCycle
  let one (t : Nat × Tile) : Nat × Tile :=
    let a := if again then t.2.acc else t.2.acc + s.mhz t.1
    (t.1, { t.2 with cycle := decide (1700 ≤ a), acc := if 1700 ≤ a then a - 1700 else a })
  { s with tick := if again then s.tick else s.tick + 1, tiles := s.tiles.map one }

/-- A cycle of the tile's spine ends now. A tile that is not listed runs on spine 0. -/
def State.cycleOf (s : State) (again : Bool) (t : Nat) : Bool :=
  match s.tiles.get? t with | some x => x.cycle | none => !again

/-- The tile works in this cycle: it is not switching its spine (R346). -/
def State.live (s : State) (again : Bool) (t : Nat) : Bool := s.cycleOf again t && (s.tile t).switching == 0

/-- The slewing of the time base (R351): one nanosecond in 5,000, 200 ppm. See log entry 36 (DEDUCED). -/
def State.slewStep (s : State) : State :=
  if s.slew = 0 ∨ s.tick % 8500 ≠ 0 then s
  else
    let d : Int := if 0 < s.slew then 1 else -1
    let left := s.slew - d
    { s with timeOff := s.timeOff + d, slew := left, synced := s.synced || decide (left.natAbs ≤ 40) }

/-! ## Counts that run (R155, R169, R335) -/

def sat48 (n : Nat) : Nat := min n (2 ^ 48 - 1)

/-- The channel counters of an input after a cycle of its consumer (R335). -/
def Port.counted (x : Port) (capacity : Nat) : Port :=
  let x := { x with ccFull := if capacity ≤ x.win then sat48 (x.ccFull + 1) else x.ccFull }
  let x := if x.dequeued then { x with ccMove := sat48 (x.ccMove + 1) }
    else if x.queue.isEmpty then { x with ccEmpty := sat48 (x.ccEmpty + 1) } else x
  { x with dequeued := false }

/-- What ports and copy engines may move begins anew with a cycle of their tile, or with a slack tick. -/
def State.openCycle (s : State) (cyc : Nat → Bool) (again : Bool) : State :=
  let fresh (a : Nat) : Bool := if ownPort a then cyc (portTile a) else !again
  { s with
    tiles := s.tiles.map fun t => if cyc t.1 then (t.1, { t.2 with engine := (0, 0) }) else t
    arbs := s.arbs.map fun a => if fresh a.1 then (a.1, { a.2 with moved := 0 }) else a }

/-- What the cycle that has passed leaves: the channel counters, and the marks of one cycle. -/
def State.closeCycle (s : State) (cyc : Nat → Bool) : State :=
  { s with
    ports := s.ports.map fun p =>
      if cyc (tileOf (portElem p.1)) then (p.1, match p.2.branch with
        | some _ => p.2.counted (s.capacity p.1)
        | none => { p.2 with dequeued := false })
      else p
    elems := s.elems.map fun x => if cyc (tileOf x.1) then (x.1, { x.2 with trapNow := false, doneFire := false }) else x }

/-- A command's count towards its next unit event (R111, R129, R130), and the cycles since its reads were granted, by the
clock of its unit's tile. A ring unit counts while it is ready. -/
def State.cmdCount (s : State) (cyc : Nat → Bool) (id : Nat) (c : Cmd) : Cmd :=
  let ready : Bool := match c.instr, s.cmdRegion id with
    | .ringa _ _ _ tail, some rg => s.ringaReady rg c tail
    | .spill _ _ _ ch, _ => s.spillEmpty (portKey (id / 8) (vcOf c.plane) ch.val)
    | _, _ => true
  let run : Bool := match c.st with | .running => s.atWork id c | _ => false
  if !cyc (s.unitTile id c) then c
  else
    { c with
      staged := c.staged.map fun w => if s.across w.due then { w with age := w.age + 1 } else w
      left := if !run then c.left else if ready then c.left - 1 else 2 }

/-- Tile t lies on the way between two tiles, which goes along a row and then along a column.
See log entry 82 (DESIGN CHOICE). -/
def onWay (a b t : Nat) : Bool :=
  let row (t : Nat) : Nat := dieOfTile t / 4 * 16 + t / 16 % 16
  let col (t : Nat) : Nat := dieOfTile t % 4 * 16 + t % 16
  let between (x y z : Nat) : Bool := decide (min x y ≤ z ∧ z ≤ max x y)
  row t == row a && between (col a) (col b) (col t) || col t == col b && between (row a) (row b) (row t)

def State.countDown (s : State) (cyc : Nat → Bool) : State :=
  let still := (s.tiles.filter fun t => t.2.switching != 0).map (·.1)
  let node (n : MNode) : MNode := { n with busy := n.busy.filterMap fun b => if b.2 ≤ 1 then none else some (b.1, b.2 - 1) }
  let lane (l : LaneSt) : LaneSt := match l with | .returned n => .returned (n - 1) | x => x
  { s with
    elems := s.elems.map fun x =>
      (x.1, { x.2 with
        inflight := if cyc (tileOf x.1) then x.2.inflight.map fun f => { f with left := f.left - 1 } else x.2.inflight
        cmds := Oct.of fun n => (x.2.cmds.get n).map (s.cmdCount cyc (x.1 * 8 + n)) })
    armed := s.armed.map fun a => (a.1, s.cmdCount cyc a.1 a.2)
    flights := s.flights.map fun f =>
      let t := tileOf (portElem f.2.port)
      if cyc t && s.across f.2.due && !still.any (onWay f.2.tile t) then (f.1, { f.2 with left := f.2.left - 1 }) else f
    credits := s.credits.map fun c =>
      if cyc (tileOf (portElem c.2.port)) && s.across c.2.due then (c.1, { c.2 with left := c.2.left - 1 }) else c
    packets := s.packets.map fun p =>
      if cyc (tileOf p.2.dest) && s.across p.2.due then (p.1, { p.2 with left := p.2.left - 1 }) else p
    ops := s.ops.map fun o =>
      if cyc (tileOf o.2.elem) then
        (o.1, { o.2 with
          left := if s.across o.2.due then o.2.left - 1 else o.2.left, lanes := o.2.lanes.map lane
          back := o.2.back.map fun b => if s.across b.2 then (b.1 - 1, b.2) else b })
      else o
    tiles := s.tiles.map fun t =>
      if cyc t.1 then
        (t.1, { t.2 with
          switching := t.2.switching - 1
          nodes := ⟨node t.2.nodes.q0, node t.2.nodes.q1, node t.2.nodes.q2, node t.2.nodes.q3⟩ })
      else t }

/-! ## What happens of itself at the start of a cycle -/

/-- MARKs of a cut that is behind an element leave the heads of its inputs (R290, R291). -/
def State.dropMarks (s : State) : State :=
  let stale (p : Nat × Port) : Bool := portVc p.1 == 0 && (match p.2.queue with
    | t :: _ => t.kind == .mark && decide (t.round < (s.elem (portElem p.1)).tokRound)
    | [] => false)
  forAll (fun s p => s.dequeue p) ((s.ports.filter stale).map (·.1)) s

/-- A divert takes its output before the firings of the cycle see the space (R158). See log entry 50 (DEDUCED). -/
def State.divertFirst (s : State) (live : Nat → Bool) : State :=
  let go (f : Nat × Flight) : Bool :=
    match (s.port f.2.port).refuses f.2.tok (f.2.ack.isSome || (s.port f.2.port).branch.isNone) with
    | some (some _) => f.2.left == 0 && decide (f.2.due ≤ s.clock) && live (tileOf (portElem f.2.port))
    | _ => false
  let ks := (s.flights.filter go).map (·.1)
  forAll (fun s k => after (execTokenArrive k s) s) ks s

/-- Operations whose gates have opened set out, lanes that found no room set out again, and lanes that have reached
their port ask for a beat. -/
def State.moveOps (s : State) (live : Nat → Bool) : State :=
  forAll (fun s k =>
    match s.ops.get? k with
    | none => s
    | some o =>
      if !live (tileOf o.elem) then s
      else if !o.gated then (if o.gates.all s.gateDone then s.openOp k else s)
      else
        let full : Bool := o.lanes.toList.any fun l => match l with | .full => true | _ => false
        (if full then s.retryLanes k else s).offerOp k) (s.ops.map (·.1)) s

/-- Islands whose B lies in their rings as a whole begin to load it (R128, R129). -/
def State.beginLoads (s : State) (live : Nat → Bool) : State :=
  forAll (fun s id => match s.cmd? id with
    | some c => if live (s.unitTile id c) then s.beginLoad id else s
    | none => s) s.cmdIds s

/-- What has come to the join units by the end of their cycle before reaches them (R162). -/
def State.joinArrives (s : State) (live : Nat → Bool) : State :=
  forAll (fun s (r : Nat × Region) => match r.2.tileAt 0 0 with
    | some t => if live t then s.joinArrive r.1 else s
    | none => s) s.regions s

/-- Start instants that have come: RAMP is read and the start tokens set out (R279, R285). -/
def State.beginRamps (s : State) : State := forAll (fun s (r : Nat × Region) => s.beginRamp r.1) s.regions s

/-! ## The choice of a slot (R167, R168) -/

/-- The eligible slots of a plane. -/
def State.eligible (s : State) (e : Nat) (pl : Plane) : List Nat :=
  let m := (s.elem e).plane pl
  (List.range 16).filter fun n =>
    m.valid.getLsbD n && (match decodeSlot pl (m.slots.get n) with
      | .ok i => (Ctx.of { s with cur := ⟨e, pl, n⟩ }).firstFail i == 0
      | .bad _ => false)

/-- The slot that fires: the lowest starved one, unless SODIS is set, or the lowest. -/
def pickSlot (sodis : Bool) (loss : Hex Nat) (ok : List Nat) : Option Nat :=
  match (if sodis then none else ok.find? fun n => decide (32 ≤ loss.get n)) with
  | some n => some n
  | none => ok.head?

def Hex.of {α : Type} (f : Nat → α) : Hex α := ⟨Oct.of f, Oct.of fun n => f (n + 8)⟩

/-- Loss counts after a cycle in which `pick` fires. See log entry 69 (DEDUCED). -/
def lossAfter (loss : Hex Nat) (ok : List Nat) (pick : Option Nat) : Hex Nat :=
  Hex.of fun n =>
    if !ok.contains n then 0
    else match pick with
      | some m => if m = n then loss.get n else loss.get n + 1
      | none => loss.get n

/-- The plane an element has active (R167). -/
def Elem.active (x : Elem) : Plane := if x.inS then .s else .work

/-- The loss counts after a cycle: those of the plane that is not active are 0. -/
def Elem.lost (x : Elem) (pl : Plane) (l : Hex Nat) : Elem :=
  (x.setLosses .work (Hex.rep 0)).setLosses .s (Hex.rep 0) |>.setLosses pl l

/-- An element evaluates its slots: a consist holds it, or its plane S is active (R167). -/
def Elem.evaluates (x : Elem) : Bool := x.region.isSome || x.inS

/-- The sketches of the die count an element's cycle with a slot whose guard holds and none that is eligible (R338). -/
def State.countIdle (s : State) (e : Nat) : State :=
  let on (k : Sketch) : Bool := k.ctl.getLsbD 31 && fld k.ctl.toNat 0 3 == 1
  let d := s.die (dieOf e)
  if !(on d.sk0 || on d.sk1) then s
  else match s.guardSlot e with
    | some (pl, n, _, _) => s.sketch (dieOf e) 1 (BitVec.ofNat 32 (s.nodeNumber e pl n)) (s.runOf e)
    | none => s

/-- The firings of a cycle, chosen from the state at its start. See log entry 69 (DEDUCED). -/
def State.chooseAll (s : State) (live : Nat → Bool) : List Todo × State :=
  let one (x : Nat × Elem) : List Todo × (Nat × Elem) × Bool :=
    if !live (tileOf x.1) || !x.2.evaluates then ([], x, false)
    else
      let pl := x.2.active
      let ok := s.eligible x.1 pl
      if !s.choosing x.1 pl then ([], (x.1, x.2.lost pl (lossAfter (x.2.losses pl) ok none)), ok.isEmpty)
      else
        let pick := pickSlot (x.2.estat.getLsbD 7) (x.2.losses pl) ok
        ((match pick with | some n => [.fire x.1 pl n] | none => []),
          (x.1, x.2.lost pl (lossAfter (x.2.losses pl) ok pick)), ok.isEmpty)
  let all := s.elems.map one
  let idle := (all.filter fun x => x.2.2).map fun x => x.2.1.1
  (all.flatMap fun x => x.1, forAll (fun s e => s.countIdle e) idle { s with elems := all.map fun x => x.2.1 })

/-! ## The steps that are due -/

/-- The places at which firings complete, in firing order (R169): a firing whose tokens an earlier one holds back stays
in its place. -/
def dueAt : List Inflight → List Inflight → List Nat
  | _, [] => []
  | kept, f :: rest =>
    if f.left ≠ 0 then dueAt (kept ++ [f]) rest
    else
      let stuck := f.outs.any fun t => outBusy kept f.plane t.1
      if stuck && !f.raiser && f.regs.isEmpty && f.pred.isNone && f.outs.all (fun t => outBusy kept f.plane t.1) then
        dueAt (kept ++ [f]) rest
      else kept.length :: dueAt (if stuck then kept ++ [f] else kept) rest

/-- The acknowledgement of a WATCH or UNWATCH is back: it completes with the firings under way (R169, R175, R177). -/
def State.watchBack (s : State) (o : MemOp) : Bool :=
  o.isWatch && (match o.back with | some (0, due) => decide (due ≤ s.clock) | _ => false)

def State.completions (s : State) (cyc : Nat → Bool) : List Todo :=
  (s.elems.flatMap fun x => if cyc (tileOf x.1) then (dueAt [] x.2.inflight).map fun k => .act (.instructionComplete x.1 k) else []) ++
  s.ops.filterMap fun o => if cyc (tileOf o.2.elem) && s.watchBack o.2 then some (.act (.memoryOpPerform o.1)) else none

/-- Channels: CFG tokens at heads, spilled tokens, arrivals, credits, packets (R153, R155 to R161). -/
def State.channelEvents (s : State) (live : Nat → Bool) : List Todo :=
  (s.ports.filterMap fun p =>
    if live (tileOf (portElem p.1)) && (match p.2.queue with | t :: _ => t.kind == .cfg | [] => false) then
      some (.act (.cfgTokenApply (portElem p.1) (portVc p.1) (portCh p.1))) else none) ++
  (s.ports.filterMap fun p =>
    if live (tileOf (portElem p.1)) && !p.2.spilled.isEmpty then
      some (.act (.spillRefill (portElem p.1) (portVc p.1) (portCh p.1))) else none) ++
  (s.flights.filterMap fun f =>
    if f.2.left == 0 && decide (f.2.due ≤ s.clock) && live (tileOf (portElem f.2.port)) then some (.act (.tokenArrive f.1)) else none) ++
  (s.credits.filterMap fun c => if c.2.left == 0 && decide (c.2.due ≤ s.clock) then some (.act (.creditReturn c.1)) else none) ++
  (s.packets.filterMap fun p => if p.2.left == 0 && decide (p.2.due ≤ s.clock) && live (tileOf p.2.dest) then some (.act (.taskPacketDeliver p.1)) else none)

/-- One operation: what it is due for. -/
def State.opEvents (s : State) (k : Nat) (o : MemOp) : List Todo :=
  if !o.gated then []
  else
    let there : Bool := o.left == 0 && decide (o.due ≤ s.clock)
    let go : Bool := there && o.lanes.toList.any fun l => match l with | .granted 0 0 => true | _ => false
    (lanes.filterMap fun l => match o.lanes.get l with
      | .xlate => if there then some (.act (.tlbLookup k l)) else none
      | .returned 0 => some (.act (.feLoadReissue k l))
      | .deferred pa _ => if (s.nextDeferred pa).isSome then some (.act (.feDeferredServe pa)) else none
      | _ => none) ++
    (if go then [.act (.memoryOpPerform k)] else []) ++
    (if !o.lanesOver then []
     else match o.reply, o.back with
      | some _, _ => [.act (.replySend k)]
      | none, some (n, due) => if n = 0 ∧ due ≤ s.clock ∧ !o.isWatch then [.act (.memoryOpPerform k)] else []
      | none, none => [.act (.memoryOpPerform k)])

/-- The memory system of the package (R57, R63 to R73, R87 to R97). -/
def State.memEvents (s : State) (cyc live : Nat → Bool) (again : Bool) : List Todo :=
  (s.ops.flatMap fun o => if cyc (tileOf o.2.elem) then s.opEvents o.1 o.2 else []) ++
  (s.pwalks.filterMap fun p => if p.2.fault.isNone then some (.act (.pageWalk p.1)) else none) ++
  (s.tiles.flatMap fun t =>
    if !live t.1 then []
    else [0, 1, 2, 3].flatMap fun n =>
      let x := t.2.nodes.get n
      match x.mode with
      | .streaming => (if t.2.started && !x.started then [.act (.streamNodeStart t.1 n)] else []) ++ [.act (.streamNodeSend t.1 n)]
      | _ => []) ++
  (if again then [] else (List.range 8).flatMap fun d =>
    let x := s.die d
    (if x.xlateQ.isEmpty then [] else [.act (.translationFault d)]) ++
    (if x.sdctl.getLsbD 31 then [.act (.shootdownComplete d)] else []) ++
    (if x.visBusy then [.act (.viscfgChangeDone d)] else []) ++
    (x.transit.map fun m => .act (.migrationMove d m.asid m.vpn m.frame)) ++
    (if x.trapQ.isEmpty then [] else [.due (.stallTrapRecord d)]))

/-- One command: what it is due for (R105 to R132). In a tile that switches its spine nothing new starts, and what an
island has begun goes on (R346). -/
def State.cmdEvents (s : State) (cyc live : Nat → Bool) (id : Nat) : List Todo :=
  match s.cmd? id with
  | none => []
  | some c =>
    let here := live (s.unitTile id c)
    match c.st with
    | .waiting =>
      (if here && (c.owed || (!c.reached && !c.endStep && c.gates.all s.gateDone)) then [.act (.commandStart id)] else []) ++
      (if here && c.endStep && c.sendsEos && !c.eosSent then [.act (.tenderTokenSend id)]
       else if c.endStep && !c.owed then [.act (.commandFinish id)] else [])
    | .running =>
      let fin : List Todo := if s.canEnd c then [.act (.commandFinish id)] else []
      let ends : Bool := cyc (s.unitTile id c) && c.left == 0 && c.cause == .none && (match c.instr with | .mxmm .. => true | _ => false)
      if ends && c.loading then .act (.islandBLoadDone id) :: fin
      else if ends && c.busy then .act (.islandTileEnd id) :: fin
      else if !here || !s.atWork id c then fin
      else
        (match c.instr with
         | .mxmm .. =>
           let due : Bool := match s.cmdRegion id with | some rg => s.scalesDue rg c || s.tileReady id c rg | none => false
           if due && c.begun && !c.busy && c.cause == .none then [.act (.islandTileBegin id)] else []
         | .ringa .. => if c.left = 0 then [.act (.ringaApply id)] else []
         | .spill .. => if c.left = 0 then [.act (.spillRingChange id)] else []
         | .strm _ _ _ _ true => [.act (.tenderTokenSend id)]
         | .strm _ _ _ _ false => [.act (.tenderBlockWrite id), .act (.engineBeat id)]
         | _ => [.act (.engineBeat id)]) ++ fin
    | _ => if here && c.over && c.tokenDue then [.act (.completionTokenSend id)] else []

/-- The command at the head of a unit's entry can be taken: its unit's tile works in this cycle. -/
def State.unitLive (s : State) (live : Nat → Bool) (l : List Nat) : Bool :=
  match l with
  | id :: _ => (match s.cmd? id with | some c => live (s.unitTile id c) | none => true)
  | [] => false

/-- The engines: queues of full units, commands, side bands. -/
def State.engineEvents (s : State) (cyc live : Nat → Bool) : List Todo :=
  (s.unitWait.filterMap fun u => if s.unitLive live u.2 then some (.act (.commandAccept u.1)) else none) ++
  s.cmdOrder.flatMap (s.cmdEvents cyc live) ++
  (s.regions.filterMap fun r =>
    if r.2.slpos < r.2.cons.scount ∧ r.2.slHeld.isNone then some (.act (.scaleEntryDeliver r.1)) else none)

/-- Ports with a request that can still move a beat decide one (R146). -/
def State.arbiterEvents (s : State) : List Todo :=
  s.arbs.filterMap fun a => if !a.2.xfers.isEmpty && s.portOpen a.1 then some (.act (.arbiterBeat a.1)) else none

/-- What a tick count brings, before the firings of the tick (R135, R139, R344, R345): a subscription that has arrived in
an earlier tick counts, then beacons leave, then those that have arrived are applied. See log entry 7 (DESIGN CHOICE). -/
def State.tickEvents (s : State) : List Todo :=
  let dies := (List.range 8).filter fun d => s.elems.any fun x => dieOf x.1 == d
  (if s.tick % 1024 = 0 then
    ((List.range 8).filter fun d => dies.contains d || !(s.die d).ptgrant.isEmpty || !(s.die d).islgrant.isEmpty).map fun d =>
      .act (.powerRefill d) else []) ++
  (if s.tick % 256 = 0 then dies.map fun d => .act (.rateWindowEnd d) else []) ++
  (s.beacons.filterMap fun b => if b.2.subscribe && decide (b.2.due < s.tick) then some (.act (.beaconSubscribe b.1)) else none) ++
  ((s.subs.foldl (fun l b => insertNat b.1 l)
      ((s.beacons.filter fun b => b.2.subscribe && decide (b.2.due < s.tick)).foldl (fun l b => insertNat b.2.needid.toNat l) [])).filterMap
      fun n =>
    let w := BitVec.ofNat 32 n
    if s.tick % s.periodOf (needElem w) == 0 then some (.act (.beaconSend (needElem w) (needCounter w))) else none) ++
  (s.beacons.filterMap fun b =>
    if !b.2.subscribe && decide (b.2.due ≤ s.tick) then some (.act (.beaconApply b.1)) else none)

/-! ## Regions and walks -/

/-- The planes of a consist that comes to a region report ready (R280 step 2). -/
def State.readyEvents (s : State) (r : Region) : List Todo :=
  if r.coming.isNone then []
  else (r.members r.newBytes).filterMap fun m => if (s.elem m.1).ready then none else some (.due (.planeReady m.1))

/-- The join unit of a region has something to do in this cycle (R162). -/
def State.joinEvents (s : State) (live : Nat → Bool) : List Todo :=
  s.regions.filterMap fun r =>
    let here : Bool := match r.2.tileAt 0 0 with | some t => live t | none => false
    if here && (!r.2.joinIn.isEmpty || (s.regionElems r.1).any fun e => (s.elem e).sendReady != 0) then
      some (.act (.joinUnitCycle r.1))
    else none

/-- One region: what it is due for (R276 to R294, R302, R319). -/
def State.regionEvents (s : State) (k : Nat) (r : Region) : List Todo :=
  let es := s.regionElems k
  let run : List Todo :=
    (if r.cut.isSome then (es.filter s.canSave).map (fun e => .due (.elementSave e)) ++ [.due (.cutComplete k)] else []) ++
    (match r.cutAsked with | some (due, _, _) => if due ≤ s.tick then [.due (.cutStart k)] else [] | none => []) ++
    (if r.lastCut + r.cons.round ≤ s.tick then [.due (.roundTimerExpiry k)] else []) ++
    (match r.cut with
     | some c =>
       if (!c.timedOut && decide (c.start + cutTicks (s.die r.die).cutcfg ≤ s.tick)) ||
          (!c.full && !r.tiles.all fun t => s.saveFits r t c) then [.due (.cutTimeout k)] else []
     | none => []) ++
    (if r.lastMove + dlTicks (s.die r.die).cutcfg ≤ s.tick then [.due (.deadlockEvent k)] else []) ++
    (if r.voidAsked.isEmpty then [] else [.due (.roundVoid k)])
  match r.phase with
  | .loading => s.readyEvents r
  | .swapping => (s.elems.filter fun x => r.tiles.contains (tileOf x.1) && x.2.ready).map fun x => .due (.planeSwap x.1)
  | .banks =>
    (r.tiles.flatMap fun t => (List.range 16).filterMap fun b =>
      if ((s.tile t).banks.get b).token then none else some (.due (.bankTokenGrant k t b))) ++
    (if r.gangId.isSome && r.peers.isEmpty then [.act (.gangCommit r.walk)] else [])
  | .starting =>
    (r.tiles.filterMap fun t => match (s.tile t).startDue with
      | some d => if d ≤ s.tick then some (.due (.startTokenArrive k t)) else none
      | none => none) ++ (if s.running r then run else [])
  | .running =>
    run ++ (if s.consistDone k r then [.due (.consistComplete k)] else []) ++
    s.readyEvents r
  | .completing => ((r.tiles.find? fun t => !(s.tile t).passed).toList.map fun t => .due (.completionTokenPass k t)) ++ s.readyEvents r
  | .complete => s.readyEvents r
  | _ => []

/-- The step that a graph record takes (R274). -/
def State.recordEvent (s : State) (w : Nat) (x : Walk) : Todo :=
  match s.fetchVirt x.die x.asid x.pc 32 with
  | none => .act (.endRecord w)
  | some (b, _) =>
    match natAt b 0 1 with
    | 1 => .act (.consistRecord w) | 2 => .act (.armRecord w) | 3 => .act (.waitRecord w) | 4 => .act (.cutRecord w) | 5 => .act (.signalRecord w)
    | 6 => .act (.branchRecord w) | 7 => .act (.callRecord w) | 8 => .act (.returnRecord w) | _ => .act (.endRecord w)

/-- One walk: what it is due for (R274 to R285). -/
def State.walkEvents (s : State) (w : Nat) (x : Walk) : List Todo :=
  if x.held.isSome then []
  else match x.phase with
    | .fetch => [s.recordEvent w x]
    | .placing => [.act (.placementAttempt w)]
    | .gang left =>
      if x.blocked then []
      else (left.filter fun m => (x.cons m).pkg == Config.pkg).map fun m => .act (.gangReserve w m)
    | .loading _ => [.due (.imagePrefetch w)]
    | .waiting polled ready =>
      (if natAt x.record 1 1 = 1 ∧ !ready ∧ polled ≤ s.tick then [.act (.waitPoll w)] else []) ++ [.act (.waitRelease w)]
    | .ending => [.act (.endRecord w)]
    | .writing => [.act (.endRecord w)]
    | _ => []

/-- Walks in the order in which placements are tried: priority, then launch sequence number (R276). -/
def insertWalk (x : Nat × Walk) : List (Nat × Walk) → List (Nat × Walk)
  | [] => [x]
  | y :: ys =>
    if y.2.prio < x.2.prio ∨ (y.2.prio = x.2.prio ∧ lsnLt x.2.lsn y.2.lsn) then x :: y :: ys else y :: insertWalk x ys

/-- The shunters, links and clocks of the package. -/
def State.unitEvents (s : State) (again : Bool) (live : Nat → Bool) : List Todo :=
  (s.elems.filterMap fun x => if x.2.urgent && live (tileOf x.1) then some (.due (.planeSSwitch x.1)) else none) ++
  (s.tiles.filterMap fun t =>
    if t.2.nextSpine.isSome && t.2.switching == 0 then some (.due (.tileClockSwitchDone (dieOfTile t.1) (t.1 % 256))) else none) ++
  ((List.range 8).filterMap fun d => match (s.die d).swalk with
    | some x => if live (tileOf x.elem) then some (.due (.stallWalkHop d)) else none
    | none => none) ++
  (if again then [] else
    (List.range 8).flatMap fun d =>
      let x := s.die d
      (lanes.filterMap fun n => if (x.spine.get n).2.isSome then some (.due (.spineChangeDone d n)) else none) ++
      (if x.coresGated && x.irqUp then [.due (.clusterWake d)] else []) ++
      (if x.shunterGated && (s.regions.any fun r => r.2.die == d) then [.due (.shunterWake d)] else []) ++
      (if !x.shunterGated && decide (x.idleSince + 17 * 100000 ≤ s.clock) then [.due (.shunterGate d)] else []) ++
      (if x.launchQ.isEmpty then [] else [.act (.walkStart d)]) ++
      (if x.pctlBusy && x.pctlOp == 1 then [.due (.restore d)] else [])) ++
  (if again then [] else
    (s.links.filterMap fun l => if !l.2.up && l.2.train then some (.due (.linkDown l.1)) else none) ++
    (s.regions.flatMap fun r => s.regionEvents r.1 r.2) ++
    ((s.walks.foldr insertWalk []).flatMap fun w => s.walkEvents w.1 w.2))

/-! ## What settles with a tick (R314, R329, R341, R347, R349, R350) -/

/-- A waiter of some cut, asked for or in progress. -/
def State.cutWaits (s : State) (who : CutFor) : Bool :=
  s.regions.any fun r =>
    (match r.2.cut with | some c => c.waits.any fun x => decide (x = who) | none => false) ||
    (match r.2.cutAsked with | some (_, _, l) => l.any fun x => decide (x = who) | none => false)

/-- BUSY bits whose operation has ended, and the time since which a shunter is idle. -/
def State.settleDie (s : State) (d : Nat) : State :=
  let x := s.die d
  let lost : Bool := x.pctlBusy && (match x.pctlOp.toNat with
    | 0 => !s.cutWaits (.preempt d) | 2 => !s.cutWaits (.dump d) | _ => false)
  let voided : Bool := x.pctlBusy && x.pctlOp == 3 && !(s.regions.any fun r => r.2.run == x.prun && !r.2.voidAsked.isEmpty)
  let x := if lost then { x with pctlBusy := false, pctlFail := true } else x
  let x := if voided then { x with pctlBusy := false } else x
  let x := if x.dbgBusy && x.dbgOp == 1 && s.regions.all (fun r => r.2.run != x.dbgAct || r.2.halted) then
      { x with dbgBusy := false } else x
  let x := if s.shunterIdle d then x else { x with idleSince := s.clock }
  s.setDie d x

/-- Steps that nothing in the machine decides: the errors a quadrant counts in a millisecond (R347) and the working-set
estimator every 64 µs (R349), both of the time base (R4), which stood at `before` at the tick before; from free values (log
entry 2). -/
def State.openEvents (s : State) (before : Int) : List Todo × State :=
  let ends (ns : Int) : Bool := Int.fdiv s.clock (17 * ns) != Int.fdiv before (17 * ns)
  let under := if ends 1000000 then
      (List.range 8).flatMap fun d => (List.range 4).filterMap fun q =>
        if ((s.die d).uvctl.get q).getLsbD 31 then some (d, q) else none
    else []
  let ways := if ends 64000 then
      (List.range 8).filter fun d => let x := s.die d; x.clAuto && (decide (x.clMin < x.clWays) || decide (x.clWays < 16))
    else []
  let (l, s) := under.foldl (fun (r : List Todo × State) x =>
    let (v, s) := r.2.draw
    (r.1 ++ [.due (.undervoltStep x.1 x.2 (v.toNat % 2 ^ 32))], s)) ([], s)
  ways.foldl (fun (r : List Todo × State) d =>
    let (v, s) := r.2.draw
    (r.1 ++ (match v.toNat % 3 with | 0 => [.due (.cacheWayGate d)] | 1 => [.due (.cacheWayEnable d)] | _ => []), s)) (l, s)

/-! ## A tick -/

/-- The next cycle or slack tick: what has passed is counted, slots are chosen from the state at its start, and the
agenda takes completions, firings and then every step that is due. See log entry 7 (DESIGN CHOICE). -/
def State.advance (s : State) : State :=
  let again := s.secondCycle
  let before := s.clock
  let s := s.closeCycle fun t => (s.tile t).cycle || (s.tiles.get? t).isNone && !again
  let s := s.clocks
  let s := if again then s else forAll (fun s d => s.settleDie d) (List.range 8) s.slewStep
  let cyc := s.cycleOf again
  let s := (s.openCycle cyc again).countDown cyc
  let live := s.live again
  let s := (s.dropMarks.divertFirst live).moveOps live
  let s := ((s.beginLoads live).joinArrives live).beginRamps
  let (fires, s) := s.chooseAll live
  let (free, s) := if again then ([], s) else s.openEvents before
  let rest := s.channelEvents live ++ s.joinEvents live ++ s.memEvents cyc live again ++ s.engineEvents cyc live ++ [.ports] ++
    s.unitEvents again live ++ free
  { s with agenda := s.completions cyc ++ (if again then [] else s.tickEvents) ++ fires ++ rest }

end Sys2Proof.Machine
end

