-- ==== Sys2Proof/Machine/Step.lean ====
section
/-! DEFINITION. One step of the machine: the head of the agenda, or an outside event, or the next slack tick. -/
namespace Sys2Proof.Machine

/-- One step. A slot that fires is read from its plane and decoded; a step of the table acts as it is; with nothing
left to do in this tick and no outside event waiting, the next tick begins and its agenda is drawn up.
See log entry 8 (DESIGN CHOICE). -/
def step (s : State) : Host.Outcome State Fault Refusal :=
  match s.agenda with
  | .fire e pl slot :: rest =>
    (match decodeIn pl (slotOp (s.slotWord e pl slot)) with
     | .ok i => exec i (s.fetched rest e pl slot)
     | .bad _ => .fault (.noInstruction (s.slotWord e pl slot)))
  | .act i :: rest => exec i (s.next rest)
  | .due d :: rest => d.run (s.next rest)
  | .ports :: rest => .next (s.next (s.arbiterEvents ++ rest))
  | [] =>
    (match s.inputs with
     | i :: rest => exec i (s.taken rest)
     | [] => .next s.advance)

/-- The state with an operation word as the next firing (log entry 5). -/
def State.withFetchWord (s : State) (nbits w : Nat) : State := s.placeWord nbits w

end Sys2Proof.Machine
end

