-- ==== Sys2Proof/Safety.lean ====
section
/-! DEFINITION. What counts as a safe state: the forms that every operation keeps. -/
namespace Sys2Proof.Machine

/-- Both memories are in their canonical form. -/
def State.memWf (s : State) : Bool := s.mem.wf && s.spm.wf

end Sys2Proof.Machine
end

