-- ==== Sys2Proof/Certificates/Slice0/Obligations.lean ====
section
/-! DEFINITION. The statements for the provers, from the numbered rules of spec/. The names of `Sys2Proof.Claims`
say in the spec's terms what the statements share. -/

namespace Sys2Proof.Claims
open Sys2Proof.Machine

/-! ## A firing -/

/-- The slot that `cur` names may fire `i`: its element chooses among the slots of the plane, the conditions of R167
hold, and no run-time error of R24, R44, R174, R304 or R333 takes the place of the effect. -/
abbrev Eligible (i : Instr) (s : State) : Prop :=
  s.choosing s.cur.elem s.cur.plane = true ∧ (Ctx.of s).firstFail i = 0 ∧ ((Ctx.of s).error i).isNone = true

/-- Every instruction of the list completes: where its slot may fire, `exec` answers a next state. -/
def AllComplete (is : List Instr) (s : State) : Prop := ∀ i ∈ is, Eligible i s → ∃ t, exec i s = .next t

/-- The instruction completes: `exec` answers the state in which the firing has been committed with this result. -/
def Fires (i : Instr) (s : State) (r : Res) : Prop := exec i s = .next ((Ctx.of s).commit i r)

/-- The lanes of a single source operand, and of a vector register of the firing plane. -/
abbrev lanesIn (s : State) (a : Src) : Oct W := (Ctx.of s).val a
abbrev reg (s : State) (n : Nat) : Oct W := ((Ctx.of s).el.vreg (Ctx.of s).pl n).lane
abbrev predOf (s : State) (p : Nat) : Mask := ((Ctx.of s).el.preds (Ctx.of s).pl).get p

/-- Element k of lane l (R198). -/
abbrev elt (z : ISz) (v : Oct W) (l k : Nat) : Nat := el (ISz.w z) (v.get l) k

/-- The firing writes lanes `v` under R199: the tag of A, the LVM of R154 over the sources, r(l) bit by bit (R28). -/
def Writes (i : Instr) (s : State) (d : Dst) (a : Src) (xs : List Src) (pu : Option Pu) (lat : Nat) (v : Oct W) : Prop :=
  Fires i s (((Ctx.of s).lanewise d a xs pu v).late lat)

/-- Every element of the result stands in a relation to the elements of A and B with the same index. -/
def Binary (i : Instr) (s : State) (d : Dst) (a b : Src) (pu : Option Pu) (z : ISz) (lat : Nat)
    (rel : Nat → Nat → Nat → Prop) : Prop :=
  Eligible i s → ∃ v, Writes i s d a [a, b] pu lat v ∧
    ∀ l < 8, ∀ k < ISz.n z, rel (elt z (lanesIn s a) l k) (elt z (lanesIn s b) l k) (elt z v l k)
def Unary (i : Instr) (s : State) (d : Dst) (a : Src) (pu : Option Pu) (z : ISz) (rel : Nat → Nat → Prop) : Prop :=
  Eligible i s → ∃ v, Writes i s d a [a] pu 1 v ∧
    ∀ l < 8, ∀ k < ISz.n z, rel (elt z (lanesIn s a) l k) (elt z v l k)
/-- The same for instructions that act on whole lanes. -/
def Lanes1 (i : Instr) (s : State) (d : Dst) (a : Src) (pu : Option Pu) (rel : W → W → Prop) : Prop :=
  Eligible i s → ∃ v, Writes i s d a [a] pu 1 v ∧ ∀ l < 8, rel ((lanesIn s a).get l) (v.get l)
def Lanes2 (i : Instr) (s : State) (d : Dst) (a b : Src) (pu : Option Pu) (rel : W → W → W → Prop) : Prop :=
  Eligible i s → ∃ v, Writes i s d a [a, b] pu 1 v ∧ ∀ l < 8, rel ((lanesIn s a).get l) ((lanesIn s b).get l) (v.get l)

/-- The signed saturation of R198 as a relation between an exact value and a pattern. -/
def SatS (w : Nat) (y : Int) (r : Nat) : Prop :=
  r < 2 ^ w ∧ sx w r = max (-(2 ^ (w - 1))) (min y (2 ^ (w - 1) - 1))

end Sys2Proof.Claims

open Sys2Proof Sys2Proof.Machine Sys2Proof.Claims

/-- R201: the element results of class 0x1 but for MAD, ADDC, SUBB and the divisions, each with its wrap or saturation. -/
def Obligations.IntegerArithmetic : Prop :=
  ∀ (s : State) (d : Dst) (a b : Src) (pu : Option Pu) (z : ISz),
    let w := ISz.w z
    Binary (.add d a b pu z) s d a b pu z 1 (fun x y r => r = (x + y) % 2 ^ w) ∧
    Binary (.sub d a b pu z) s d a b pu z 1 (fun x y r => r = (x + (2 ^ w - y)) % 2 ^ w) ∧
    Binary (.adds d a b pu z) s d a b pu z 1 (fun x y r => SatS w (sx w x + sx w y) r) ∧
    Binary (.addus d a b pu z) s d a b pu z 1 (fun x y r => r = min (x + y) (2 ^ w - 1)) ∧
    Binary (.subs d a b pu z) s d a b pu z 1 (fun x y r => SatS w (sx w x - sx w y) r) ∧
    Binary (.subus d a b pu z) s d a b pu z 1 (fun x y r => r = x - y) ∧
    Binary (.mul d a b pu z) s d a b pu z 1 (fun x y r => r = x * y % 2 ^ w) ∧
    Binary (.mulh d a b pu z) s d a b pu z 1 (fun x y r => r < 2 ^ w ∧ sx w r = sx w x * sx w y / 2 ^ w) ∧
    Binary (.mulhu d a b pu z) s d a b pu z 1 (fun x y r => r = x * y / 2 ^ w) ∧
    Unary (.neg d a pu z) s d a pu z (fun x r => r = (2 ^ w - x) % 2 ^ w) ∧
    Unary (.abs d a pu z) s d a pu z (fun x r => r = if x < 2 ^ (w - 1) then x else 2 ^ w - x)

/-- R201 and R202: MAD adds its old destination; ADDC and SUBB take and leave their carry in P[PD], 0 under .nc. -/
def Obligations.MultiplyAddAndCarry : Prop :=
  (∀ (s : State) (d : Fin 16) (a b : Src) (pu : Option Pu) (z : ISz), Eligible (.mad d a b pu z) s →
    ∃ v, Writes (.mad d a b pu z) s (.v d) a [a, b] pu 1 v ∧ ∀ l < 8, ∀ k < ISz.n z,
      elt z v l k = (elt z (lanesIn s a) l k * elt z (lanesIn s b) l k + elt z (reg s d) l k) % 2 ^ ISz.w z) ∧
  (∀ (s : State) (d : Fin 16) (a b : Src) (pu : Pu) (nc : Bool),
    let cin (l : Nat) : Nat := if !nc && bit (predOf s pu.p) l then 1 else 0
    let carry (v : Oct W) (m : Mask) : Res :=
      ((Ctx.of s).put (.v d) v ((Ctx.of s).tag a) ((Ctx.of s).valid [a, b])).withPu (Ctx.of s) (some pu) m
    (Eligible (.addc d a b pu nc) s → ∃ v m, Fires (.addc d a b pu nc) s (carry v m) ∧ ∀ l < 8,
      (v.get l).toNat + (if bit m l then 2 ^ 32 else 0) =
        ((lanesIn s a).get l).toNat + ((lanesIn s b).get l).toNat + cin l) ∧
    (Eligible (.subb d a b pu nc) s → ∃ v m, Fires (.subb d a b pu nc) s (carry v m) ∧ ∀ l < 8,
      (v.get l).toNat + ((lanesIn s b).get l).toNat + cin l =
        ((lanesIn s a).get l).toNat + (if bit m l then 2 ^ 32 else 0)))

/-- R203: DIV truncates toward zero and DIVU rounds down, in 12, 8 or 6 cycles (R200); a divisor of 0 gives all ones,
and the most negative element divided by −1 gives itself. -/
def Obligations.IntegerDivision : Prop :=
  ∀ (s : State) (d : Dst) (a b : Src) (pu : Option Pu) (z : ISz),
    let w := ISz.w z
    let lat := match z with | .w32 => 12 | .w16 => 8 | .w8 => 6
    Binary (.div d a b pu z) s d a b pu z lat (fun x y r =>
      (y = 0 → r = 2 ^ w - 1) ∧
      (y ≠ 0 → sx w x = -(2 ^ (w - 1)) → sx w y = -1 → r = x) ∧
      (y ≠ 0 → ¬(sx w x = -(2 ^ (w - 1)) ∧ sx w y = -1) →
        r < 2 ^ w ∧ (sx w x - sx w r * sx w y).natAbs < (sx w y).natAbs ∧
        (0 ≤ sx w x → 0 ≤ sx w x - sx w r * sx w y) ∧ (sx w x ≤ 0 → sx w x - sx w r * sx w y ≤ 0))) ∧
    Binary (.divu d a b pu z) s d a b pu z lat (fun x y r =>
      (y = 0 → r = 2 ^ w - 1) ∧ (y ≠ 0 → r * y ≤ x ∧ x < (r + 1) * y))

/-- R204: logic and shifts, as bits and as numbers; a count of w or more is a defined case. -/
def Obligations.LogicAndShifts : Prop :=
  ∀ (s : State) (d : Dst) (a b : Src) (pu : Option Pu) (z : ISz),
    let w := ISz.w z
    Lanes2 (.and d a b pu) s d a b pu (fun x y r => ∀ j < 32, r.getLsbD j = (x.getLsbD j && y.getLsbD j)) ∧
    Lanes2 (.or d a b pu) s d a b pu (fun x y r => ∀ j < 32, r.getLsbD j = (x.getLsbD j || y.getLsbD j)) ∧
    Lanes2 (.xor d a b pu) s d a b pu (fun x y r => ∀ j < 32, r.getLsbD j = (x.getLsbD j != y.getLsbD j)) ∧
    Lanes2 (.andn d a b pu) s d a b pu (fun x y r => ∀ j < 32, r.getLsbD j = (x.getLsbD j && !y.getLsbD j)) ∧
    Lanes1 (.not d a pu) s d a pu (fun x r => ∀ j < 32, r.getLsbD j = !x.getLsbD j) ∧
    Binary (.shl d a b pu z) s d a b pu z 1 (fun x c r => r = x * 2 ^ c % 2 ^ w) ∧
    Binary (.shr d a b pu z) s d a b pu z 1 (fun x c r => r = x / 2 ^ c) ∧
    Binary (.sar d a b pu z) s d a b pu z 1 (fun x c r => r < 2 ^ w ∧ sx w r = sx w x / 2 ^ c) ∧
    Binary (.rol d a b pu z) s d a b pu z 1 (fun x c r => ∀ j < w, r.testBit ((j + c) % w) = x.testBit j) ∧
    Unary (.clz d a pu z) s d a pu z (fun x r => r ≤ w ∧ x < 2 ^ (w - r) ∧ (r < w → 2 ^ (w - r - 1) ≤ x)) ∧
    Unary (.ctz d a pu z) s d a pu z (fun x r => r ≤ w ∧ (∀ j < r, x.testBit j = false) ∧ (r < w → x.testBit r = true)) ∧
    Unary (.popc d a pu z) s d a pu z (fun x r => r = (List.range w).countP x.testBit) ∧
    Unary (.brev d a pu z) s d a pu z (fun x r => ∀ j < w, r.testBit j = x.testBit (w - 1 - j))

/-- R205 and R206: bit fields and SEL. BFX and BFI take any field that lies within the lane, as their encoding
requires. -/
def Obligations.BitFieldsAndSelect : Prop :=
  (∀ (s : State) (d : Dst) (a : Src) (pos len1 : Fin 32) (sx : Bool), pos.val + len1.val < 32 →
    Lanes1 (.bfx d a pos len1 sx) s d a none (fun x r => ∀ j < 32, r.getLsbD j =
      if j ≤ len1 then x.getLsbD (pos + j) else sx && x.getLsbD (pos + len1))) ∧
  (∀ (s : State) (d : Fin 16) (a : Src) (pos len1 : Fin 32), pos.val + len1.val < 32 → Eligible (.bfi d a pos len1) s →
    ∃ v, Writes (.bfi d a pos len1) s (.v d) a [a] none 1 v ∧ ∀ l < 8, ∀ j < 32, (v.get l).getLsbD j =
      if pos ≤ j ∧ j ≤ pos.val + len1 then ((lanesIn s a).get l).getLsbD (j - pos) else ((reg s d).get l).getLsbD j) ∧
  (∀ (s : State) (d : Dst) (a b : Src) (p : Fin 8), Eligible (.sel d a b p) s →
    ∃ v tag, Fires (.sel d a b p) s ((Ctx.of s).put d v tag ((Ctx.of s).valid [a, b])) ∧
      (∀ l < 8, v.get l = if bit (predOf s p) l then (lanesIn s a).get l else (lanesIn s b).get l) ∧
      (∀ l < 8, bit (Ctx.of s).act l = true → (∀ j < l, bit (Ctx.of s).act j = false) →
        tag = if bit (predOf s p) l then (Ctx.of s).tag a else (Ctx.of s).tag b))

/-- R207: compares give all ones or 0 per element, minimum and maximum the lesser or greater. -/
def Obligations.CompareMinimumMaximum : Prop :=
  ∀ (s : State) (d : Dst) (a b : Src) (pu : Option Pu) (z : ISz),
    let w := ISz.w z
    let holds (p : Nat → Nat → Bool) (x y r : Nat) : Prop := r = if p x y then 2 ^ w - 1 else 0
    Binary (.cmpeq d a b pu z) s d a b pu z 1 (holds fun x y => decide (x = y)) ∧
    Binary (.cmpne d a b pu z) s d a b pu z 1 (holds fun x y => decide (x ≠ y)) ∧
    Binary (.cmplt d a b pu z) s d a b pu z 1 (holds fun x y => decide (sx w x < sx w y)) ∧
    Binary (.cmple d a b pu z) s d a b pu z 1 (holds fun x y => decide (sx w x ≤ sx w y)) ∧
    Binary (.cmpltu d a b pu z) s d a b pu z 1 (holds fun x y => decide (x < y)) ∧
    Binary (.cmpleu d a b pu z) s d a b pu z 1 (holds fun x y => decide (x ≤ y)) ∧
    Binary (.min d a b pu z) s d a b pu z 1 (fun x y r => r < 2 ^ w ∧ sx w r = min (sx w x) (sx w y)) ∧
    Binary (.max d a b pu z) s d a b pu z 1 (fun x y r => r < 2 ^ w ∧ sx w r = max (sx w x) (sx w y)) ∧
    Binary (.minu d a b pu z) s d a b pu z 1 (fun x y r => r = min x y) ∧
    Binary (.maxu d a b pu z) s d a b pu z 1 (fun x y r => r = max x y)

/-- R208: the immediate forms, their immediates signed or zero-extended as the table says; no predicate changes. -/
def Obligations.ImmediateForms : Prop :=
  ∀ (s : State) (d : Dst) (a : Src) (imm : BitVec 14) (kind : ShKind) (c : Fin 32),
    Lanes1 (.addi d a imm) s d a none (fun x r => (r.toNat : Int) = (x.toNat + imm.toInt) % 2 ^ 32) ∧
    Lanes1 (.muli d a imm) s d a none (fun x r => (r.toNat : Int) = x.toNat * imm.toInt % 2 ^ 32) ∧
    Lanes1 (.andi d a imm) s d a none (fun x r => ∀ j < 32, r.getLsbD j = (x.getLsbD j && imm.getLsbD (min j 13))) ∧
    Lanes1 (.ori d a imm) s d a none (fun x r => ∀ j < 32, r.getLsbD j = (x.getLsbD j || imm.getLsbD j)) ∧
    Lanes1 (.xori d a imm) s d a none (fun x r => ∀ j < 32, r.getLsbD j = (x.getLsbD j != imm.getLsbD j)) ∧
    Lanes1 (.shi d a kind c) s d a none (fun x r => match kind with
      | .shl => r.toNat = x.toNat * 2 ^ c.val % 2 ^ 32
      | .shr => r.toNat = x.toNat / 2 ^ c.val
      | .sar => r.toInt = x.toInt / 2 ^ c.val
      | .rol => ∀ j < 32, r.getLsbD ((j + c) % 32) = x.getLsbD j)

namespace Sys2Proof.Claims
open Sys2Proof.Machine

/-- The opcodes that R33 leaves reserved: in each row of the map, the columns from this one on. -/
def firstReserved : Nat → Nat
  | 0x0 => 14 | 0x5 => 13 | 0x6 => 13 | 0x7 => 12 | 0x8 => 12 | 0x9 => 6 | 0xA => 11 | 0xB => 14 | 0xC => 14 | 0xD => 9
  | 0xE => 7 | 0xF => 0 | _ => 16
def reservedOpcode (n : Nat) : Bool := decide (firstReserved (n / 16) ≤ n % 16)

end Sys2Proof.Claims

/-- R26 to R33: for every well-formed instruction of a plane, the word that the encoder gives decodes to it, with every
operand at every value the encoding admits. -/
def Obligations.DecodeOfEncodeIsTheInstruction : Prop :=
  ∀ (pl : Plane) (i : Instr) (w : BitVec 32), i.wf pl = true → encode i = some w → decodeIn pl w = .ok i

/-- R26 to R33: a word that decodes is the one word of its instruction, so that no bit of an encoding is ignored. -/
def Obligations.EncodeOfDecodeIsTheWord : Prop :=
  ∀ (pl : Plane) (i : Instr) (w : BitVec 32), decodeIn pl w = .ok i → encode i = some w

/-- R33, R34: exactly the 67 reserved opcodes are refused with reason OPCODE, in either plane. -/
def Obligations.ReservedOpcodesAreRefused : Prop :=
  ((List.range 256).countP reservedOpcode = 67) ∧
  ∀ (pl : Plane) (w : BitVec 32), decodeIn pl w = .bad .opcode ↔ reservedOpcode (w.toNat / 2 ^ 24) = true

/-- Words that the spec's chapters write out, with the instruction each stands for: one or more of every class that has one. -/
def Obligations.WordsOfTheSpecDecode : Prop :=
  decode 0x06840400 = .ok (.steer 0 (.i 0) 2) ∧ decode 0x0929C7F8 = .ok (.plog 1 2 3 8 0xFF) ∧
  decode 0x018E8090 = .ok (.send (some 1) (.k 0) (some ⟨.set, 2⟩)) ∧
  decode 0x11847610 = .ok (.sub (.o 0) (.i 1) (.k 1) (some ⟨.set, 0⟩) .w32) ∧
  decode 0x408C04D0 = .ok (.fadd (.o 1) (.i 0) (.v 2) (some ⟨.set, 3⟩) .f32 .rn) ∧
  decode 0x94180003 = .ok (.mfs (.v 3) 3) ∧ decode 0xA2FFE110 = .ok (.st 7 0xFF (.v 1) (.v 2) .word) ∧
  decode 0xA2282390 = .ok (.st 1 0x41 (.v 3) (.i 2) .word) ∧ decode 0xA0405025 = .ok (.ld 2 0x02 (.i 0) 4 .int32) ∧
  decode 0xA3001280 = .ok (.stb 0 0 (.i 2) (.i 0)) ∧ decode 0xB1001191 = .ok (.aadds 0 0 (.i 1) (.i 2) (some 1)) ∧
  decode 0xC0202310 = .ok (.copy 1 0x01 3 2) ∧ decode 0xC4A08818 = .ok (.strm 5 0x04 8 3 false) ∧
  decode 0xC5400228 = .ok (.mxmm 2 0 2 5) ∧ decode 0xD008B005 = .ok (.spawn (.v 1) (.v 2) .zr 5) ∧
  decode 0xD3208650 = .ok (.watch (.v 2) (.v 3) (.v 4) (some ⟨.set, 1⟩)) ∧ decode 0xE0000007 = .ok (.trap 7) ∧
  decode 0xE2000000 = .ok .cutrq ∧ decode 0xE3000105 = .ok (.evnt 5 true) ∧
  decode 0xE4402111 = .ok (.l1wb 2 0x01 (.v 1) (.v 2) true) ∧ decode 0xE6000002 = .ok (.pwrh .high)

/-- R22, R25: what a validated slot's trigger word says: the guard names no value outside PMASK, an absent channel has
no test, the two channels differ, and OUTQ is not 6. -/
def Obligations.ValidSlotsHaveValidTriggers : Prop :=
  ∀ (pl : Plane) (s : BitVec 64) (i : Instr), decodeSlot pl s = .ok i →
    let t := s.toNat / 2 ^ 32
    let cha := t / 2 ^ 13 % 8
    let chb := t / 2 ^ 7 % 8
    (∀ n < 8, t.testBit (16 + n) = true → t.testBit (24 + n) = true) ∧
    (cha = 7 → t / 2 ^ 11 % 4 = 0 ∧ t.testBit 10 = false) ∧ (chb = 7 → t / 2 ^ 5 % 4 = 0 ∧ t.testBit 4 = false) ∧
    (cha = chb → cha = 7) ∧ t % 8 ≠ 6 ∧ i.wf pl = true ∧
    (∀ x ∈ i.srcs, ∀ n : Fin 6, x.1 = .i n → cha = n.val ∨ chb = n.val) ∧
    (∀ x ∈ i.srcs, x.1 = .t0 ∨ x.1 = .t1 → cha = 6 ∨ chb = 6) ∧
    (∀ (n : Fin 6) (g : Bool), i.dst = some (.o n, g) → t % 8 = n.val)

/-- A step runs what the head of the agenda names: the decoded operation word of the slot that fires, a step of the
table as it is, or with nothing to do the next outside event; a slot that does not decode is the machine's one fault.
The agenda and the queue of outside events are the model's, log entries 7 and 8. -/
def Obligations.StepRunsTheDecodedInstruction : Prop :=
  ∀ (s : State) (rest : List Todo),
    (∀ (e : Nat) (pl : Plane) (slot : Nat) (i : Instr), s.agenda = .fire e pl slot :: rest →
      decodeIn pl (slotOp (s.slotWord e pl slot)) = .ok i →
      step s = exec i { s with agenda := rest, cur := ⟨e, pl, slot⟩ }) ∧
    (∀ (e : Nat) (pl : Plane) (slot : Nat) (r : Reason), s.agenda = .fire e pl slot :: rest →
      decodeIn pl (slotOp (s.slotWord e pl slot)) = .bad r → step s = .fault (.noInstruction (s.slotWord e pl slot))) ∧
    (∀ i : Instr, s.agenda = .act i :: rest → step s = exec i { s with agenda := rest }) ∧
    (∀ d : Due, s.agenda = .due d :: rest → step s = d.run { s with agenda := rest }) ∧
    (∀ (i : Instr) (more : List Instr), s.agenda = [] → s.inputs = i :: more → step s = exec i { s with inputs := more }) ∧
    (s.agenda = [] → s.inputs = [] → step s = .next s.advance) ∧
    (∀ (t : State) (n m b : Nat),
      Due.run (.imagePrefetch n) t = exec (.imagePrefetch n) t ∧ Due.run (.planeReady n) t = exec (.planeReady n) t ∧
      Due.run (.consistComplete n) t = exec (.consistComplete n) t ∧
      Due.run (.completionTokenPass n m) t = exec (.completionTokenPass n m) t ∧
      Due.run (.planeSwap n) t = exec (.planeSwap n) t ∧ Due.run (.bankTokenGrant n m b) t = exec (.bankTokenGrant n m b) t ∧
      Due.run (.startTokenArrive n m) t = exec (.startTokenArrive n m) t ∧
      Due.run (.planeSSwitch n) t = exec (.planeSSwitch n) t ∧ Due.run (.roundTimerExpiry n) t = exec (.roundTimerExpiry n) t ∧
      Due.run (.cutStart n) t = exec (.cutStart n) t ∧ Due.run (.elementSave n) t = exec (.elementSave n) t ∧
      Due.run (.cutComplete n) t = exec (.cutComplete n) t ∧ Due.run (.cutTimeout n) t = exec (.cutTimeout n) t ∧
      Due.run (.roundVoid n) t = exec (.roundVoid n) t ∧ Due.run (.deadlockEvent n) t = exec (.deadlockEvent n) t ∧
      Due.run (.stallTrapRecord n) t = exec (.stallTrapRecord n) t ∧
      Due.run (.undervoltStep n m b) t = exec (.undervoltStep n m b) t ∧ Due.run (.restore n) t = exec (.restore n) t ∧
      Due.run (.stallWalkHop n) t = exec (.stallWalkHop n) t ∧
      Due.run (.spineChangeDone n m) t = exec (.spineChangeDone n m) t ∧
      Due.run (.tileClockSwitchDone n m) t = exec (.tileClockSwitchDone n m) t ∧
      Due.run (.cacheWayGate n) t = exec (.cacheWayGate n) t ∧ Due.run (.cacheWayEnable n) t = exec (.cacheWayEnable n) t ∧
      Due.run (.clusterWake n) t = exec (.clusterWake n) t ∧ Due.run (.shunterGate n) t = exec (.shunterGate n) t ∧
      Due.run (.shunterWake n) t = exec (.shunterWake n) t ∧ Due.run (.linkDown n) t = exec (.linkDown n) t)

/-- The state after module reset: the values that the spec's register maps give, in every die. That tick, phase and
agenda start at 0 or empty is the model's reading, log entries 1 and 35. -/
def Obligations.ResetGivesTheStatedValues : Prop :=
  State.reset.tick = 0 ∧ State.reset.synced = false ∧ State.reset.boot.phase = 0 ∧ State.reset.boot.failure = 0 ∧
  State.reset.agenda = [] ∧ (∀ p, State.reset.link p = RlPort.down ∧ rlstat (State.reset.link p) = 0) ∧
  ∀ n < 8,
    let d := State.reset.dies.get n
    (d.vways = 0 ∧ d.visBusy = false ∧ d.atbase = 0 ∧ d.sdva = 0 ∧ d.sdctl = 0) ∧
    (d.fqbase = 0 ∧ d.fqctl = 0 ∧ d.fqhead = 0 ∧ d.fqtail = 0) ∧
    (d.migEn = false ∧ d.migquota = 0 ∧ d.feretry = 0) ∧
    (d.launchQ = [] ∧ d.baddesc = false ∧ d.ovf = 0 ∧ d.lurg = 0 ∧ d.rampctl = 4096) ∧
    (d.psave = 0 ∧ d.pctlBusy = false ∧ d.pctlFail = false ∧ d.pctlOp = 0 ∧ d.prun = 0 ∧ d.cutcfg = 0x00100040) ∧
    (d.tqbase = 0 ∧ d.tqctl = 0 ∧ d.tqhead = 0 ∧ d.tqtail = 0) ∧
    (d.dbgrun = 0 ∧ d.dbgOp = 0 ∧ d.dbgBusy = false ∧ d.swctl = 15 ∧ d.swelid = 0 ∧ d.ccsel = 0) ∧
    (∀ q < 8, d.sbpa.get q = 0 ∧ d.sbpb.get q = 0) ∧ (∀ q < 4, d.dwpa.get q = 0 ∧ d.dwpc.get q = 0) ∧
    (d.trbase = 0 ∧ d.trctl = 0 ∧ d.trhead = 0 ∧ d.trtail = 0 ∧ d.trdrop = 0) ∧
    (d.sk0.ctl = 0 ∧ d.sk0.seedNew = 0 ∧ d.sk0.total = 0 ∧ d.sk1.ctl = 0 ∧ d.sk1.seedNew = 0 ∧ d.sk1.total = 0) ∧
    (∀ k, d.ptgrant.getD k 32768 = 32768 ∧ d.islgrant.getD k 64 = 64 ∧ d.tclk.getD k 0 = 0) ∧
    (∀ q < 4, d.uvctl.get q = 0x00100000 ∧ d.uvstat.get q = 0) ∧ (∀ q < 8, d.spine.get q = (1700, none)) ∧
    d.clAuto = true ∧ d.clMin = 16 ∧ d.clWays = 16 ∧ d.tbGm = false

/-- Both memories of the reset state list nothing and so are in their canonical form. That an unlisted byte reads as 0
is the model's choice, log entry 4. -/
def Obligations.ResetMemoryIsCanonical : Prop :=
  State.reset.memWf = true ∧ ∀ a, State.reset.mem.get a = 0 ∧ State.reset.spm.get a = 0

/-- Every step keeps both memories in their canonical form: keys rising, and no entry equal to what an unlisted address
reads as, so that equal memories are equal data. -/
def Obligations.StepsKeepMemoryCanonical : Prop :=
  ∀ s t : State, s.memWf = true → step s = .next t → t.memWf = true

/-- The laws of a byte memory in its canonical form: a write stores its bytes, leaves every other byte alone and keeps
the form, and memories of that form with equal bytes are equal data. -/
def Obligations.MemoryWritesAndReads : Prop :=
  ∀ (m : Mem) (a : Nat) (bs : List Byte), m.wf = true →
    (m.write a bs).wf = true ∧ (m.write a bs).read a bs.length = bs ∧
    (∀ x, x < a ∨ a + bs.length ≤ x → (m.write a bs).get x = m.get x) ∧
    (∀ k : Mem, k.wf = true → (∀ x, k.get x = m.get x) → k = m)

namespace Sys2Proof.Claims
open Sys2Proof.Machine

/-- Set lanes of a mask below lane l. -/
def below (m : Mask) (l : Nat) : Nat := (List.range l).countP (bit m)

/-- A move across lanes: lane l receives lane `src l` of A, or 0 (R210). -/
def Moves (i : Instr) (s : State) (d : Dst) (a : Src) (src : Nat → Option Nat) : Prop :=
  Eligible i s → ∃ v lvm, Fires i s ((Ctx.of s).put d v ((Ctx.of s).tag a) lvm) ∧ ∀ l < 8,
    v.get l = (match src l with | some k => (lanesIn s a).get k | none => 0) ∧
    bit lvm l = (bit (Ctx.of s).act l && match src l with | some k => bit ((Ctx.of s).lvm a) k | none => true)

/-- The participating elements of A by ascending index, read as signed or unsigned numbers (R209, R212). -/
def partEls (s : State) (a : Src) (z : ISz) (signed : Bool) : List Int :=
  ((List.range 8).filter (bit ((Ctx.of s).valid [a]))).flatMap fun l => (List.range (ISz.n z)).map fun k =>
    if signed then sx (ISz.w z) (elt z (lanesIn s a) l k) else (elt z (lanesIn s a) l k : Int)

/-- The participating elements up to element k of lane l. -/
def prefixEls (s : State) (a : Src) (z : ISz) (signed : Bool) (l k : Nat) : List Int :=
  ((List.range (l + 1)).filter (bit ((Ctx.of s).valid [a]))).flatMap fun j =>
    (List.range (if j = l then k + 1 else ISz.n z)).map fun i =>
      if signed then sx (ISz.w z) (elt z (lanesIn s a) j i) else (elt z (lanesIn s a) j i : Int)

/-- A result of a lane reduction or scan: written in two cycles with the LVM of the active lanes (R209). -/
def Reduces (i : Instr) (s : State) (d : Dst) (tag : Tag) (pu : Option Pu) (v : Oct W) : Prop :=
  Fires i s ((((Ctx.of s).put d v tag (Ctx.of s).act).withPu (Ctx.of s) pu (nonzero v)).late 2)

/-- A node of the tree of R196: a missing operand passes the other unchanged. -/
def join (r : Rd) : Option FVal × Fl → Option FVal × Fl → Option FVal × Fl
  | (some x, f), (some y, g) => (some (r.add x y).1, f ||| g ||| (r.add x y).2)
  | (some x, f), (none, g) => (some x, f ||| g)
  | (none, f), (y, g) => (y, f ||| g)

/-- The pairwise tree of R196 over the 2^n values from index i on. -/
def treeOf (r : Rd) (x : Nat → Option FVal) : Nat → Nat → Option FVal × Fl
  | 0, i => (x i, 0)
  | n + 1, i => join r (treeOf r x n i) (treeOf r x n (i + 2 ^ n))

/-- A missing sum is +0 and a NaN is the canonical one (R196, R179). -/
def sumValue : Option FVal → FVal
  | none => .zero
  | some (.nan _) => .nan false
  | some v => v

/-- Sub-element i = n × lane + element of an FP operand, where its lane takes part (R209). -/
def subVal (s : State) (z : FSz) (a : Src) (m : Mask) (i : Nat) : Option FVal :=
  if bit m (i / FSz.n z) then some ((Ctx.of s).fval z a (i / FSz.n z) (i % FSz.n z) 0) else none

/-- OR of the flags of the indices below n. -/
def flagsBelow (f : Nat → Fl) : Nat → Fl
  | 0 => 0
  | n + 1 => flagsBelow f n ||| f n
def sigOf : Option FVal → Fl
  | some x => sigFlag x
  | none => 0

/-- One FP value in every element of every active lane, its flags in C0 (R213). -/
def Spreads (i : Instr) (s : State) (z : FSz) (d : Dst) (pu : Option Pu) (lat : Nat) (x : FVal) (f : Fl) : Prop :=
  ∃ v : Oct W, (∀ l < 8, ∀ h < FSz.n z, subBits z (v.get l) h = (FSz.fmt z).bits x % 2 ^ (FSz.fmt z).width) ∧
    Fires i s (((((Ctx.of s).put d v (FSz.tag z) (Ctx.of s).act).withPu (Ctx.of s) pu (nonzeroF z v)).late lat).raise
      (flagsAt 0 f))

/-- The product of a participating pair (R213). -/
def prodAt (s : State) (z : FSz) (rm : Rm) (a b : Src) (m : Mask) (i : Nat) : Option (FVal × Fl) :=
  match subVal s z a m i, subVal s z b m i with
  | some x, some y => some (((Ctx.of s).rd z rm).mul x y)
  | _, _ => none

/-- The running sum of R196 up to and including index n − 1, and the flags it has raised. -/
def scanOf (r : Rd) (x : Nat → Option FVal) : Nat → Option FVal × Fl
  | 0 => (none, 0)
  | n + 1 =>
    match scanOf r x n, x n with
    | (some t, f), some v => (some (r.add t v).1, f ||| (r.add t v).2)
    | (none, f), some v => (some v, f ||| sigFlag v)
    | t, none => t

/-- The instruction fires and then does `post`. -/
def FiresThen (i : Instr) (s : State) (r : Res) (post : State → State) : Prop :=
  exec i s = .next (post ((Ctx.of s).commit i r))

/-- A firing that sends one token. -/
def Sends (i : Instr) (s : State) (o : Nat) (t : Tok) : Prop := Fires i s { outs := [(o, t)] }

/-- A firing that writes predicate p in the lanes of `m` with `r`. -/
def Sets (i : Instr) (s : State) (p : Fin 8) (m : Mask) (r : Nat → Bool) : Prop :=
  Eligible i s → ∃ v, Fires i s { pred := some (p, .set, m, v) } ∧ ∀ l < 8, bit v l = r l

end Sys2Proof.Claims

/-- R210 and R211: values move between lanes; LCMPR packs the selected lanes into the active ones, LEXPD spreads A's
lanes over the selected active ones. -/
def Obligations.LaneMoves : Prop :=
  ∀ (s : State) (d : Dst) (a : Src),
    (∀ k : Fin 8, Moves (.lbc d a k) s d a fun _ => some k.val) ∧
    (∀ n7 : Fin 15, Moves (.lshf d a n7) s d a fun l =>
      let t : Int := (l : Int) - ((n7.val : Int) - 7)
      if 0 ≤ t ∧ t < 8 then some t.toNat else none) ∧
    (∀ n : Fin 8, Moves (.lrot d a n) s d a fun l => some (((l : Int) - n.val) % 8).toNat) ∧
    (∀ (p : Fin 8) (pu : Option Pu),
      let act := (Ctx.of s).act
      let sel := predOf s p &&& (Ctx.of s).lvm a
      Eligible (.lcmpr d a p pu) s →
      ∃ v m, Fires (.lcmpr d a p pu) s
          ((((Ctx.of s).put d v ((Ctx.of s).tag a) m).withPu (Ctx.of s) pu m).late 2) ∧
        ∀ l < 8, bit act l = true →
          (below act l < popcount sel → bit m l = true ∧
            ∃ k < 8, bit sel k = true ∧ below sel k = below act l ∧ v.get l = (lanesIn s a).get k) ∧
          (popcount sel ≤ below act l → bit m l = false ∧ v.get l = 0)) ∧
    (∀ (p : Fin 8) (pu : Option Pu),
      let act := (Ctx.of s).act
      let j (l : Nat) : Nat := below (act &&& predOf s p) l
      Eligible (.lexpd d a p pu) s →
      ∃ v m lvm, Fires (.lexpd d a p pu) s
          ((((Ctx.of s).put d v ((Ctx.of s).tag a) lvm).withPu (Ctx.of s) pu m).late 2) ∧
        ∀ l < 8, bit act l = true →
          (bit (predOf s p) l = true → bit m l = true ∧ v.get l = (lanesIn s a).get (j l) ∧
            bit lvm l = bit ((Ctx.of s).lvm a) (j l)) ∧
          (bit (predOf s p) l = false → bit m l = false ∧ bit lvm l = false ∧ v.get l = 0))

/-- R212: integer sums, scans and extremes over the participating elements, formed exactly and narrowed once. -/
def Obligations.IntegerReductions : Prop :=
  ∀ (s : State) (d : Dst) (a : Src) (pu : Option Pu) (z : ISz),
    let w := ISz.w z
    (∀ m : SumMode, Eligible (.lsumi d a pu z m) s →
      ∃ x : W, Reduces (.lsumi d a pu z m) s d .int32 pu (Oct.rep x) ∧
        (match m with
         | .wrap => (x.toNat : Int) = (partEls s a z true).sum % 2 ^ 32
         | .uwrap => (x.toNat : Int) = (partEls s a z false).sum % 2 ^ 32
         | .sat => x.toInt = max (-(2 ^ 31)) (min (partEls s a z true).sum (2 ^ 31 - 1))
         | .usat => (x.toNat : Int) = min (partEls s a z false).sum (2 ^ 32 - 1))) ∧
    (∀ m : ScanMode, Eligible (.lscani d a pu z m) s →
      ∃ v, Reduces (.lscani d a pu z m) s d ((Ctx.of s).tag a) pu v ∧ ∀ l < 8, ∀ k < ISz.n z,
        (match m with
         | .wrap => (elt z v l k : Int) = (prefixEls s a z true l k).sum % 2 ^ w
         | .sat => SatS w (prefixEls s a z true l k).sum (elt z v l k)
         | .usat => (elt z v l k : Int) = min (prefixEls s a z false l k).sum (2 ^ w - 1))) ∧
    (∀ (most signed : Bool),
      let i : Instr := if most then .lmax d a pu (if signed then .s z else .u z)
        else .lmin d a pu (if signed then .s z else .u z)
      Eligible i s → ∃ v, Reduces i s d ((Ctx.of s).tag a) pu v ∧ ∀ l < 8, ∀ k < ISz.n z,
        ∃ y : Int, (elt z v l k : Int) = y % 2 ^ w ∧ (partEls s a z signed = [] → y = 0) ∧
          (partEls s a z signed ≠ [] → y ∈ partEls s a z signed ∧
            ∀ x ∈ partEls s a z signed, if most then x ≤ y else y ≤ x))

/-- R213 with the orders of R196: LSUM and LDOT by the pairwise tree, LSCAN from left to right, each addition and
product rounded as FADD and FMUL do; LMAX and LMIN without rounding. -/
def Obligations.FloatReductions : Prop :=
  ∀ (s : State) (d : Dst) (a b : Src) (pu : Option Pu) (z : FSz) (rm : Rm),
    let r := (Ctx.of s).rd z rm
    let one := (Ctx.of s).valid [a]
    let both := (Ctx.of s).valid [a, b]
    let depth := if FSz.n z = 1 then 3 else 4
    let size := 8 * FSz.n z
    (Eligible (.lsum d a pu z rm) s →
      let t := treeOf r (subVal s z a one) depth 0
      Spreads (.lsum d a pu z rm) s z d pu (if FSz.n z = 1 then 12 else 16) (sumValue t.1)
        (t.2 ||| flagsBelow (fun i => sigOf (subVal s z a one i)) size)) ∧
    (Eligible (.ldot d a b pu z rm) s →
      let p (i : Nat) := prodAt s z rm a b both i
      let t := treeOf r (fun i => (p i).map (·.1)) depth 0
      Spreads (.ldot d a b pu z rm) s z d pu (if FSz.n z = 1 then 16 else 20) (sumValue t.1)
        (t.2 ||| flagsBelow (fun i => match p i with | some q => q.2 | none => 0) size)) ∧
    (Eligible (.lscan d a pu z rm) s →
      ∃ v : Oct W, (∀ l < 8, ∀ h < FSz.n z, subBits z (v.get l) h =
          (FSz.fmt z).bits (sumValue (scanOf r (subVal s z a one) (FSz.n z * l + h + 1)).1) % 2 ^ (FSz.fmt z).width) ∧
        Fires (.lscan d a pu z rm) s (((((Ctx.of s).put d v (FSz.tag z) (Ctx.of s).act).withPu (Ctx.of s) pu
          (nonzeroF z v)).late (if FSz.n z = 1 then 28 else 60)).raise
            (flagsAt 0 (scanOf r (subVal s z a one) size).2))) ∧
    (∀ most : Bool,
      let i : Instr := if most then .lmax d a pu (.f z) else .lmin d a pu (.f z)
      let xs := (List.range size).filterMap (subVal s z a one)
      Eligible i s → ∃ y, Spreads i s z d pu 3 y (flagsBelow (fun i => sigOf (subVal s z a one i)) size) ∧
        (xs = [] → y = .zero) ∧ (xs.any FVal.isNan = true → y = .nan false) ∧
        (xs ≠ [] → xs.any FVal.isNan = false → y ∈ xs ∧
          ∀ x ∈ xs, (if most then ltV y x else ltV x y) = false))

/-- R166, R173: the moves and the status registers of R165. An MFS of TIMEL captures the upper half of the time. -/
def Obligations.MovesAndStatusRegisters : Prop :=
  ∀ (s : State) (d : Dst) (a : Src) (pu : Option Pu),
    let c := Ctx.of s
    let e := s.cur.elem
    (Eligible (.mov d a pu) s → Writes (.mov d a pu) s d a [a] pu 1 (lanesIn s a)) ∧
    (∀ imm : BitVec 14, Eligible (.movi d imm) s →
      ∃ x : W, x.toInt = imm.toInt ∧ Fires (.movi d imm) s (c.put d (Oct.rep x) .int32 c.act)) ∧
    (∀ (n : Fin 16) (t : Tag) (imm : BitVec 16),
      (Eligible (.movl n t imm) s → ∃ x : W, x.toNat = imm.toNat ∧
        Fires (.movl n t imm) s (c.put (.v n) (Oct.rep x) t c.act)) ∧
      (Eligible (.movh n t imm) s → ∃ v, Fires (.movh n t imm) s (c.put (.v n) v t c.act) ∧ ∀ l < 8,
        (v.get l).toNat = imm.toNat * 65536 + ((reg s n).get l).toNat % 65536)) ∧
    (∀ n : Fin 15, Eligible (.mfs d n) s → ∃ x : W,
      FiresThen (.mfs d n) s (c.put d (Oct.rep x) .int32 c.act)
        (fun t => if n.val = 5 then t.modElem e fun y => { y with timeh := some (s.now.extractLsb' 32 32) } else t) ∧
      (n = 0 → x.toNat = (s.elem e).estat.toNat) ∧
      (n = 1 → x.toNat = ((s.elem e).jord s.cur.plane).toNat) ∧
      (n = 2 → x.toNat = ((s.elem e).fflags s.cur.plane).toNat) ∧
      (n = 3 → x.extractLsb' 23 3 = BitVec.ofNat 3 (dieOf e) ∧ x.extractLsb' 19 4 = BitVec.ofNat 4 (tileOf e % 256 / 16) ∧
        x.extractLsb' 15 4 = BitVec.ofNat 4 (tileOf e % 16) ∧ x.extractLsb' 12 3 = BitVec.ofNat 3 (e % 32 / 8) ∧
        x.extractLsb' 9 3 = BitVec.ofNat 3 (e % 8) ∧ x.extractLsb' 0 9 = 0) ∧
      (n = 4 → x.extractLsb' 8 3 = BitVec.ofNat 3 (dieOf e) ∧ x.extractLsb' 0 8 = BitVec.ofNat 8 (tileOf e % 256)) ∧
      (n = 5 → x = s.now.extractLsb' 0 32) ∧
      (n = 6 → x = ((s.elem e).timeh).getD (s.now.extractLsb' 32 32)) ∧
      (n = 7 → x = (s.elem e).latec) ∧
      (n = 8 → ∀ i < 8, x.getLsbD (4 * i + 3) = decide ((((s.elem e).streams.get i).issued -
          ((s.elem e).streams.get i).perf).toNat = ((s.elem e).streams.get i).limit) ∧
        (x.extractLsb' (4 * i) 3).toNat = min 7 (((s.elem e).streams.get i).issued -
          ((s.elem e).streams.get i).perf).toNat) ∧
      (n = 9 → x = BitVec.ofNat 32 (s.elem e).round) ∧
      (n = 10 → x = (s.elem e).fires) ∧
      (∀ g < 4, n.val = 11 + g → x = ((s.elem e).g.get g).g)) ∧
    (∀ n : Fin 15, Eligible (.mts n a) s → FiresThen (.mts n a) s {} fun t =>
      match c.scalar a with
      | none => t
      | some v => if n = 0 then t.modElem e fun y => { y with estat := v.extractLsb' 0 8 }
        else if n = 1 then t.modElem e fun y => y.setJord s.cur.plane (v.extractLsb' 0 2)
        else if n = 2 then t.modElem e fun y => y.setFflags s.cur.plane (v.extractLsb' 0 20)
        else if n = 7 then t.modElem e fun y => { y with latec := v }
        else t.modElem e fun y => y)

/-- R171, R154: the tokens that the channel instructions send, with their kinds, tags, lane-valid masks and data. The
tag of a CFG token is the model's reading, log entry 11. -/
def Obligations.ChannelInstructions : Prop :=
  ∀ (s : State) (a : Src),
    let c := Ctx.of s
    let act := c.act
    let kept (m : Mask) (x v : Oct W) : Prop := ∀ l < 8, v.get l = if bit m l then x.get l else 0
    (Eligible .nop s → Fires .nop s {}) ∧
    (∀ (o : Fin 6) (pu : Option Pu), Eligible (.send (some o) a pu) s →
      ∃ v m, kept act (lanesIn s a) v ∧ (∀ l < 8, bit m l = ((lanesIn s a).get l != 0)) ∧
        Fires (.send (some o) a pu) s (Res.withPu { outs := [(o.val,
          ⟨.data, c.tag a, act, v, 0, c.el.tokRound⟩)] } c pu m)) ∧
    (∀ pu : Option Pu, Eligible (.send none a pu) s → ∃ m, (∀ l < 8, bit m l = ((lanesIn s a).get l != 0)) ∧
      Fires (.send none a pu) s (Res.withPu {} c pu m)) ∧
    (∀ (o : Fin 6) (t : Tag), Eligible (.sendt o a (.tag t)) s → ∃ v, kept act (lanesIn s a) v ∧
      Sends (.sendt o a (.tag t)) s o ⟨.data, t, c.valid [a], v, 0, c.el.tokRound⟩) ∧
    (∀ (o : Fin 6) (k : Fin 4), Eligible (.sendt o a (.cfg k)) s → ∃ v t, kept act (lanesIn s a) v ∧ E.tag t = k.val ∧
      Sends (.sendt o a (.cfg k)) s o ⟨.cfg, t, c.valid [a], v, BitVec.ofNat 16 k.val, c.el.tokRound⟩) ∧
    (∀ (o : Fin 6) (imm : BitVec 14), Eligible (.sende o a imm) s → ∃ v : Oct W,
      (v.get 0).toNat = (((c.scalar a).getD 0).toNat + imm.toNat) % 2 ^ 32 ∧ (∀ l, 1 ≤ l → l < 8 → v.get l = 0) ∧
      Sends (.sende o a imm) s o ⟨.eos, .int32, 1, v, 0, c.el.tokRound⟩) ∧
    (∀ o : Fin 6, Eligible (.sendh o a) s → ∃ v, kept act (lanesIn s a) v ∧
      Sends (.sendh o a) s o ⟨.hdr, .raw, c.valid [a], v, 0, c.el.tokRound⟩) ∧
    (∀ (o j : Fin 6) (t : Tok), c.head j = some t → Eligible (.pass (some o) j) s →
      Sends (.pass (some o) j) s o ⟨t.kind, t.tag, if t.kind = .eos then t.lvm else t.lvm &&& act, t.data, 0, c.el.tokRound⟩) ∧
    (∀ j : Fin 6, Eligible (.pass none j) s → Fires (.pass none j) s {}) ∧
    (∀ (o : Fin 3) (p : Fin 8), Eligible (.steer o a p) s → ∃ yes no : List (Nat × Tok),
      Fires (.steer o a p) s { outs := yes ++ no } ∧
      (∀ sel : Bool,
        let side := if sel then predOf s p else ~~~(predOf s p)
        let lvm := c.valid [a] &&& side
        let out := if sel then 2 * o.val else 2 * o.val + 1
        (lvm = 0 → (if sel then yes else no) = []) ∧
        (lvm ≠ 0 → ∃ v, (if sel then yes else no) = [(out, ⟨.data, c.tag a, lvm, v, 0, c.el.tokRound⟩)] ∧
          kept (act &&& side) (lanesIn s a) v)))

/-- R171, R172: the predicate instructions in their lanes, and ENDE, which ends the working plane's part or the urgent
work. -/
def Obligations.PredicateInstructionsAndEnde : Prop :=
  ∀ (s : State) (p pa pb : Fin 8) (a : Src) (mask : BitVec 8),
    let c := Ctx.of s
    let tagBit : Tag → Nat
      | .fp32 => 0 | .fp16 => 1 | .bf16 => 2 | .e4m3 => 3 | .e5m2 => 4 | .int32 => 5 | .int8 => 6 | .raw => 7
    (Sets (.tagq p a mask) s p c.act fun _ => mask.getLsbD (tagBit (c.tag a))) ∧
    (Sets (.pset p mask) s p c.act fun l => mask.getLsbD l) ∧
    (∀ fn : BitVec 4, Sets (.plog p pa pb fn mask) s p (c.act &&& mask) fun l =>
      fn.getLsbD ((if bit (predOf s pa) l then 2 else 0) + if bit (predOf s pb) l then 1 else 0)) ∧
    (∀ (d : Dst) (pu : Option Pu), Eligible (.pget d pa pu) s → ∃ v,
      (∀ l < 8, v.get l = if bit (predOf s pa) l then 1 else 0) ∧
      Fires (.pget d pa pu) s ((c.put d v .int32 c.act).withPu c pu (predOf s pa))) ∧
    (Sets (.pput p a) s p c.act fun l => (lanesIn s a).get l != 0) ∧
    (∀ n : Fin 9, Sets (.pcnt p pa n mask) s p c.act fun _ =>
      decide (n.val ≤ (List.range 8).countP fun l => bit (predOf s pa) l && mask.getLsbD l)) ∧
    (Eligible .ende s → FiresThen .ende s {} fun t => t.modElem s.cur.elem fun x =>
      match s.cur.plane with
      | .work => { x with ended := true }
      | .s => { x with inS := false })

namespace Sys2Proof.Claims
open Sys2Proof.Machine

/-! ## Floating point -/

/-- The latency of R245 by the order of the firing. -/
def latBy (s : State) (ls : List Nat) : Nat := ls.getD (Ctx.of s).k 0

/-- A firing with a jet result in the format of SZ (R215 to R218): coefficient j of element h of lane l is f l h j, its
value packed into register or token j and its flags raised in coefficient j. -/
def JetOf (i : Instr) (s : State) (z : FSz) (d : Dst) (xs : List Src) (pu : Option Pu) (lat : Nat)
    (f : Nat → Nat → Nat → FVal × Fl) : Prop :=
  ∃ (v : Nat → Oct W) (fl : BitVec 20),
    Fires i s (((((Ctx.of s).putGroup d (fun j => (v j, FSz.tag z)) ((Ctx.of s).valid xs)).withPu (Ctx.of s) pu
      (nonzeroF z (v 0))).late lat).raise fl) ∧
    (∀ j ≤ (Ctx.of s).k, ∀ l < 8, bit (Ctx.of s).act l = true → ∀ h < FSz.n z,
      subBits z ((v j).get l) h = (FSz.fmt z).bits (f l h j).1 % 2 ^ (FSz.fmt z).width) ∧
    (∀ j < 4, ∀ b < 5, fl.getLsbD (5 * j + b) = true ↔ j ≤ (Ctx.of s).k ∧
      ∃ l < 8, bit (Ctx.of s).act l = true ∧ ∃ h < FSz.n z, (f l h j).2.getLsbD b = true)

/-- Coefficients of an operand in element h of lane l, as read (R218). -/
abbrev cof (s : State) (z : FSz) (a : Src) (l h j : Nat) : FVal := (Ctx.of s).fval z a l h j
/-- Element h of lane l of a single operand, as stored. -/
abbrev stored (s : State) (z : FSz) (a : Src) (l h : Nat) : Nat := subBits z ((lanesIn s a).get l) h

/-- An instruction whose coefficients stand in a relation to those of A, B and the old D, in every active lane. -/
def Jet3 (i : Instr) (s : State) (z : FSz) (d : Dst) (xs : List Src) (pu : Option Pu) (lat : Nat)
    (rel : Nat → Nat → (Nat → FVal × Fl) → Prop) : Prop :=
  Eligible i s → ∃ f, JetOf i s z d xs pu lat f ∧
    ∀ l < 8, bit (Ctx.of s).act l = true → ∀ h < FSz.n z, rel l h (f l h)

/-- ser of R220 from a start value, over the products of x and y with indices below n. -/
def serFrom (r : Rd) (start : FVal) (x y : Nat → FVal) : Nat → FVal × Fl
  | 0 => (start, 0)
  | n + 1 => withFl (r.fma (serFrom r start x y n).1 (x n) (y n)) (serFrom r start x y n).2
/-- ser of R220 without one: the first product rounded, n more fused. -/
def serProd (r : Rd) (x y : Nat → FVal) : Nat → FVal × Fl
  | 0 => r.mul (x 0) (y 0)
  | n + 1 => withFl (r.fma (serProd r x y n).1 (x (n + 1)) (y (n + 1))) (serProd r x y n).2

/-- R221: the pole rule and the undefined-value rule, over the coefficients up to k; otherwise `rest` holds. -/
def Ruled (k : Nat) (pole : Bool) (f : Nat → FVal × Fl) (rest : Nat → Prop) : Prop :=
  ∀ j, 1 ≤ j → j ≤ k →
    (pole = true → f j = (.nan false, fNV)) ∧
    (pole = false → (f 0).1.isNan = true → f j = (.nan false, 0)) ∧
    (pole = false → (f 0).1.isNan = false → rest j)

/-- A copied value: a NaN becomes canonical, with NV when it was signalling (R226). -/
def Copied (x : FVal) (y : FVal × Fl) : Prop :=
  (∀ sig, x = .nan sig → y = (.nan false, flagIf sig fNV)) ∧ (x.isNan = false → y = (x, 0))

/-- The order of R226 with −0 = +0, as the compares use it (R235). -/
def fpLess (x y : FVal) : Bool := !x.isNan && !y.isNan && ltV x y && !(x.isZero && y.isZero)
def fpEqual (x y : FVal) : Bool := !x.isNan && !y.isNan && !fpLess x y && !fpLess y x

/-- A firing that writes one register or token with `v`, raising `f` in C0. -/
def Single (i : Instr) (s : State) (d : Dst) (xs : List Src) (pu : Option Pu) (tag : Tag) (lat : Nat) (v : Oct W)
    (m : Mask) (f : Fl) : Prop :=
  Fires i s (((((Ctx.of s).put d v tag ((Ctx.of s).valid xs)).withPu (Ctx.of s) pu m).late lat).raise (flagsAt 0 f))

/-- Flag b is the OR over the elements of the active lanes. -/
def OrsTo (s : State) (z : FSz) (g : Nat → Nat → Fl) (f : Fl) : Prop :=
  ∀ b < 5, f.getLsbD b = true ↔ ∃ l < 8, bit (Ctx.of s).act l = true ∧ ∃ h < FSz.n z, (g l h).getLsbD b = true

/-- n × 2^i stands for the square root of m × 2^e: it is the root, or n is odd and the root lies between its neighbours, with
80 bits or more. Rounded to a format of 24 bits or fewer it gives what the root gives, in every mode. -/
def RootOf (m : Nat) (e : Int) (n : Nat) (i : Int) : Prop :=
  let x := m * 2 ^ (e - 2 * i).toNat
  2 * i ≤ e ∧ 2 ^ 80 ≤ n ∧ (n * n = x ∨ (n % 2 = 1 ∧ (n - 1) * (n - 1) < x ∧ x < (n + 1) * (n + 1)))

/-- The same for 1 over the square root of m × 2^e. -/
def InverseRootOf (m : Nat) (e : Int) (n : Nat) (i : Int) : Prop :=
  let x := 2 ^ (-(e + 2 * i)).toNat
  e + 2 * i ≤ 0 ∧ 2 ^ 80 ≤ n ∧ (n * n * m = x ∨ (n % 2 = 1 ∧ (n - 1) * (n - 1) * m < x ∧ x < (n + 1) * (n + 1) * m))

/-- The bit of FCLASS (R236) of a pattern as stored. -/
def classBit (f : Fmt) (n : Nat) : Nat :=
  let neg := n.testBit (f.width - 1)
  match f.read false n with
  | .nan true => 8
  | .nan false => 9
  | .inf _ => if neg then 0 else 7
  | .fin _ m _ =>
    if m = 0 then (if neg then 3 else 4)
    else if m < 2 ^ (f.p - 1) then (if neg then 2 else 5)
    else (if neg then 1 else 6)

end Sys2Proof.Claims

/-- R182: rounding to a multiple of 2^q. Mode 0 gives a nearest multiple, and an even one on a tie; mode 1 cuts toward
zero; modes 2 and 3 round down and up. Nothing is lost exactly when the value is a multiple. -/
def Obligations.RoundingDirections : Prop :=
  ∀ (rm : Rm) (neg : Bool) (m : Nat) (e q : Int),
    let r := roundAt rm neg m e q
    (q ≤ e → r = (m * 2 ^ (e - q).toNat, false)) ∧
    (e < q →
      let d := 2 ^ (q - e).toNat
      (r.2 = false ↔ m % d = 0) ∧ (r.2 = false → r.1 * d = m) ∧
      (match rm with
       | .rn => 2 * (r.1 * d) ≤ 2 * m + d ∧ 2 * m ≤ 2 * (r.1 * d) + d ∧
           (2 * (r.1 * d) = 2 * m + d ∨ 2 * m = 2 * (r.1 * d) + d → r.1 % 2 = 0)
       | .rz => r.1 * d ≤ m ∧ m < (r.1 + 1) * d
       | .rd => if neg then m ≤ r.1 * d ∧ r.1 * d < m + d else r.1 * d ≤ m ∧ m < (r.1 + 1) * d
       | .ru => if neg then r.1 * d ≤ m ∧ m < (r.1 + 1) * d else m ≤ r.1 * d ∧ r.1 * d < m + d))

/-- R178, R179, R182: in each of the five formats a pattern that is no NaN reads as a value that is written back as that
pattern and that rounds to itself in every mode without a flag; a NaN is written back as the canonical NaN. -/
def Obligations.FormatPatterns : Prop :=
  ∀ f ∈ [F32, F16, FBF, FE4, FE5], ∀ n < 2 ^ f.width,
    ((f.read false n).isNan = true → f.bits (f.read false n) = f.nan) ∧
    ((f.read false n).isNan = false → f.bits (f.read false n) = n ∧
      ∀ rm, (f.bits (f.round rm false (f.read false n)).1, (f.round rm false (f.read false n)).2) = (n, 0))

/-- R220, R221, R223 to R225: sums, products, fused forms, quotients and roots, coefficient by coefficient, with one
rounding per term and the latencies of R245; a root of a positive number is rounded once from a number that rounds as the
root does. Each of them completes wherever its slot may fire. -/
def Obligations.FloatArithmetic : Prop :=
  ∀ (s : State) (d : Dst) (g : Fin 16) (a b : Src) (pu : Option Pu) (z : FSz) (rm : Rm),
    let r := (Ctx.of s).rd z rm
    let k := (Ctx.of s).k
    let A := cof s z a
    let B := cof s z b
    let D := cof s z (.v g)
    AllComplete [.fadd d a b pu z rm, .fsub d a b pu z rm, .fmul d a b pu z rm, .fma g a b pu z rm, .fms g a b pu z rm,
      .fnma g a b pu z rm, .fdiv d a b pu z rm, .frcp d a pu z rm, .fsqrt d a pu z rm, .frsq d a pu z rm] s ∧
    Jet3 (.fadd d a b pu z rm) s z d [a, b] pu 4 (fun l h f => ∀ j ≤ k, f j = r.add (A l h j) (B l h j)) ∧
    Jet3 (.fsub d a b pu z rm) s z d [a, b] pu 4 (fun l h f => ∀ j ≤ k, f j = r.add (A l h j) (B l h j).neg) ∧
    Jet3 (.fmul d a b pu z rm) s z d [a, b] pu (latBy s [4, 6, 8, 10]) (fun l h f => ∀ j ≤ k,
      f j = serProd r (A l h) (fun n => B l h (j - n)) j) ∧
    Jet3 (.fma g a b pu z rm) s z (.v g) [a, b] pu (latBy s [4, 6, 8, 10]) (fun l h f => ∀ j ≤ k,
      f j = serFrom r (D l h j) (A l h) (fun n => B l h (j - n)) (j + 1)) ∧
    Jet3 (.fms g a b pu z rm) s z (.v g) [a, b] pu (latBy s [4, 6, 8, 10]) (fun l h f => ∀ j ≤ k,
      f j = serFrom r (D l h j).neg (A l h) (fun n => B l h (j - n)) (j + 1)) ∧
    Jet3 (.fnma g a b pu z rm) s z (.v g) [a, b] pu (latBy s [4, 6, 8, 10]) (fun l h f => ∀ j ≤ k,
      f j = serFrom r (D l h j) (fun n => (A l h n).neg) (fun n => B l h (j - n)) (j + 1)) ∧
    Jet3 (.fdiv d a b pu z rm) s z d [a, b] pu (latBy s [12, 20, 28, 36]) (fun l h f =>
      f 0 = r.div (A l h 0) (B l h 0) ∧ Ruled k (B l h 0).isZero f fun j =>
        let t := serFrom r (A l h j) (fun n => (B l h (n + 1)).neg) (fun n => (f (j - (n + 1))).1) j
        f j = withFl (r.div t.1 (B l h 0)) t.2) ∧
    Jet3 (.frcp d a pu z rm) s z d [a] pu (latBy s [10, 18, 26, 34]) (fun l h f =>
      f 0 = r.div .one (A l h 0) ∧ Ruled k (A l h 0).isZero f fun j =>
        let t := serFrom r .zero (fun n => (A l h (n + 1)).neg) (fun n => (f (j - (n + 1))).1) j
        f j = withFl (r.div t.1 (A l h 0)) t.2) ∧
    Jet3 (.fsqrt d a pu z rm) s z d [a] pu (latBy s [12, 20, 28, 36]) (fun l h f =>
      (∀ sig, A l h 0 = .nan sig → f 0 = (.nan false, flagIf sig fNV)) ∧
      (A l h 0 = .inf false → f 0 = (.inf false, 0)) ∧ (∀ n e, A l h 0 = .fin n 0 e → f 0 = (.fin n 0 0, 0)) ∧
      ((A l h 0).negative = true → (A l h 0).isZero = false → f 0 = (.nan false, fNV)) ∧
      (∀ m e, A l h 0 = .fin false m e → 0 < m → ∃ n i, f 0 = r.rnd (.fin false n i) ∧ RootOf m e n i) ∧
      Ruled k (f 0).1.isZero f fun j =>
        let t := serFrom r (A l h j) (fun n => (f (n + 1)).1.neg) (fun n => (f (j - (n + 1))).1) (j - 1)
        f j = withFl (r.div t.1 (mulX (.ofInt 2) (f 0).1).1) t.2) ∧
    Jet3 (.frsq d a pu z rm) s z d [a] pu (latBy s [10, 20, 30, 40]) (fun l h f =>
      (∀ sig, A l h 0 = .nan sig → f 0 = (.nan false, flagIf sig fNV)) ∧
      (A l h 0 = .inf false → f 0 = (.zero, 0)) ∧ (∀ n e, A l h 0 = .fin n 0 e → f 0 = (.inf n, fDZ)) ∧
      ((A l h 0).negative = true → (A l h 0).isZero = false → f 0 = (.nan false, fNV)) ∧
      (∀ m e, A l h 0 = .fin false m e → 0 < m → ∃ n i, f 0 = r.rnd (.fin false n i) ∧ InverseRootOf m e n i) ∧
      Ruled k (A l h 0).isZero f fun j =>
        let u (i : Nat) := r.mul (.fin true (2 * j - (i + 1)) (-1)) (A l h (i + 1))
        let t := serProd r (fun i => (u i).1) (fun i => (f (j - (i + 1))).1) (j - 1)
        f j = withFl (r.div t.1 (mulX (.ofInt j) (A l h 0)).1) (t.2 ||| flagsBelow (fun i => (u i).2) j))

/-- R226, R227: the instructions that copy values, and FSCALE. Each of them completes wherever its slot may fire. -/
def Obligations.FloatCopiesAndScale : Prop :=
  ∀ (s : State) (d : Dst) (a b : Src) (pu : Option Pu) (z : FSz) (rm : Rm),
    let r := (Ctx.of s).rd z rm
    let k := (Ctx.of s).k
    let A := cof s z a
    let B := cof s z b
    let sgn (l h j : Nat) : Bool := ((Ctx.of s).raw z a l h j).testBit ((FSz.fmt z).width - 1)
    let bSgn (l h : Nat) : Bool := (stored s z b l h).testBit ((FSz.fmt z).width - 1)
    let zeros (l h : Nat) : Prop := ∀ j ≤ k, (A l h j).isZero = true
    let leads (l h p : Nat) : Prop := p ≤ k ∧ (A l h p).isZero = false ∧ ∀ j < p, (A l h j).isZero = true
    let flip (c : Bool) (x : FVal) : FVal := if c then x.neg else x
    AllComplete [.fneg d a pu z, .fabs d a pu z, .fcpys d a b pu z, .fmin d a b pu z, .fmax d a b pu z,
      .fscale d a b pu z rm] s ∧
    Jet3 (.fneg d a pu z) s z d [a] pu 1 (fun l h f => ∀ j ≤ k, Copied (A l h j).neg (f j)) ∧
    Jet3 (.fabs d a pu z) s z d [a] pu 1 (fun l h f =>
      (zeros l h → ∀ j ≤ k, f j = (.zero, 0)) ∧
      (∀ p, leads l h p → ∀ j ≤ k, Copied (flip (sgn l h p) (A l h j)) (f j))) ∧
    Jet3 (.fcpys d a b pu z) s z d [a, b] pu 1 (fun l h f =>
      (zeros l h → ∀ j ≤ k, f j = (flip (bSgn l h) .zero, 0)) ∧
      (∀ p, leads l h p → ∀ j ≤ k, Copied (flip (bSgn l h) (flip (sgn l h p) (A l h j))) (f j))) ∧
    (∀ least : Bool,
      let i : Instr := if least then .fmin d a b pu z else .fmax d a b pu z
      let tie (l h j : Nat) : Prop := ltV (A l h j) (B l h j) = false ∧ ltV (B l h j) (A l h j) = false
      let bFirst (l h : Nat) : Prop := ∃ p ≤ k, (∀ j < p, tie l h j) ∧
        (if least then ltV (B l h p) (A l h p) else ltV (A l h p) (B l h p)) = true
      let nan (l h : Nat) : Prop := ∃ j ≤ k, (A l h j).isNan = true ∨ (B l h j).isNan = true
      Jet3 i s z d [a, b] pu 2 (fun l h f =>
        (nan l h → ∀ j ≤ k, f j = (.nan false, sigFlag (A l h j) ||| sigFlag (B l h j))) ∧
        (¬nan l h → bFirst l h → ∀ j ≤ k, f j = (B l h j, 0)) ∧
        (¬nan l h → ¬bFirst l h → ∀ j ≤ k, f j = (A l h j, 0)))) ∧
    Jet3 (.fscale d a b pu z rm) s z d [a, b] pu 2 (fun l h f => ∀ j ≤ k,
      f j = r.mul (.fin false 1 (sx (FSz.fmt z).width (stored s z b l h))) (A l h j))

/-- R221, R228, R245: the special functions complete with their latencies by order, c(0) has the special values of the
table, and the pole and undefined-value rules decide the higher coefficients. The recurrences themselves are those of
`Series.lean` (R229 to R233). -/
def Obligations.SpecialFunctions : Prop :=
  ∀ (s : State) (d : Dst) (g : Fin 16) (a b : Src) (pu : Option Pu) (z : FSz) (rm : Rm),
    let k := (Ctx.of s).k
    let A := cof s z a
    let at0 (f : Nat → FVal × Fl) (x : FVal) (y : FVal × Fl) (l h : Nat) : Prop := A l h 0 = x → f 0 = y
    let nanIn (f : Nat → FVal × Fl) (l h : Nat) : Prop := ∀ sig, A l h 0 = .nan sig → f 0 = (.nan false, flagIf sig fNV)
    let zeroTo (f : Nat → FVal × Fl) (l h : Nat) (y : Bool → FVal × Fl) : Prop := ∀ n e, A l h 0 = .fin n 0 e → f 0 = y n
    let bad : FVal × Fl := (.nan false, fNV)
    let below0 (f : Nat → FVal × Fl) (l h : Nat) : Prop :=
      (A l h 0).negative = true → (A l h 0).isZero = false → f 0 = bad
    let exps := latBy s [16, 24, 32, 40]
    let logs := latBy s [16, 26, 36, 46]
    let trigs := latBy s [18, 26, 34, 42]
    let algs := latBy s [20, 30, 40, 50]
    let undef (f : Nat → FVal × Fl) : Prop := Ruled k false f fun _ => True
    AllComplete [.fexp d a pu z rm, .fexp2 d a pu z rm, .fexpm1 d a pu z rm, .flog d a pu z rm, .flog2 d a pu z rm,
      .flog1p d a pu z rm, .fsin d a pu z rm, .fcos d a pu z rm, .fsincos g a pu z rm, .ftanh d a pu z rm,
      .fsigm d a pu z rm, .ferf d a pu z rm, .fpowi d a b pu z rm] s ∧
    Jet3 (.fexp d a pu z rm) s z d [a] pu exps (fun l h f => nanIn f l h ∧ at0 f (.inf true) (.zero, 0) l h ∧
      at0 f (.inf false) (.inf false, 0) l h ∧ zeroTo f l h (fun _ => (.one, 0)) ∧ undef f) ∧
    Jet3 (.fexp2 d a pu z rm) s z d [a] pu exps (fun l h f => nanIn f l h ∧ at0 f (.inf true) (.zero, 0) l h ∧
      at0 f (.inf false) (.inf false, 0) l h ∧ zeroTo f l h (fun _ => (.one, 0)) ∧ undef f) ∧
    Jet3 (.fexpm1 d a pu z rm) s z d [a] pu exps (fun l h f => nanIn f l h ∧ at0 f (.inf true) (.fin true 1 0, 0) l h ∧
      at0 f (.inf false) (.inf false, 0) l h ∧ zeroTo f l h (fun n => (.fin n 0 0, 0)) ∧ undef f) ∧
    Jet3 (.flog d a pu z rm) s z d [a] pu logs (fun l h f => nanIn f l h ∧ below0 f l h ∧
      at0 f (.inf false) (.inf false, 0) l h ∧ zeroTo f l h (fun _ => (.inf true, fDZ)) ∧
      (∀ m e, A l h 0 = .fin false m e → isOne m e = true → f 0 = (.zero, 0)) ∧
      Ruled k (A l h 0).isZero f fun _ => True) ∧
    Jet3 (.flog2 d a pu z rm) s z d [a] pu logs (fun l h f => nanIn f l h ∧ below0 f l h ∧
      at0 f (.inf false) (.inf false, 0) l h ∧ zeroTo f l h (fun _ => (.inf true, fDZ)) ∧
      (∀ m e, A l h 0 = .fin false m e → isOne m e = true → f 0 = (.zero, 0)) ∧
      Ruled k (A l h 0).isZero f fun _ => True) ∧
    Jet3 (.flog1p d a pu z rm) s z d [a] pu logs (fun l h f => nanIn f l h ∧ at0 f (.inf true) bad l h ∧
      (∀ m e, A l h 0 = .fin true m e → isOne m e = true → f 0 = (.inf true, fDZ)) ∧ at0 f (.inf false) (.inf false, 0) l h ∧
      zeroTo f l h (fun n => (.fin n 0 0, 0))) ∧
    Jet3 (.fsin d a pu z rm) s z d [a] pu trigs (fun l h f => nanIn f l h ∧ (∀ n, at0 f (.inf n) bad l h) ∧
      zeroTo f l h (fun n => (.fin n 0 0, 0)) ∧ undef f) ∧
    Jet3 (.fcos d a pu z rm) s z d [a] pu trigs (fun l h f => nanIn f l h ∧ (∀ n, at0 f (.inf n) bad l h) ∧
      zeroTo f l h (fun _ => (.one, 0)) ∧ undef f) ∧
    (Eligible (.fsincos g a pu z rm) s → ∃ (r : Res) (v w : Nat → Oct W) (fs fc : Nat → Nat → Nat → FVal × Fl),
      Fires (.fsincos g a pu z rm) s r ∧ r.lat = trigs ∧ r.raiser = true ∧ r.outs = [] ∧
      r.regs = (List.range (2 * (Ctx.of s).g)).map (fun j => (g.val + j, (Ctx.of s).act,
        if j < (Ctx.of s).g then v j else w (j - (Ctx.of s).g), FSz.tag z)) ∧
      ∀ l < 8, bit (Ctx.of s).act l = true → ∀ h < FSz.n z,
        (∀ j ≤ k, subBits z ((v j).get l) h = (FSz.fmt z).bits (fs l h j).1 % 2 ^ (FSz.fmt z).width ∧
          subBits z ((w j).get l) h = (FSz.fmt z).bits (fc l h j).1 % 2 ^ (FSz.fmt z).width) ∧
        nanIn (fs l h) l h ∧ nanIn (fc l h) l h ∧ (∀ n, at0 (fs l h) (.inf n) bad l h ∧ at0 (fc l h) (.inf n) bad l h) ∧
        zeroTo (fs l h) l h (fun n => (.fin n 0 0, 0)) ∧ zeroTo (fc l h) l h (fun _ => (.one, 0))) ∧
    Jet3 (.ftanh d a pu z rm) s z d [a] pu algs (fun l h f => nanIn f l h ∧ (∀ n, at0 f (.inf n) (.fin n 1 0, 0) l h) ∧
      zeroTo f l h (fun n => (.fin n 0 0, 0)) ∧ undef f) ∧
    Jet3 (.fsigm d a pu z rm) s z d [a] pu algs (fun l h f => nanIn f l h ∧ at0 f (.inf true) (.zero, 0) l h ∧
      at0 f (.inf false) (.one, 0) l h ∧ zeroTo f l h (fun _ => (.fin false 1 (-1), 0)) ∧ undef f) ∧
    Jet3 (.ferf d a pu z rm) s z d [a] pu (latBy s [20, 32, 44, 56]) (fun l h f => nanIn f l h ∧
      (∀ n, at0 f (.inf n) (.fin n 1 0, 0) l h) ∧ zeroTo f l h (fun n => (.fin n 0 0, 0)) ∧ undef f) ∧
    Jet3 (.fpowi d a b pu z rm) s z d [a, b] pu algs (fun l h f =>
      let n := sx (FSz.fmt z).width (stored s z b l h)
      let neg (m : Bool) : Bool := m && decide (n % 2 ≠ 0)
      (n = 0 → f 0 = (.one, sigFlag (A l h 0)) ∧ ∀ j, 1 ≤ j → j ≤ k → f j = (.zero, 0)) ∧
      (n ≠ 0 → nanIn f l h) ∧
      (n < 0 → zeroTo f l h (fun m => (.inf (neg m), fDZ)) ∧ (∀ m, at0 f (.inf m) (.fin (neg m) 0 0, 0) l h)) ∧
      (0 < n → zeroTo f l h (fun m => (.fin (neg m) 0 0, 0)) ∧ (∀ m, at0 f (.inf m) (.inf (neg m), 0) l h)) ∧
      (n < 0 → Ruled k (A l h 0).isZero f fun _ => True))

/-- R185, R187, R235 to R238, R245: compares, classes, rounding to integral values and the conversions, on c(0) and with
their flags. -/
def Obligations.FloatComparesAndConversions : Prop :=
  ∀ (s : State) (d : Dst) (a b : Src) (pu : Option Pu) (z : FSz) (rm : Rm),
    let c := Ctx.of s
    let f := FSz.fmt z
    let A (l h : Nat) := cof s z a l h 0
    let B (l h : Nat) := cof s z b l h 0
    let active (l : Nat) : Prop := bit c.act l = true
    let compares (i : Instr) (rel : FVal → FVal → Bool) (flag : FVal → FVal → Bool) : Prop := Eligible i s →
      ∃ v fl, Single i s d [a, b] pu .int32 2 v (nonzero v) fl ∧
        (∀ l < 8, active l → ∀ h < FSz.n z, subBits z (v.get l) h = if rel (A l h) (B l h) then 2 ^ f.width - 1 else 0) ∧
        OrsTo s z (fun l h => flagIf (flag (A l h) (B l h)) fNV) fl
    let anyNan (x y : FVal) : Bool := x.isNan || y.isNan
    let anySig (x y : FVal) : Bool := x.sig || y.sig
    AllComplete [.fcmpeq d a b pu z, .fcmplt d a b pu z, .fcmple d a b pu z, .fcmpun d a b pu z, .fclass d a pu z,
      .frnd d a pu z rm, .cvtfi d a pu z rm, .cvtif d a pu z rm] s ∧
    (∀ (bf : Bool) (n : Fin 4), AllComplete [.pack d a b pu bf rm, .unpk d a pu n] s) ∧
    compares (.fcmpeq d a b pu z) fpEqual anySig ∧ compares (.fcmplt d a b pu z) fpLess anyNan ∧
    compares (.fcmple d a b pu z) (fun x y => fpLess x y || fpEqual x y) anyNan ∧
    compares (.fcmpun d a b pu z) anyNan anySig ∧
    (Eligible (.fclass d a pu z) s → ∃ v, (∀ l < 8, active l → ∀ h < FSz.n z,
        subBits z (v.get l) h = 2 ^ classBit f ((Ctx.of s).raw z a l h 0)) ∧
      Fires (.fclass d a pu z) s ((((c.putGroup d (fun j => (if j = 0 then v else Oct.rep 0, .int32)) (c.valid [a])).withPu c pu
        (nonzero v)).late 2).raise 0)) ∧
    Jet3 (.frnd d a pu z rm) s z d [a] pu 3 (fun l h y =>
      (∀ j, 1 ≤ j → j ≤ c.k → y j = (.zero, 0)) ∧
      (∀ sig, A l h = .nan sig → y 0 = (.nan false, flagIf sig fNV)) ∧ (∀ n, A l h = .inf n → y 0 = (.inf n, 0)) ∧
      (∀ n m e, A l h = .fin n m e → 0 ≤ e → y 0 = (.fin n m e, 0)) ∧
      (∀ n m e, A l h = .fin n m e → e < 0 → y 0 = (.fin n (toIntegral rm n m e).1.natAbs 0, 0))) ∧
    (Eligible (.cvtfi d a pu z rm) s → ∃ v fl, OrsTo s z (fun l h => (toInt f.width rm (A l h)).2) fl ∧
      (∀ l < 8, active l → ∀ h < FSz.n z, sx f.width (subBits z (v.get l) h) = (toInt f.width rm (A l h)).1) ∧
      Fires (.cvtfi d a pu z rm) s ((((c.putGroup d (fun j => (if j = 0 then v else Oct.rep 0, .int32)) (c.valid [a])).withPu c pu
        (nonzero v)).late 3).raise (flagsAt 0 fl))) ∧
    Jet3 (.cvtif d a pu z rm) s z d [a] pu 3 (fun l h y =>
      y 0 = (c.rd z rm).rnd (.ofInt (sx f.width (stored s z a l h))) ∧ ∀ j, 1 ≤ j → j ≤ c.k → y j = (.zero, 0)) ∧
    (∀ bf : Bool,
      let t : FSz := if bf then .bf16 else .f16
      let y (l h : Nat) := convert (FSz.fmt t) rm c.ftz false
        (F32.read c.ftz ((lanesIn s (if h = 0 then a else b)).get l).toNat)
      Eligible (.pack d a b pu bf rm) s → ∃ v fl, Single (.pack d a b pu bf rm) s d [a, b] pu (FSz.tag t) 3 v (nonzeroF t v) fl ∧
        (∀ l < 8, active l → ∀ h < 2, subBits t (v.get l) h = (FSz.fmt t).bits (y l h).1 % 2 ^ 16) ∧
        OrsTo s t (fun l h => (y l h).2) fl) ∧
    (∀ n : Fin 4,
      let w (l : Nat) := ((lanesIn s a).get l).toNat
      let y (l : Nat) := convert F32 .rn c.ftz false (match c.tag a with
        | .fp16 => F16.read c.ftz (w l / 2 ^ (16 * (n.val % 2)) % 2 ^ 16)
        | .bf16 => FBF.read c.ftz (w l / 2 ^ (16 * (n.val % 2)) % 2 ^ 16)
        | .e4m3 => FE4.read c.ftz (w l / 2 ^ (8 * n.val) % 2 ^ 8)
        | .e5m2 => FE5.read c.ftz (w l / 2 ^ (8 * n.val) % 2 ^ 8)
        | _ => F32.read c.ftz (w l))
      Eligible (.unpk d a pu n) s → ∃ v fl, Single (.unpk d a pu n) s d [a] pu .fp32 3 v (nonzeroF .f32 v) fl ∧
        (∀ l < 8, active l → (v.get l).toNat = F32.bits (y l).1 % 2 ^ 32) ∧ OrsTo s .f32 (fun l _ => (y l).2) fl)

/-- R237, R239: CVTF converts each coefficient from the format its own tag names; QNT and DQNT scale by 2^(127 −
SCALE) and its inverse, with one rounding; SCALE 0xFF gives NaN and no flag. The halves of CVTF and the flags at SCALE
0xFF are the model's readings, log entries 12 and 13. -/
def Obligations.FormatAndScaleConversions : Prop :=
  ∀ (s : State) (d : Dst) (a b : Src) (pu : Option Pu) (z : FSz) (rm : Rm),
    let c := Ctx.of s
    let orsBy (n : Nat) (g : Nat → Nat → Nat → Fl) (fl : BitVec 20) : Prop := ∀ j < 4, ∀ q < 5,
      fl.getLsbD (5 * j + q) = true ↔ j ≤ c.k ∧ ∃ l < 8, bit c.act l = true ∧ ∃ h < n, (g l h j).getLsbD q = true
    (∀ n : Fin 4, AllComplete [.cvtf d a pu z rm, .qnt d a b pu z rm, .dqnt d a b pu n] s) ∧
    (Eligible (.cvtf d a pu z rm) s →
      let from' (t : Tag) : FSz := match t with | .fp32 => .f32 | .fp16 => .f16 | .bf16 => .bf16 | _ => z
      let src (j : Nat) : FSz := from' (c.coef a j).2
      let parts (j : Nat) : Nat := if src j = .f32 ∨ z = .f32 then 1 else 2
      let y (l h j : Nat) := convert (FSz.fmt z) rm c.ftz false
        ((FSz.fmt (src j)).read c.ftz (subBits (src j) ((c.coef a j).1.get l) h))
      ∃ (v : Nat → Oct W) (fl : BitVec 20),
        Fires (.cvtf d a pu z rm) s ((((c.putGroup d (fun j => (v j, FSz.tag z)) (c.valid [a])).withPu c pu
          (nonzeroF z (v 0))).late 3).raise fl) ∧
        (∀ j ≤ c.k, ∀ l < 8, bit c.act l = true → ∀ h < FSz.n z, subBits z ((v j).get l) h =
          if h < parts j then (FSz.fmt z).bits (y l h j).1 % 2 ^ (FSz.fmt z).width else 0) ∧
        orsBy 2 (fun l h j => if h < parts j then (y l h j).2 else 0) fl) ∧
    (Eligible (.qnt d a b pu z rm) s →
      let w (l : Nat) := (lanesIn s b).get l
      let t (l : Nat) : Fmt := if (w l).getLsbD 8 then FE5 else FE4
      let scale (l : Nat) : Nat := (w l).toNat % 256
      let y (l h j : Nat) : Nat × Fl :=
        if scale l = 255 then ((t l).nan, 0)
        else
          let x := match cof s z a l h j with | .fin n m e => .fin n m (e + 127 - scale l) | v => v
          let q := convert (t l) rm false (!(w l).getLsbD 9) x
          ((t l).bits q.1, q.2)
      ∃ (v : Nat → Oct W) (fl : BitVec 20) (tag : Tag) (m : Mask),
        Fires (.qnt d a b pu z rm) s ((((c.putGroup d (fun j => (v j, tag)) (c.valid [a, b])).withPu c pu m).late 4).raise fl) ∧
        (∀ j ≤ c.k, ∀ l < 8, bit c.act l = true → ∀ h < 4, ((v j).get l).toNat / 2 ^ (8 * h) % 256 =
          if h < FSz.n z then (y l h j).1 % 256 else 0) ∧
        (∀ l < 8, bit c.act l = true → (∀ n < l, bit c.act n = false) →
          tag = if (w l).getLsbD 8 then .e5m2 else .e4m3) ∧
        (∀ l < 8, bit m l = (List.range 4).any fun i => ((v 0).get l).toNat / 2 ^ (8 * i) % 128 != 0) ∧
        orsBy (FSz.n z) (fun l h j => (y l h j).2) fl) ∧
    (∀ n : Fin 4,
      let w (l : Nat) := (lanesIn s b).get l
      let scale (l : Nat) : Nat := (w l).toNat % 256
      let byte (l j : Nat) : Nat := ((c.coef a j).1.get l).toNat / 2 ^ (8 * n.val) % 256
      let x (l j : Nat) : FVal := if (w l).getLsbD 8 then FE5.read false (byte l j) else FE4.read false (byte l j)
      Jet3 (.dqnt d a b pu n) s .f32 d [a, b] pu 4 (fun l _ f => ∀ j ≤ c.k,
        (scale l = 255 → f j = (.nan false, 0)) ∧
        (scale l ≠ 255 → (∀ sig, x l j = .nan sig → f j = (.nan false, flagIf sig fNV)) ∧
          (∀ g, x l j = .inf g → f j = (.inf g, 0)) ∧
          (∀ g m e, x l j = .fin g m e → f j = F32.round .rn c.ftz (.fin g m (e + scale l - 127))))))

/-- R241 to R244: orders, seeds, extraction and insertion of coefficients, which copy bits and tags unchanged, and the
calculus instructions, which round; JFLAG reads and clears FFLAGS. The predicates of JSEED and JCONST, the flags of
JINTG and the fourth register of JINS are the model's readings, log entries 12 and 71. -/
def Obligations.JetInstructions : Prop :=
  ∀ (s : State) (d : Dst) (g : Fin 16) (a b : Src) (pu : Option Pu) (z : FSz) (rm : Rm) (j : Fin 4),
    let c := Ctx.of s
    let r := c.rd z rm
    let A := cof s z a
    let copies (i : Instr) (xs : List Src) (v : Nat → Oct W × Tag) (pu' : Option Pu) (m : Mask) : Prop := Eligible i s →
      Fires i s (((c.putGroup d v (c.valid xs)).withPu c pu' m).raise 0)
    AllComplete [.jseed d a b pu z, .jconst d a pu z, .jmov d a pu, .jtrnc d a j, .jext d a j, .jins g a j,
      .jdiff d a pu z rm, .jintg d a b pu z rm, .jscal d a b pu z rm, .jeval d a b pu z rm, .jord j] s ∧
    (Eligible (.jord j) s → FiresThen (.jord j) s {} fun t => t.modElem s.cur.elem fun x =>
      x.setJord s.cur.plane (BitVec.ofNat 2 j.val)) ∧
    copies (.jseed d a b pu z) [a, b] (fun n => (if n = 0 then lanesIn s a else if n = 1 then lanesIn s b else Oct.rep 0, FSz.tag z))
      pu (nonzeroF z (lanesIn s a)) ∧
    copies (.jconst d a pu z) [a] (fun n => (if n = 0 then lanesIn s a else Oct.rep 0, FSz.tag z)) pu (nonzeroF z (lanesIn s a)) ∧
    copies (.jmov d a pu) [a] (c.coef a) pu (nonzero (lanesIn s a)) ∧
    copies (.jtrnc d a j) [a] (fun n => (if n ≤ j.val then (c.coef a n).1 else Oct.rep 0, (c.coef a n).2)) none 0 ∧
    (Eligible (.jext d a j) s → Fires (.jext d a j) s ((c.put d (if j.val ≤ c.k then (c.coef a j).1 else Oct.rep 0)
      (if j.val ≤ c.k then (c.coef a j).2 else c.tag a) (c.valid [a])).raise 0)) ∧
    (Eligible (.jins g a j) s → Fires (.jins g a j) s
      (Res.raise { regs := if j.val ≤ c.k then (g.val + j.val, c.act, lanesIn s a, c.tag a) ::
        (if c.k = 2 then [(g.val + 3, c.act, Oct.rep 0, if j.val = 0 then c.tag a else (c.el.vreg c.pl g.val).tag)] else [])
        else [] } 0)) ∧
    Jet3 (.jdiff d a pu z rm) s z d [a] pu 4 (fun l h f => f c.k = (.zero, 0) ∧
      ∀ n < c.k, f n = r.mul (.ofInt (n + 1)) (A l h (n + 1))) ∧
    Jet3 (.jintg d a b pu z rm) s z d [a, b] pu 12 (fun l h f =>
      f 0 = withFl (r.rnd (cof s z b l h 0)) (sigFlag (cof s z b l h 0)) ∧
      ∀ n < c.k, f (n + 1) = r.div (A l h n) (.ofInt (n + 1))) ∧
    Jet3 (.jscal d a b pu z rm) s z d [a, b] pu 4 (fun l h f =>
      f 0 = withFl (r.rnd (A l h 0)) (sigFlag (A l h 0)) ∧
      ∀ n < c.k, f (n + 1) = withFl (r.mul (A l h (n + 1)) (powX (cof s z b l h 0) (n + 1))) (sigFlag (cof s z b l h 0))) ∧
    (Eligible (.jeval d a b pu z rm) s →
      let step (l h : Nat) : Nat → FVal × Fl := fun n => Nat.rec (A l h c.k, 0) (fun i acc =>
        withFl (r.fma (A l h (c.k - (i + 1))) acc.1 (cof s z b l h 0)) acc.2) n
      let y (l h : Nat) : FVal × Fl :=
        if c.k = 0 then withFl (r.rnd (A l h 0)) (sigFlag (A l h 0)) else step l h c.k
      ∃ v fl, Single (.jeval d a b pu z rm) s d [a, b] pu (FSz.tag z) (latBy s [4, 4, 8, 12]) v (nonzeroF z v) fl ∧
        (∀ l < 8, bit c.act l = true → ∀ h < FSz.n z,
          subBits z (v.get l) h = (FSz.fmt z).bits (y l h).1 % 2 ^ (FSz.fmt z).width) ∧
        OrsTo s z (fun l h => (y l h).2) fl) ∧
    (∀ (cmask : BitVec 4) (fmask : BitVec 5), Eligible (.jflag d cmask fmask) s →
      ∃ m : BitVec 20, (∀ n < 4, ∀ q < 5, m.getLsbD (5 * n + q) = (cmask.getLsbD n && fmask.getLsbD q)) ∧
        FiresThen (.jflag d cmask fmask) s
          (c.put d (Oct.rep ((c.el.fflags c.pl).setWidth 32)) .int32 c.act)
          fun t => t.modElem s.cur.elem fun x => x.setFflags s.cur.plane (x.fflags s.cur.plane &&& ~~~m))

namespace Sys2Proof.Claims
open Sys2Proof.Machine

/-- What an operation word encodes: one of the 189 instructions of R33. -/
abbrev IsInstruction (i : Instr) : Prop := (encode i).isSome = true

/-- The element's slot stands as R167 asks, but the outcome of the firing is not yet settled. -/
abbrev Ready (i : Instr) (s : State) : Prop :=
  s.choosing s.cur.elem s.cur.plane = true ∧ (Ctx.of s).firstFail i = 0

/-- The element stops with a stall trap of this cause, and the firing has no effect: nothing is dequeued, written, sent
or counted (R44, R306); of physical memory P says what stands. -/
def StopsWith (i : Instr) (s : State) (cause : Nat) (P : State → Prop) : Prop :=
  ∃ t tag, exec i s = .next t ∧ t.elem s.cur.elem = { s.elem s.cur.elem with
      stopped := some ⟨cause, s.cur.slot, s.cur.plane, tag⟩ } ∧
    (∀ e, e ≠ s.cur.elem → t.elem e = s.elem e) ∧ t.ports = s.ports ∧ t.flights = s.flights ∧ t.credits = s.credits ∧
    t.tiles = s.tiles ∧ t.ops = s.ops ∧ t.spm = s.spm ∧ t.regions = s.regions ∧ P t
/-- The same, and no byte of physical memory changes. -/
def StopsInstead (i : Instr) (s : State) (cause : Nat) : Prop := StopsWith i s cause fun t => t.mem = s.mem

/-- Slot breakpoint n of the die matches the firing of the slot (R332). -/
def BreakpointMatches (s : State) (n : Nat) : Prop :=
  let a := ((s.die (dieOf s.cur.elem)).sbpa.get n).toNat
  let b := ((s.die (dieOf s.cur.elem)).sbpb.get n).toNat
  a.testBit 63 = true ∧ b / 2 ^ 32 % 2 ^ 32 = (s.runOf s.cur.elem).toNat ∧
  (if a.testBit 62 = true then a % 2 ^ 32 = s.nodeNumber s.cur.elem s.cur.plane s.cur.slot
   else a / 2 ^ 32 % 2 ^ 5 = (match s.cur.plane with | .work => s.cur.slot | .s => 16 + s.cur.slot) ∧
     a / 2 ^ 9 % 2 ^ 23 = (elidOf s.cur.elem).toNat / 2 ^ 9) ∧
  (a.testBit 61 = true → s.cur.plane = .work ∧ b % 2 ^ 32 = (s.elem s.cur.elem).fires.toNat)

/-- The record of the round log at the operation's place names another opcode, or lanes that do not take part (R304). -/
def Mismatched (i : Instr) (s : State) : Prop :=
  ∃ st m x, streamOf i = some (st, m) ∧ s.logged s.cur.elem s.cur.plane st = some x ∧
    (x.opc ≠ opcOf i ∨ (takesEntry i = false ∧ ∃ l < 8, bit x.lanes l = true ∧
      ¬(bit (Ctx.of s).act l = true ∧ ∀ q ∈ i.srcs, bit ((Ctx.of s).lvm q.1) l = true)))

/-- The first of the errors that apply in the priority of R44 is none of these. -/
def NoBreak (s : State) : Prop := (Ctx.of s).breakpoint = none
def groupsAligned (i : Instr) (s : State) : Prop := (i.takesGroups && (Ctx.of s).misaligned i) = false
/-- The stream in S is an import stream of the element (R44). -/
def ownImport (i : Instr) (s : State) (st : Nat) : Prop :=
  (∃ m, streamOf i = some (st, m)) ∧ (((s.elem s.cur.elem).streams.get st).src).isSome = true
/-- The slot reads no import stream as its own. -/
def noImport (i : Instr) (s : State) : Prop := ∀ st, ¬ownImport i s st

/-- Registers of a plane that exist: V0 to V15, or V0 to V3 in plane S (R164). -/
def inPlane (pl : Plane) (n : Nat) : Prop := match pl with | .work => n < 16 | .s => n < 4

/-- The bytes of the trace record that a firing may write (R330, R331), in the trace ring of its die. -/
def traceSlot (d : Die) : Nat :=
  d.trbase.toNat / 32 % 2 ^ 47 * 32 + d.trtail.toNat % 2 ^ max 8 (min 24 (d.trctl.toNat % 32)) * 32

end Sys2Proof.Claims

/-- R167: a slot that its element does not choose, or that fails one of the conditions, does not fire: nothing
changes. -/
def Obligations.IneligibleSlotsDoNotFire : Prop :=
  ∀ (i : Instr) (s : State), IsInstruction i → ¬Ready i s → exec i s = .next s

/-- R22 to R24, R156, R167: a slot that is ready has its guard under its quantifier, a token of a kind it tests (or
POISON) at each channel it tests, room at its named output, a power token unless it is of plane S, a stream that is not
exhausted and a free command entry where it needs them. -/
def Obligations.ReadySlotsMeetTheConditions : Prop :=
  ∀ (i : Instr) (s : State), IsInstruction i → Ready i s →
    let c := Ctx.of s
    let x := s.elem s.cur.elem
    let holds (l : Nat) : Bool := (List.range 8).all fun p =>
      !c.trig.pmask.getLsbD p || (bit ((x.preds s.cur.plane).get p) l == c.trig.pval.getLsbD p)
    (∀ l < 8, bit c.act l = holds l) ∧
    (if c.trig.all then ∀ l < 8, holds l = true else ∃ l < 8, holds l = true) ∧
    (∀ h ∈ c.trig.a.toList ++ c.trig.b.toList, h.ch ≠ 6 → ∃ q rest, c.queue h.ch = q :: rest ∧
      (q.kind = .poison ∨ (q.kind = .data ∧ (h.test = 0 ∨ h.test = 3)) ∨ (q.kind = .eos ∧ (h.test = 1 ∨ h.test = 3)) ∨
        (q.kind = .hdr ∧ (h.test = 2 ∨ h.test = 3)))) ∧
    (∀ h ∈ c.trig.a.toList ++ c.trig.b.toList, h.ch = 6 → ∃ p rest, x.tport = p :: rest ∧ p.handler = h.test) ∧
    (∀ o, c.trig.outq = some o → s.outPorts (portKey s.cur.elem (vcOf s.cur.plane) o) ≠ [] ∧
      ∀ p ∈ s.outPorts (portKey s.cur.elem (vcOf s.cur.plane) o),
        (s.port p).known + (if i.takesGroups then groupSize c.k else 1) ≤ s.capacity p) ∧
    (s.cur.plane = .work → 0 < (s.tile (tileOf s.cur.elem)).tokens) ∧
    (∀ st m, streamOf i = some (st, m) → (x.streams.get st).src = none →
      ((x.streams.get st).issued - (x.streams.get st).perf).toNat ≠ (x.streams.get st).limit) ∧
    (takesEntry i = true → x.free ≠ [])

/-- R24, R44, R304, R306, R333: the run-time errors of a firing, in their priority: a slot breakpoint, a misaligned jet
group, an import stream as own stream, a POISON token among those that it would take, a task label without a route, and a
record of the round log that names another operation or lanes that take no part. The element stops, and the firing has no
effect; of a breakpoint there may be a trace record. -/
def Obligations.FiringErrorsHaveNoEffect : Prop :=
  (∀ (i : Instr) (s : State), IsInstruction i → Ready i s → NoBreak s →
    (¬groupsAligned i s → StopsInstead i s 6) ∧
    (groupsAligned i s → ∀ st, ownImport i s st → StopsInstead i s 7) ∧
    (groupsAligned i s → noImport i s → (∃ h ∈ (Ctx.of s).trig.a.toList ++ (Ctx.of s).trig.b.toList, h.ch ≠ 6 ∧
        ∃ t ∈ ((Ctx.of s).queue h.ch).take ((Ctx.of s).need i h.ch), t.kind = .poison) → StopsInstead i s 12) ∧
    (groupsAligned i s → noImport i s → (Ctx.of s).poison i = none → Mismatched i s → StopsInstead i s 13) ∧
    (∀ (a : Src) (jc : Fin 512) (l : Nat), i = .jarm a jc → groupsAligned i s → (Ctx.of s).poison i = none →
      l < 8 → bit (Ctx.of s).act l = true → (∀ k < l, bit (Ctx.of s).act k = false) →
      (∀ r, s.regionOf s.cur.elem = some r → r.2.routes.get? (((lanesIn s a).get l).toNat % 128) = none) →
      StopsInstead i s 11)) ∧
  (∀ (i : Instr) (s : State), IsInstruction i → Ready i s → (s.elem s.cur.elem).skipBrk = false →
    (∃ n < 8, BreakpointMatches s n) → StopsWith i s 3 fun t =>
      ((s.die (dieOf s.cur.elem)).trctl.toNat / 2 ^ 31 = 0 → t.mem = s.mem) ∧
      (s.mem.wf = true → ∀ a, a < traceSlot (s.die (dieOf s.cur.elem)) ∨ traceSlot (s.die (dieOf s.cur.elem)) + 32 ≤ a →
        t.mem.get a = s.mem.get a))

/-- R165, R168, R169, R344: what every firing counts. A firing of the working plane adds 1 to FIRES and takes one power
token of its tile; one of plane S does neither. The loss count of its slot in its plane is 0. -/
def Obligations.FiringsAreCounted : Prop :=
  ∀ (i : Instr) (s : State) (r : Res), s.cur.slot < 16 →
    let t := (Ctx.of s).commit i r
    let e := s.cur.elem
    (s.cur.plane = .work → (t.elem e).fires = (s.elem e).fires + 1 ∧
      (t.tile (tileOf e)).tokens = (s.tile (tileOf e)).tokens - 1) ∧
    (s.cur.plane = .s → (t.elem e).fires = (s.elem e).fires ∧ (t.tile (tileOf e)).tokens = (s.tile (tileOf e)).tokens) ∧
    ((t.elem e).losses s.cur.plane).get s.cur.slot = 0 ∧ ∀ u, u ≠ tileOf e → t.tile u = s.tile u

/-- R24, R155: the dequeues of the trigger word: each tested channel with DQ loses as many tokens as its test needs, T
one packet, and no other queue of the element changes. -/
def Obligations.FiringsDequeue : Prop :=
  ∀ (i : Instr) (s : State) (r : Res), ownDequeues i = false →
    let c := Ctx.of s
    let tests := c.trig.a.toList ++ c.trig.b.toList
    let t := c.commit i r
    (∀ h g, c.trig.a = some h → c.trig.b = some g → h.ch ≠ g.ch) →
    (∀ h ∈ tests, h.ch ≠ 6 → h.deq = true → (t.port (portKey c.e (vcOf c.pl) h.ch)).queue =
      (c.queue h.ch).drop (c.need i h.ch)) ∧
    (∀ p, (∀ h ∈ tests, h.deq = true → h.ch ≠ 6 → p ≠ portKey c.e (vcOf c.pl) h.ch) → (t.port p).queue = (s.port p).queue) ∧
    (t.elem c.e).tport = (if ∃ h ∈ tests, h.ch = 6 ∧ h.deq = true then c.el.tport.drop 1 else c.el.tport)

/-- R28, R154, R166, R169, R215: the result of a one-cycle firing lands with it: the lanes written take the new values
and the whole register the tag, every other register and lane keeps its own; predicates update under PU in the active
lanes; the flags of a flag raiser are ORed into FFLAGS. -/
def Obligations.OneCycleResultsLand : Prop :=
  ∀ (i : Instr) (s : State) (r : Res), r.lat ≤ 1 →
    let pl := s.cur.plane
    let x := s.elem s.cur.elem
    let y := ((Ctx.of s).commit i r).elem s.cur.elem
    (r.regs.Pairwise fun a b => a.1 ≠ b.1) → (∀ q ∈ r.regs, inPlane pl q.1) →
    (∀ q ∈ r.regs, (y.vreg pl q.1).tag = q.2.2.2 ∧ ∀ l < 8, (y.vreg pl q.1).lane.get l =
      if bit q.2.1 l then q.2.2.1.get l else (x.vreg pl q.1).lane.get l) ∧
    (∀ n, inPlane pl n → (∀ q ∈ r.regs, q.1 ≠ n) → y.vreg pl n = x.vreg pl n) ∧
    (r.pred = none → y.preds pl = x.preds pl) ∧
    (∀ p op m v, r.pred = some (p, op, m, v) →
      (∀ q < 8, q ≠ p.val → (y.preds pl).get q = (x.preds pl).get q) ∧
      ∀ l < 8, bit ((y.preds pl).get p) l =
        if bit m l then (match op with
          | .set => bit v l
          | .and => bit ((x.preds pl).get p) l && bit v l
          | .or => bit ((x.preds pl).get p) l || bit v l)
        else bit ((x.preds pl).get p) l) ∧
    y.fflags pl = (if r.raiser then x.fflags pl ||| r.flags else x.fflags pl) ∧
    y.inflight.length ≤ x.inflight.length + 1

/-- R169: a firing of latency L > 1 leaves registers, predicates and flags alone; its result is in flight for L − 1
cycles, and INSTRUCTION_COMPLETE lands it as a one-cycle result lands, once they have passed. -/
def Obligations.LongFiringsLandOnCompletion : Prop :=
  (∀ (i : Instr) (s : State) (r : Res), 1 < r.lat →
    let x := s.elem s.cur.elem
    let y := ((Ctx.of s).commit i r).elem s.cur.elem
    y.wr = x.wr ∧ y.sr = x.sr ∧ ∃ f, y.inflight = x.inflight ++ [f] ∧ f.left = r.lat - 1 ∧ f.plane = s.cur.plane ∧
      f.regs = r.regs ∧ f.pred = r.pred ∧ f.outs = r.outs ∧ f.flags = r.flags ∧ f.fires = x.fires) ∧
  (∀ (s : State) (e k : Nat) (f : Inflight), (s.elem e).inflight[k]? = some f → f.left = 0 →
    ∃ t, exec (.instructionComplete e k) s = .next t ∧
      ((f.regs.Pairwise fun a b => a.1 ≠ b.1) → (∀ q ∈ f.regs, inPlane f.plane q.1) →
        (∀ q ∈ f.regs, ((t.elem e).vreg f.plane q.1).tag = q.2.2.2 ∧ ∀ l < 8, ((t.elem e).vreg f.plane q.1).lane.get l =
          if bit q.2.1 l then q.2.2.1.get l else ((s.elem e).vreg f.plane q.1).lane.get l) ∧
        (∀ n, inPlane f.plane n → (∀ q ∈ f.regs, q.1 ≠ n) → (t.elem e).vreg f.plane n = (s.elem e).vreg f.plane n)) ∧
      (t.elem e).fflags f.plane = (if f.raiser then (s.elem e).fflags f.plane ||| f.flags else (s.elem e).fflags f.plane) ∧
      (f.raiser = true → trapped (s.elem e).estat f.flags = true →
        ((t.elem e).stopped.map (·.cause)) = some 4 ∧ (t.elem e).trapNow = true) ∧
      t.mem = s.mem ∧ t.spm = s.spm)

/-- R155, R156, R159: a token of a one-cycle firing sets out to every branch of its output, stamped under each branch's
own record, and takes a slot of each branch's window as the sender counts it. On a branch to another package it leaves, log
entry 28. -/
def Obligations.TokensLeaveOnEveryBranch : Prop :=
  ∀ (i : Instr) (s : State) (o : Nat) (t : Tok), t.kind ≠ .cfg → (∀ f ∈ (s.elem s.cur.elem).inflight, f.outs = []) →
    let c := Ctx.of s
    let u := c.commit i { outs := [(o, t)] }
    let branches := s.outPorts (portKey c.e (vcOf c.pl) o)
    branches.Nodup →
    (∀ p ∈ branches, (u.port p).known = (s.port p).known + 1) ∧
    (∀ p ∈ branches, isFar p = false → ∃ k f, u.flights.get? k = some f ∧ f.port = p ∧ f.tok = { t with stamp :=
      match (s.port p).branch with
      | some b => (match b.stampS with | some n => (c.el.streams.get n).issued | none => 0)
      | none => 0 }) ∧
    (∀ p, p ∉ branches → (u.port p).known = (s.port p).known)

/-- The frame of a firing, for every instruction whose whole effect is its result (the classes 0x0 to 0x8 but for ENDE,
JORD and JFLAG, and MOV, MOVI, MOVL, MOVH and ECHK): every other element, every byte of tile memory and of physical
memory (but for the trace record of R331 in the trace ring of its die), every operation and walk, every region (but for
the time of its last move and the mark of a raised deadlock event), every die (but for its trace tail and dropped count,
its sketches and its queue of trap records), and the element's own planes, constants, counters, status registers and the
other plane's registers are as they were. -/
def Obligations.FiringFrame : Prop :=
  ∀ (i : Instr) (s : State) (r : Res), s.mem.wf = true →
    let t := (Ctx.of s).commit i r
    let e := s.cur.elem
    let x := s.elem e
    let y := t.elem e
    (∀ d, d ≠ e → t.elem d = s.elem d) ∧
    (∀ a, a < traceSlot (s.die (dieOf e)) ∨ traceSlot (s.die (dieOf e)) + 32 ≤ a → t.mem.get a = s.mem.get a) ∧
    ((s.die (dieOf e)).trctl.toNat / 2 ^ 31 = 0 → t.mem = s.mem) ∧
    t.spm = s.spm ∧ t.feEmpty = s.feEmpty ∧ t.poisonLines = s.poisonLines ∧ t.poisonRows = s.poisonRows ∧ t.fc = s.fc ∧
    t.visitor = s.visitor ∧ t.ops = s.ops ∧ t.armed = s.armed ∧ t.walks = s.walks ∧ t.packets = s.packets ∧
    t.islands = s.islands ∧ t.usable = s.usable ∧ t.tick = s.tick ∧ t.links = s.links ∧
    (∀ k, (t.region? k).map (fun q => { q with lastMove := 0, dlRaised := false }) =
      (s.region? k).map fun q => { q with lastMove := 0, dlRaised := false }) ∧
    (∀ d, { t.die d with trtail := 0, trdrop := 0, sk0 := (s.die d).sk0, sk1 := (s.die d).sk1, trapQ := [] } =
      { s.die d with trtail := 0, trdrop := 0, trapQ := [] }) ∧
    y.planeA = x.planeA ∧ y.planeB = x.planeB ∧ y.planeS = x.planeS ∧ y.onB = x.onB ∧ y.inS = x.inS ∧ y.k = x.k ∧ y.g = x.g ∧
    y.estat = x.estat ∧ y.latec = x.latec ∧ y.timeh = x.timeh ∧ y.cmds = x.cmds ∧ y.free = x.free ∧ y.reply = x.reply ∧
    y.round = x.round ∧ y.ended = x.ended ∧ y.sendBuf = x.sendBuf ∧
    y.jord .work = x.jord .work ∧ y.jord .s = x.jord .s ∧
    (match s.cur.plane with | .work => y.sr = x.sr | .s => y.wr = x.wr)

namespace Sys2Proof.Claims
open Sys2Proof.Machine

/-- The instruction completes: `exec` answers a next state, and this holds of it. -/
def Completes (i : Instr) (s : State) (P : State → Prop) : Prop := ∃ t, exec i s = .next t ∧ P t

/-- The region of the element replays no log (R304). -/
def NoReplay (s : State) : Prop := ∀ r, s.regionOf s.cur.elem = some r → r.2.replay = []

/-- A firing of a memory instruction puts one operation on stream `st`: it takes the next ordinal, its lanes wait behind
the gates of MASK, and it reads its operands now. It writes no register, predicate or byte of its own. -/
def Issues (i : Instr) (s : State) (st : Fin 8) (mask : Mask) (a d d2 : Oct W) (reply : Option Nat) (tag : Tag) : Prop :=
  Eligible i s → NoReplay s → Completes i s fun t =>
    let c := Ctx.of s
    let u := c.commit i {}
    let x := s.elem c.e
    let y := t.elem c.e
    t.mem = u.mem ∧ (c.pl = .work → t.spm = s.spm) ∧ y.wr = x.wr ∧ y.sr = x.sr ∧
    (y.streams.get st).issued = (x.streams.get st).issued + 1 ∧ (y.streams.get st).perf = (x.streams.get st).perf ∧
    (∀ n < 8, n ≠ st.val → (y.streams.get n).issued = (x.streams.get n).issued) ∧
    ∃ k o, t.ops.get? k = some o ∧ s.nextId ≤ k ∧ (∀ j, j ≠ k → t.ops.get? j = s.ops.get? j) ∧
      o.instr = i ∧ o.elem = c.e ∧ o.plane = c.pl ∧ o.slot = c.slot ∧ o.stream = st.val ∧
      o.ord = (x.streams.get st).issued ∧ o.scope = (x.streams.get st).scope ∧ o.a = a ∧ o.d = d ∧ o.d2 = d2 ∧
      o.reply = reply ∧ o.tag = tag ∧ o.gated = false ∧
      (∀ l < 8, bit o.part l = (bit c.act l && i.srcs.all fun q => bit (c.lvm q.1) l)) ∧
      (∀ l < 8, o.lanes.get l =
        if bit o.part l = true ∧ (Instr.single i = true → ∀ j < l, bit o.part j = false) then .wait else .off) ∧
      (∀ m < 8, bit mask m = true → (x.streams.get m).src = none →
        ∃ g ∈ o.gates, g.elem = c.e ∧ g.stream = m ∧ g.n = (x.streams.get m).issued) ∧
      (∀ m < 8, bit mask m = true → ∀ p q, ((u.elem c.e).streams.get m).src = some (p, q) →
        ((u.elem c.e).streams.get m).set = true →
        ∃ g ∈ o.gates, g.elem = p ∧ g.stream = q ∧ g.n = ((u.elem c.e).streams.get m).stamp)

/-- The new word of an atomic from the old word m and the operands d and e (R99, R100). -/
def AtomicNew (o : MemOp) (m d e r : W) : Prop :=
  match o.instr with
  | .aadd .. => r.toNat = (m.toNat + d.toNat) % 2 ^ 32
  | .aadds .. => SatS 32 (sx 32 m.toNat + sx 32 d.toNat) r.toNat
  | .afadd .. =>
    let x : Rd := ⟨F32, .rn, o.ftz⟩
    r = BitVec.ofNat 32 (F32.bits (x.add (F32.read o.ftz m.toNat) (F32.read o.ftz d.toNat)).1)
  | .amin .. => (m.toInt ≤ d.toInt → r = m) ∧ (d.toInt < m.toInt → r = d)
  | .amax .. => (m.toInt ≤ d.toInt → r = d) ∧ (d.toInt < m.toInt → r = m)
  | .aminu .. => r.toNat = min m.toNat d.toNat
  | .amaxu .. => r.toNat = max m.toNat d.toNat
  | .aand .. => ∀ j < 32, r.getLsbD j = (m.getLsbD j && d.getLsbD j)
  | .aor .. => ∀ j < 32, r.getLsbD j = (m.getLsbD j || d.getLsbD j)
  | .axor .. => ∀ j < 32, r.getLsbD j = (m.getLsbD j != d.getLsbD j)
  | .axch .. => r = d
  | .acas .. => (m = d → r = e) ∧ (m ≠ d → r = m)
  | .atas .. => ∀ j < 32, r.getLsbD j = (m.getLsbD j || decide (j = d.toNat % 32))
  | .aincw .. => (d.toNat ≤ m.toNat → r = 0) ∧ (m.toNat < d.toNat → r.toNat = m.toNat + 1)
  | _ => True

/-- The word an atomic returns: the old word, but for ATAS the bit tested. -/
def AtomicOld (o : MemOp) (m d r : W) : Prop :=
  match o.instr with
  | .atas .. => r.toNat = m.toNat / 2 ^ (d.toNat % 32) % 2
  | _ => r = m

/-- Byte i of a word, the lowest first (R1). -/
abbrev byteOf (x : W) (i : Nat) : Byte := BitVec.ofNat 8 (x.toNat / 256 ^ i)

/-- Lane j stands at the key x of tile memory in the granted beat of the row of `key` (R87, R93). -/
def InBeat (o : MemOp) (key j x : Nat) : Prop := j < 8 ∧ o.lanes.get j = .granted x 0 ∧ x / 32 = key / 32

/-- A byte of tile memory outside the UNDO area of the tile of `key`. -/
def offUndo (s : State) (key x : Nat) : Prop :=
  let u := (s.tile (key / 2 ^ 20)).undo
  x < key / 2 ^ 20 * 2 ^ 20 + u.1 ∨ key / 2 ^ 20 * 2 ^ 20 + u.1 + u.2 ≤ x

/-- A command is issued: it takes the entry freed first, holds the descriptor of Vg, and waits; a descriptor that breaks
a limit of its command ends it at once with cause DESC, and the element stops with ENGFAULT; some of these limits are the
model's choice, log entry 45. One of plane S that still
owes its placeholder to a full LOG area waits with any descriptor (R301). -/
def StartsCommand (i : Instr) (s : State) (st : Fin 8) (g : Fin 16) (reply : Nat) : Prop :=
  Eligible i s → NoReplay s → ∀ n rest, (s.elem s.cur.elem).free = n :: rest → n < 8 → s.cur.elem * 8 + n < 2 ^ 20 →
    Completes i s fun t =>
      let e := s.cur.elem
      let x := s.elem e
      let y := t.elem e
      ∃ k, y.cmds.get n = some k ∧ y.issuedOrder.head? = some n ∧
        (∀ m < 8, m ≠ n → y.cmds.get m = x.cmds.get m) ∧
        k.instr = i ∧ k.desc = reg s g ∧ k.plane = s.cur.plane ∧ k.slot = s.cur.slot ∧ k.stream = st.val ∧
        k.ord = (x.streams.get st).issued ∧ k.fires = x.fires ∧
        k.reply = (if reply = 0 then none else some reply) ∧
        (y.streams.get st).issued = (x.streams.get st).issued + 1 ∧
        (s.cur.plane = .work → k.owed = false) ∧
        (if s.descOk e i (reg s g) = true ∨ k.owed = true then k.st = .waiting ∧ y.free = rest ∧ y.stopped = x.stopped
         else k.st = .faulted ∧ k.cause = .desc ∧ y.stopped.map (·.cause) = some 9 ∧ k.tokenDue = (reply != 0))

/-- Task routes of the element's region (R160). -/
def routesOf (s : State) : SMap (Nat × Nat) :=
  match s.regionOf s.cur.elem with | some (_, r) => r.routes | none => []
/-- Messages that a firing leaves for the join unit of its region. -/
def Joins (s t : State) (ms : List JoinMsg) : Prop :=
  ∀ k r, s.regionOf s.cur.elem = some (k, r) → ∃ r', t.region? k = some r' ∧ r'.joinQ = r.joinQ ++ ms

/-- Coordinate lanes of a head that count (R176). -/
def coordLanes (t : Tok) : List Nat := [0, 1, 2, 3].filter (bit t.lvm)
def maxOf (t : Tok) : Nat := (coordLanes t).foldl (fun m l => max m (t.data.get l).toNat) 0
/-- The value of a coordinate in a head: that of the lowest lane that holds it. -/
def valueAt (t : Tok) (x : W) : Option W := ((coordLanes t).find? fun l => t.data.get l == x).map fun l => t.data.get (l + 4)

/-- The two heads that a sparse firing works on, and how it completes. -/
def Meets (i : Instr) (s : State) (o a b : Fin 6) (lat : Nat) (raise : Option Fl) (z : Sparse) : Prop :=
  let c := Ctx.of s
  let r := (c.sparseRes o z).late lat
  exec i s = .next (c.sparsePost a b z (c.commit i (match raise with | some f => r.raise (flagsAt 0 f) | none => r)))

end Sys2Proof.Claims

/-- R92, R94, R97 to R99, R248, R253, R323: a firing of a load, a store, a prefetch, an atomic or a write-back of
lines puts one operation on its stream, with its operands read, and does nothing else. -/
def Obligations.MemoryFiringsJoinTheirStream : Prop :=
  ∀ (s : State) (st : Fin 8) (m : BitVec 8) (a d : Src) (r : Fin 32) (t : Tag) (w : Width) (l : PrefLevel) (v : Bool)
    (q : Option (Fin 7)) (n : Fin 15),
    let c := Ctx.of s
    let z : Oct W := Oct.rep 0
    let p := q.map fun x => x.val
    Issues (.ld st m a r t) s st m (c.val a) z z (some r.val) t ∧ Issues (.ldb st m a r t) s st m (c.val a) z z (some r.val) t ∧
    Issues (.lds st m a r t) s st m (c.val a) z z (some r.val) t ∧ Issues (.ldf st m a r t) s st m (c.val a) z z (some r.val) t ∧
    Issues (.ldfe st m a r t) s st m (c.val a) z z (some r.val) t ∧
    Issues (.st st m a d w) s st m (c.val a) (c.val d) z none .raw ∧ Issues (.stb st m a d) s st m (c.val a) (c.val d) z none .raw ∧
    Issues (.sts st m a d w) s st m (c.val a) (c.val d) z none .raw ∧ Issues (.ste st m a d) s st m (c.val a) (c.val d) z none .raw ∧
    Issues (.stff st m a d) s st m (c.val a) (c.val d) z none .raw ∧ Issues (.pref st m a l) s st m (c.val a) z z none .raw ∧
    Issues (.l1wb st m a d v) s st m (c.val a) (c.val d) z none .raw ∧
    Issues (.l1inv st m a d v) s st m (c.val a) (c.val d) z none .raw ∧
    Issues (.aadd st m a d q) s st m (c.val a) (c.val d) z p .int32 ∧
    Issues (.aadds st m a d q) s st m (c.val a) (c.val d) z p .int32 ∧
    Issues (.afadd st m a d q) s st m (c.val a) (c.val d) z p .fp32 ∧
    Issues (.amin st m a d q) s st m (c.val a) (c.val d) z p .int32 ∧
    Issues (.amax st m a d q) s st m (c.val a) (c.val d) z p .int32 ∧
    Issues (.aminu st m a d q) s st m (c.val a) (c.val d) z p .int32 ∧
    Issues (.amaxu st m a d q) s st m (c.val a) (c.val d) z p .int32 ∧
    Issues (.aand st m a d q) s st m (c.val a) (c.val d) z p .int32 ∧
    Issues (.aor st m a d q) s st m (c.val a) (c.val d) z p .int32 ∧
    Issues (.axor st m a d q) s st m (c.val a) (c.val d) z p .int32 ∧
    Issues (.axch st m a d q) s st m (c.val a) (c.val d) z p .int32 ∧
    Issues (.acas st m a n q) s st m (c.val a) (reg s n) (reg s (n.val + 1)) p .int32 ∧
    Issues (.atas st m a d q) s st m (c.val a) (c.val d) z p .int32 ∧
    Issues (.aincw st m a d q) s st m (c.val a) (c.val d) z p .int32

/-- R87, R88, R94, R99, R100: the node applies the lanes of a granted beat. A load returns the words of tile memory and
changes no byte; a store writes the bytes of its lanes in that row, in their order; an atomic stores its new word and returns
the old one. Every other byte of tile memory keeps its value, but for the undo record of R299 in the tile's UNDO area. An absent UNDO area never fills, log
entry 55. -/
def Obligations.NodesServeTheirLanes : Prop :=
  ∀ (s : State) (op l key : Nat) (o : MemOp), s.ops.get? op = some o → l < 8 → o.lanes.get l = .granted key 0 →
    s.spm.wf = true → (∀ j x, InBeat o key j x → x % Instr.bytes o.instr = 0) →
    let rg := (s.elem o.elem).region
    let word (m : Mem) (a : Nat) : W := BitVec.ofNat 32 ((m.get a).toNat + (m.get (a + 1)).toNat * 256 +
      (m.get (a + 2)).toNat * 65536 + (m.get (a + 3)).toNat * 16777216)
    (Instr.kind o.instr = .load → Completes (.nodeRequestAccept op l) s fun t => t.spm = s.spm ∧ t.mem = s.mem ∧
      (o.reply.isSome = true → ∃ p, t.ops.get? op = some p ∧ p.lanes.get l = .done ∧
        match o.instr with
        | .ldb .. => ∀ j < 8, bit o.part j = true → p.vals.get j = word s.spm (key + 4 * j)
        | .lds .. => ∀ j < 8, bit o.part j = true → p.vals.get j = word s.spm key
        | _ => p.vals.get l = word s.spm key)) ∧
    (Instr.kind o.instr = .store → (∀ j x, InBeat o key j x → s.undoFull rg o.round x = false) →
      Completes (.nodeRequestAccept op l) s fun t => t.mem = s.mem ∧
      match o.instr with
      | .stb .. => (∀ j < 8, bit o.part j = true → ∀ i < 4, t.spm.get (key + 4 * j + i) = byteOf (o.d.get j) i) ∧
          (∀ x, (∀ j < 8, bit o.part j = true → x < key + 4 * j ∨ key + 4 * j + 4 ≤ x) → offUndo s key x →
            t.spm.get x = s.spm.get x)
      | _ =>
        let n := Instr.bytes o.instr
        (∀ j x, InBeat o key j x → ∀ i < n,
          (∀ k y, InBeat o key k y → j < k → x + i < y ∨ y + n ≤ x + i) → t.spm.get (x + i) = byteOf (o.d.get j) i) ∧
        (∀ a, (∀ j x, InBeat o key j x → a < x ∨ x + n ≤ a) → offUndo s key a → t.spm.get a = s.spm.get a)) ∧
    (Instr.kind o.instr = .atomic → s.undoFull rg o.round key = false → Completes (.nodeRequestAccept op l) s fun t =>
      t.mem = s.mem ∧ AtomicNew o (word s.spm key) (o.d.get l) (o.d2.get l) (word t.spm key) ∧
      (o.reply.isSome = true → ∃ p, t.ops.get? op = some p ∧ p.lanes.get l = .done ∧
        AtomicOld o (word s.spm key) (o.d.get l) (p.vals.get l)) ∧
      (∀ x, (x < key ∨ key + 4 ≤ x) → offUndo s key x → t.spm.get x = s.spm.get x)) ∧
    (((Instr.kind o.instr = .store ∧ ∀ j x, InBeat o key j x → s.undoFull rg o.round x = true) ∨
        (Instr.kind o.instr = .atomic ∧ s.undoFull rg o.round key = true)) →
      Completes (.nodeRequestAccept op l) s fun t => t.spm = s.spm ∧ t.mem = s.mem ∧
        ∃ p, t.ops.get? op = some p ∧ p.lanes.get l = .full)

/-- R103, R104, R108, R111: a firing of an engine command takes a command entry, an ordinal of its stream and the
descriptor in Vg; a descriptor that will not do ends it with cause DESC. Some of the limits that a descriptor is held to (the
bound of COUNT, IADDR's low bits, the reply tags of MXSORT, the sizes of rings) are the model's choice, log entry 45. -/
def Obligations.CommandFiringsTakeAnEntry : Prop :=
  ∀ (s : State) (st : Fin 8) (m : BitVec 8) (g : Fin 16) (q : Fin 32) (w : Fin 5) (v : Bool) (ch : Fin 6) (f : RedArith),
    StartsCommand (.copy st m g q) s st g q ∧ StartsCommand (.copy2d st m g q) s st g q ∧
    StartsCommand (.gath st m g q w) s st g q ∧ StartsCommand (.scat st m g q w) s st g q ∧
    StartsCommand (.strm st m g q v) s st g q ∧ StartsCommand (.mxmm st m g q) s st g q ∧
    StartsCommand (.mxsort st m g q) s st g q ∧ StartsCommand (.ringi st m g) s st g 0 ∧
    StartsCommand (.ringa st m g v) s st g 0 ∧ StartsCommand (.spill st m g ch) s st g 0 ∧
    StartsCommand (.linkx st m g q) s st g q ∧ StartsCommand (.redc st m g q f) s st g q

/-- R106, R131, R132: ECHK gives status and progress of the most recently issued command with the tag, 0 where there is
none, four cycles later; ECAN ends a waiting one, lets a running one end after its work, and leaves one whose work is done or that
has met an error, and any other. One that waits for the LOG area ends when it has found room (R301), and a stream to a channel
when its EOS has left. -/
def Obligations.ChecksAndCancellations : Prop :=
  ∀ (s : State) (g : Fin 16) (p : Fin 8) (upd : Option PuOp),
    let c := Ctx.of s
    let e := s.cur.elem
    let x := s.elem e
    let tag := ((reg s g).get 5).toNat % 2 ^ 16
    let newest (n : Nat) (k : Cmd) : Prop := ∃ pre post, x.issuedOrder = pre ++ n :: post ∧ x.cmds.get n = some k ∧
      (k.desc.get 5).toNat % 2 ^ 16 = tag ∧
      ∀ m ∈ pre, ∀ y, x.cmds.get m = some y → (y.desc.get 5).toNat % 2 ^ 16 ≠ tag
    (Eligible (.echk g p upd) s → ∃ (stat prog : W) (ended : Bool),
      Fires (.echk g p upd) s
        { regs := [(g.val, c.act &&& 3, ((Oct.rep 0).set 0 stat).set 1 prog, .int32)]
          pred := upd.map fun o => (p, o, c.act, if ended then 0xFF else 0), lat := 4 } ∧
      (∀ n k, newest n k → stat.toNat / 2 ^ 28 = CmdSt.num k.st ∧ stat.toNat % 2 ^ 16 = tag ∧ prog = k.progress ∧
        (ended = true ↔ 3 ≤ CmdSt.num k.st)) ∧
      ((∀ n k, ¬newest n k) → stat = 0 ∧ prog = 0 ∧ ended = false)) ∧
    (∀ n k, newest n k → n < 8 → e * 8 + n < 2 ^ 20 → Eligible (.ecan g) s → Completes (.ecan g) s fun t =>
      ∃ y, (t.elem e).cmds.get n = some y ∧
        match k.st with
        | .waiting =>
          if (k.owed || k.sendsEos || (c.commit (.ecan g) {}).endBlocked (e * 8 + n) k .none) = true then y = { k with endStep := true }
          else y.st = .cancelled ∧ y.performed = true ∧ y.tokenDue = k.reply.isSome
        | .running =>
          if (k.complete || k.cause != .none) = true then y = k
          else y = { k.noReads with endStep := true, brAsk := k.brAsk.filter fun b => k.writing && b.1 == k.out }
        | _ => y = k) ∧
    ((∀ n k, ¬newest n k) → Eligible (.ecan g) s → FiresThen (.ecan g) s {} fun t => t)

/-- R161, R162, R174: SPAWN queues a packet for every valid active lane whose label has a route, in ascending order, and
its cell counts them; a label without a route stops the element after the firing. TDONE takes the active lanes off its
cell, JARM arms it. -/
def Obligations.TaskPacketsAndCells : Prop :=
  ∀ (s : State) (a b w : Src) (jc : Fin 512),
    let c := Ctx.of s
    let e := s.cur.elem
    let x := s.elem e
    let round := x.tokRound
    let label (l : Nat) : Nat := ((lanesIn s a).get l).toNat % 128
    let ls := (List.range 8).filter fun l => bit c.act l && bit (c.lvm a) l && bit (c.lvm b) l && bit (c.lvm w) l
    let routed := ls.filter fun l => ((routesOf s).get? (label l)).isSome
    (Eligible (.spawn a b w jc) s → Completes (.spawn a b w jc) s fun t =>
      (∃ ps : List Packet, (t.elem e).sendBuf = x.sendBuf ++ ps ∧ ps.length = routed.length ∧
        ∀ (k l : Nat) (q : Packet), routed[k]? = some l → ps[k]? = some q →
          q.label = label l ∧ (routesOf s).get? (label l) = some ((((routesOf s).get? (label l)).getD (0, 0)).1, q.handler) ∧
          q.w0 = (lanesIn s b).get l ∧ (w ≠ .zr → q.w1 = (lanesIn s w).get l ∧ q.two = true) ∧
          (w = .zr → q.w1 = 0 ∧ q.two = false) ∧ q.round = round) ∧
      Joins s t (if routed = [] then [] else [⟨jc.val, none, BitVec.ofNat 32 routed.length, true, round⟩]) ∧
      (if routed = ls then (t.elem e).stopped = x.stopped else (t.elem e).stopped.map (·.cause) = some 11)) ∧
    (Eligible (.tdone jc) s → Completes (.tdone jc) s fun t =>
      Joins s t [⟨jc.val, none, -(BitVec.ofNat 32 ((List.range 8).countP (bit c.act))), true, round⟩]) ∧
    (Eligible (.jarm a jc) s → Completes (.jarm a jc) s fun t => ∀ l < 8, bit c.act l = true →
      (∀ j < l, bit c.act j = false) → Joins s t [⟨jc.val, some (label l), 0, false, round⟩])

/-- R134, R137, R163, R175: WATCH and UNWATCH answer 0 at once for a scratchpad address or a label without a route, and
otherwise wait for the home slice; PGINC adds to a counter and to its window's sum, PGSET sets it and seeds its rates. -/
def Obligations.WatchesAndProgressCounters : Prop :=
  ∀ (s : State) (a b d : Src) (pu : Option Pu) (n : Fin 4) (imm : BitVec 14),
    let c := Ctx.of s
    let e := s.cur.elem
    let low (q : Src) : W := (lanesIn s q).get (((List.range 8).find? (bit c.act)).getD 0)
    let near := 2 ^ 31 ≤ (low a).toNat ∨ (routesOf s).get? ((low d).toNat % 128) = none
    let refused (i : Instr) : Prop := FiresThen i s {} fun t => match pu with
      | some u => t.modElem e fun x => x.setPreds c.pl ((x.preds c.pl).set u.p.val (updPred u.op c.act 0 ((x.preds c.pl).get u.p.val)))
      | none => t
    let asks (i : Instr) (mask : W) : Prop := Completes i s fun t =>
      (t.elem e).wr = (s.elem e).wr ∧ (t.elem e).sr = (s.elem e).sr ∧ (∀ m < 8, ((t.elem e).streams.get m).issued =
        ((s.elem e).streams.get m).issued) ∧
      ∃ k o, t.ops.get? k = some o ∧ s.nextId ≤ k ∧ o.instr = i ∧ o.elem = e ∧ o.isWatch = true ∧
        o.watchPu = pu.map (fun u => (u, c.act)) ∧
        ∀ l < 8, o.a.get l = low a ∧ o.d.get l = mask ∧ o.d2.get l = low d ∧
          o.lanes.get l = (if bit c.act l = true ∧ ∀ j < l, bit c.act j = false then .wait else .off)
    (Eligible (.watch a b d pu) s → (near → refused (.watch a b d pu)) ∧ (¬near → asks (.watch a b d pu) (low b))) ∧
    (Eligible (.unwatch a d pu) s → (near → refused (.unwatch a d pu)) ∧ (¬near → asks (.unwatch a d pu) 0)) ∧
    (Eligible (.pginc n a imm) s → Completes (.pginc n a imm) s fun t =>
      let g := (s.elem e).g.get n
      let h := (t.elem e).g.get n
      let inc := (c.scalar a).getD 0 + imm.setWidth 32
      h.g = g.g + inc ∧ h.s.toNat = min (g.s.toNat + inc.toNat) (2 ^ 22 - 1) ∧ h.rShort = g.rShort ∧ h.rLong = g.rLong ∧
      ∀ m < 4, m ≠ n.val → (t.elem e).g.get m = (s.elem e).g.get m) ∧
    (Eligible (.pgset n a imm) s → Completes (.pgset n a imm) s fun t =>
      let g := (s.elem e).g.get n
      let h := (t.elem e).g.get n
      h.g = (c.scalar a).getD g.g ∧
      (imm = 0 → h.s = g.s ∧ h.rShort = g.rShort ∧ h.rLong = g.rLong) ∧
      (imm ≠ 0 → h.s = 0 ∧ h.rShort.toNat = imm.toNat ∧ h.rLong.toNat = imm.toNat) ∧
      ∀ m < 4, m ≠ n.val → (t.elem e).g.get m = (s.elem e).g.get m)

/-- R176: ISECT sends the coordinates two sparse heads share, UNION the lowest four of both up to c*, adding the values
of a shared one; each dequeues the heads as the rule says. -/
def Obligations.SparseStreams : Prop :=
  ∀ (s : State) (o a b : Fin 6) (x y : Tok) (p q : List Tok),
    (Ctx.of s).queue a = x :: p → (Ctx.of s).queue b = y :: q →
    (Eligible (.isect o a b) s → ∃ z, Meets (.isect o a b) s o a b 2 none z ∧ z.va = x.lvm ∧ z.vb = y.lvm ∧
      (coordLanes x = [] ∨ coordLanes y = [] → z.lvm = 0 ∧ (z.deqA = true ↔ coordLanes x = []) ∧
        (z.deqB = true ↔ coordLanes y = [])) ∧
      (coordLanes x ≠ [] → coordLanes y ≠ [] →
        (z.deqA = true ↔ maxOf x ≤ maxOf y) ∧ (z.deqB = true ↔ maxOf y ≤ maxOf x) ∧
        ∀ l < 4, (bit z.lvm l = true ↔ l ∈ coordLanes x ∧ (valueAt y (x.data.get l)).isSome = true) ∧
          bit z.lvm (l + 4) = bit z.lvm l ∧
          (bit z.lvm l = true → z.data.get l = x.data.get (l + 4) ∧ valueAt y (x.data.get l) = some (z.data.get (l + 4))) ∧
          (bit z.lvm l = false → z.data.get l = 0 ∧ z.data.get (l + 4) = 0))) ∧
    (Eligible (.union o a b) s → ∃ z f, Meets (.union o a b) s o a b 4 (some f) z ∧
      (coordLanes x = [] ∨ coordLanes y = [] → z.lvm = 0 ∧ f = 0 ∧ (z.deqA = true ↔ coordLanes x = []) ∧
        (z.deqB = true ↔ coordLanes y = [])) ∧
      (coordLanes x ≠ [] → coordLanes y ≠ [] → ∃ es : List W, 1 ≤ es.length ∧ es.length ≤ 4 ∧
        es.Pairwise (fun u v => u.toNat < v.toNat) ∧
        (∀ u : W, u ∈ es → u.toNat ≤ min (maxOf x) (maxOf y) ∧
          ((valueAt x u).isSome = true ∨ (valueAt y u).isSome = true)) ∧
        (∀ u : W, u.toNat ≤ min (maxOf x) (maxOf y) → (valueAt x u).isSome = true ∨ (valueAt y u).isSome = true →
          u ∈ es ∨ (es.length = 4 ∧ ∀ v ∈ es, v.toNat < u.toNat)) ∧
        (∀ l < 4, bit z.lvm l = decide (l < es.length) ∧ bit z.lvm (l + 4) = decide (l < es.length)) ∧
        (∀ (k : Nat) (u : W), es[k]? = some u → z.data.get k = u ∧
          match valueAt x u, valueAt y u with
          | some v, some w =>
            let r : Rd := ⟨F32, .rn, (Ctx.of s).ftz⟩
            z.data.get (k + 4) = BitVec.ofNat 32 (F32.bits
              (r.add (F32.read (Ctx.of s).ftz v.toNat) (F32.read (Ctx.of s).ftz w.toNat)).1)
          | some v, none => z.data.get (k + 4) = v
          | none, some w => z.data.get (k + 4) = w
          | none, none => False) ∧
        (∀ b < 5, f.getLsbD b = true ↔ ∃ u ∈ es, ∃ v w, valueAt x u = some v ∧ valueAt y u = some w ∧
          ((⟨F32, .rn, (Ctx.of s).ftz⟩ : Rd).add (F32.read (Ctx.of s).ftz v.toNat)
            (F32.read (Ctx.of s).ftz w.toNat)).2.getLsbD b = true) ∧
        (∀ l < 4, bit z.va l = (bit x.lvm l && !es.contains (x.data.get l)) ∧
          bit z.vb l = (bit y.lvm l && !es.contains (y.data.get l))) ∧
        (z.deqA = true ↔ ∀ l < 4, bit z.va l = false) ∧ (z.deqB = true ↔ ∀ l < 4, bit z.vb l = false)))

/-- R306, R320 to R322, R324: TRAP and, where breakpoints are enabled, BRK stop the element after the firing, with the
code in the record; CUTRQ asks for a cut; EVNT sets its event bit; PWRH leaves the tile's hint. The delay of a cut
request is a free value within R288's bound, log entry 51. -/
def Obligations.SystemInstructions : Prop :=
  ∀ (s : State) (code : BitVec 14) (ev : BitVec 8) (irq : Bool) (h : Hint),
    let e := s.cur.elem
    let d := dieOf e
    let stops (i : Instr) (cause : Nat) : Prop := Completes i s fun t =>
      (∃ tag, (t.elem e).stopped = some ⟨cause, s.cur.slot, s.cur.plane, tag⟩ ∧
        ∃ bs, (t.die d).trapQ = (s.die d).trapQ ++ [⟨bs, tag⟩] ∧ bs.length = 64 ∧
          natAt bs 4 1 = cause ∧ natAt bs 32 4 = code.toNat)
    (Eligible (.trap code) s → stops (.trap code) 1) ∧
    (Eligible (.brk code) s → (s.elem e).region.isSome = true → s.runOf e ∈ s.brkRuns → stops (.brk code) 2) ∧
    (Eligible (.brk code) s → s.runOf e ∉ s.brkRuns ∨ (s.elem e).region = none → FiresThen (.brk code) s {} fun t => t) ∧
    (Eligible .cutrq s → ∀ k r, s.regionOf e = some (k, r) → r.cut = none → r.cutAsked = none → r.gangId = none →
      Completes .cutrq s fun t => ∃ r' due, t.region? k = some r' ∧ r'.cutAsked = some (due, false, []) ∧
        s.tick < due ∧ due ≤ s.tick + 16 ∧ t.mem = ((Ctx.of s).commit .cutrq {}).mem ∧ t.spm = s.spm) ∧
    (Eligible (.evnt ev irq) s → Completes (.evnt ev irq) s fun t =>
      (∀ k r, s.regionOf e = some (k, r) → ∃ r', t.region? k = some r' ∧
        ∀ j < 256, r'.events.getLsbD j = (r.events.getLsbD j || decide (j = ev.toNat))) ∧
      (t.elem e).stopped = (s.elem e).stopped ∧
      (irq = false → (t.die d).trapQ = (s.die d).trapQ) ∧
      (irq = true → ∃ bs tag, (t.die d).trapQ = (s.die d).trapQ ++ [⟨bs, tag⟩] ∧ bs.length = 64 ∧ natAt bs 4 1 = 16 ∧
        natAt bs 32 4 = ev.toNat)) ∧
    (Eligible (.pwrh h) s → Completes (.pwrh h) s fun t => (t.tile (tileOf e)).hint = h ∧
      ∀ u, u ≠ tileOf e → t.tile u = s.tile u)

namespace Sys2Proof.Claims
open Sys2Proof.Machine

/-- A token is on its way to a port. -/
def OnItsWay (t : State) (p : Nat) (x : Tok) (ack : Option (Nat × Nat × BitVec 16)) : Prop :=
  ∃ k f, t.flights.get? k = some f ∧ f.port = p ∧ f.tok = x ∧ f.ack = ack

/-- The arm of a cell after the arms of one cycle, in their order (R162). -/
def armAfter (old : Option Nat) (i : Nat) (q : List JoinMsg) : Option Nat :=
  q.foldl (fun a m => if m.isUpdate = false ∧ m.cell = i then m.arm else a) old

/-- What the updates of one cycle add to a cell. -/
def addedTo (i : Nat) (q : List JoinMsg) : W :=
  q.foldl (fun a m => if m.isUpdate = true ∧ m.cell = i then a + m.delta else a) 0

end Sys2Proof.Claims

/-- R22, R153, R155 to R158, R161, R162: a token at the entry enters its queue, its spill ring or the divert output,
or waits; a spilled token comes back; a credit frees a slot; a CFG token writes its K register; a task packet enters
its port; the join unit applies arms, then updates, then tests the updated cells. Spill rings, diverts and the join
unit's timing follow log entries 21, 49 and 50. -/
def Obligations.ElementAndChannelSteps : Prop :=
  (∀ (s : State) (k : Nat) (f : Flight), s.flights.get? k = some f → s.atEntry k f = true →
    let p := f.port
    let x := s.port p
    let refused (b : Branch) : Prop := x.branch = some b ∧ f.ack = none ∧ f.tok.kind = .data ∧
      b.accept.getLsbD (E.tag f.tok.tag) = false
    ((∀ b, ¬refused b) → x.queue.length < 4 → x.spilled = [] → Completes (.tokenArrive k) s fun t =>
      t.flights = s.flights.del k ∧ (t.port p).queue = x.queue ++ [f.tok] ∧ (t.port p).win = x.win ∧
      (∀ q, q ≠ p → t.port q = s.port q) ∧ t.mem = s.mem ∧ t.spm = s.spm) ∧
    ((∀ b, ¬refused b) → (4 ≤ x.queue.length ∨ x.spilled ≠ []) → ∀ ring, x.ring = some ring →
      Completes (.tokenArrive k) s fun t => t.flights = s.flights.del k ∧ (t.port p).queue = x.queue ∧
        (t.port p).spilled = x.spilled ++ [f.tok.round]) ∧
    ((∀ b, ¬refused b) → (4 ≤ x.queue.length ∨ x.spilled ≠ []) → x.ring = none →
      Completes (.tokenArrive k) s fun t => t = s) ∧
    (∀ b o, refused b → b.divert = some o → s.outFree (portElem p) (portVc p) o = true →
      Completes (.tokenArrive k) s fun t => (t.port p).queue = x.queue ∧
        ∀ q ∈ s.outPorts (portKey (portElem p) (portVc p) o), isFar q = false → OnItsWay t q f.tok none) ∧
    (∀ b, refused b → b.divert = none → (s.elem (portElem p)).stopped = none → Completes (.tokenArrive k) s fun t =>
      t.flights = s.flights ∧ (t.elem (portElem p)).stopped.map (·.cause) = some 10)) ∧
  (∀ (t : Tok) (r : Nat), tokOf (tokBytes t) r = { t with round := r } ∧ (tokBytes t).length = 64) ∧
  (∀ (s : State) (e vc ch round rg i : Nat) (rest : List Nat), (s.port (portKey e vc ch)).ring = some (rg, i) →
    (s.port (portKey e vc ch)).spilled = round :: rest → (s.port (portKey e vc ch)).queue.length < 4 →
    Completes (.spillRefill e vc ch) s fun t => ∃ y,
      (t.port (portKey e vc ch)).queue = (s.port (portKey e vc ch)).queue ++ [y] ∧
      (t.port (portKey e vc ch)).spilled = rest ∧
      ((s.blockAt rg i 0).2 = false → (s.blockAt rg i 32).2 = false →
        y = tokOf ((s.blockAt rg i 0).1 ++ (s.blockAt rg i 32).1) round)) ∧
  (∀ (s : State) (k : Nat) (c : Credit), s.credits.get? k = some c → c.left = 0 → c.due ≤ s.clock →
    (∀ b, (s.port c.port).branch = some b → ∀ m ∈ (s.elem b.prod).heldMarks, m.2 ≠ c.port) →
    Completes (.creditReturn k) s fun t => t.credits = s.credits.del k ∧
      (t.port c.port).known = (s.port c.port).known - 1 ∧ (t.port c.port).win = (s.port c.port).win ∧
      t.flights = s.flights) ∧
  (∀ (s : State) (e vc ch : Nat) (y : Tok) (rest : List Tok), vc < 2 → ch < 8 →
    (s.port (portKey e vc ch)).queue = y :: rest → y.kind = .cfg → Completes (.cfgTokenApply e vc ch) s fun t =>
      (t.port (portKey e vc ch)).queue = rest ∧
      (∀ l < 8, ((t.elem e).k.get (y.stamp.toNat % 4)).get l =
        if bit y.lvm l then y.data.get l else ((s.elem e).k.get (y.stamp.toNat % 4)).get l) ∧
      ∀ n < 4, n ≠ y.stamp.toNat % 4 → (t.elem e).k.get n = (s.elem e).k.get n) ∧
  (∀ (s : State) (k : Nat) (f : PktFlight), s.packets.get? k = some f → f.left = 0 → f.due ≤ s.clock → (s.elem f.dest).tport.length < 8 →
    (∀ g ∈ s.packets, g.1 < k → ¬(g.2.dest = f.dest ∧ g.2.src = f.src)) → Completes (.taskPacketDeliver k) s fun t =>
      t.packets = s.packets.del k ∧ (t.elem f.dest).tport = (s.elem f.dest).tport ++ [f.pkt]) ∧
  (∀ (s : State) (rg : Nat) (r : Region), s.region? rg = some r → 0 < r.w → 0 < r.h →
    Completes (.joinUnitCycle rg) s fun t => ∃ r', t.region? rg = some r' ∧ r'.joinIn = [] ∧ ∀ i,
      let old := r.joins.getD i JoinCell.zero
      let new := r'.joins.getD i JoinCell.zero
      let arm := armAfter old.arm i r.joinIn
      new.val = old.val + addedTo i r.joinIn ∧
      new.arm = if (∃ m ∈ r.joinIn, m.isUpdate = true ∧ m.cell = i) ∧ new.val = 0 then none else arm)

/-- R68, R87 to R100, R249, R267: the granted lane of an operation performs at its home; a reply leaves with the lanes
of its operation; deferred full-empty lanes act in the order of their arrival as far as the word allows; a streaming
node sends its blocks in order, then EOS. Streaming nodes and deferred lanes follow log entries 20 and 27. -/
def Obligations.MemorySteps : Prop :=
  (∀ (s : State) (op l pa : Nat) (leaf : BitVec 64) (o : MemOp), s.ops.get? op = some o → l < 8 →
    o.lanes.get l = .granted pa leaf → (∀ j < 8, j ≠ l → ∀ q f, o.lanes.get j ≠ .granted q f) →
    (∀ i < Instr.bytes o.instr, s.place (o.acc s) leaf (o.addr l + i) (pa + i) = .home) →
    s.homeFull o leaf (o.addr l) pa = false →
    s.fc = [] → s.visitor = [] → (∀ d < 8, (s.die d).trctl = 0) → s.mem.wf = true → pa % Instr.bytes o.instr = 0 →
    let word (m : Mem) (a : Nat) : W := BitVec.ofNat 32 ((m.get a).toNat + (m.get (a + 1)).toNat * 256 +
      (m.get (a + 2)).toNat * 65536 + (m.get (a + 3)).toNat * 16777216)
    let seen := s.homeBytes (s.elem o.elem).region pa (Instr.bytes o.instr)
    (Instr.kind o.instr = .load → Completes (.memoryOpPerform op) s fun t => t.mem = s.mem ∧
      (o.reply.isSome = true → ∃ p, t.ops.get? op = some p ∧ p.lanes.get l = .done ∧
        match o.instr with
          | .ldb .. => ∀ j < 8, bit o.part j = true → p.vals.get j = BitVec.ofNat 32 (natAt seen (4 * j) 4)
          | .lds .. => ∀ j < 8, bit o.part j = true → p.vals.get j = BitVec.ofNat 32 (natAt seen 0 4)
          | _ => p.vals.get l = BitVec.ofNat 32 (natAt seen 0 4))) ∧
    (Instr.kind o.instr = .store → leaf.getLsbD 5 = false → Completes (.memoryOpPerform op) s fun t =>
      match o.instr with
      | .stb .. => (∀ j < 8, bit o.part j = true → ∀ i < 4, t.mem.get (pa + 4 * j + i) = byteOf (o.d.get j) i) ∧
          (∀ x, (∀ j < 8, bit o.part j = true → x < pa + 4 * j ∨ pa + 4 * j + 4 ≤ x) → t.mem.get x = s.mem.get x)
      | _ => (∀ i < Instr.bytes o.instr, t.mem.get (pa + i) = byteOf (o.d.get l) i) ∧
          (∀ x, (x < pa ∨ pa + Instr.bytes o.instr ≤ x) → t.mem.get x = s.mem.get x)) ∧
    (Instr.kind o.instr = .store → leaf.getLsbD 5 = true → (s.elem o.elem).region.isSome = true →
      Completes (.memoryOpPerform op) s fun t => t.mem = s.mem) ∧
    (Instr.kind o.instr = .atomic → leaf.getLsbD 5 = false → seen = s.mem.read pa 4 →
      Completes (.memoryOpPerform op) s fun t =>
        AtomicNew o (word s.mem pa) (o.d.get l) (o.d2.get l) (word t.mem pa) ∧
        (o.reply.isSome = true → ∃ p, t.ops.get? op = some p ∧ p.lanes.get l = .done ∧
          AtomicOld o (word s.mem pa) (o.d.get l) (p.vals.get l)) ∧
        (∀ x, (x < pa ∨ pa + 4 ≤ x) → t.mem.get x = s.mem.get x))) ∧
  (∀ (s : State) (rg : Option Nat) (pa n : Nat), pa % 64 + n ≤ 64 →
    (∀ x ∈ (s.tile (s.homeTile pa)).rnd, ¬(rg = some x.region ∧ x.pa = pa / 64)) →
    s.homeBytes rg pa n = s.mem.read pa n) ∧
  (∀ (s : State) (op n p : Nat) (o : MemOp), s.ops.get? op = some o → o.reply = some n → o.gated = true →
    o.lanesOver = true → s.replyBehind op o = false → s.replyPort o.elem o.plane n = some p →
    (s.portSpace (s.replyTile o) p = true → Completes (.replySend op) s fun t => t.ops = s.ops.del op ∧
      (t.port p).win = (s.port p).win + 1 ∧ ∃ y, OnItsWay t p y (some (o.elem, o.stream, o.ord)) ∧
        (o.poison = none → y.kind = .data ∧ y.tag = o.tag ∧ ∀ l < 8, bit y.lvm l = (bit o.part l && !bit o.gone l) ∧
          y.data.get l = if bit o.part l = true ∧ bit o.gone l = false then o.vals.get l else 0) ∧
        (∀ a, o.poison = some a → y.kind = .poison ∧ y.data.get 0 = BitVec.ofNat 32 a ∧
          y.data.get 1 = BitVec.ofNat 32 (a / 2 ^ 32))) ∧
    (s.portSpace (s.replyTile o) p = false → Completes (.replySend op) s fun t => t = s)) ∧
  (∀ (s : State) (pa : Nat), Completes (.feDeferredServe pa) s fun t =>
    t.nextDeferred pa = none ∨ ∃ d o leaf, t.nextDeferred pa = some d ∧ t.ops.get? d.op = some o ∧
      (∀ q f, o.lanes.get d.lane = .deferred q f → leaf = f) ∧ t.homeFull o leaf (o.addr d.lane) pa = true) ∧
  (∀ (s : State) (op l : Nat) (o : MemOp), s.ops.get? op = some o → l < 8 → o.lanes.get l = .returned 0 →
    Completes (.feLoadReissue op l) s fun t => ∃ p, t.ops.get? op = some p ∧ p.lanes.get l = .xlate ∧
      (∀ j < 8, j ≠ l → p.lanes.get j = o.lanes.get j) ∧ t.mem = s.mem ∧ t.feEmpty = s.feEmpty) ∧
  (∀ (s : State) (t n : Nat), n < 4 → (s.tile t).started = true → ((s.tile t).nodes.get n).mode = .streaming →
    ((s.tile t).nodes.get n).started = false → Completes (.streamNodeStart t n) s fun u =>
      (u.tile t).nodes.get n = { (s.tile t).nodes.get n with started := true }) ∧
  (∀ (s : State) (t n rg p : Nat) (r : Region), n < 4 → (s.tile t).region = some rg → s.region? rg = some r →
    s.replyPort (t * 32 + ((s.tile t).nodes.get n).owner) .work ((s.tile t).nodes.get n).reply = some p →
    s.portSpace t p = true →
    let x := (s.tile t).nodes.get n
    (x.markDue = true → Completes (.streamNodeSend t n) s fun u => ∃ y, y.kind = .mark ∧ OnItsWay u p y none ∧
      ((u.tile t).nodes.get n).markDue = false) ∧
    (x.markDue = false → x.stopCut = false → x.started = true → x.done = false →
      (∀ b rest, x.buf = b :: rest → Completes (.streamNodeSend t n) s fun u =>
        OnItsWay u p { b with round := r.nodeRound t n } none ∧
        ((u.tile t).nodes.get n).pos = x.posOf (x.index + 1)) ∧
      (x.buf = [] → x.blocks ≤ x.index → Completes (.streamNodeSend t n) s fun u =>
        ((u.tile t).nodes.get n).done = true ∧ ∃ y, y.kind = .eos ∧ y.lvm = 1 ∧ OnItsWay u p y none)))

namespace Sys2Proof.Claims
open Sys2Proof.Machine

/-- The lanes whose requests stand in a list are told: they look again, or are held under a tag (R65, R73). -/
def LanesTold (s t : State) (ws : List Req) (x : LaneSt) : Prop :=
  ∀ op l, (∃ q ∈ ws, q.who = .lane op l) → l < 8 → (s.ops.get? op).isSome = true →
    ∃ p, t.ops.get? op = some p ∧ p.lanes.get l = x

/-- What a fault record holds (R72). -/
def FaultRecord (b : List Byte) (p : PWalk) (r : XReason) (level tag policy : Nat) : Prop :=
  b.length = 32 ∧ natAt b 0 8 = p.va % 2 ^ 64 ∧ natAt b 8 4 = p.elid.toNat ∧ natAt b 12 2 = p.asid % 2 ^ 16 ∧
  natAt b 14 1 = p.acc.num ∧ natAt b 15 1 = r.num ∧ natAt b 16 1 = level % 256 ∧ natAt b 17 1 = policy ∧
  natAt b 20 4 = tag % 2 ^ 32

end Sys2Proof.Claims

/-- R57, R63 to R66, R68, R70 to R74: a lookup hits or asks its slice for a walk; a walk sets A and D and fills the
slice for the requests that the tables permit, and holds the others under one record, which voids the round of every region under VOID that has a request with it; a page in transit lets no walk
pass; FRESUME lets the held requests walk again and a rolled-back region replay its operations, or aborts, and what other regions
held there looks again; register writes
of the queue, of visitor ways and of shootdowns; shootdowns and page moves wait for the accesses that used the
translation. Shootdowns of global entries, the migrator's events and the walks that a slice counts are the model's
readings, log entries 25, 26 and 75. -/
def Obligations.TranslationSteps : Prop :=
  (∀ (s : State) (op l rg : Nat) (o : MemOp) (r : Region), s.ops.get? op = some o → l < 8 → o.lanes.get l = .xlate →
    s.regionOf o.elem = some (rg, r) →
    let va := r.cons.dbase + o.addr l
    let found := s.tlbFind (dieOf o.elem) r.asid va (OpKind.access (Instr.kind o.instr))
    let slice (w : PWalk) : Prop := w.tile = s.tlbTile (dieOf o.elem) r.asid va ∧ w.asid = r.asid ∧
      w.va / 65536 = va / 65536 ∧ ∃ q ∈ w.waiters, q.who = .lane op l
    (∀ lf, found = some lf → Completes (.tlbLookup op l) s fun t => ∃ p, t.ops.get? op = some p ∧
      p.lanes.get l = .port (lf.pa va) lf.bits ∧ t.mem = s.mem ∧ t.pwalks = s.pwalks) ∧
    (found = none → Completes (.tlbLookup op l) s fun t => ∃ p, t.ops.get? op = some p ∧
      (p.lanes.get l = .xlate ∨ (∃ k w, p.lanes.get l = .walking k ∧ t.pwalks.get? k = some w ∧ slice w) ∨
        ∃ k w why level tag, p.lanes.get l = .held tag ∧ t.pwalks.get? k = some w ∧ w.fault = some (why, level, tag) ∧
          slice w))) ∧
  (∀ (s : State) (k : Nat) (p : PWalk), s.pwalks.get? k = some p → p.fault = none →
    (s.inTransit p.die p.asid p.va = true → Completes (.pageWalk k) s fun t => t = s) ∧
    (s.inTransit p.die p.asid p.va = false →
      let fine := p.waiters.filter fun q => (s.fails p.die p.asid q).isNone
      let bad := p.waiters.filter fun q => (s.fails p.die p.asid q).isSome
      (bad = [] → Completes (.pageWalk k) s fun t => t.pwalks = s.pwalks.del k ∧ LanesTold s t p.waiters .xlate) ∧
      (∀ (q : Req) (lf : Leaf) (entry : Nat), p.waiters = [q] → s.walkTables p.die p.asid q.va = .ok lf entry →
        accessFault lf.bits q.acc = none → s.mem.wf = true → Completes (.pageWalk k) s fun t =>
          t.pwalks = s.pwalks.del k ∧ LanesTold s t p.waiters .xlate ∧
          (∃ x ∈ (t.tile (s.tlbTile p.die p.asid q.va)).tlb, x.asid = p.asid ∧ x.big = lf.big ∧
            x.vpn = (if lf.big then q.va / 2 ^ 29 else q.va / 65536) ∧
            t.mem.dword entry = x.leaf ∧
            ∀ j < 64, x.leaf.getLsbD j = (lf.bits.getLsbD j || decide (j = 6) || (decide (j = 7) && q.acc.writes))) ∧
          ∀ a, a < entry ∨ entry + 8 ≤ a → t.mem.get a = s.mem.get a) ∧
      (∀ (q : Req) (why : XReason) (level : Nat), bad.head? = some q → s.fails p.die p.asid q = some (why, level) →
        (∀ j y, s.pwalks.get? j = some y → j ≠ k → y.tile = p.tile → y.asid = p.asid → y.va / 65536 = p.va / 65536 →
          y.fault = none) → (∀ x ∈ s.pwalks, s.pwalks.get? x.1 = some x.2) →
        (∀ x ∈ fine, ∀ y ∈ bad, x.who ≠ y.who) → Completes (.pageWalk k) s fun t =>
          LanesTold s t fine .xlate ∧ (fine = [] → t.mem = s.mem) ∧
          (∃ tag w, tag < 2 ^ 30 ∧ LanesTold s t bad (.held tag) ∧ t.pwalks.get? k = some w ∧
            w.fault = some (why, level, tag) ∧ w.waiters = bad ∧ w.va = q.va ∧ w.acc = q.acc ∧ w.elid = q.elid) ∧
          (t.die p.die).xlateQ = (s.die p.die).xlateQ ++ [k]))) ∧
  (∀ (s : State) (d k level tag : Nat) (rest : List Nat) (p : PWalk) (why : XReason),
    (s.die d).xlateQ = k :: rest → s.pwalks.get? k = some p → p.fault = some (why, level, tag) →
    let log := (s.die d).fqctl.toNat % 256
    let full : Prop := log < 4 ∨ 16 < log ∨ ((s.die d).fqtail - (s.die d).fqhead).toNat = 2 ^ log
    let voids (q : Region) : Prop := q.cons.flags.testBit 0 = true
    (full → Completes (.translationFault d) s fun t => t = s) ∧
    (¬full → s.mem.wf = true → Completes (.translationFault d) s fun t =>
        (t.die d).xlateQ = rest ∧ (t.die d).fqtail = (s.die d).fqtail + 1 ∧ (t.die d).coreIrq = true ∧
        (∃ policy, FaultRecord
            (t.mem.read ((s.die d).fqbase.toNat / 32 % 2 ^ 47 * 32 + (s.die d).fqtail.toNat % 2 ^ log * 32) 32)
            p why level tag policy ∧
          (p.acc = .fetch → policy = 2) ∧ (p.acc ≠ .fetch → p.region = none → policy = 0) ∧
          ∀ rg q, p.acc ≠ .fetch → p.region = some rg → s.region? rg = some q →
            (voids q → policy = 1) ∧ (¬voids q → policy = 0)) ∧
        ∀ rg q, s.region? rg = some q → ∃ q', t.region? rg = some q' ∧
          let asks : Prop := (∃ x ∈ p.waiters, x.acc ≠ .fetch ∧ x.region = some rg) ∧ voids q ∧ q.voidTag ≠ some tag ∧
            ∀ v ∈ q.voidAsked, v.2.2.2 ≠ some tag
          (asks → q'.voidAsked = q.voidAsked ++ [(32, BitVec.ofNat 32 tag, 0, some tag)]) ∧
          (¬asks → q'.voidAsked = q.voidAsked))) ∧
  (∀ (s : State) (d tag k : Nat) (p : PWalk), s.faultOf d tag = some (k, p) → (∀ q ∈ s.regions, q.2.voidTag ≠ some tag) →
    Completes (.fresumeRetry d tag) s fun t => t.pwalks = s.pwalks.del k ∧ LanesTold s t p.waiters .xlate ∧
      t.mem = s.mem ∧ t.spm = s.spm) ∧
  (∀ (s : State) (d tag rg : Nat) (r : Region), s.regions = [(rg, r)] → r.voidTag = some tag →
    Completes (.fresumeRetry d tag) s fun t => t.mem = s.mem ∧ ∃ q, t.region? rg = some q ∧ q.voidTag = none ∧
      ∀ (n : Snapshot) (e : Nat) (v : ElemSave) (o : OpRec) (m : MemOp), r.snap = some n → n.elems = [(e, v)] → v.ops = [o] →
        o.entry = none → o.cmd = none → o.op = some m → r.replay = [] →
        (∀ k p, s.faultOf d tag = some (k, p) → ∀ q ∈ p.waiters, ∀ op l, q.who = .lane op l → op < s.nextId) → ∃ k x, t.ops.get? k = some x ∧ s.nextId ≤ k ∧ x.instr = m.instr ∧
          x.elem = m.elem ∧ x.ord = m.ord ∧ x.round = r.round ∧ ∀ l < 8, x.lanes.get l =
            if bit m.lanesMade l = true then .wait else .off) ∧
  (∀ (s : State) (d tag k rg : Nat) (p : PWalk) (r : Region) (w : Walk), s.faultOf d tag = some (k, p) →
    p.region = some rg → s.region? rg = some r → s.walks.get? r.walk = some w → w.phase ≠ .finished → w.phase ≠ .writing →
    (∀ q ∈ s.regions, q.2.voidTag ≠ some tag) → (∀ q ∈ p.waiters, ∀ x, q.who ≠ .shunter x) → Completes (.fresumeAbort d tag) s fun t =>
      (∃ w', t.walks.get? r.walk = some w' ∧ w'.phase = .writing ∧ w'.state = 2 ∧ w'.cause = 2) ∧ t.mem = s.mem ∧
      ∀ q ∈ p.waiters, ∀ op l o, q.who = .lane op l → l < 8 → t.ops.get? op = some o → o.lanes.get l = .xlate) ∧
  (∀ (s : State) (d : Nat) (v : W),
    (Completes (.fqheadWrite d v) s fun t => t = s.setDie d { s.die d with fqhead := v }) ∧
    (Completes (.fqctlWrite d v) s fun t => t = s.setDie d { s.die d with fqctl := BitVec.ofNat 32 (v.toNat % 256) }) ∧
    (Completes (.feretryRead d) s fun t => t.lastRead.toNat = (s.die d).feretry.toNat ∧ (t.die d).feretry = 0) ∧
    (Completes (.viscfgWrite d v) s fun t => t = s.setDie d
      (if (s.die d).visBusy = true ∨ v.toNat % 4 = 3 then s.die d
       else { s.die d with visBusy := true, visNew := BitVec.ofNat 2 v.toNat })) ∧
    ((s.die d).visBusy = true → Completes (.viscfgChangeDone d) s fun t => (t.die d).vways = (s.die d).visNew ∧
      (t.die d).visBusy = false ∧ ∀ x ∈ t.visitor, x.1 / 2 ^ 46 ≠ d) ∧
    ((s.die d).sdctl.getLsbD 31 = true → Completes (.sdctlWrite d v) s fun t => t = s) ∧
    ((s.die d).sdctl.getLsbD 31 = false → Completes (.sdctlWrite d v) s fun t =>
      (∀ j < 32, (t.die d).sdctl.getLsbD j =
        (v.getLsbD j && (decide (j < 12) || decide (16 ≤ j ∧ j < 28) || decide (j = 31)))) ∧
      t.mem = s.mem ∧ ∀ k, ∀ x ∈ (t.tile k).tlb, x ∈ (s.tile k).tlb ∧
        (v.getLsbD 31 = true → k < 2048 → v.getLsbD (20 + dieOfTile k) = true →
          shotBy (v.toNat % 2 ^ 28) (s.die d).sdva.toNat x.asid (if x.big then x.vpn * 2 ^ 29 else x.vpn * 65536)
            (x.leaf.getLsbD 8) x.big = false)) ∧
    ((s.die d).sdctl.getLsbD 31 = true → ((s.die d).sdWait.all fun x => !s.stillHolds x) = true →
      Completes (.shootdownComplete d) s fun t => (t.die d).sdctl.getLsbD 31 = false ∧
        ∀ j < 31, (t.die d).sdctl.getLsbD j = (s.die d).sdctl.getLsbD j)) ∧
  (∀ (s : State) (d asid vpn frame entry : Nat) (lf : Leaf), s.walkTables d asid (vpn * 65536) = .ok lf entry →
    lf.big = false → lkind lf.bits = 0 → lhome lf.bits = d → s.movablePage lf.bits = true →
    populated (frame * 65536) = true → isNear (frame * 65536) = true → isNear (pfn lf.bits * 65536) = false →
    paDie (frame * 65536) = Config.pkg * 8 + d → (s.die d).migUsed.length < (s.die d).migquota.toNat →
    (s.die d).holds frame = false → (s.die d).migEn = true → (s.die d).transit.length < 16 →
    (∀ m ∈ (s.die d).transit, ¬(m.asid = asid ∧ m.vpn = vpn ∧ m.frame = frame)) →
    (s.wantedPages d = [] ∨ (asid, vpn) ∈ s.wantedPages d) → s.visitor = [] → s.mem.wf = true →
    (entry + 8 ≤ frame * 65536 ∨ frame * 65536 + 65536 ≤ entry) →
    (s.lanesInto (pfn lf.bits) = [] → Completes (.migrationMove d asid vpn frame) s fun t =>
      (∀ i < 65536, t.mem.get (frame * 65536 + i) = s.mem.get (pfn lf.bits * 65536 + i)) ∧
      (t.die d).migUsed = (s.die d).migUsed ++ [(frame, asid, vpn)]) ∧
    (s.lanesInto (pfn lf.bits) ≠ [] → Completes (.migrationMove d asid vpn frame) s fun t =>
      t.mem = s.mem ∧ t.inTransit d asid (vpn * 65536) = true))

namespace Sys2Proof.Claims
open Sys2Proof.Machine

/-- The command stands in its entry with this property. -/
def CmdIs (t : State) (id : Nat) (P : Cmd → Prop) : Prop := ∃ k, t.cmd? id = some k ∧ P k

/-- A ring has taken n bytes at its tail, or given n at its head (R83). -/
def RingIs (t : State) (rg i : Nat) (P : Ring → Prop) : Prop := ∃ g, t.ring? rg i = some g ∧ P g

end Sys2Proof.Claims

/-- R105 to R112, R116, R118 to R120, R122, R124, R127, R130, R132, R194, R195, R268: a command reaches its unit, runs, moves
its bytes and ends once its writes are acknowledged; its completion token leaves; tender, island, ring and spill units act as
their rules say; gathers and scatters take their addresses from the indices; a sort puts its keys in order; an INT8 row of C
is the sum of products over CIN, modulo 2^32. The states of a command, the start of an island, the channel of the firing's
plane that SPILL names, and the reach of RINGI and RINGA over the rings of the region in any of its tiles are the model's
readings, log entries 44, 47, 21 and 46. -/
def Obligations.CommandSteps : Prop :=
  (∀ (s : State) (id : Nat) (c : Cmd), s.cmd? id = some c → c.st = .waiting → c.reached = false → c.owed = false →
    c.endStep = false → (∀ g ∈ c.gates, s.gateDone g = true) →
    (∀ o, s.openGates (id / 8) c.gates = some o →
      (∀ u, o.unitCause id c = .none → o.unitKey id c = some u →
        ((o.unitRun.getD u []).length < unitCap u → o.unitWait.getD u [] = [] → Completes (.commandStart id) s fun t =>
          t.unitRun.getD u [] = o.unitRun.getD u [] ++ [id] ∧ CmdIs t id fun k => k.st = .running ∧ k.accepted = true) ∧
        ((unitCap u ≤ (o.unitRun.getD u []).length ∨ o.unitWait.getD u [] ≠ []) → Completes (.commandStart id) s fun t =>
          t.unitWait.getD u [] = o.unitWait.getD u [] ++ [id] ∧ CmdIs t id fun k => k.st = .waiting ∧ k.reached = true)) ∧
      (o.unitCause id c ≠ .none → Completes (.commandStart id) s fun t => CmdIs t id fun k =>
        k.st = .running ∧ k.cause = o.unitCause id c)) ∧
    (s.openGates (id / 8) c.gates = none → Completes (.commandStart id) s fun t => CmdIs t id fun k => k = c)) ∧
  (∀ (s : State) (u id : Nat) (rest : List Nat) (c : Cmd), s.unitWait.getD u [] = id :: rest → s.cmd? id = some c →
    (s.unitRun.getD u []).length < unitCap u → Completes (.commandAccept u) s fun t =>
      t.unitRun.getD u [] = s.unitRun.getD u [] ++ [id] ∧ t.unitWait.getD u [] = rest ∧
      CmdIs t id fun k => k.st = .running ∧ k.accepted = true) ∧
  (∀ (s : State) (id rg i key : Nat) (c : Cmd) (st : Fin 8) (m : BitVec 8) (g : Fin 16) (q : Fin 32) (r : Ring),
    s.cmd? id = some c → s.cmdRegion id = some rg → c.st = .running → s.atWork id c = true → c.cause = .none →
    (c.instr = .ringi st m g → c.left = 0 → c.out = 0 → i = c.lane 0 % 2 ^ 16 → s.ring? rg i = some r →
      Completes (.engineBeat id) s fun t => (CmdIs t id fun k => k.out = 1) ∧ RingIs t rg i fun r' =>
        r'.head = c.desc.get 1 ∧ r'.tail = c.desc.get 2 ∧ r'.hpos = (c.desc.get 1).toNat % r.size ∧ r'.size = r.size) ∧
    (c.instr = .copy st m g q → isSp (c.lane 0) = true → c.overlaps = false → c.src = { Pieces.empty with granted := [0] } →
      c.wr = .empty → c.staged = [] → c.srcPos < c.issPos → c.srcPos < c.lane 2 → c.lane 2 < 2 ^ 31 →
      ∀ a n dst, offAddr (c.lane 0) c.srcPos 1 = some a → n = min (32 - a % 32) (c.lane 2 - c.srcPos) →
      offAddr (c.lane 1) c.srcPos n = some dst → s.engSp id a n .load = .inl key → Completes (.engineBeat id) s fun t =>
        t.spm = s.spm ∧ t.mem = s.mem ∧ CmdIs t id fun k => k.srcPos = c.srcPos + n ∧
          ∃ w, k.staged = [w] ∧ w.dst = dst ∧ w.bytes = s.spm.read key n ∧ w.poison = s.spmPoison key n ∧ w.age = 0) ∧
    (c.instr = .copy st m g q → c.src = .empty → c.idx = .empty → c.issPos = c.srcPos → s.spm.wf = true →
      ∀ w j a n, c.staged = [w] → c.wr.granted = [j] → (portPieces w.dst w.bytes.length)[j]? = some (a, n) → isSp a = true →
      s.engSp id a n .store = .inl key →
      ((cut key n).any fun p => s.undoFull (some rg) (s.elem (id / 8)).tokRound p.1) = false →
      Completes (.engineBeat id) s fun t => t.mem = s.mem ∧
        (∀ i < n, t.spm.get (key + i) = w.bytes.getD (a - w.dst + i) 0) ∧
        (∀ x, (x < key ∨ key + n ≤ x) → offUndo s key x → t.spm.get x = s.spm.get x) ∧
        CmdIs t id fun k => k.progress = c.progress + BitVec.ofNat 32 n ∧
          (c.wr.moved.length + 1 = (portPieces w.dst w.bytes.length).length → k.staged = [] ∧ k.out = c.out + w.bytes.length)) ∧
    (c.instr = .copy st m g q → ∀ w, c.staged = [w] → w.setOut = none → w.age < 2 → c.wr = .empty → c.src = .empty →
      c.idx = .empty → c.issPos = c.srcPos → c.srcPos = c.lane 2 → Completes (.engineBeat id) s fun t =>
        t.spm = s.spm ∧ t.mem = s.mem ∧ CmdIs t id fun k => k.staged = [w] ∧ k.wr = .empty)) ∧
  (∀ (s : State) (id pos x : Nat) (z ahead : Bool) (c : Cmd) (st : Fin 8) (m : BitVec 8) (g : Fin 16) (q : Fin 32) (e : Fin 5),
    s.indexOf id c ahead pos = some (x, z) →
    let n := 4 * 2 ^ e.val
    let k := min n 32
    ∀ a b, offAddr (c.lane 2 / k * k) (pos * n : Nat) n = some b →
      (c.instr = .gath st m g q e → offAddr (c.lane 0 / k * k) (x * n : Nat) n = some a → s.runAt id c ahead pos = .at_ a b n 1 z) ∧
      (c.instr = .scat st m g q e → offAddr (c.lane 0 / k * k) (x * n : Nat) n = some a → s.runAt id c ahead pos = .at_ b a n 1 z)) ∧
  (∀ c : Cmd,
    let kind := c.lane 3 / 2 ^ 16 % 4
    let own := c.lane 1 / 2 ^ 16 = 0xFFFF
    (sortedItems c).length = c.lane 2 ∧
    (sortedItems c).Pairwise (fun x y => if c.lane 3 / 2 ^ 18 % 2 = 1 then sortKey kind y.key ≤ sortKey kind x.key
      else sortKey kind x.key ≤ sortKey kind y.key) ∧
    (∀ i < c.lane 2, ∃ x ∈ sortedItems c, x.pos = i ∧ x.key = BitVec.ofNat 32 (natAt c.acc (4 * i) 4) ∧
      (own → x.idx = BitVec.ofNat 32 i) ∧ (¬own → x.idx = BitVec.ofNat 32 (natAt c.dec (4 * i) 4)))) ∧
  (∀ (s : State) (id : Nat) (c : Cmd), id < 2 ^ 20 → s.cmd? id = some c → c.st = .running →
    (∀ at_, c.ackBy = some at_ → at_ ≤ s.clock) →
    (c.cause = .none → c.complete = true → c.endStep = false → s.endBlocked id c .none = false →
      Completes (.commandFinish id) s fun t => CmdIs t id fun k =>
        k.st = .done ∧ k.performed = true ∧ k.tokenDue = c.reply.isSome ∧ k.progress = c.progress) ∧
    (c.cause = .none → c.endStep = true → c.stopped = true → s.endBlocked id c .none = false →
      Completes (.commandFinish id) s fun t => CmdIs t id fun k => k.st = .cancelled ∧ k.tokenDue = c.reply.isSome) ∧
    (c.cause = .none → c.complete = true → c.endStep = false → s.endBlocked id c .none = true →
      Completes (.commandFinish id) s fun t => CmdIs t id fun k => k = c) ∧
    (c.cause ≠ .none → c.drained = true → s.endBlocked id c c.cause = false → Completes (.commandFinish id) s fun t =>
      (CmdIs t id fun k => k.st = .faulted ∧ k.cause = c.cause ∧ k.tokenDue = c.reply.isSome) ∧
      (c.cause ≠ .xlate → c.cause ≠ .abandon → c.logged = false → (t.elem (id / 8)).stopped.map (·.cause) = some 9))) ∧
  (∀ (s : State) (id : Nat) (at_ : Int) (c : Cmd), s.cmd? id = some c → c.st = .running → c.ackBy = some at_ → s.clock < at_ →
    Completes (.commandFinish id) s fun t => t = s) ∧
  (∀ (s : State) (id q p : Nat) (c : Cmd), id < 2 ^ 20 → s.cmd? id = some c → c.reply = some q → c.over = true →
    c.tokenDue = true → (∀ k, some k ∈ (s.elem (id / 8)).cmds.toList → k.tokenDue = true → k.reply = some q →
      c.endSeq ≤ k.endSeq) → s.replyPort (id / 8) c.plane q = some p →
    (s.portSpace (s.unitTile id c) p = true → Completes (.completionTokenSend id) s fun t =>
      (CmdIs t id fun k => k.tokenDue = false) ∧ id % 8 ∈ (t.elem (id / 8)).free ∧
      ∃ y, OnItsWay t p y none ∧ y.kind = .data ∧ y.tag = .int32 ∧ y.lvm = 3 ∧ y.data.get 0 = c.status ∧
        y.data.get 1 = c.progress) ∧
    (s.portSpace (s.unitTile id c) p = false → Completes (.completionTokenSend id) s fun t => t = s)) ∧
  (∀ (s : State) (id rg f i : Nat) (c : Cmd) (st : Fin 8) (m : BitVec 8) (g : Fin 16) (q : Fin 32) (w : Staged)
      (rest : List Staged) (r : Ring), s.cmd? id = some c → s.cmdRegion id = some rg → c.instr = .strm st m g q false →
    c.st = .running → s.atWork id c = true → c.endStep = false → c.cause = .none → c.lane 5 / 2 ^ 16 % 2 = 0 →
    c.staged = w :: rest → c.branches = [f] → i = groupRing f c.wide c.out → s.ring? rg i = some r →
    (c.brGot = [] → c.brAsk = [] → rest = [] → s.branchLag id c c.out 0 ≤ w.age →
      Completes (.tenderBlockWrite id) s fun t => t.spm = s.spm ∧
        CmdIs t id fun k => k.brAsk = [(c.out, 0)] ∧ k.staged = c.staged) ∧
    (c.brGot = [] → c.brAsk = [] → rest = [] → w.age < s.branchLag id c c.out 0 →
      Completes (.tenderBlockWrite id) s fun t => t.spm = s.spm ∧ CmdIs t id fun k => k.brAsk = [] ∧ k.staged = c.staged) ∧
    (s.groupRoom rg f c.wide c.out 1 = true → (c.out, 0) ∈ c.brGot → w.bytes.length = 32 → s.spm.wf = true →
      Completes (.tenderBlockWrite id) s fun t => (CmdIs t id fun k => k.out = c.out + 1 ∧
        k.progress = c.progress + 32 ∧ k.staged = rest) ∧ t.spm.read (r.key r.occ) 32 = w.bytes ∧
        RingIs t rg i fun r' => r'.tail = r.tail + 32 ∧ r'.head = r.head) ∧
    (s.groupRoom rg f c.wide c.out 1 = false → (c.out, 0) ∈ c.brGot → rest = [] →
      Completes (.tenderBlockWrite id) s fun t => t.spm = s.spm ∧ t.regions = s.regions ∧ CmdIs t id fun k => k = c)) ∧
  (∀ (s : State) (id rg p : Nat) (c : Cmd) (st : Fin 8) (m : BitVec 8) (g : Fin 16) (q : Fin 32),
    s.cmd? id = some c → s.cmdRegion id = some rg → c.instr = .strm st m g q true →
    ((c.st = .running ∧ s.atWork id c = true) ∨ (c.st = .waiting ∧ c.endStep = true ∧ c.owed = false)) → c.cause = .none →
    c.eosSent = false → s.replyPort (id / 8) c.plane (c.lane 3 % 32) = some p → s.portSpace (s.unitTile id c) p = true →
    let f := c.lane 1 % 2 ^ 16
    ((c.endStep = true ∨ c.out = c.lane 2 / 32) → Completes (.tenderTokenSend id) s fun t =>
      (CmdIs t id fun k => k.eosSent = true) ∧ ∃ y, y.kind = .eos ∧ OnItsWay t p y none) ∧
    (c.endStep = false → c.out ≠ c.lane 2 / 32 → c.grR = false → Completes (.tenderTokenSend id) s fun t =>
      t.flights = s.flights ∧ CmdIs t id fun k => k.out = c.out) ∧
    (c.endStep = false → c.out ≠ c.lane 2 / 32 → c.grR = true → s.groupHolds rg f c.wide c.out 1 = true →
      Completes (.tenderTokenSend id) s fun t =>
        (CmdIs t id fun k => k.out = c.out + 1 ∧ k.progress = c.progress + 32) ∧
        ∃ y, OnItsWay t p y none ∧ ((s.blockAt rg (groupRing f c.wide c.out) 0).2 = false → y.kind = .data ∧
          y.lvm = 0xFF ∧ ∀ l < 8, y.data.get l =
            BitVec.ofNat 32 (natAt (s.blockAt rg (groupRing f c.wide c.out) 0).1 (4 * l) 4)))) ∧
  (∀ (s : State) (id rg n : Nat) (c : Cmd), s.cmd? id = some c → s.cmdRegion id = some rg → c.st = .running →
    s.atWork id c = true → c.begun = false → c.loading = true → c.left = 0 → c.cause = .none →
    (s.bBlocks rg c.mx = .ok n → Completes (.islandBLoadDone id) s fun t => CmdIs t id fun k =>
      k.begun = true ∧ k.loading = false ∧ k.cause = .none ∧
      k.acc = (s.groupRead rg c.mx.b.1 c.mx.b.2 0 n).flatMap (·.1)) ∧
    (s.bBlocks rg c.mx = .wait → Completes (.islandBLoadDone id) s fun t => t = s)) ∧
  (∀ (s : State) (id rg u : Nat) (c : Cmd), s.cmd? id = some c → s.cmdRegion id = some rg → c.st = .running →
    s.atWork id c = true → c.begun = true → c.busy = false → c.cause = .none → c.endStep = false → c.tile < c.count →
    s.sideBand rg = false → s.unitKey id c = some u →
    let m := c.mx
    let nr := c.rows c.tile
    let ready : Prop := s.groupHolds rg m.a.1 m.a.2 (c.tile * 64 * m.rbA / 32) (nr * m.rbA / 32) = true ∧
      s.groupRoom rg m.c.1 m.c.2 (c.tile * 64 * m.rbC / 32) (nr * m.rbC / 32) = true ∧
      ∀ x, m.cin = some x → s.groupHolds rg x.1 x.2 (c.tile * 64 * m.rbI / 32) (nr * m.rbI / 32) = true
    (ready → 0 < (s.island (u % 2 ^ 20)).pool → Completes (.islandTileBegin id) s fun t =>
      (t.island (u % 2 ^ 20)).pool = (s.island (u % 2 ^ 20)).pool - 1 ∧ CmdIs t id fun k => k.busy = true ∧ 31 ≤ k.left) ∧
    ((¬ready ∨ (s.island (u % 2 ^ 20)).pool = 0) → Completes (.islandTileBegin id) s fun t => t = s)) ∧
  (∀ (s : State) (id rg : Nat) (c : Cmd) (st : Fin 8) (m : BitVec 8) (g : Fin 16) (q : Fin 32), s.cmd? id = some c →
    s.cmdRegion id = some rg → c.st = .running → c.busy = true → c.left = 0 → c.instr = .mxmm st m g q →
    Completes (.islandTileEnd id) s fun t => CmdIs t id fun k => k.busy = false ∧ k.tile = c.tile + 1 ∧
      k.progress = c.progress + 1) ∧
  (∀ (c : Cmd) (m : Mx) (bv : List FVal) (arow irow : List Byte), m.fmt = 4 → ∀ n < m.n,
    (natAt (c.mxRow m bv arow irow).1 (4 * n) 4 : Int) = ((match m.cin with | some _ => (natAt irow (4 * n) 4 : Int) | none => 0) +
      ((List.range m.k).map fun k => sx 8 (natAt arow k 1) * sx 8 (natAt c.acc (k * m.rbB + n) 1)).sum) % 2 ^ 32) ∧
  (∀ (s : State) (id rg : Nat) (c : Cmd) (st : Fin 8) (m : BitVec 8) (g : Fin 16) (tail : Bool) (r : Ring),
    s.cmd? id = some c → s.cmdRegion id = some rg → c.instr = .ringa st m g tail → c.st = .running → c.left = 0 →
    c.out = 0 → c.cause = .none → s.ring? rg (c.lane 0 % 2 ^ 16) = some r →
    let n := c.lane 1
    let may : Prop := if tail then r.occ + n ≤ r.size else n ≤ r.occ
    (may → Completes (.ringaApply id) s fun t => (CmdIs t id fun k => k.out = 1) ∧ RingIs t rg (c.lane 0 % 2 ^ 16)
      fun r' => if tail then r'.tail = r.tail + c.desc.get 1 ∧ r'.head = r.head
        else r'.head = r.head + c.desc.get 1 ∧ r'.tail = r.tail ∧ r'.hpos = (r.hpos + n) % r.size) ∧
    (¬may → Completes (.ringaApply id) s fun t => t = s)) ∧
  (∀ (s : State) (id rg : Nat) (c : Cmd) (st : Fin 8) (m : BitVec 8) (g : Fin 16) (ch : Fin 6), s.cmd? id = some c →
    s.cmdRegion id = some rg → c.instr = .spill st m g ch → c.st = .running → c.left = 0 → c.out = 0 → c.cause = .none →
    s.spillEmpty (portKey (id / 8) (vcOf c.plane) ch.val) = true → Completes (.spillRingChange id) s fun t =>
      (CmdIs t id fun k => k.out = 1) ∧ (t.port (portKey (id / 8) (vcOf c.plane) ch.val)).ring =
        if c.lane 0 % 2 ^ 16 = 0xFFFF then none else some (rg, c.lane 0 % 2 ^ 16)) ∧
  (∀ (s o : State) (rg u k tile : Nat) (r : Region) (q : BitVec 16) (x : Byte), s.region? rg = some r →
    r.slpos < r.cons.scount → r.slHeld = none → s.fetchScale rg r = (some (u, q, x), o) →
    r.island? (u % 4096) = some (k, tile) →
    let given := if 32768 ≤ u then (o.island k).tseq.toNat + (o.island k).tband.length
      else (o.island k).iseq.toNat + (o.island k).iband.length
    let next (t : State) : Prop := ∃ r', t.region? rg = some r' ∧ r'.slpos = r.slpos + 1
    (o.scaleOrd r u r.slpos < given → Completes (.scaleEntryDeliver rg) s fun t => t.islands = o.islands ∧ next t) ∧
    (given ≤ o.scaleOrd r u r.slpos → u < 32768 → (o.island k).iband.length < 4 →
      Completes (.scaleEntryDeliver rg) s fun t => (t.island k).iband = (o.island k).iband ++ [(q, x)] ∧ next t) ∧
    (given ≤ o.scaleOrd r u r.slpos → 32768 ≤ u → (o.island k).tband.length < 4 →
      Completes (.scaleEntryDeliver rg) s fun t => (t.island k).tband = (o.island k).tband ++ [(q, x)] ∧ next t))

/-- R134, R135, R138 to R142, R144, R147, R344, R345: classes and the choice of a beat by least key; the beat of a command
or an operation may act, and at a port with two beats in a tick an idle one passes; windows end, beacons and subscriptions
travel and apply; pools are refilled. Which ports arbitrate is the model's reading, log entry 42. -/
def Obligations.ArbitrationSteps : Prop :=
  (∀ (s : State) (a : Nat) (x : Xfer), (s.slack a x = none → s.classOf a x = if x.late then 0 else 1) ∧
    (∀ k, s.slack a x = some k → s.classOf a x = if x.late = true ∨ k ≤ 0 then 0
      else if k ≤ ((arbwOf s x.region).toNat % 2 ^ 15 : Nat) then 2 else 3) ∧
    (∀ (w : W) (b : BeaconEnt), x.needid = some w → ((s.arb a).cache.find? fun b => b.needid == w) = some b →
      b.got = true → 0 < max b.rShort.toNat b.rLong.toNat → s.slack a x = some (max (-8388608) (min 8388607
        ((x.mark - b.value).toInt * 1024 / (max b.rShort.toNat b.rLong.toNat : Nat) -
          ((x.n * s.btn a + 63) / 64 : Nat)))))) ∧
  (∀ (s : State) (a : Nat) (l : List Xfer) (x : Xfer), s.pick a l = some x → x ∈ l ∧ ∀ y ∈ l, s.keyLt a y x = false) ∧
  (∀ (s : State) (a : Nat),
    (s.portOpen a = false → Completes (.arbiterBeat a) s fun t => t = s) ∧
    (s.portOpen a = true →
      (∀ x ∈ (s.arb a).xfers, ∀ w, x.needid = some w → ∃ b ∈ (s.arb a).cache, b.needid = w) →
      let passed := s.setArb a { s.arb a with moved := (s.arb a).moved + 1 }
      let moves (x : Xfer) (n : Nat) : Prop := (n = 1 ∧ s.choose a = some x) ∨
        (n = 2 ∧ s.choose a = none ∧ 2 ≤ s.beatsLeft a ∧ passed.choose a = some x)
      (s.choose a = none → (s.beatsLeft a = 1 ∨ (s.beatsLeft a = 2 ∧ passed.choose a = none)) →
        Completes (.arbiterBeat a) s fun t => t = s) ∧
      (∀ (x : Xfer) (n id : Nat) (c : Cmd), moves x n → x.what = .read id → s.cmd? id = some c →
        Completes (.arbiterBeat a) s fun t => (t.arb a).moved = (s.arb a).moved + n ∧
          (∀ y ∈ (t.arb a).xfers, y.what ≠ .read id) ∧ (CmdIs t id fun k => k.grR = true ∧ k.rd = false) ∧
          t.agenda = .act (s.readStep id) :: .ports :: s.agenda) ∧
      (∀ (x : Xfer) (n id i : Nat) (k : BeatKind) (c : Cmd), moves x n → x.what = .beat id k i → s.cmd? id = some c →
        Completes (.arbiterBeat a) s fun t => (t.arb a).moved = (s.arb a).moved + n ∧
          (CmdIs t id fun q => i ∈ (q.piecesAt k).granted ∧ i ∉ (q.piecesAt k).asked) ∧
          t.agenda = .act (.engineBeat id) :: .ports :: s.agenda) ∧
      (∀ (x : Xfer) (n id i j : Nat) (c : Cmd), moves x n → x.what = .branch id j i → s.cmd? id = some c →
        Completes (.arbiterBeat a) s fun t => (t.arb a).moved = (s.arb a).moved + n ∧
          (CmdIs t id fun q => (j, i) ∈ q.brGot ∧ (j, i) ∉ q.brAsk) ∧
          t.agenda = .act (.tenderBlockWrite id) :: .ports :: s.agenda) ∧
      (∀ (x : Xfer) (n op l key : Nat) (o : MemOp), moves x n → x.what = .lane op l → s.ops.get? op = some o →
        l < 8 → o.lanes.get l = .node key → Completes (.arbiterBeat a) s fun t =>
          (t.arb a).moved = (s.arb a).moved + n ∧
          ∃ p, t.ops.get? op = some p ∧ p.lanes.get l = .granted key 0 ∧ .act (.nodeRequestAccept op l) ∈ t.agenda))) ∧
  (∀ (s : State) (d : Nat), Completes (.rateWindowEnd d) s fun t => t.mem = s.mem ∧
    (∀ e, dieOf e ≠ d → t.elem e = s.elem e) ∧ ∀ e c, dieOf e = d → c < 4 →
      let g := (s.elem e).g.get c
      let h := (t.elem e).g.get c
      h.g = g.g ∧ h.s = 0 ∧ h.rShort.toNat = min (4 * g.s.toNat) (2 ^ 24 - 1) ∧
      h.rLong.toNat = (7 * g.rLong.toNat + min (4 * g.s.toNat) (2 ^ 24 - 1)) / 8) ∧
  (∀ (s : State) (e c : Nat),
    ((s.usable.get (dieOf e)).getLsbD (tileOf e % 256) = true → Completes (.beaconSend e c) s fun t =>
      ∀ a ∈ s.subs.getD (needFor e c).toNat [], ∃ k f, t.beacons.get? k = some f ∧ f.arb = a ∧ f.needid = needFor e c ∧
        f.value = ((s.elem e).g.get c).g ∧ f.rLong = ((s.elem e).g.get c).rLong ∧
        f.rShort = ((s.elem e).g.get c).rShort ∧ f.subscribe = false ∧
        f.due = s.tick + hops (tileOf e) (portTile a) + 32 * linksCrossed (tileOf e) (portTile a)) ∧
    ((s.usable.get (dieOf e)).getLsbD (tileOf e % 256) = false → Completes (.beaconSend e c) s fun t => t = s)) ∧
  (∀ (s : State) (k : Nat) (b : BeaconFlight), s.beacons.get? k = some b →
    (b.subscribe = false → Completes (.beaconApply k) s fun t => t.beacons = s.beacons.del k ∧
      ∀ x ∈ (t.arb b.arb).cache, x.needid = b.needid → x.got = true ∧ x.value = b.value ∧ x.rLong = b.rLong ∧
        x.rShort = b.rShort) ∧
    (b.subscribe = true → (∃ x ∈ (s.arb b.arb).cache, x.needid = b.needid) → Completes (.beaconSubscribe k) s fun t =>
      t.beacons = s.beacons.del k ∧ b.arb ∈ t.subs.getD b.needid.toNat [] ∧
      ∀ a ∈ s.subs.getD b.needid.toNat [], a ∈ t.subs.getD b.needid.toNat [])) ∧
  (∀ (s : State) (d tile : Nat) (x : Tile), s.tiles.get? tile = some x → dieOfTile tile = d → x.region = none →
    (∀ r ∈ s.regions, r.2.die = d → tile ∉ r.2.tiles) → Completes (.powerRefill d) s fun t =>
      (t.tile tile).tokens = (s.die d).ptgrant.getD (tile % 256) 32768 ∧ (t.tile tile).hint = .normal ∧ t.mem = s.mem) ∧
  (∀ (s : State) (d k : Nat) (r : Region), s.regions = [(k, r)] → r.die = d →
    (∀ tile ∈ r.tiles, (s.tile tile).hint = .normal) → Completes (.powerRefill d) s fun t => ∀ tile ∈ r.tiles,
      (t.tile tile).tokens = min ((s.die d).ptgrant.getD (tile % 256) 32768) 65535) ∧
  (∀ (l : List (Nat × Nat × Hint)) (tile g : Nat), (tile, g, Hint.low) ∈ l → (tile, min (g / 2) 65535) ∈ effective l) ∧
  (∀ (s : State) (d i : Nat) (x : Island), s.islands.get? i = some x → i / 64 = d → Completes (.powerRefill d) s fun t =>
    (t.island i).pool = (s.die d).islgrant.getD (i % 64) 64)

namespace Sys2Proof.Claims
open Sys2Proof.Machine

def WalkIs (t : State) (w : Nat) (P : Walk → Prop) : Prop := ∃ x, t.walks.get? w = some x ∧ P x
def RegionIs (t : State) (k : Nat) (P : Region → Prop) : Prop := ∃ r, t.region? k = some r ∧ P r

/-- The run is aborted: its completion record is due with STATE 2 and this cause (R283, R284). -/
def Aborted (t : State) (w cause : Nat) : Prop := WalkIs t w fun x => x.phase = .writing ∧ x.state = 2 ∧ x.cause = cause

/-- The walk stands n records on, at a record (R274). -/
def MovedOn (t : State) (w : Nat) (x : Walk) (n : Nat) : Prop := WalkIs t w fun y => y.phase = .fetch ∧ y.pc = x.pc + 32 * n

end Sys2Proof.Claims

/-- R269, R270, R272 to R275, R283, R284: launches are queued and become walks; each graph record does what its rule
says and the walk moves on, or the run ends with the cause of a record that cannot be acted on. Malformed records are
judged by log entry 57. -/
def Obligations.ShunterRecords : Prop :=
  (∀ (s : State) (d n : Nat) (v : BitVec 64), n < 4 →
    (((s.die d).launchQ.filter fun l => l.prio == n).length < 16 → Completes (.launchWrite d n v) s fun t => ∃ l,
      (t.die d).launchQ = (s.die d).launchQ ++ [l] ∧ l.prio = n ∧ l.desc = v.toNat / 32 % 2 ^ 47 * 32 ∧
      (t.die d).launched = (s.die d).launched + 1 ∧ (t.die d).ovf = (s.die d).ovf) ∧
    (16 ≤ ((s.die d).launchQ.filter fun l => l.prio == n).length → Completes (.launchWrite d n v) s fun t =>
      (t.die d).launchQ = (s.die d).launchQ ∧ ∀ j < 4, (t.die d).ovf.getLsbD j = ((s.die d).ovf.getLsbD j || decide (j = n)))) ∧
  (∀ (s : State) (d : Nat) (v : W), Completes (.lstatWrite d v) s fun t =>
    (t.die d).baddesc = ((s.die d).baddesc && !v.getLsbD 24) ∧ (t.die d).launchQ = (s.die d).launchQ ∧
    ∀ j < 4, (t.die d).ovf.getLsbD j = ((s.die d).ovf.getLsbD j && !v.getLsbD (20 + j))) ∧
  (∀ (s : State) (d : Nat) (l : Launch), nextLaunch (s.die d).launchQ = some l → (s.die d).shunterGated = false →
    s.boot.failure = 0 → (s.walks.filter fun w => w.2.die == d && !isOver w.2).length < 32 →
    let b := s.mem.read l.desc 32
    let okVa (n : Nat) : Prop := n % 32 = 0 ∧ n < 2 ^ 48
    let clean : Prop := okVa (natAt b 0 8) ∧ natAt b 16 2 < 2 ^ 12 ∧ natAt b 18 2 = 0 ∧ natAt b 24 8 = 0
    (¬okVa (natAt b 8 8) → Completes (.walkStart d) s fun t => t.walks = s.walks ∧ (t.die d).baddesc = true ∧
      (t.die d).coreIrq = true) ∧
    (okVa (natAt b 8 8) → clean → Completes (.walkStart d) s fun t => WalkIs t s.nextId fun x => x.die = d ∧
      x.phase = .fetch ∧ x.pc = natAt b 0 8 ∧ x.result = natAt b 8 8 ∧ x.asid = natAt b 16 2 ∧ x.run.toNat = natAt b 20 4 ∧
      x.prio = l.prio ∧ x.stack = [] ∧ x.region = none) ∧
    (okVa (natAt b 8 8) → ¬clean → Completes (.walkStart d) s fun t => Aborted t s.nextId 7)) ∧
  (∀ (rel : Nat) (v c : W), rel < 7 → (relHolds rel v c = true ↔ match rel with
    | 0 => v = c | 1 => v ≠ c | 2 => v.toNat < c.toNat | 3 => c.toNat ≤ v.toNat | 4 => v.toInt < c.toInt
    | 5 => c.toInt ≤ v.toInt | _ => True)) ∧
  (∀ (s s' : State) (w : Nat) (x : Walk) (b : List Byte), s.recordAt w 1 = some (x, b, s') →
    ((consistOf b).reservedOk = false → Completes (.consistRecord w) s fun t => Aborted t w 7) ∧
    ((consistOf b).reservedOk = true → (consistOf b).isGang = false → s'.runInTransit x.die x.asid x.pc 32 = false →
      ∀ all s2, s'.fetchVirt x.die x.asid x.pc 32 = some (all, s2) →
      let y := { x with record := all }
      (y.cons 0).reservedOk = true → natAt all 0 1 = 1 →
      ((y.cons 0).limitsOk none = false → Completes (.consistRecord w) s fun t => WalkIs t w fun z =>
        z.phase = .ending ∧ z.state = 3 ∧ z.reason = Reason.code .table) ∧
      (∀ l s3, (y.cons 0).limitsOk none = true → x.region = none →
        (s2.modWalk w fun z => { z with record := all }).headInTransit y (y.cons 0) = false →
        (s2.modWalk w fun z => { z with record := all }).shapesOf y [y.cons 0] = .inr (l, s3) →
        Completes (.consistRecord w) s fun t => WalkIs t w fun z => z.phase = .placing ∧ z.record = all))) ∧
  (∀ (s s' s2 : State) (w k : Nat) (x : Walk) (b ds : List Byte) (r : Region), s.recordAt w 2 = some (x, b, s') →
    recordOk b = true → x.region = some k → s'.region? k = some r →
    s'.runInTransit x.die x.asid (r.cons.dbase + natAt b 4 4) (32 * natAt b 1 1) = false →
    s'.fetchVirt x.die x.asid (r.cons.dbase + natAt b 4 4) (32 * natAt b 1 1) = some (ds, s2) →
    (∀ i < natAt b 1 1, mxmmOk ((Oct.of fun l => BitVec.ofNat 32 (natAt ds (32 * i + 4 * l) 4)).set 3
      (BitVec.ofNat 32 (natAt ds (32 * i + 12) 4 / 65536 * 65536 + 1))) = true) →
    Completes (.armRecord w) s fun t => MovedOn t w x 1 ∧
      (∀ i < natAt b 1 1, ∃ id c, t.armed.get? id = some c ∧ t.armedOf.get? id = some k ∧ c.count = natAt b 8 4 ∧
        ∀ l < 8, c.desc.get l = BitVec.ofNat 32 (natAt ds (32 * i + 4 * l) 4)) ∧
      (32768 ≤ natAt b 2 2 → RegionIs t k fun q => ∀ j, j = natAt b 2 2 % 512 →
        (q.joins.getD j JoinCell.zero).val = (r.joins.getD j JoinCell.zero).val + BitVec.ofNat 32 (natAt b 1 1))) ∧
  (∀ (s s' : State) (w : Nat) (x : Walk) (b : List Byte), s.recordAt w 3 = some (x, b, s') →
    ((recordOk b = false ∨ ((natAt b 1 1 = 0 ∨ natAt b 1 1 = 2) ∧ s'.current x = none)) →
      Completes (.waitRecord w) s fun t => Aborted t w 7) ∧
    (recordOk b = true → (natAt b 1 1 = 1 ∨ natAt b 1 1 = 3 ∨ (s'.current x).isSome = true) →
      Completes (.waitRecord w) s fun t => WalkIs t w fun y => y.phase = .waiting s.tick false ∧ y.record = b ∧ y.pc = x.pc)) ∧
  (∀ (s s2 : State) (w polled : Nat) (x : Walk) (v : List Byte), s.walks.get? w = some x → x.phase = .waiting polled false →
    natAt x.record 1 1 = 1 → x.held = none → polled ≤ s.tick →
    s.shunterRead w x (natAt x.record 16 8) 4 = (some v, s2) → Completes (.waitPoll w) s fun t => WalkIs t w fun y =>
      y.phase = .waiting (s.tick + 1024) (relHolds (natAt x.record 12 1)
        (BitVec.ofNat 32 (leNat v) &&& BitVec.ofNat 32 (natAt x.record 8 4)) (BitVec.ofNat 32 (natAt x.record 4 4)))) ∧
  (∀ (s : State) (w polled : Nat) (ready : Bool) (x : Walk), s.walks.get? w = some x → x.phase = .waiting polled ready →
    (s.waitOver x ready = true → Completes (.waitRelease w) s fun t => MovedOn t w x 1 ∧
      ∀ k r, x.region = some k → s.region? k = some r → natAt x.record 1 1 = 2 → RegionIs t k fun q =>
        ∀ j < 256, q.events.getLsbD j = (r.events.getLsbD j && !decide (j = natAt x.record 13 1))) ∧
    (s.waitOver x ready = false → Completes (.waitRelease w) s fun t => t = s)) ∧
  (∀ (s s' : State) (w k : Nat) (x : Walk) (b : List Byte) (r : Region), s.recordAt w 4 = some (x, b, s') →
    recordOk b = true → x.region = some k → s'.region? k = some r →
    ((r.phase = .completing ∨ r.phase = .complete) → Completes (.cutRecord w) s fun t => MovedOn t w x 1) ∧
    (r.phase = .running → r.cut = none → r.cutAsked = none → r.gangId = none → Completes (.cutRecord w) s fun t =>
      (WalkIs t w fun y => y.phase = .cutting) ∧ RegionIs t k fun q => ∃ due l,
        q.cutAsked = some (due, decide (natAt b 1 1 = 1), l) ∧ .walk w ∈ l ∧ s.tick < due ∧ due ≤ s.tick + 16)) ∧
  (∀ (s s' : State) (w : Nat) (x : Walk) (b : List Byte), s.recordAt w 5 = some (x, b, s') → recordOk b = true →
    ((natAt b 1 1 = 0 ∨ natAt b 1 1 = 2) → Completes (.signalRecord w) s fun t => MovedOn t w x 1 ∧ t.mem = s'.mem ∧
      (t.die x.die).coreIrq = ((s.die x.die).coreIrq || decide (natAt b 1 1 = 2))) ∧
    (∀ lf s2, (natAt b 1 1 = 1 ∨ natAt b 1 1 = 3) → s'.inTransit x.die x.asid (natAt b 16 8) = false →
      s'.slicePass x.die x.asid (natAt b 16 8) .store = .inr (lf, s2) → s2.mem.wf = true → (∀ d < 8, (s.die d).trctl = 0) →
      Completes (.signalRecord w) s fun t => MovedOn t w x 1 ∧
        (∀ i < 4, t.mem.get (lf.pa (natAt b 16 8) + i) = b.getD (4 + i) 0) ∧
        (natAt b 1 1 = 3 → (t.die x.die).coreIrq = true))) ∧
  (∀ (s s' s2 : State) (w : Nat) (x : Walk) (b v : List Byte), s.recordAt w 6 = some (x, b, s') → recordOk b = true →
    s'.shunterRead w x (natAt b 16 8) 4 = (some v, s2) → Completes (.branchRecord w) s fun t => WalkIs t w fun y =>
      y.phase = .fetch ∧ y.pc = if relHolds (natAt b 1 1) (BitVec.ofNat 32 (leNat v) &&& BitVec.ofNat 32 (natAt b 8 4))
        (BitVec.ofNat 32 (natAt b 4 4)) then natAt b 24 8 else x.pc + 32) ∧
  (∀ (s s' : State) (w : Nat) (x : Walk) (b : List Byte), s.recordAt w 7 = some (x, b, s') → recordOk b = true →
    (x.stack.length < 16 → Completes (.callRecord w) s fun t => WalkIs t w fun y => y.pc = natAt b 24 8 ∧
      y.stack = (x.pc + 32) :: x.stack ∧ y.phase = .fetch) ∧
    (16 ≤ x.stack.length → Completes (.callRecord w) s fun t => Aborted t w 6)) ∧
  (∀ (s s' : State) (w : Nat) (x : Walk) (b : List Byte), s.recordAt w 8 = some (x, b, s') → recordOk b = true →
    (∀ a rest, x.stack = a :: rest → Completes (.returnRecord w) s fun t => WalkIs t w fun y => y.pc = a ∧
      y.stack = rest ∧ y.phase = .fetch) ∧
    (x.stack = [] → Completes (.returnRecord w) s fun t => Aborted t w 6)) ∧
  (∀ (s s' : State) (w : Nat) (x : Walk) (b : List Byte), s.recordAt w 9 = some (x, b, s') →
    Completes (.endRecord w) s fun t => if recordOk b then WalkIs t w fun y => y.phase = .ending ∧ y.state = 1
      else Aborted t w 7) ∧
  (∀ (s : State) (w : Nat) (x : Walk), s.walks.get? w = some x → x.phase = .ending → x.region = none →
    Completes (.endRecord w) s fun t => WalkIs t w fun y => y.phase = .writing ∧ y.state = x.state) ∧
  (∀ (s s2 : State) (w : Nat) (x : Walk) (lf : Leaf), s.walks.get? w = some x → x.phase = .writing → x.held = none →
    s.inTransit x.die x.asid x.result = false → s.slicePass x.die x.asid x.result .store = .inr (lf, s2) → s2.mem.wf = true →
    (∀ d < 8, (s.die d).trctl = 0) → Completes (.endRecord w) s fun t => t.walks = s.walks.del w ∧
      (t.die x.die).coreIrq = true ∧ t.mem.get (lf.pa x.result) = BitVec.ofNat 8 x.state ∧
      t.mem.get (lf.pa x.result + 1) = BitVec.ofNat 8 x.cause)

/-- R16, R85, R271, R276, R279 to R283, R285, R313: placement takes the lowest rectangle, gangs reserve and commit,
images are fetched, elements swap, banks and start tokens pass, a consist completes; GABORT and urgent launches act.
The moment of completion and of T0 of a gang are the model's readings, log entries 54 and 56. -/
def Obligations.LoadingSteps : Prop :=
  (∀ (s : State) (d w h edges : Nat) (tr tc : Nat), s.findRect d w h edges (fun _ => true) = some (tr, tc) →
    tr < 16 ∧ tc < 16 ∧ s.rectOk d w h edges (fun _ => true) tr tc = true ∧
    ∀ a b, a < 16 → b < 16 → a * 16 + b < tr * 16 + tc → s.rectOk d w h edges (fun _ => true) a b = false) ∧
  (∀ (s : State) (w : Nat) (x : Walk), s.walks.get? w = some x → x.phase = .placing →
    (x.region.isSome = true → s.consistOver x = true → Completes (.placementAttempt w) s fun t =>
      WalkIs t w fun y => y.phase = .placing ∧ y.region = none) ∧
    (x.region.isSome = true → s.consistOver x = false → Completes (.placementAttempt w) s fun t => t = s) ∧
    (∀ wh s1, x.region = none → (x.cons 0).isGang = false → ((x.cons 0).fixed = false ∨ (x.cons 0).pkg = Config.pkg) →
      s.headInTransit x (x.cons 0) = false → s.shapeOf x (x.cons 0) = .inr (wh, s1) →
      (∀ k s2, s1.takeRect w x 0 .loading wh (fun _ => true) = some (k, s2) → Completes (.placementAttempt w) s fun t =>
        (WalkIs t w fun y => y.phase = .loading k ∧ y.gang = [k]) ∧ RegionIs t k fun r => r.walk = w ∧
          r.w = wh.1 ∧ r.h = wh.2 ∧ r.phase = .loading ∧ ∀ tile ∈ r.tiles, (t.tile tile).region = some k) ∧
      (s1.takeRect w x 0 .loading wh (fun _ => true) = none → Completes (.placementAttempt w) s fun t =>
        WalkIs t w fun y => y.phase = .placing ∧ y.region = none))) ∧
  (∀ (s s1 s2 : State) (w m k : Nat) (x : Walk) (left : List Nat) (wh : Nat × Nat), s.walks.get? w = some x →
    x.phase = .gang left → m ∈ left → (∃ j ∈ left, j ≠ m) → (x.cons m).pkg = Config.pkg →
    x.blocked = false → s.headInTransit x (x.cons m) = false → s.shapeOf x (x.cons m) = .inr (wh, s1) → s1.takeRect w x m .reserved wh (fun _ => true) = some (k, s2) →
    Completes (.gangReserve w m) s fun t =>
      (WalkIs t w fun y => y.phase = .gang (left.filter fun j => decide (j ≠ m)) ∧ y.gang = x.gang ++ [k]) ∧
      RegionIs t k fun r => r.phase = .reserved ∧ r.walk = w) ∧
  (∀ (s : State) (w : Nat) (x : Walk), s.walks.get? w = some x → x.gang ≠ [] →
    (∀ k ∈ x.gang, ∃ r, s.region? k = some r ∧ r.phase = .banks ∧ r.gangId.isSome = true ∧ s.banksHeld r = true) →
    Completes (.gangCommit w) s fun t => ∀ k ∈ x.gang, RegionIs t k fun r => r.phase = .starting ∧
      r.t0 = s.tick ∧ r.t0At = s.afterNs 2000) ∧
  (∀ (s : State) (w k q : Nat) (x : Walk) (r : Region), s.walks.get? w = some x → x.phase = .loading q → x.gang = [k] →
    s.region? k = some r → r.phase = .loading → r.next = none → r.image = none → r.gangId = none → (x.cons 0).isGang = false →
    s.loadInTransit x = false → (∀ im s1, s.fetchImage r (x.cons 0) [] = .inr (im, s1) → Completes (.imagePrefetch w) s fun t =>
      RegionIs t k fun r' => r'.image = some im ∧ r'.cons = x.cons 0) ∧
    (∀ f, s.fetchImage r (x.cons 0) [] = .inl f → f.reason ≠ .fetch → Completes (.imagePrefetch w) s fun t =>
      WalkIs t w fun y => y.phase = .ending ∧ y.state = 3 ∧ y.reason = f.reason.code ∧ y.slot = f.slot)) ∧
  (∀ (s : State) (e k : Nat) (r : Region) (y : Consist × ImageRec), (s.tile (tileOf e)).region = some k →
    s.region? k = some r → r.coming = some y → (∃ m ∈ r.members y.2.bytes, m.1 = e) →
    Completes (.planeReady e) s fun t => (t.elem e).ready = true) ∧
  (∀ (s : State) (e k : Nat) (r : Region), (s.tile (tileOf e)).region = some k → s.region? k = some r →
    r.phase = .swapping → (s.elem e).ready = true → (s.elem e).inS = false →
    (r.next = none ∨ (s.reconReady e = true ∧ (s.elem e).inflight = [])) → Completes (.planeSwap e) s fun t =>
      ((∃ m ∈ r.members r.newBytes, m.1 = e) → (t.elem e).onB = !(s.elem e).onB ∧ (t.elem e).region = some k ∧
        (t.elem e).fires = 0 ∧ (t.elem e).estat = 0 ∧ (t.elem e).wr.v = Hex.rep VReg.zero ∧ (t.elem e).wr.p = Oct.rep 0 ∧
        (t.elem e).g = Quad.rep Counter.zero ∧ (t.elem e).ended = false ∧ (t.elem e).sr = (s.elem e).sr) ∧
      ((∀ m ∈ r.members r.newBytes, m.1 ≠ e) → (t.elem e).region = none ∧ (t.elem e).ended = true)) ∧
  (∀ (s : State) (k tile b : Nat) (r : Region) (im : ImageRec), b < 16 → s.region? k = some r → r.phase = .banks →
    r.image = some im → tile ∈ r.tiles → ((s.tile tile).banks.get b).token = false →
    Completes (.bankTokenGrant k tile b) s fun t => ((t.tile tile).banks.get b).token = true ∧
      (¬(((s.tile tile).banks.get b).clean = true ∧ ((s.tile tile).banks.get b).run = some r.walk) →
        ∀ off < 65536, t.spm.get (spmKey tile b off) = 0) ∧
      (((s.tile tile).banks.get b).clean = true → ((s.tile tile).banks.get b).run = some r.walk → t.spm = s.spm)) ∧
  (∀ (s : State) (k tile due : Nat) (r : Region), s.region? k = some r → r.phase = .starting → tile ∈ r.tiles →
    (s.tile tile).startDue = some due → due ≤ s.tick → Completes (.startTokenArrive k tile) s fun t =>
      (t.tile tile).started = true ∧ (t.tile tile).startDue = none) ∧
  (∀ (s : State) (k : Nat) (r : Region), s.region? k = some r → r.phase = .running → r.voidAsked = [] → r.voidTag = none →
    s.consistDone k r = true → Completes (.consistComplete k) s fun t =>
      (RegionIs t k fun q => q.phase = .completing ∧ q.round = r.round + 1 ∧ q.undo = [] ∧ q.log = [] ∧ q.cut = none) ∧
      ∀ tile, (∀ l ∈ (t.tile tile).rnd, ¬(l.region = k ∧ (l.round = r.round ∨ l.round = r.round + 1))) ∧
        ∀ w ∈ (t.tile tile).watches, w.region ≠ k) ∧
  (∀ (s : State) (k tile : Nat) (r : Region), s.region? k = some r → r.phase = .completing → tile ∈ r.tiles →
    (s.tile tile).passed = false → Completes (.completionTokenPass k tile) s fun t =>
      (∀ l ∈ t.fc, l.1 / 16384 ≠ tile) ∧ ∀ b < 16, ((t.tile tile).banks.get b).clean = true ∧
        ((t.tile tile).banks.get b).run = some r.walk ∧ ((t.tile tile).banks.get b).role = .unused) ∧
  (∀ (s : State) (d w : Nat) (run : W) (x : Walk), s.walks.get? w = some x → x.die = d → x.run = run →
    x.phase ≠ .finished → (x.phase = .writing → x.state ≠ 2) → Completes (.gabort d run) s fun t => Aborted t w 1) ∧
  (∀ (s : State) (d : Nat) (v : W), (s.die d).lurg.getLsbD 31 = false → v.getLsbD 31 = true →
    let n := v.toNat
    let inside : Prop := n / 2 ^ 12 % 16 + n / 2 ^ 4 % 16 + 1 ≤ 16 ∧ n / 2 ^ 8 % 16 + n % 16 + 1 ≤ 16
    (¬inside → Completes (.urgentLaunch d v) s fun t => (t.die d).lurg = (s.die d).lurg ∧ t.elems = s.elems) ∧
    (inside → Completes (.urgentLaunch d v) s fun t => ∀ i j er ec, i ≤ n / 2 ^ 4 % 16 → j ≤ n % 16 → er < 4 → ec < 8 →
      let e := elemAt (d * 256 + (n / 2 ^ 12 % 16 + i) * 16 + n / 2 ^ 8 % 16 + j) er ec
      (s.elem e).planeS.valid ≠ 0 → (t.elem e).urgent = true ∧ (t.die d).lurg.getLsbD 31 = true)) ∧
  (∀ (s : State) (e : Nat), (s.elem e).urgent = true → Completes (.planeSSwitch e) s fun t => (t.elem e).urgent = false ∧
    (t.elem e).inS = true ∧ (t.elem e).wr = (s.elem e).wr ∧
    ((s.elem e).inS = false → (t.elem e).sr.jord = (s.elem e).planeS.order ∧ (t.elem e).sr.v = (s.elem e).sr.v))

namespace Sys2Proof.Claims
open Sys2Proof.Machine

/-- A cut has been asked for the region: it starts within 16 ticks (R288). -/
def CutAsked (s t : State) (k : Nat) (stop : Bool) (who : CutFor → Prop) : Prop := RegionIs t k fun r => ∃ due l,
  r.cutAsked = some (due, stop, l) ∧ s.tick < due ∧ due ≤ s.tick + 16 ∧ ∃ x, x ∈ l ∧ who x

/-- A region of a run that stands alone, with no cut asked for or open. -/
def NoCut (r : Region) : Prop := r.cut = none ∧ r.cutAsked = none ∧ r.gangId = none

end Sys2Proof.Claims

/-- R288 to R294, R299, R303, R314 to R318: the timer asks for a cut; it starts, elements save, it completes or times
out; a void takes the region back to its restore point; PCTL pre-empts, dumps, voids and restores the members that
this package holds. Cut requests, STOP
and PCTL follow log entries 51, 52 and 62. -/
def Obligations.CutSteps : Prop :=
  (∀ (s : State) (k : Nat) (r : Region), s.region? k = some r → NoCut r → s.running r = true → r.voidTag = none →
    s.quiet k = false →
    (r.lastCut + 2 ^ (if r.cons.flags / 8 % 32 = 0 then 17 else r.cons.flags / 8 % 32) ≤ s.tick →
      Completes (.roundTimerExpiry k) s fun t => RegionIs t k fun q => ∃ due, q.cutAsked = some (due, false, []) ∧
        s.tick < due ∧ due ≤ s.tick + 16) ∧
    (s.tick < r.lastCut + 2 ^ (if r.cons.flags / 8 % 32 = 0 then 17 else r.cons.flags / 8 % 32) →
      Completes (.roundTimerExpiry k) s fun t => t = s)) ∧
  (∀ (s : State) (k due : Nat) (stop : Bool) (who : List CutFor) (r : Region), s.region? k = some r →
    r.cutAsked = some (due, stop, who) → r.cut = none → r.voidTag = none → s.running r = true → due ≤ s.tick →
    Completes (.cutStart k) s fun t => (RegionIs t k fun q => q.cutAsked = none ∧ ∃ c, q.cut = some c ∧ c.start = s.tick ∧
      c.stop = stop ∧ c.waits = who ∧ c.elems = [] ∧ c.rings = r.rings) ∧
      ∀ tile ∈ r.tiles, ∀ n < 4, ((s.tile tile).nodes.get n).mode = .streaming →
        ((t.tile tile).nodes.get n).markDue = true) ∧
  (∀ (s : State) (e k : Nat) (r : Region) (c : Cut), s.regionOf e = some (k, r) → r.cut = some c → s.canSave e = true →
    Completes (.elementSave e) s fun t => (t.elem e).savedCut = some c.start ∧ (t.elem e).sinceSave = 0 ∧
      RegionIs t k fun q => ∃ c' v, q.cut = some c' ∧ c'.elems.get? e = some v ∧ v.wr = (s.elem e).wr ∧
        v.k = (s.elem e).k ∧ v.streams = (s.elem e).streams ∧ v.estat = (s.elem e).estat ∧ v.ended = (s.elem e).ended ∧
        ∀ n < 4, v.g.get n = ((s.elem e).g.get n).g) ∧
  (∀ (s : State) (k : Nat) (r : Region) (c : Cut), s.region? k = some r → r.gangId = none → r.voidAsked = [] →
    r.cut = some c → c.waits = [] → s.cutDone k r c = true → Completes (.cutComplete k) s fun t => RegionIs t k fun q =>
      q.cut = none ∧ q.round = r.round + 1 ∧ q.lastCut = s.tick ∧ q.half = !r.half ∧
      (∃ n, q.snap = some n ∧ n.elems = c.elems ∧ n.rings = c.rings) ∧ ∀ l ∈ q.log, r.round < l.round) ∧
  (∀ (s : State) (k : Nat) (r : Region) (c : Cut), s.region? k = some r → r.cut = some c → c.timedOut = false →
    s.quiet k = false → c.start + max 1 ((s.die r.die).cutcfg.toNat % 2 ^ 16) * 1024 ≤ s.tick →
    Completes (.cutTimeout k) s fun t => (RegionIs t k fun q => ∃ c', q.cut = some c' ∧ c'.timedOut = true) ∧
      ∀ e ∈ s.regionElems k, c.elems.get? e = none → ∃ x ∈ (t.die (dieOf e)).trapQ, natAt x.bytes 4 1 = 18 ∧
        natAt x.bytes 0 4 = (elidOf e).toNat) ∧
  (∀ (s : State) (k : Nat) (r : Region) (n : Snapshot), s.region? k = some r → r.gangId = none → r.voidAsked ≠ [] →
    s.running r = true → (∀ e ∈ s.regionElems k, (s.elem e).inS = false) → r.snap = some n →
    Completes (.roundVoid k) s fun t =>
      (RegionIs t k fun q => q.cut = none ∧ q.undo = [] ∧ q.voidAsked = [] ∧ q.round = r.round ∧
        q.voidTag = r.voidAsked.findSome? fun v => v.2.2.2) ∧
      (∀ e v, n.elems.get? e = some v → (∀ y ∈ n.elems, y.1 = e → y.2 = v) → (t.elem e).wr = v.wr ∧ (t.elem e).k = v.k ∧
        (t.elem e).fires = 0 ∧ (t.elem e).stopped = none ∧ (t.elem e).latec = (s.elem e).latec) ∧
      (∀ u, r.undo = [u] → u.bytes.length = 64 → s.spm.wf = true → ∀ i < 64, t.spm.get (u.key + i) =
        if u.fc = none ∧ r.inRing (u.key + i) = true then s.spm.get (u.key + i) else u.bytes.getD i 0)) ∧
  (∀ (s : State) (d : Nat), (s.die d).pctlBusy = false →
    (∀ k r, s.runRegion d (s.die d).prun = some k → s.region? k = some r → NoCut r →
      (Completes (.preempt d) s fun t => (t.die d).pctlBusy = true ∧ (t.die d).pctlFail = false ∧ (t.die d).pctlOp = 0 ∧
        CutAsked s t k true fun x => x = .preempt d) ∧
      (Completes (.dump d) s fun t => (t.die d).pctlBusy = true ∧ (t.die d).pctlOp = 2 ∧
        CutAsked s t k false fun x => x = .dump d) ∧
      (Completes (.pctlVoid d) s fun t => (t.die d).pctlBusy = true ∧ (t.die d).pctlOp = 3 ∧
        RegionIs t k fun q => q.voidAsked = r.voidAsked ++ [(34, 0, 0, none)])) ∧
    (s.runRegion d (s.die d).prun = none → ∀ i, i = .preempt d ∨ i = .dump d ∨ i = .pctlVoid d → Completes i s fun t =>
      (t.die d).pctlBusy = false ∧ (t.die d).pctlFail = true ∧ t.mem = s.mem)) ∧
  (∀ (s : State) (d : Nat), (s.die d).pctlBusy = true →
    (∀ i, i = .preempt d ∨ i = .dump d ∨ i = .pctlVoid d → Completes i s fun t => t = s) ∧
    (let ask := s.walks.find? fun w => w.2.die == d && w.2.run == (s.die d).prun &&
        (match w.2.phase with | .suspended => true | _ => false)
     (s.die d).pctlOp = 1 →
      (ask = none → Completes (.restore d) s fun t => (t.die d).pctlBusy = false ∧ (t.die d).pctlFail = true) ∧
      (∀ w y imgs, ask = some (w, y) → s.imgChain ((s.die d).psave.toNat / 64 % 2 ^ 46 * 64) 64 = some imgs →
        (∀ x ∈ imgs, x.run = (s.die d).prun) →
        let here := imgs.filter fun x => !(x.cons.fixed && x.cons.pkg != Config.pkg)
        (s.restoreMany w y (s.imgGates d imgs) here = .inr none → Completes (.restore d) s fun t => t = s) ∧
        (∀ l s2, s.restoreMany w y (s.imgGates d imgs) here = .inr (some (l, s2)) → (s2.walks.get? w).isSome = true →
          Completes (.restore d) s fun t => (t.die d).pctlBusy = false ∧ (t.die d).pctlFail = false ∧
            WalkIs t w fun z => z.gang = l.map (·.1)))))

/-- R148, R306, R307, R310, R311, R319, R347, R348, R358: queued trap records are written; TRESUME lets a stopped element go
on, clears POISON, voids or aborts; a still region raises its deadlock event; an uncorrectable error poisons, voids or
aborts, returns its quadrant to nominal, and for 4 µs from then UVSTAT follows the later ones (R358); a regulator steps. The
causes of a void and an abort by TRESUME and what it removes are the model's readings, log entries 63 and 64, and the 4 µs
log entry 98. -/
def Obligations.TrapSteps : Prop :=
  (∀ (s : State) (d : Nat) (x : TrapRec) (rest : List TrapRec), (s.die d).trapQ = x :: rest →
    let log := (s.die d).tqctl.toNat % 256
    let full : Prop := log < 4 ∨ 16 < log ∨ ((s.die d).tqtail - (s.die d).tqhead).toNat = 2 ^ log
    (full → Completes (.stallTrapRecord d) s fun t => t = s) ∧
    (¬full → s.mem.wf = true → Completes (.stallTrapRecord d) s fun t => (t.die d).trapQ = rest ∧
      (t.die d).tqtail = (s.die d).tqtail + 1 ∧ (t.die d).coreIrq = true ∧
      t.mem.read ((s.die d).tqbase.toNat / 64 % 2 ^ 46 * 64 + (s.die d).tqtail.toNat % 2 ^ log * 64) x.bytes.length = x.bytes ∧
      t.elems = s.elems)) ∧
  (∀ (s : State) (d tag : Nat), s.stoppedBy d tag = none → ∀ i, i = .tresumeResume d tag ∨ i = .tresumeClearPoison d tag ∨
    i = .tresumeVoid d tag ∨ i = .tresumeAbort d tag → Completes i s fun t => t = s) ∧
  (∀ (s : State) (d tag e : Nat) (i : StopInfo), s.stoppedBy d tag = some (e, i) →
    ((s.elem e).lateQ = [] → Completes (.tresumeResume d tag) s fun t => (t.elem e).stopped = none ∧
      (t.elem e).skipBrk = true ∧ (t.elem e).wr = (s.elem e).wr ∧ t.mem = s.mem) ∧
    (∀ c ctag rest, (s.elem e).lateQ = (c, ctag) :: rest → Completes (.tresumeResume d tag) s fun t =>
      (t.elem e).stopped.map (·.cause) = some 5 ∧ (t.elem e).lateQ = rest) ∧
    ((s.elem e).lateQ = [] → 16 ≤ i.slot → Completes (.tresumeClearPoison d tag) s fun t => (t.elem e).stopped = none ∧
      t.ports = s.ports) ∧
    (∀ (ins : Instr) (h : HeadTest) (y : Tok) (rest : List Tok), (s.elem e).lateQ = [] → i.slot < 16 →
      decodeSlot i.plane (((s.elem e).plane i.plane).slots.get i.slot) = .ok ins →
      (Ctx.of { s with cur := ⟨e, i.plane, i.slot⟩ }).tests = [h] → h.ch < 6 →
      (Ctx.of { s with cur := ⟨e, i.plane, i.slot⟩ }).need ins h.ch = 1 →
      (s.port (portKey e (vcOf i.plane) h.ch)).queue = y :: rest → y.kind = .poison →
      Completes (.tresumeClearPoison d tag) s fun t => (t.elem e).stopped = none ∧
        (t.port (portKey e (vcOf i.plane) h.ch)).queue = rest) ∧
    (∀ k r, (s.elem e).region = some k → s.region? k = some r →
      (Completes (.tresumeVoid d tag) s fun t => RegionIs t k fun q => q.voidAsked = r.voidAsked ++ [(34, 0, 0, none)]) ∧
      (∀ w, s.walks.get? r.walk = some w → w.phase ≠ .finished → (w.phase = .writing → w.state ≠ 2) →
        Completes (.tresumeAbort d tag) s fun t => Aborted t r.walk 1))) ∧
  (∀ (s : State) (d : Nat) (v : W),
    (Completes (.tqheadWrite d v) s fun t => t = s.setDie d { s.die d with tqhead := v }) ∧
    (Completes (.tqctlWrite d v) s fun t => t = s.setDie d { s.die d with tqctl := BitVec.ofNat 32 (v.toNat % 256) })) ∧
  (∀ (s : State) (k : Nat) (r : Region), s.region? k = some r → s.running r = true → r.dlRaised = false →
    s.quiet k = false → (∃ p ∈ s.ports, portElem p.1 ∈ s.regionElems k ∧ (p.2.queue ≠ [] ∨ p.2.spilled ≠ [])) →
    let due := r.lastMove + max 4 ((s.die r.die).cutcfg.toNat / 2 ^ 16) * 1024
    (due ≤ s.tick → Completes (.deadlockEvent k) s fun t => (RegionIs t k fun q => q.dlRaised = true) ∧
      ∀ e ch rest y, s.regionElems k = [e] → (s.elem e).inS = false → ch < 6 → (s.port (portKey e 0 ch)).queue = y :: rest →
        ∃ x ∈ (t.die (dieOf e)).trapQ, natAt x.bytes 4 1 = 17 ∧ natAt x.bytes 0 4 = (elidOf e).toNat) ∧
    (s.tick < due → Completes (.deadlockEvent k) s fun t => t = s)) ∧
  (∀ (s : State) (pa : Nat), Completes (.uncorrectableError (.committed pa)) s fun t =>
    pa / 64 ∈ t.poisonLines ∧ t.mem = s.mem ∧
    let d := dieOfTile (s.homeTile pa)
    let q := 2 * (s.homeTile pa % 256 / 16 / 8) + s.homeTile pa % 16 / 8
    (dieKey pa < 8 → ((s.die d).uvctl.get q).toNat % 16 ≠ 0 → ((t.die d).uvctl.get q).toNat % 16 = 0 ∧
      ((t.die d).uvstat.get q).toNat = pa % 2 ^ 64) ∧
    (∀ at_, dieKey pa < 8 → ((s.die d).uvctl.get q).toNat % 16 = 0 → (s.die d).uvTrip.get q = some at_ →
      (t.die d).uvctl = (s.die d).uvctl ∧ ((t.die d).uvstat.get q).toNat =
        if s.clock < at_ + 17 * 4000 then pa % 2 ^ 64 else ((s.die d).uvstat.get q).toNat)) ∧
  (∀ (s : State) (key : Nat), Completes (.uncorrectableError (.tileRow key)) s fun t => t.spm = s.spm ∧
    (s.openUndo key = none → key / 32 ∈ t.poisonRows) ∧
    (∀ k r, s.openUndo key = some k → s.region? k = some r → t.poisonRows = s.poisonRows ∧
      RegionIs t k fun q => q.voidAsked = r.voidAsked ++ [(33, 0xFFFFFFFF, 0x800FFFFF, none)]) ∧
    let d := key / 2 ^ 28
    let q := 2 * (key / 2 ^ 20 % 256 / 16 / 8) + key / 2 ^ 20 % 16 / 8
    ((s.die d).uvctl.get q).toNat % 16 ≠ 0 → ((t.die d).uvctl.get q).toNat % 16 = 0 ∧
      ((t.die d).uvctl.get q).getLsbD 30 = true ∧ ((t.die d).uvctl.get q).getLsbD 31 = false) ∧
  (∀ (s : State) (k pa tile : Nat) (r : Region), s.region? k = some r → pa < 2 ^ 52 →
    Completes (.uncorrectableError (.uncommitted k pa tile)) s fun t => RegionIs t k fun q =>
      q.voidAsked = r.voidAsked ++ [(33, BitVec.ofNat 32 pa, BitVec.ofNat 32 (pa / 2 ^ 32), none)]) ∧
  (∀ (s : State) (k tile : Nat) (r : Region) (w : Walk), s.region? k = some r → s.walks.get? r.walk = some w →
    w.phase ≠ .finished → w.phase ≠ .writing → Completes (.uncorrectableError (.restoring k tile)) s fun t => Aborted t r.walk 8) ∧
  (∀ (s : State) (d q events : Nat), q < 4 → Completes (.undervoltStep d q events) s fun t =>
    let c := (s.die d).uvctl.get q
    let n := c.toNat % 16
    ((t.die d).uvctl.get q).toNat / 16 = c.toNat / 16 ∧ ((t.die d).uvctl.get q).toNat % 16 =
      if c.getLsbD 31 = false then n
      else if events < c.toNat / 2 ^ 16 % 256 ∧ n < c.toNat / 2 ^ 8 % 16 then n + 1
      else if c.toNat / 2 ^ 16 % 256 < events ∧ 0 < n then n - 1 else n)

/-- R329, R330, R336 to R338, R341: halting and resuming a run, the stall walker, the dropped-record count and the
sketches. What a write does while BUSY and the walker's STARVED are the model's readings, log entries 58 and 59. -/
def Obligations.DebugSteps : Prop :=
  (∀ (s : State) (d k : Nat) (r : Region), (s.die d).dbgBusy = false → s.region? k = some r → r.run = (s.die d).dbgrun →
    (r.halted = false → NoCut r → Completes (.debugHalt d) s fun t => (t.die d).dbgOp = 1 ∧ (t.die d).dbgBusy = true ∧
      CutAsked s t k true fun x => x = .halt) ∧
    (r.halted = true → Completes (.debugResume d) s fun t => (t.die d).dbgOp = 2 ∧
      (RegionIs t k fun q => q.halted = false ∧ (∀ c, q.cut = some c → .halt ∉ c.waits ∧ c.start = s.tick)) ∧
      ((∀ x ∈ s.regions, ∀ c, x.2.cut = some c → ∀ j, .preempt j ∉ c.waits) →
        (∀ e ∈ s.regionElems k, (t.elem e).cutStopped = false) ∧
        RegionIs t k fun q => ∀ c, q.cut = some c → c.stop = false))) ∧
  (∀ (s : State) (d : Nat), (s.die d).dbgBusy = true → (Completes (.debugHalt d) s fun t => t = s) ∧
    Completes (.debugResume d) s fun t => t = s) ∧
  (∀ (s : State) (d : Nat) (v : W),
    ((s.die d).swctl.getLsbD 31 = true → Completes (.stallWalk d v) s fun t => t = s) ∧
    ((s.die d).swctl.getLsbD 31 = false → v.getLsbD 31 = false → Completes (.stallWalk d v) s fun t =>
      (t.die d).swctl.toNat = v.toNat % 16 ∧ (t.die d).swalk = (s.die d).swalk) ∧
    ((s.die d).swctl.getLsbD 31 = false → v.getLsbD 31 = true → d < 8 → Completes (.stallWalk d v) s fun t =>
      (t.die d).swctl.toNat = 2 ^ 31 + v.toNat % 16 ∧ ∃ x, (t.die d).swalk = some x ∧ x.elem = elemOfElid (s.die d).swelid ∧
        x.hops = 0)) ∧
  (∀ (s : State) (d : Nat) (x : SWalk), (s.die d).swalk = some x → (s.die d).swctl.getLsbD 31 = true →
    let hop := (s.hopIn x.chain x.elem).1
    ((hop.next = none ∨ (s.die d).swctl.toNat % 16 + 1 ≤ x.hops + 1) → Completes (.stallWalkHop d) s fun t =>
      (t.die d).swalk = none ∧ (t.die d).swctl.getLsbD 31 = false) ∧
    (∀ y, hop.next = some y → x.hops + 1 < (s.die d).swctl.toNat % 16 + 1 → Completes (.stallWalkHop d) s fun t =>
      ∃ z, (t.die d).swalk = some z ∧ z.elem = y ∧ z.hops = x.hops + 1 ∧ z.chain = x.chain ++ [x.elem])) ∧
  (∀ (s : State) (e : Nat), ((s.elem e).stopped.isSome = true → (s.hopAt e).reason = 8) ∧
    ((s.elem e).stopped = none → (s.elem e).ended = false → (s.elem e).cutStopped = false → s.guardSlot e = none →
      (s.hopAt e).reason = 7)) ∧
  (∀ (s : State) (d : Nat), Completes (.trdropRead d) s fun t => t.lastRead.toNat = (s.die d).trdrop.toNat ∧
    (t.die d).trdrop = 0 ∧ t.mem = s.mem) ∧
  (∀ (s : State) (d j : Nat) (v : W), Completes (.sketchClear d j v) s fun t =>
    ((t.die d).sk j).counts = [] ∧ ((t.die d).sk j).total = 0 ∧ ((t.die d).sk j).seed = ((s.die d).sk j).seedNew ∧
    ∀ b < 32, ((t.die d).sk j).ctl.getLsbD b = (v.getLsbD b && (decide (b < 3) || decide (b = 4) || decide (b = 5) || decide (b = 31))))

/-- R341, R346, R347, R349 to R351, R353 to R355: spines and tile clocks change; undervolting, cache ways, clusters
and the shunter are gated and woken; PTP, links, reset and boot act as their rules say. The model's choices among these: what
a module reset keeps, State.reset being the rest, with its memory, free values and unstated reset values, log entries 1, 2, 4,
8 and 29; boot phases, PTP before the first consist, the details of clocks and links, the free number of replayed flits, and
the version and domain of links, log entries 35 to 37, 39 and 97; the interrupts that a gated cluster waits for, log entry
38; the lower port of a pair, log entry 80. -/
def Obligations.ClockPowerAndLinks : Prop :=
  (∀ (s : State) (d n : Nat) (v : W),
    let f := v.toNat % 2 ^ 12
    (1 ≤ n → n < 8 → 400 ≤ f → f ≤ 2100 → Completes (.spineWrite d n v) s fun t =>
      (t.die d).spine.get n = (((s.die d).spine.get n).1, some f) ∧ ∀ m < 8, m ≠ n → (t.die d).spine.get m = (s.die d).spine.get m) ∧
    ((n = 0 ∨ 8 ≤ n ∨ f < 400 ∨ 2100 < f) → Completes (.spineWrite d n v) s fun t => t = s) ∧
    (∀ old new, n < 8 → (s.die d).spine.get n = (old, some new) → Completes (.spineChangeDone d n) s fun t =>
      (t.die d).spine.get n = (new, none))) ∧
  (∀ (s : State) (d m j : Nat) (v : W), d < 8 → m < 32 → j < 8 →
    let tile := d * 256 + m * 8 + j
    let n := v.toNat / 2 ^ (4 * j) % 8
    Completes (.tclkWrite d m v) s fun t =>
      (((s.tile tile).nextSpine.getD (s.spineOf tile)) = n → t.tile tile = s.tile tile) ∧
      (((s.tile tile).nextSpine.getD (s.spineOf tile)) ≠ n → (t.tile tile).nextSpine = some n ∧
        1 ≤ (t.tile tile).switching ∧ (t.tile tile).switching ≤ 64)) ∧
  (∀ (s : State) (d i n : Nat), d < 8 → i < 256 → (s.tile (d * 256 + i)).nextSpine = some n →
    Completes (.tileClockSwitchDone d i) s fun t => (t.tile (d * 256 + i)).nextSpine = none ∧
      (t.tile (d * 256 + i)).switching = 0 ∧ t.spineOf (d * 256 + i) = n) ∧
  (∀ (s : State) (d q : Nat) (v : W), q < 4 → Completes (.uvctlWrite d q v) s fun t => ∀ b < 32,
    ((t.die d).uvctl.get q).getLsbD b =
      if b < 4 then ((s.die d).uvctl.get q).getLsbD b
      else if b = 30 then ((s.die d).uvctl.get q).getLsbD 30 && !v.getLsbD 30
      else v.getLsbD b && (decide (8 ≤ b ∧ b < 12) || decide (16 ≤ b ∧ b < 24) || decide (b = 31))) ∧
  (∀ (s : State) (d : Nat),
    (Completes (.cacheWayGate d) s fun t => (t.die d).clWays =
      if (s.die d).clAuto = true ∧ (s.die d).clMin < (s.die d).clWays then (s.die d).clWays - 1 else (s.die d).clWays) ∧
    (Completes (.cacheWayEnable d) s fun t => (t.die d).clWays = min 16 ((s.die d).clWays + 1)) ∧
    (Completes (.clusterGate d) s fun t => (t.die d).coresGated = ((s.die d).coresGated || (!(s.die d).coreIrq &&
      decide ((s.die d).fqhead = (s.die d).fqtail) && decide ((s.die d).tqhead = (s.die d).tqtail)))) ∧
    (Completes (.clusterWake d) s fun t => (t.die d).coresGated = false) ∧
    (s.shunterIdle d = true → (s.die d).idleSince + 17 * 100000 ≤ s.clock → Completes (.shunterGate d) s fun t =>
      (t.die d).shunterGated = true) ∧
    ((s.shunterIdle d = false ∨ s.clock < (s.die d).idleSince + 17 * 100000) → Completes (.shunterGate d) s fun t => t = s) ∧
    (Completes (.shunterWake d) s fun t => (t.die d).shunterGated = false)) ∧
  (∀ (s : State) (offset : Int),
    (s.grandmaster = true → Completes (.ptpMessage offset) s fun t => t = s) ∧
    (s.grandmaster = false → s.firstConsist = false → Completes (.ptpMessage offset) s fun t =>
      t.timeOff = s.timeOff + offset ∧ t.tick = s.tick) ∧
    (s.grandmaster = false → s.firstConsist = true → Completes (.ptpMessage offset) s fun t =>
      t.timeOff = s.timeOff ∧ t.slew = offset)) ∧
  (∀ (s : State) (port peer version domain : Nat),
    (port < 16 → peer % 64 ≠ Config.pkg → (s.link port).train = true →
      (version = Config.linkVersion → domain = Config.linkDomain → Completes (.linkUp port ⟨peer, version, domain⟩) s fun t =>
        (t.link port).up = true ∧ (t.link port).train = false ∧ (t.link port).peer = peer % 64 ∧
        ∀ p, p ≠ port → t.link p = s.link p) ∧
      ((version ≠ Config.linkVersion ∨ domain ≠ Config.linkDomain) → Completes (.linkUp port ⟨peer, version, domain⟩) s fun t =>
        (t.link port).up = (s.link port).up ∧ (t.link port).train = false ∧ ∀ p, p ≠ port → t.link p = s.link p)) ∧
    ((16 ≤ port ∨ peer % 64 = Config.pkg ∨ (s.link port).train = false) →
      Completes (.linkUp port ⟨peer, version, domain⟩) s fun t => t = s)) ∧
  (∀ (s : State) (port : Nat) (p : RlPort), s.links.get? port = some p →
    (p.up = true → s.lowerPort port p.peer = false → Completes (.linkDown port) s fun t =>
      (t.link port).up = false ∧ (t.link port).train = true ∧
      ∀ k r w, s.regions = [(k, r)] → p.peer ∈ r.gates → s.walks.get? r.walk = some w → w.phase = .fetch →
        Aborted t r.walk 5) ∧
    (p.up = false → p.train = false → Completes (.linkDown port) s fun t => t = s) ∧
    (Completes (.rlstatRead port) s fun t => min p.retry 65535 ≤ t.lastRead.toNat % 2 ^ 16 ∧
      (p.up = false → t.lastRead.toNat % 2 ^ 16 = min p.retry 65535) ∧
      t.lastRead.toNat / 2 ^ 31 = (if p.up then 1 else 0) ∧ (t.link port).retry = 0) ∧
    (∀ halted, p.up = true → Completes (.linkHaltReport port halted) s fun t => (t.link port).halt = halted ∧
      (t.link port).up = true)) ∧
  (∀ s : State, Completes .moduleReset s fun t =>
    t = { State.reset with usable := s.usable, freeCtr := s.freeCtr, inputs := s.inputs }) ∧
  (∀ (s : State) (ok : Bool), s.boot.failure = 0 → s.boot.phase < 7 → Completes (.bootPhaseComplete ok) s fun t =>
    if ok = false ∧ (s.boot.phase = 1 ∨ s.boot.phase = 3 ∨ s.boot.phase = 4 ∨ s.boot.phase = 5) then
      t.boot.failure = s.boot.phase ∧ t.boot.phase = s.boot.phase
    else t.boot.phase = s.boot.phase + 1 ∧ t.boot.failure = 0 ∧
      (s.boot.phase = 5 → ∀ p < 16, (t.link p).train = !(s.link p).up) ∧ (s.boot.phase = 6 → ∀ p < 16, (t.link p).train = false) ∧
      (s.boot.phase ≠ 2 → t.boot.meas = s.boot.meas))

/-- R51 to R53, R356: the SPDM responder answers each request at its stage with its code, and UnexpectedRequest before
it; its certificate and measurements are hashed and signed over what they cover; control-core accesses load, store and fault;
a register write reaches its register. The model's choices among these: the bytes of SPDM messages, those of DSP0274, and what
a signature covers, log entries 33 and 40; a register access at an offset that no register has, or that is not aligned, log
entries 9 and 65; accesses to memory, log entry 66. -/
def Obligations.SpdmAndCoreAccesses : Prop :=
  (∀ (s : State),
    let refused (i : Instr) (stage : Nat) : Prop := s.spdm.stage < stage → Completes i s fun t =>
      t.spdm.response = [0x13, 0x7F, 4, 0] ∧ t.spdm.vca = s.spdm.vca ∧ t.spdm.certs = s.spdm.certs ∧
      t.spdm.record = s.spdm.record
    let negotiates (i : Instr) (stage : Nat) (req : List Byte) (code : Byte) : Prop := refused i stage ∧
      (stage ≤ s.spdm.stage → Completes i s fun t => t.spdm.response.take 2 = [0x13, code] ∧
        t.spdm.vca = s.spdm.vca ++ req ++ t.spdm.response ∧ t.spdm.stage = stage + 1)
    let certifies (i : Instr) (req head body : List Byte) : Prop := refused i 3 ∧
      (3 ≤ s.spdm.stage → Completes i s fun t => t.spdm.response = head ++ body ∧
        t.spdm.certs = s.spdm.certs ++ req ++ t.spdm.response ∧ t.spdm.vca = s.spdm.vca)
    (Completes .spdmGetVersion s fun t => t.spdm.response = [0x10, 0x04, 0, 0, 0, 1, 0x00, 0x13] ∧ t.spdm.stage = 1 ∧
      t.spdm.vca = [0x10, 0x84, 0, 0] ++ t.spdm.response) ∧
    negotiates .spdmGetCapabilities 1 [0x13, 0xE1, 0, 0] 0x61 ∧ negotiates .spdmNegotiateAlgorithms 2 [0x13, 0xE3, 0, 0] 0x63 ∧
    certifies .spdmGetDigests [0x13, 0x81, 0, 0] [0x13, 0x01, 0, 1] (digestBytes (sha384 Config.spdmCertificate)) ∧
    certifies .spdmGetCertificate [0x13, 0x82, 0, 0]
      ([0x13, 0x02, 0, 0] ++ leBytes 2 Config.spdmCertificate.length ++ [0, 0]) Config.spdmCertificate ∧
    (∀ nonce context, refused (.spdmChallenge ⟨nonce, context⟩) 3 ∧
      (3 ≤ s.spdm.stage → Completes (.spdmChallenge ⟨nonce, context⟩) s fun t => ∃ own : List Byte, own.length = 32 ∧
        let request := [0x13, 0x83, 0, 0] ++ leBytes 32 nonce ++ leBytes 8 context
        let body := [0x13, 0x03, 0, 1] ++ digestBytes (sha384 Config.spdmCertificate) ++ own ++ [0, 0] ++ leBytes 8 context
        t.spdm.response = body ++ Config.spdmSign (s.spdm.vca ++ s.spdm.certs ++ request ++ body) ∧
        t.spdm.certs = [] ∧ t.spdm.vca = s.spdm.vca)) ∧
    (∀ index sign context, refused (.spdmGetMeasurements ⟨index, sign, context⟩) 3 ∧
      (3 ≤ s.spdm.stage → index ≤ 8 ∨ index = 0xFF → Completes (.spdmGetMeasurements ⟨index, sign, context⟩) s fun t =>
        ∃ body : List Byte, body.take 2 = [0x13, 0x60] ∧ body.drop (body.length - 8) = leBytes 8 context ∧
          (∀ n < 8, index = n + 1 → bytesAt body 15 48 = digestBytes (s.boot.meas.get n)) ∧
          (sign = none → t.spdm.response = body ∧ t.spdm.record =
            s.spdm.record ++ [0x13, 0xE0, 0] ++ leBytes 1 index ++ leBytes 8 context ++ body) ∧
          (∀ nonce, sign = some nonce → t.spdm.record = [] ∧ t.spdm.response = body ++ Config.spdmSign (s.spdm.vca ++
            s.spdm.record ++ [0x13, 0xE0, 1] ++ leBytes 1 index ++ leBytes 32 nonce ++ [0] ++ leBytes 8 context ++ body))))) ∧
  (∀ (s : State) (d core pa : Nat), core < 4 →
    ((2 ^ 52 ≤ pa ∨ (populated pa = false ∧ inWindow pa = false)) → Completes (.coreAccessFault d core pa) s fun t =>
      (t.die d).accFault.get core = some pa ∧ t.mem = s.mem) ∧
    (∀ n, 1 ≤ n → n ≤ 8 → (2 ^ 52 ≤ pa ∨ (populated pa = false ∧ inWindow pa = false)) → ∀ op,
      (op = .load n ∨ ∃ v, op = .store n v) → Completes (.controlCoreAccess d core pa op) s fun t =>
        (t.die d).accFault.get core = some pa ∧ t.mem = s.mem ∧ t.lastRead = s.lastRead)) ∧
  (∀ (s : State) (d core pa n : Nat), 1 ≤ n → n ≤ 8 → pa + n ≤ 2 ^ 52 → populated pa = true → populated (pa + n - 1) = true →
    inWindow pa = false → s.mem.wf = true → (∀ k < 8, (s.die k).trctl = 0) →
    (Completes (.controlCoreAccess d core pa (.load n)) s fun t => t.mem = s.mem ∧
      ∀ i < n, t.lastRead.toNat / 256 ^ i % 256 = (s.mem.get (pa + i)).toNat) ∧
    (∀ v, Completes (.controlCoreAccess d core pa (.store n v)) s fun t =>
      (∀ i < n, (t.mem.get (pa + i)).toNat = v.toNat / 256 ^ i % 256) ∧
      ∀ a, (a < pa ∨ pa + n ≤ a) → t.mem.get a = s.mem.get a)) ∧
  (∀ (s : State) (d off : Nat) (v : BitVec 64), ((off % 4 ≠ 0 ∨ 2 ^ 20 ≤ off) → Completes (.registerWrite d off v) s fun t => t = s) ∧
    (Completes (.registerWrite d 0x200 v) s fun t => (t.die d).atbase.toNat = v.toNat % 2 ^ 52 / 2 ^ 15 * 2 ^ 15) ∧
    (Completes (.registerWrite d 0x830 v) s fun t => (t.die d).rampctl.toNat = v.toNat % 2 ^ 16) ∧
    (Completes (.registerWrite d 0x850 v) s fun t => (t.die d).cutcfg.toNat = v.toNat % 2 ^ 32) ∧
    (Completes (.registerWrite d 0x504 v) s fun t => (t.die d).migquota.toNat = v.toNat % 2 ^ 32) ∧
    (Completes (.registerWrite d 0x860 v) s fun t => (t.die d).tqbase.toNat = v.toNat % 2 ^ 52 / 64 * 64) ∧
    (Completes (.registerWrite d 0x86C v) s fun t => (t.die d).tqhead.toNat = v.toNat % 2 ^ 32) ∧
    (∀ n < 256, Completes (.registerWrite d (0xD00 + 4 * n) v) s fun t =>
      (t.die d).ptgrant.getD n 32768 = v.toNat % 2 ^ 16))
end

