-- ==== Sys2Proof/Laws/Maps.lean ====
section
/-! SUPPORT. The laws of the plain containers: eight-lane vectors, four- and sixteen-place ones, and sorted key
lists. -/
namespace Sys2Proof

variable {α β γ : Type}

/-! ## Vectors -/

@[simp] theorem Oct.get_rep (x : α) (l : Nat) : (Oct.rep x).get l = x := by unfold Oct.rep Oct.get; split <;> rfl

@[simp] theorem Oct.get_of (f : Nat → α) {l : Nat} (h : l < 8) : (Oct.of f).get l = f l := by
  match l, h with
  | 0, _ | 1, _ | 2, _ | 3, _ | 4, _ | 5, _ | 6, _ | 7, _ => rfl

@[simp] theorem Oct.get_map (f : α → β) (o : Oct α) (l : Nat) : (o.map f).get l = f (o.get l) := by
  unfold Oct.map Oct.get; split <;> rfl

@[simp] theorem Oct.get_zip (f : α → β → γ) (a : Oct α) (b : Oct β) (l : Nat) :
    (Oct.zip f a b).get l = f (a.get l) (b.get l) := by
  unfold Oct.zip Oct.get; split <;> rfl

theorem Oct.get_set_same (o : Oct α) {l : Nat} (h : l < 8) (x : α) : (o.set l x).get l = x := by
  match l, h with
  | 0, _ | 1, _ | 2, _ | 3, _ | 4, _ | 5, _ | 6, _ | 7, _ => rfl

theorem Oct.get_set_ne (o : Oct α) {l k : Nat} (h : l < 8) (hk : k < 8) (n : k ≠ l) (x : α) :
    (o.set l x).get k = o.get k := by
  match l, h with
  | 0, _ | 1, _ | 2, _ | 3, _ | 4, _ | 5, _ | 6, _ | 7, _ =>
    match k, hk with
    | 0, _ | 1, _ | 2, _ | 3, _ | 4, _ | 5, _ | 6, _ | 7, _ => first | rfl | exact absurd rfl n

/-- Two vectors with equal lanes are equal. -/
theorem Oct.ext_get {a b : Oct α} (h : ∀ l, l < 8 → a.get l = b.get l) : a = b := by
  cases a; cases b
  have h0 := h 0 (by decide); have h1 := h 1 (by decide); have h2 := h 2 (by decide); have h3 := h 3 (by decide)
  have h4 := h 4 (by decide); have h5 := h 5 (by decide); have h6 := h 6 (by decide); have h7 := h 7 (by decide)
  simp only [Oct.get] at h0 h1 h2 h3 h4 h5 h6 h7
  subst h0 h1 h2 h3 h4 h5 h6 h7
  rfl

namespace Machine

theorem Quad.get_set_same (q : Quad α) {n : Nat} (h : n < 4) (x : α) : (q.set n x).get n = x := by
  match n, h with
  | 0, _ | 1, _ | 2, _ | 3, _ => rfl

theorem Quad.get_set_ne (q : Quad α) {n k : Nat} (h : n < 4) (hk : k < 4) (ne : k ≠ n) (x : α) :
    (q.set n x).get k = q.get k := by
  match n, h with
  | 0, _ | 1, _ | 2, _ | 3, _ =>
    match k, hk with
    | 0, _ | 1, _ | 2, _ | 3, _ => first | rfl | exact absurd rfl ne

theorem Hex.get_set_same (q : Hex α) {n : Nat} (h : n < 16) (x : α) : (q.set n x).get n = x := by
  unfold Hex.get Hex.set
  by_cases k : n < 8
  · simp [k, Oct.get_set_same]
  · simp [k, Oct.get_set_same, show n - 8 < 8 by omega]

theorem Hex.get_set_ne (q : Hex α) {n k : Nat} (h : n < 16) (hk : k < 16) (ne : k ≠ n) (x : α) :
    (q.set n x).get k = q.get k := by
  unfold Hex.get Hex.set
  by_cases a : n < 8 <;> by_cases b : k < 8
  · simp [a, b, Oct.get_set_ne _ a b ne]
  · simp [a, b]
  · simp [a, b]
  · simp only [a, b, if_false]
    exact Oct.get_set_ne _ (by omega) (by omega) (by omega) _

end Machine

/-! ## Sorted key lists -/

namespace SMap

theorem get_put_same (m : SMap α) (i : Nat) (x : α) : (put m i x).get? i = some x := by
  induction m with
  | nil => simp [put, get?]
  | cons a m ih =>
    obtain ⟨k, v⟩ := a
    unfold put
    by_cases h : i < k
    · simp [h, get?]
    · by_cases e : i = k
      · subst e; simp [get?]
      · simp [h, e, get?, ih, Ne.symm e]

theorem get_put_ne (m : SMap α) {i j : Nat} (n : j ≠ i) (x : α) : (put m i x).get? j = m.get? j := by
  induction m with
  | nil => simp [put, get?, Ne.symm n]
  | cons a m ih =>
    obtain ⟨k, v⟩ := a
    unfold put
    by_cases h : i < k
    · simp [h, get?, Ne.symm n]
    · by_cases e : i = k
      · subst e; simp [get?, Ne.symm n]
      · simp [h, e, get?, ih]

theorem getD_put_same (m : SMap α) (i : Nat) (x d : α) : (put m i x).getD i d = x := by
  simp [getD, get_put_same]

theorem getD_put_ne (m : SMap α) {i j : Nat} (n : j ≠ i) (x d : α) : (put m i x).getD j d = m.getD j d := by
  simp [getD, get_put_ne m n]

theorem get_del_ne (m : SMap α) {i j : Nat} (n : j ≠ i) : (del m i).get? j = m.get? j := by
  induction m with
  | nil => rfl
  | cons a m ih =>
    obtain ⟨k, v⟩ := a
    unfold del
    by_cases e : k = i
    · subst e; simp [get?, Ne.symm n]
    · simp [e, get?, ih]

theorem above_get {n : Nat} {m : SMap α} (h : above n m = true) {i : Nat} (le : i ≤ n) : m.get? i = none := by
  induction m with
  | nil => rfl
  | cons a m ih =>
    obtain ⟨k, v⟩ := a
    simp only [above, Bool.and_eq_true, decide_eq_true_eq] at h
    simp [get?, show k ≠ i by omega, ih h.2]

theorem get_del_same {m : SMap α} (h : wf m = true) (i : Nat) : (del m i).get? i = none := by
  induction m with
  | nil => rfl
  | cons a m ih =>
    obtain ⟨k, v⟩ := a
    simp only [wf, Bool.and_eq_true] at h
    unfold del
    by_cases e : k = i
    · subst e; simp [above_get h.1 (Nat.le_refl _)]
    · simp [e, get?, ih h.2]

theorem above_mono {m : SMap α} {a b : Nat} (h : above b m = true) (le : a ≤ b) : above a m = true := by
  induction m with
  | nil => rfl
  | cons x m ih =>
    obtain ⟨k, v⟩ := x
    simp only [above, Bool.and_eq_true, decide_eq_true_eq] at h ⊢
    exact ⟨by omega, ih h.2⟩

theorem above_put {m : SMap α} {n i : Nat} (h : above n m = true) (lt : n < i) (x : α) :
    above n (put m i x) = true := by
  induction m with
  | nil => simp [put, above, lt]
  | cons a m ih =>
    obtain ⟨k, v⟩ := a
    simp only [above, Bool.and_eq_true, decide_eq_true_eq] at h
    unfold put
    by_cases c : i < k
    · simp [c, above, lt, h.1, h.2]
    · by_cases e : i = k
      · simp [e, above, h.1, h.2]
      · simp [c, e, above, h.1, ih h.2]

/-- Inserting keeps the canonical form. -/
theorem wf_put {m : SMap α} (h : wf m = true) (i : Nat) (x : α) : wf (put m i x) = true := by
  induction m with
  | nil => simp [put, wf, above]
  | cons a m ih =>
    obtain ⟨k, v⟩ := a
    simp only [wf, Bool.and_eq_true] at h
    unfold put
    by_cases c : i < k
    · simp [c, wf, above, h.1, h.2, above_mono h.1 (Nat.le_of_lt c)]
    · by_cases e : i = k
      · subst e; simp [wf, h.1, h.2]
      · simp only [c, e, if_false, wf, Bool.and_eq_true]
        exact ⟨above_put h.1 (by omega) x, ih h.2⟩

theorem above_del {m : SMap α} {n : Nat} (h : above n m = true) (i : Nat) : above n (del m i) = true := by
  induction m with
  | nil => rfl
  | cons a m ih =>
    obtain ⟨k, v⟩ := a
    simp only [above, Bool.and_eq_true, decide_eq_true_eq] at h
    unfold del
    by_cases e : k = i
    · simp [e, h.2]
    · simp [e, above, h.1, ih h.2]

theorem wf_del {m : SMap α} (h : wf m = true) (i : Nat) : wf (del m i) = true := by
  induction m with
  | nil => rfl
  | cons a m ih =>
    obtain ⟨k, v⟩ := a
    simp only [wf, Bool.and_eq_true] at h
    unfold del
    by_cases e : k = i
    · simp [e, h.2]
    · simp only [e, if_false, wf, Bool.and_eq_true]
      exact ⟨above_del h.1 i, ih h.2⟩

theorem above_filter {m : SMap α} {n : Nat} (h : above n m = true) (p : Nat × α → Bool) :
    above n (m.filter p) = true := by
  induction m with
  | nil => rfl
  | cons a m ih =>
    obtain ⟨k, v⟩ := a
    simp only [above, Bool.and_eq_true, decide_eq_true_eq] at h
    by_cases c : p (k, v) = true
    · simp [List.filter, c, above, h.1, ih h.2]
    · simp [List.filter, c, ih h.2]

theorem wf_filter {m : SMap α} (h : wf m = true) (p : Nat × α → Bool) : wf (m.filter p) = true := by
  induction m with
  | nil => rfl
  | cons a m ih =>
    obtain ⟨k, v⟩ := a
    simp only [wf, Bool.and_eq_true] at h
    by_cases c : p (k, v) = true
    · simp [List.filter, c, wf, above_filter h.1, ih h.2]
    · simp [List.filter, c, ih h.2]

end SMap

end Sys2Proof
end

