-- ==== Sys2Proof/Laws/State.lean ====
section
/-! SUPPORT. The small lemmas of the state: what each field is after each named update. The normal form of an update is
its `set` form. -/
namespace Sys2Proof.Machine

variable (s : State)

/-! ## setElem -/

@[simp] theorem State.modElem_eq (k : Nat) (f : Elem → Elem) : s.modElem k f = s.setElem k (f (s.elem k)) := rfl
@[simp] theorem State.setElem_tick (e : Nat) (x : Elem) : (s.setElem e x).tick = s.tick := rfl
@[simp] theorem State.setElem_timeOff (e : Nat) (x : Elem) : (s.setElem e x).timeOff = s.timeOff := rfl
@[simp] theorem State.setElem_slew (e : Nat) (x : Elem) : (s.setElem e x).slew = s.slew := rfl
@[simp] theorem State.setElem_synced (e : Nat) (x : Elem) : (s.setElem e x).synced = s.synced := rfl
@[simp] theorem State.setElem_firstConsist (e : Nat) (x : Elem) : (s.setElem e x).firstConsist = s.firstConsist := rfl
@[simp] theorem State.setElem_dies (e : Nat) (x : Elem) : (s.setElem e x).dies = s.dies := rfl
@[simp] theorem State.setElem_usable (e : Nat) (x : Elem) : (s.setElem e x).usable = s.usable := rfl
@[simp] theorem State.setElem_tiles (e : Nat) (x : Elem) : (s.setElem e x).tiles = s.tiles := rfl
@[simp] theorem State.setElem_elems (e : Nat) (x : Elem) : (s.setElem e x).elems = s.elems.put e x := rfl
@[simp] theorem State.setElem_ports (e : Nat) (x : Elem) : (s.setElem e x).ports = s.ports := rfl
@[simp] theorem State.setElem_outs (e : Nat) (x : Elem) : (s.setElem e x).outs = s.outs := rfl
@[simp] theorem State.setElem_islands (e : Nat) (x : Elem) : (s.setElem e x).islands = s.islands := rfl
@[simp] theorem State.setElem_regions (e : Nat) (x : Elem) : (s.setElem e x).regions = s.regions := rfl
@[simp] theorem State.setElem_walks (e : Nat) (x : Elem) : (s.setElem e x).walks = s.walks := rfl
@[simp] theorem State.setElem_mem (e : Nat) (x : Elem) : (s.setElem e x).mem = s.mem := rfl
@[simp] theorem State.setElem_spm (e : Nat) (x : Elem) : (s.setElem e x).spm = s.spm := rfl
@[simp] theorem State.setElem_feEmpty (e : Nat) (x : Elem) : (s.setElem e x).feEmpty = s.feEmpty := rfl
@[simp] theorem State.setElem_poisonLines (e : Nat) (x : Elem) : (s.setElem e x).poisonLines = s.poisonLines := rfl
@[simp] theorem State.setElem_poisonRows (e : Nat) (x : Elem) : (s.setElem e x).poisonRows = s.poisonRows := rfl
@[simp] theorem State.setElem_fc (e : Nat) (x : Elem) : (s.setElem e x).fc = s.fc := rfl
@[simp] theorem State.setElem_visitor (e : Nat) (x : Elem) : (s.setElem e x).visitor = s.visitor := rfl
@[simp] theorem State.setElem_flights (e : Nat) (x : Elem) : (s.setElem e x).flights = s.flights := rfl
@[simp] theorem State.setElem_credits (e : Nat) (x : Elem) : (s.setElem e x).credits = s.credits := rfl
@[simp] theorem State.setElem_packets (e : Nat) (x : Elem) : (s.setElem e x).packets = s.packets := rfl
@[simp] theorem State.setElem_ops (e : Nat) (x : Elem) : (s.setElem e x).ops = s.ops := rfl
@[simp] theorem State.setElem_armed (e : Nat) (x : Elem) : (s.setElem e x).armed = s.armed := rfl
@[simp] theorem State.setElem_armedOf (e : Nat) (x : Elem) : (s.setElem e x).armedOf = s.armedOf := rfl
@[simp] theorem State.setElem_pwalks (e : Nat) (x : Elem) : (s.setElem e x).pwalks = s.pwalks := rfl
@[simp] theorem State.setElem_arbs (e : Nat) (x : Elem) : (s.setElem e x).arbs = s.arbs := rfl
@[simp] theorem State.setElem_beacons (e : Nat) (x : Elem) : (s.setElem e x).beacons = s.beacons := rfl
@[simp] theorem State.setElem_subs (e : Nat) (x : Elem) : (s.setElem e x).subs = s.subs := rfl
@[simp] theorem State.setElem_unitRun (e : Nat) (x : Elem) : (s.setElem e x).unitRun = s.unitRun := rfl
@[simp] theorem State.setElem_unitWait (e : Nat) (x : Elem) : (s.setElem e x).unitWait = s.unitWait := rfl
@[simp] theorem State.setElem_links (e : Nat) (x : Elem) : (s.setElem e x).links = s.links := rfl
@[simp] theorem State.setElem_boot (e : Nat) (x : Elem) : (s.setElem e x).boot = s.boot := rfl
@[simp] theorem State.setElem_spdm (e : Nat) (x : Elem) : (s.setElem e x).spdm = s.spdm := rfl
@[simp] theorem State.setElem_agenda (e : Nat) (x : Elem) : (s.setElem e x).agenda = s.agenda := rfl
@[simp] theorem State.setElem_brkRuns (e : Nat) (x : Elem) : (s.setElem e x).brkRuns = s.brkRuns := rfl
@[simp] theorem State.setElem_inputs (e : Nat) (x : Elem) : (s.setElem e x).inputs = s.inputs := rfl
@[simp] theorem State.setElem_cur (e : Nat) (x : Elem) : (s.setElem e x).cur = s.cur := rfl
@[simp] theorem State.setElem_lastRead (e : Nat) (x : Elem) : (s.setElem e x).lastRead = s.lastRead := rfl
@[simp] theorem State.setElem_freeCtr (e : Nat) (x : Elem) : (s.setElem e x).freeCtr = s.freeCtr := rfl
@[simp] theorem State.setElem_nextId (e : Nat) (x : Elem) : (s.setElem e x).nextId = s.nextId := rfl
@[simp] theorem State.setElem_nextTag (e : Nat) (x : Elem) : (s.setElem e x).nextTag = s.nextTag := rfl

/-! ## setTile -/

@[simp] theorem State.modTile_eq (k : Nat) (f : Tile → Tile) : s.modTile k f = s.setTile k (f (s.tile k)) := rfl
@[simp] theorem State.setTile_tick (t : Nat) (x : Tile) : (s.setTile t x).tick = s.tick := rfl
@[simp] theorem State.setTile_timeOff (t : Nat) (x : Tile) : (s.setTile t x).timeOff = s.timeOff := rfl
@[simp] theorem State.setTile_slew (t : Nat) (x : Tile) : (s.setTile t x).slew = s.slew := rfl
@[simp] theorem State.setTile_synced (t : Nat) (x : Tile) : (s.setTile t x).synced = s.synced := rfl
@[simp] theorem State.setTile_firstConsist (t : Nat) (x : Tile) : (s.setTile t x).firstConsist = s.firstConsist := rfl
@[simp] theorem State.setTile_dies (t : Nat) (x : Tile) : (s.setTile t x).dies = s.dies := rfl
@[simp] theorem State.setTile_usable (t : Nat) (x : Tile) : (s.setTile t x).usable = s.usable := rfl
@[simp] theorem State.setTile_tiles (t : Nat) (x : Tile) : (s.setTile t x).tiles = s.tiles.put t x := rfl
@[simp] theorem State.setTile_elems (t : Nat) (x : Tile) : (s.setTile t x).elems = s.elems := rfl
@[simp] theorem State.setTile_ports (t : Nat) (x : Tile) : (s.setTile t x).ports = s.ports := rfl
@[simp] theorem State.setTile_outs (t : Nat) (x : Tile) : (s.setTile t x).outs = s.outs := rfl
@[simp] theorem State.setTile_islands (t : Nat) (x : Tile) : (s.setTile t x).islands = s.islands := rfl
@[simp] theorem State.setTile_regions (t : Nat) (x : Tile) : (s.setTile t x).regions = s.regions := rfl
@[simp] theorem State.setTile_walks (t : Nat) (x : Tile) : (s.setTile t x).walks = s.walks := rfl
@[simp] theorem State.setTile_mem (t : Nat) (x : Tile) : (s.setTile t x).mem = s.mem := rfl
@[simp] theorem State.setTile_spm (t : Nat) (x : Tile) : (s.setTile t x).spm = s.spm := rfl
@[simp] theorem State.setTile_feEmpty (t : Nat) (x : Tile) : (s.setTile t x).feEmpty = s.feEmpty := rfl
@[simp] theorem State.setTile_poisonLines (t : Nat) (x : Tile) : (s.setTile t x).poisonLines = s.poisonLines := rfl
@[simp] theorem State.setTile_poisonRows (t : Nat) (x : Tile) : (s.setTile t x).poisonRows = s.poisonRows := rfl
@[simp] theorem State.setTile_fc (t : Nat) (x : Tile) : (s.setTile t x).fc = s.fc := rfl
@[simp] theorem State.setTile_visitor (t : Nat) (x : Tile) : (s.setTile t x).visitor = s.visitor := rfl
@[simp] theorem State.setTile_flights (t : Nat) (x : Tile) : (s.setTile t x).flights = s.flights := rfl
@[simp] theorem State.setTile_credits (t : Nat) (x : Tile) : (s.setTile t x).credits = s.credits := rfl
@[simp] theorem State.setTile_packets (t : Nat) (x : Tile) : (s.setTile t x).packets = s.packets := rfl
@[simp] theorem State.setTile_ops (t : Nat) (x : Tile) : (s.setTile t x).ops = s.ops := rfl
@[simp] theorem State.setTile_armed (t : Nat) (x : Tile) : (s.setTile t x).armed = s.armed := rfl
@[simp] theorem State.setTile_armedOf (t : Nat) (x : Tile) : (s.setTile t x).armedOf = s.armedOf := rfl
@[simp] theorem State.setTile_pwalks (t : Nat) (x : Tile) : (s.setTile t x).pwalks = s.pwalks := rfl
@[simp] theorem State.setTile_arbs (t : Nat) (x : Tile) : (s.setTile t x).arbs = s.arbs := rfl
@[simp] theorem State.setTile_beacons (t : Nat) (x : Tile) : (s.setTile t x).beacons = s.beacons := rfl
@[simp] theorem State.setTile_subs (t : Nat) (x : Tile) : (s.setTile t x).subs = s.subs := rfl
@[simp] theorem State.setTile_unitRun (t : Nat) (x : Tile) : (s.setTile t x).unitRun = s.unitRun := rfl
@[simp] theorem State.setTile_unitWait (t : Nat) (x : Tile) : (s.setTile t x).unitWait = s.unitWait := rfl
@[simp] theorem State.setTile_links (t : Nat) (x : Tile) : (s.setTile t x).links = s.links := rfl
@[simp] theorem State.setTile_boot (t : Nat) (x : Tile) : (s.setTile t x).boot = s.boot := rfl
@[simp] theorem State.setTile_spdm (t : Nat) (x : Tile) : (s.setTile t x).spdm = s.spdm := rfl
@[simp] theorem State.setTile_agenda (t : Nat) (x : Tile) : (s.setTile t x).agenda = s.agenda := rfl
@[simp] theorem State.setTile_brkRuns (t : Nat) (x : Tile) : (s.setTile t x).brkRuns = s.brkRuns := rfl
@[simp] theorem State.setTile_inputs (t : Nat) (x : Tile) : (s.setTile t x).inputs = s.inputs := rfl
@[simp] theorem State.setTile_cur (t : Nat) (x : Tile) : (s.setTile t x).cur = s.cur := rfl
@[simp] theorem State.setTile_lastRead (t : Nat) (x : Tile) : (s.setTile t x).lastRead = s.lastRead := rfl
@[simp] theorem State.setTile_freeCtr (t : Nat) (x : Tile) : (s.setTile t x).freeCtr = s.freeCtr := rfl
@[simp] theorem State.setTile_nextId (t : Nat) (x : Tile) : (s.setTile t x).nextId = s.nextId := rfl
@[simp] theorem State.setTile_nextTag (t : Nat) (x : Tile) : (s.setTile t x).nextTag = s.nextTag := rfl

/-! ## setPort -/

@[simp] theorem State.modPort_eq (k : Nat) (f : Port → Port) : s.modPort k f = s.setPort k (f (s.port k)) := rfl
@[simp] theorem State.setPort_tick (p : Nat) (x : Port) : (s.setPort p x).tick = s.tick := rfl
@[simp] theorem State.setPort_timeOff (p : Nat) (x : Port) : (s.setPort p x).timeOff = s.timeOff := rfl
@[simp] theorem State.setPort_slew (p : Nat) (x : Port) : (s.setPort p x).slew = s.slew := rfl
@[simp] theorem State.setPort_synced (p : Nat) (x : Port) : (s.setPort p x).synced = s.synced := rfl
@[simp] theorem State.setPort_firstConsist (p : Nat) (x : Port) : (s.setPort p x).firstConsist = s.firstConsist := rfl
@[simp] theorem State.setPort_dies (p : Nat) (x : Port) : (s.setPort p x).dies = s.dies := rfl
@[simp] theorem State.setPort_usable (p : Nat) (x : Port) : (s.setPort p x).usable = s.usable := rfl
@[simp] theorem State.setPort_tiles (p : Nat) (x : Port) : (s.setPort p x).tiles = s.tiles := rfl
@[simp] theorem State.setPort_elems (p : Nat) (x : Port) : (s.setPort p x).elems = s.elems := rfl
@[simp] theorem State.setPort_ports (p : Nat) (x : Port) : (s.setPort p x).ports = s.ports.put p x := rfl
@[simp] theorem State.setPort_outs (p : Nat) (x : Port) : (s.setPort p x).outs = s.outs := rfl
@[simp] theorem State.setPort_islands (p : Nat) (x : Port) : (s.setPort p x).islands = s.islands := rfl
@[simp] theorem State.setPort_regions (p : Nat) (x : Port) : (s.setPort p x).regions = s.regions := rfl
@[simp] theorem State.setPort_walks (p : Nat) (x : Port) : (s.setPort p x).walks = s.walks := rfl
@[simp] theorem State.setPort_mem (p : Nat) (x : Port) : (s.setPort p x).mem = s.mem := rfl
@[simp] theorem State.setPort_spm (p : Nat) (x : Port) : (s.setPort p x).spm = s.spm := rfl
@[simp] theorem State.setPort_feEmpty (p : Nat) (x : Port) : (s.setPort p x).feEmpty = s.feEmpty := rfl
@[simp] theorem State.setPort_poisonLines (p : Nat) (x : Port) : (s.setPort p x).poisonLines = s.poisonLines := rfl
@[simp] theorem State.setPort_poisonRows (p : Nat) (x : Port) : (s.setPort p x).poisonRows = s.poisonRows := rfl
@[simp] theorem State.setPort_fc (p : Nat) (x : Port) : (s.setPort p x).fc = s.fc := rfl
@[simp] theorem State.setPort_visitor (p : Nat) (x : Port) : (s.setPort p x).visitor = s.visitor := rfl
@[simp] theorem State.setPort_flights (p : Nat) (x : Port) : (s.setPort p x).flights = s.flights := rfl
@[simp] theorem State.setPort_credits (p : Nat) (x : Port) : (s.setPort p x).credits = s.credits := rfl
@[simp] theorem State.setPort_packets (p : Nat) (x : Port) : (s.setPort p x).packets = s.packets := rfl
@[simp] theorem State.setPort_ops (p : Nat) (x : Port) : (s.setPort p x).ops = s.ops := rfl
@[simp] theorem State.setPort_armed (p : Nat) (x : Port) : (s.setPort p x).armed = s.armed := rfl
@[simp] theorem State.setPort_armedOf (p : Nat) (x : Port) : (s.setPort p x).armedOf = s.armedOf := rfl
@[simp] theorem State.setPort_pwalks (p : Nat) (x : Port) : (s.setPort p x).pwalks = s.pwalks := rfl
@[simp] theorem State.setPort_arbs (p : Nat) (x : Port) : (s.setPort p x).arbs = s.arbs := rfl
@[simp] theorem State.setPort_beacons (p : Nat) (x : Port) : (s.setPort p x).beacons = s.beacons := rfl
@[simp] theorem State.setPort_subs (p : Nat) (x : Port) : (s.setPort p x).subs = s.subs := rfl
@[simp] theorem State.setPort_unitRun (p : Nat) (x : Port) : (s.setPort p x).unitRun = s.unitRun := rfl
@[simp] theorem State.setPort_unitWait (p : Nat) (x : Port) : (s.setPort p x).unitWait = s.unitWait := rfl
@[simp] theorem State.setPort_links (p : Nat) (x : Port) : (s.setPort p x).links = s.links := rfl
@[simp] theorem State.setPort_boot (p : Nat) (x : Port) : (s.setPort p x).boot = s.boot := rfl
@[simp] theorem State.setPort_spdm (p : Nat) (x : Port) : (s.setPort p x).spdm = s.spdm := rfl
@[simp] theorem State.setPort_agenda (p : Nat) (x : Port) : (s.setPort p x).agenda = s.agenda := rfl
@[simp] theorem State.setPort_brkRuns (p : Nat) (x : Port) : (s.setPort p x).brkRuns = s.brkRuns := rfl
@[simp] theorem State.setPort_inputs (p : Nat) (x : Port) : (s.setPort p x).inputs = s.inputs := rfl
@[simp] theorem State.setPort_cur (p : Nat) (x : Port) : (s.setPort p x).cur = s.cur := rfl
@[simp] theorem State.setPort_lastRead (p : Nat) (x : Port) : (s.setPort p x).lastRead = s.lastRead := rfl
@[simp] theorem State.setPort_freeCtr (p : Nat) (x : Port) : (s.setPort p x).freeCtr = s.freeCtr := rfl
@[simp] theorem State.setPort_nextId (p : Nat) (x : Port) : (s.setPort p x).nextId = s.nextId := rfl
@[simp] theorem State.setPort_nextTag (p : Nat) (x : Port) : (s.setPort p x).nextTag = s.nextTag := rfl

/-! ## setDie -/

@[simp] theorem State.modDie_eq (k : Nat) (f : Die → Die) : s.modDie k f = s.setDie k (f (s.die k)) := rfl
@[simp] theorem State.setDie_tick (d : Nat) (x : Die) : (s.setDie d x).tick = s.tick := rfl
@[simp] theorem State.setDie_timeOff (d : Nat) (x : Die) : (s.setDie d x).timeOff = s.timeOff := rfl
@[simp] theorem State.setDie_slew (d : Nat) (x : Die) : (s.setDie d x).slew = s.slew := rfl
@[simp] theorem State.setDie_synced (d : Nat) (x : Die) : (s.setDie d x).synced = s.synced := rfl
@[simp] theorem State.setDie_firstConsist (d : Nat) (x : Die) : (s.setDie d x).firstConsist = s.firstConsist := rfl
@[simp] theorem State.setDie_dies (d : Nat) (x : Die) : (s.setDie d x).dies = s.dies.set d x := rfl
@[simp] theorem State.setDie_usable (d : Nat) (x : Die) : (s.setDie d x).usable = s.usable := rfl
@[simp] theorem State.setDie_tiles (d : Nat) (x : Die) : (s.setDie d x).tiles = s.tiles := rfl
@[simp] theorem State.setDie_elems (d : Nat) (x : Die) : (s.setDie d x).elems = s.elems := rfl
@[simp] theorem State.setDie_ports (d : Nat) (x : Die) : (s.setDie d x).ports = s.ports := rfl
@[simp] theorem State.setDie_outs (d : Nat) (x : Die) : (s.setDie d x).outs = s.outs := rfl
@[simp] theorem State.setDie_islands (d : Nat) (x : Die) : (s.setDie d x).islands = s.islands := rfl
@[simp] theorem State.setDie_regions (d : Nat) (x : Die) : (s.setDie d x).regions = s.regions := rfl
@[simp] theorem State.setDie_walks (d : Nat) (x : Die) : (s.setDie d x).walks = s.walks := rfl
@[simp] theorem State.setDie_mem (d : Nat) (x : Die) : (s.setDie d x).mem = s.mem := rfl
@[simp] theorem State.setDie_spm (d : Nat) (x : Die) : (s.setDie d x).spm = s.spm := rfl
@[simp] theorem State.setDie_feEmpty (d : Nat) (x : Die) : (s.setDie d x).feEmpty = s.feEmpty := rfl
@[simp] theorem State.setDie_poisonLines (d : Nat) (x : Die) : (s.setDie d x).poisonLines = s.poisonLines := rfl
@[simp] theorem State.setDie_poisonRows (d : Nat) (x : Die) : (s.setDie d x).poisonRows = s.poisonRows := rfl
@[simp] theorem State.setDie_fc (d : Nat) (x : Die) : (s.setDie d x).fc = s.fc := rfl
@[simp] theorem State.setDie_visitor (d : Nat) (x : Die) : (s.setDie d x).visitor = s.visitor := rfl
@[simp] theorem State.setDie_flights (d : Nat) (x : Die) : (s.setDie d x).flights = s.flights := rfl
@[simp] theorem State.setDie_credits (d : Nat) (x : Die) : (s.setDie d x).credits = s.credits := rfl
@[simp] theorem State.setDie_packets (d : Nat) (x : Die) : (s.setDie d x).packets = s.packets := rfl
@[simp] theorem State.setDie_ops (d : Nat) (x : Die) : (s.setDie d x).ops = s.ops := rfl
@[simp] theorem State.setDie_armed (d : Nat) (x : Die) : (s.setDie d x).armed = s.armed := rfl
@[simp] theorem State.setDie_armedOf (d : Nat) (x : Die) : (s.setDie d x).armedOf = s.armedOf := rfl
@[simp] theorem State.setDie_pwalks (d : Nat) (x : Die) : (s.setDie d x).pwalks = s.pwalks := rfl
@[simp] theorem State.setDie_arbs (d : Nat) (x : Die) : (s.setDie d x).arbs = s.arbs := rfl
@[simp] theorem State.setDie_beacons (d : Nat) (x : Die) : (s.setDie d x).beacons = s.beacons := rfl
@[simp] theorem State.setDie_subs (d : Nat) (x : Die) : (s.setDie d x).subs = s.subs := rfl
@[simp] theorem State.setDie_unitRun (d : Nat) (x : Die) : (s.setDie d x).unitRun = s.unitRun := rfl
@[simp] theorem State.setDie_unitWait (d : Nat) (x : Die) : (s.setDie d x).unitWait = s.unitWait := rfl
@[simp] theorem State.setDie_links (d : Nat) (x : Die) : (s.setDie d x).links = s.links := rfl
@[simp] theorem State.setDie_boot (d : Nat) (x : Die) : (s.setDie d x).boot = s.boot := rfl
@[simp] theorem State.setDie_spdm (d : Nat) (x : Die) : (s.setDie d x).spdm = s.spdm := rfl
@[simp] theorem State.setDie_agenda (d : Nat) (x : Die) : (s.setDie d x).agenda = s.agenda := rfl
@[simp] theorem State.setDie_brkRuns (d : Nat) (x : Die) : (s.setDie d x).brkRuns = s.brkRuns := rfl
@[simp] theorem State.setDie_inputs (d : Nat) (x : Die) : (s.setDie d x).inputs = s.inputs := rfl
@[simp] theorem State.setDie_cur (d : Nat) (x : Die) : (s.setDie d x).cur = s.cur := rfl
@[simp] theorem State.setDie_lastRead (d : Nat) (x : Die) : (s.setDie d x).lastRead = s.lastRead := rfl
@[simp] theorem State.setDie_freeCtr (d : Nat) (x : Die) : (s.setDie d x).freeCtr = s.freeCtr := rfl
@[simp] theorem State.setDie_nextId (d : Nat) (x : Die) : (s.setDie d x).nextId = s.nextId := rfl
@[simp] theorem State.setDie_nextTag (d : Nat) (x : Die) : (s.setDie d x).nextTag = s.nextTag := rfl

/-! ## setIsland -/

@[simp] theorem State.modIsland_eq (k : Nat) (f : Island → Island) : s.modIsland k f = s.setIsland k (f (s.island k)) := rfl
@[simp] theorem State.setIsland_tick (i : Nat) (x : Island) : (s.setIsland i x).tick = s.tick := rfl
@[simp] theorem State.setIsland_timeOff (i : Nat) (x : Island) : (s.setIsland i x).timeOff = s.timeOff := rfl
@[simp] theorem State.setIsland_slew (i : Nat) (x : Island) : (s.setIsland i x).slew = s.slew := rfl
@[simp] theorem State.setIsland_synced (i : Nat) (x : Island) : (s.setIsland i x).synced = s.synced := rfl
@[simp] theorem State.setIsland_firstConsist (i : Nat) (x : Island) : (s.setIsland i x).firstConsist = s.firstConsist := rfl
@[simp] theorem State.setIsland_dies (i : Nat) (x : Island) : (s.setIsland i x).dies = s.dies := rfl
@[simp] theorem State.setIsland_usable (i : Nat) (x : Island) : (s.setIsland i x).usable = s.usable := rfl
@[simp] theorem State.setIsland_tiles (i : Nat) (x : Island) : (s.setIsland i x).tiles = s.tiles := rfl
@[simp] theorem State.setIsland_elems (i : Nat) (x : Island) : (s.setIsland i x).elems = s.elems := rfl
@[simp] theorem State.setIsland_ports (i : Nat) (x : Island) : (s.setIsland i x).ports = s.ports := rfl
@[simp] theorem State.setIsland_outs (i : Nat) (x : Island) : (s.setIsland i x).outs = s.outs := rfl
@[simp] theorem State.setIsland_islands (i : Nat) (x : Island) : (s.setIsland i x).islands = s.islands.put i x := rfl
@[simp] theorem State.setIsland_regions (i : Nat) (x : Island) : (s.setIsland i x).regions = s.regions := rfl
@[simp] theorem State.setIsland_walks (i : Nat) (x : Island) : (s.setIsland i x).walks = s.walks := rfl
@[simp] theorem State.setIsland_mem (i : Nat) (x : Island) : (s.setIsland i x).mem = s.mem := rfl
@[simp] theorem State.setIsland_spm (i : Nat) (x : Island) : (s.setIsland i x).spm = s.spm := rfl
@[simp] theorem State.setIsland_feEmpty (i : Nat) (x : Island) : (s.setIsland i x).feEmpty = s.feEmpty := rfl
@[simp] theorem State.setIsland_poisonLines (i : Nat) (x : Island) : (s.setIsland i x).poisonLines = s.poisonLines := rfl
@[simp] theorem State.setIsland_poisonRows (i : Nat) (x : Island) : (s.setIsland i x).poisonRows = s.poisonRows := rfl
@[simp] theorem State.setIsland_fc (i : Nat) (x : Island) : (s.setIsland i x).fc = s.fc := rfl
@[simp] theorem State.setIsland_visitor (i : Nat) (x : Island) : (s.setIsland i x).visitor = s.visitor := rfl
@[simp] theorem State.setIsland_flights (i : Nat) (x : Island) : (s.setIsland i x).flights = s.flights := rfl
@[simp] theorem State.setIsland_credits (i : Nat) (x : Island) : (s.setIsland i x).credits = s.credits := rfl
@[simp] theorem State.setIsland_packets (i : Nat) (x : Island) : (s.setIsland i x).packets = s.packets := rfl
@[simp] theorem State.setIsland_ops (i : Nat) (x : Island) : (s.setIsland i x).ops = s.ops := rfl
@[simp] theorem State.setIsland_armed (i : Nat) (x : Island) : (s.setIsland i x).armed = s.armed := rfl
@[simp] theorem State.setIsland_armedOf (i : Nat) (x : Island) : (s.setIsland i x).armedOf = s.armedOf := rfl
@[simp] theorem State.setIsland_pwalks (i : Nat) (x : Island) : (s.setIsland i x).pwalks = s.pwalks := rfl
@[simp] theorem State.setIsland_arbs (i : Nat) (x : Island) : (s.setIsland i x).arbs = s.arbs := rfl
@[simp] theorem State.setIsland_beacons (i : Nat) (x : Island) : (s.setIsland i x).beacons = s.beacons := rfl
@[simp] theorem State.setIsland_subs (i : Nat) (x : Island) : (s.setIsland i x).subs = s.subs := rfl
@[simp] theorem State.setIsland_unitRun (i : Nat) (x : Island) : (s.setIsland i x).unitRun = s.unitRun := rfl
@[simp] theorem State.setIsland_unitWait (i : Nat) (x : Island) : (s.setIsland i x).unitWait = s.unitWait := rfl
@[simp] theorem State.setIsland_links (i : Nat) (x : Island) : (s.setIsland i x).links = s.links := rfl
@[simp] theorem State.setIsland_boot (i : Nat) (x : Island) : (s.setIsland i x).boot = s.boot := rfl
@[simp] theorem State.setIsland_spdm (i : Nat) (x : Island) : (s.setIsland i x).spdm = s.spdm := rfl
@[simp] theorem State.setIsland_agenda (i : Nat) (x : Island) : (s.setIsland i x).agenda = s.agenda := rfl
@[simp] theorem State.setIsland_brkRuns (i : Nat) (x : Island) : (s.setIsland i x).brkRuns = s.brkRuns := rfl
@[simp] theorem State.setIsland_inputs (i : Nat) (x : Island) : (s.setIsland i x).inputs = s.inputs := rfl
@[simp] theorem State.setIsland_cur (i : Nat) (x : Island) : (s.setIsland i x).cur = s.cur := rfl
@[simp] theorem State.setIsland_lastRead (i : Nat) (x : Island) : (s.setIsland i x).lastRead = s.lastRead := rfl
@[simp] theorem State.setIsland_freeCtr (i : Nat) (x : Island) : (s.setIsland i x).freeCtr = s.freeCtr := rfl
@[simp] theorem State.setIsland_nextId (i : Nat) (x : Island) : (s.setIsland i x).nextId = s.nextId := rfl
@[simp] theorem State.setIsland_nextTag (i : Nat) (x : Island) : (s.setIsland i x).nextTag = s.nextTag := rfl

/-! ## setRegion -/

@[simp] theorem State.setRegion_tick (r : Nat) (x : Region) : (s.setRegion r x).tick = s.tick := rfl
@[simp] theorem State.setRegion_timeOff (r : Nat) (x : Region) : (s.setRegion r x).timeOff = s.timeOff := rfl
@[simp] theorem State.setRegion_slew (r : Nat) (x : Region) : (s.setRegion r x).slew = s.slew := rfl
@[simp] theorem State.setRegion_synced (r : Nat) (x : Region) : (s.setRegion r x).synced = s.synced := rfl
@[simp] theorem State.setRegion_firstConsist (r : Nat) (x : Region) : (s.setRegion r x).firstConsist = s.firstConsist := rfl
@[simp] theorem State.setRegion_dies (r : Nat) (x : Region) : (s.setRegion r x).dies = s.dies := rfl
@[simp] theorem State.setRegion_usable (r : Nat) (x : Region) : (s.setRegion r x).usable = s.usable := rfl
@[simp] theorem State.setRegion_tiles (r : Nat) (x : Region) : (s.setRegion r x).tiles = s.tiles := rfl
@[simp] theorem State.setRegion_elems (r : Nat) (x : Region) : (s.setRegion r x).elems = s.elems := rfl
@[simp] theorem State.setRegion_ports (r : Nat) (x : Region) : (s.setRegion r x).ports = s.ports := rfl
@[simp] theorem State.setRegion_outs (r : Nat) (x : Region) : (s.setRegion r x).outs = s.outs := rfl
@[simp] theorem State.setRegion_islands (r : Nat) (x : Region) : (s.setRegion r x).islands = s.islands := rfl
@[simp] theorem State.setRegion_regions (r : Nat) (x : Region) : (s.setRegion r x).regions = s.regions.put r x := rfl
@[simp] theorem State.setRegion_walks (r : Nat) (x : Region) : (s.setRegion r x).walks = s.walks := rfl
@[simp] theorem State.setRegion_mem (r : Nat) (x : Region) : (s.setRegion r x).mem = s.mem := rfl
@[simp] theorem State.setRegion_spm (r : Nat) (x : Region) : (s.setRegion r x).spm = s.spm := rfl
@[simp] theorem State.setRegion_feEmpty (r : Nat) (x : Region) : (s.setRegion r x).feEmpty = s.feEmpty := rfl
@[simp] theorem State.setRegion_poisonLines (r : Nat) (x : Region) : (s.setRegion r x).poisonLines = s.poisonLines := rfl
@[simp] theorem State.setRegion_poisonRows (r : Nat) (x : Region) : (s.setRegion r x).poisonRows = s.poisonRows := rfl
@[simp] theorem State.setRegion_fc (r : Nat) (x : Region) : (s.setRegion r x).fc = s.fc := rfl
@[simp] theorem State.setRegion_visitor (r : Nat) (x : Region) : (s.setRegion r x).visitor = s.visitor := rfl
@[simp] theorem State.setRegion_flights (r : Nat) (x : Region) : (s.setRegion r x).flights = s.flights := rfl
@[simp] theorem State.setRegion_credits (r : Nat) (x : Region) : (s.setRegion r x).credits = s.credits := rfl
@[simp] theorem State.setRegion_packets (r : Nat) (x : Region) : (s.setRegion r x).packets = s.packets := rfl
@[simp] theorem State.setRegion_ops (r : Nat) (x : Region) : (s.setRegion r x).ops = s.ops := rfl
@[simp] theorem State.setRegion_armed (r : Nat) (x : Region) : (s.setRegion r x).armed = s.armed := rfl
@[simp] theorem State.setRegion_armedOf (r : Nat) (x : Region) : (s.setRegion r x).armedOf = s.armedOf := rfl
@[simp] theorem State.setRegion_pwalks (r : Nat) (x : Region) : (s.setRegion r x).pwalks = s.pwalks := rfl
@[simp] theorem State.setRegion_arbs (r : Nat) (x : Region) : (s.setRegion r x).arbs = s.arbs := rfl
@[simp] theorem State.setRegion_beacons (r : Nat) (x : Region) : (s.setRegion r x).beacons = s.beacons := rfl
@[simp] theorem State.setRegion_subs (r : Nat) (x : Region) : (s.setRegion r x).subs = s.subs := rfl
@[simp] theorem State.setRegion_unitRun (r : Nat) (x : Region) : (s.setRegion r x).unitRun = s.unitRun := rfl
@[simp] theorem State.setRegion_unitWait (r : Nat) (x : Region) : (s.setRegion r x).unitWait = s.unitWait := rfl
@[simp] theorem State.setRegion_links (r : Nat) (x : Region) : (s.setRegion r x).links = s.links := rfl
@[simp] theorem State.setRegion_boot (r : Nat) (x : Region) : (s.setRegion r x).boot = s.boot := rfl
@[simp] theorem State.setRegion_spdm (r : Nat) (x : Region) : (s.setRegion r x).spdm = s.spdm := rfl
@[simp] theorem State.setRegion_agenda (r : Nat) (x : Region) : (s.setRegion r x).agenda = s.agenda := rfl
@[simp] theorem State.setRegion_brkRuns (r : Nat) (x : Region) : (s.setRegion r x).brkRuns = s.brkRuns := rfl
@[simp] theorem State.setRegion_inputs (r : Nat) (x : Region) : (s.setRegion r x).inputs = s.inputs := rfl
@[simp] theorem State.setRegion_cur (r : Nat) (x : Region) : (s.setRegion r x).cur = s.cur := rfl
@[simp] theorem State.setRegion_lastRead (r : Nat) (x : Region) : (s.setRegion r x).lastRead = s.lastRead := rfl
@[simp] theorem State.setRegion_freeCtr (r : Nat) (x : Region) : (s.setRegion r x).freeCtr = s.freeCtr := rfl
@[simp] theorem State.setRegion_nextId (r : Nat) (x : Region) : (s.setRegion r x).nextId = s.nextId := rfl
@[simp] theorem State.setRegion_nextTag (r : Nat) (x : Region) : (s.setRegion r x).nextTag = s.nextTag := rfl

/-! ## setArb -/

@[simp] theorem State.setArb_tick (a : Nat) (x : Arb) : (s.setArb a x).tick = s.tick := rfl
@[simp] theorem State.setArb_timeOff (a : Nat) (x : Arb) : (s.setArb a x).timeOff = s.timeOff := rfl
@[simp] theorem State.setArb_slew (a : Nat) (x : Arb) : (s.setArb a x).slew = s.slew := rfl
@[simp] theorem State.setArb_synced (a : Nat) (x : Arb) : (s.setArb a x).synced = s.synced := rfl
@[simp] theorem State.setArb_firstConsist (a : Nat) (x : Arb) : (s.setArb a x).firstConsist = s.firstConsist := rfl
@[simp] theorem State.setArb_dies (a : Nat) (x : Arb) : (s.setArb a x).dies = s.dies := rfl
@[simp] theorem State.setArb_usable (a : Nat) (x : Arb) : (s.setArb a x).usable = s.usable := rfl
@[simp] theorem State.setArb_tiles (a : Nat) (x : Arb) : (s.setArb a x).tiles = s.tiles := rfl
@[simp] theorem State.setArb_elems (a : Nat) (x : Arb) : (s.setArb a x).elems = s.elems := rfl
@[simp] theorem State.setArb_ports (a : Nat) (x : Arb) : (s.setArb a x).ports = s.ports := rfl
@[simp] theorem State.setArb_outs (a : Nat) (x : Arb) : (s.setArb a x).outs = s.outs := rfl
@[simp] theorem State.setArb_islands (a : Nat) (x : Arb) : (s.setArb a x).islands = s.islands := rfl
@[simp] theorem State.setArb_regions (a : Nat) (x : Arb) : (s.setArb a x).regions = s.regions := rfl
@[simp] theorem State.setArb_walks (a : Nat) (x : Arb) : (s.setArb a x).walks = s.walks := rfl
@[simp] theorem State.setArb_mem (a : Nat) (x : Arb) : (s.setArb a x).mem = s.mem := rfl
@[simp] theorem State.setArb_spm (a : Nat) (x : Arb) : (s.setArb a x).spm = s.spm := rfl
@[simp] theorem State.setArb_feEmpty (a : Nat) (x : Arb) : (s.setArb a x).feEmpty = s.feEmpty := rfl
@[simp] theorem State.setArb_poisonLines (a : Nat) (x : Arb) : (s.setArb a x).poisonLines = s.poisonLines := rfl
@[simp] theorem State.setArb_poisonRows (a : Nat) (x : Arb) : (s.setArb a x).poisonRows = s.poisonRows := rfl
@[simp] theorem State.setArb_fc (a : Nat) (x : Arb) : (s.setArb a x).fc = s.fc := rfl
@[simp] theorem State.setArb_visitor (a : Nat) (x : Arb) : (s.setArb a x).visitor = s.visitor := rfl
@[simp] theorem State.setArb_flights (a : Nat) (x : Arb) : (s.setArb a x).flights = s.flights := rfl
@[simp] theorem State.setArb_credits (a : Nat) (x : Arb) : (s.setArb a x).credits = s.credits := rfl
@[simp] theorem State.setArb_packets (a : Nat) (x : Arb) : (s.setArb a x).packets = s.packets := rfl
@[simp] theorem State.setArb_ops (a : Nat) (x : Arb) : (s.setArb a x).ops = s.ops := rfl
@[simp] theorem State.setArb_armed (a : Nat) (x : Arb) : (s.setArb a x).armed = s.armed := rfl
@[simp] theorem State.setArb_armedOf (a : Nat) (x : Arb) : (s.setArb a x).armedOf = s.armedOf := rfl
@[simp] theorem State.setArb_pwalks (a : Nat) (x : Arb) : (s.setArb a x).pwalks = s.pwalks := rfl
@[simp] theorem State.setArb_arbs (a : Nat) (x : Arb) : (s.setArb a x).arbs = s.arbs.put a x := rfl
@[simp] theorem State.setArb_beacons (a : Nat) (x : Arb) : (s.setArb a x).beacons = s.beacons := rfl
@[simp] theorem State.setArb_subs (a : Nat) (x : Arb) : (s.setArb a x).subs = s.subs := rfl
@[simp] theorem State.setArb_unitRun (a : Nat) (x : Arb) : (s.setArb a x).unitRun = s.unitRun := rfl
@[simp] theorem State.setArb_unitWait (a : Nat) (x : Arb) : (s.setArb a x).unitWait = s.unitWait := rfl
@[simp] theorem State.setArb_links (a : Nat) (x : Arb) : (s.setArb a x).links = s.links := rfl
@[simp] theorem State.setArb_boot (a : Nat) (x : Arb) : (s.setArb a x).boot = s.boot := rfl
@[simp] theorem State.setArb_spdm (a : Nat) (x : Arb) : (s.setArb a x).spdm = s.spdm := rfl
@[simp] theorem State.setArb_agenda (a : Nat) (x : Arb) : (s.setArb a x).agenda = s.agenda := rfl
@[simp] theorem State.setArb_brkRuns (a : Nat) (x : Arb) : (s.setArb a x).brkRuns = s.brkRuns := rfl
@[simp] theorem State.setArb_inputs (a : Nat) (x : Arb) : (s.setArb a x).inputs = s.inputs := rfl
@[simp] theorem State.setArb_cur (a : Nat) (x : Arb) : (s.setArb a x).cur = s.cur := rfl
@[simp] theorem State.setArb_lastRead (a : Nat) (x : Arb) : (s.setArb a x).lastRead = s.lastRead := rfl
@[simp] theorem State.setArb_freeCtr (a : Nat) (x : Arb) : (s.setArb a x).freeCtr = s.freeCtr := rfl
@[simp] theorem State.setArb_nextId (a : Nat) (x : Arb) : (s.setArb a x).nextId = s.nextId := rfl
@[simp] theorem State.setArb_nextTag (a : Nat) (x : Arb) : (s.setArb a x).nextTag = s.nextTag := rfl

/-! ## next -/

@[simp] theorem State.next_tick (r : List Todo) : (s.next r).tick = s.tick := rfl
@[simp] theorem State.next_timeOff (r : List Todo) : (s.next r).timeOff = s.timeOff := rfl
@[simp] theorem State.next_slew (r : List Todo) : (s.next r).slew = s.slew := rfl
@[simp] theorem State.next_synced (r : List Todo) : (s.next r).synced = s.synced := rfl
@[simp] theorem State.next_firstConsist (r : List Todo) : (s.next r).firstConsist = s.firstConsist := rfl
@[simp] theorem State.next_dies (r : List Todo) : (s.next r).dies = s.dies := rfl
@[simp] theorem State.next_usable (r : List Todo) : (s.next r).usable = s.usable := rfl
@[simp] theorem State.next_tiles (r : List Todo) : (s.next r).tiles = s.tiles := rfl
@[simp] theorem State.next_elems (r : List Todo) : (s.next r).elems = s.elems := rfl
@[simp] theorem State.next_ports (r : List Todo) : (s.next r).ports = s.ports := rfl
@[simp] theorem State.next_outs (r : List Todo) : (s.next r).outs = s.outs := rfl
@[simp] theorem State.next_islands (r : List Todo) : (s.next r).islands = s.islands := rfl
@[simp] theorem State.next_regions (r : List Todo) : (s.next r).regions = s.regions := rfl
@[simp] theorem State.next_walks (r : List Todo) : (s.next r).walks = s.walks := rfl
@[simp] theorem State.next_mem (r : List Todo) : (s.next r).mem = s.mem := rfl
@[simp] theorem State.next_spm (r : List Todo) : (s.next r).spm = s.spm := rfl
@[simp] theorem State.next_feEmpty (r : List Todo) : (s.next r).feEmpty = s.feEmpty := rfl
@[simp] theorem State.next_poisonLines (r : List Todo) : (s.next r).poisonLines = s.poisonLines := rfl
@[simp] theorem State.next_poisonRows (r : List Todo) : (s.next r).poisonRows = s.poisonRows := rfl
@[simp] theorem State.next_fc (r : List Todo) : (s.next r).fc = s.fc := rfl
@[simp] theorem State.next_visitor (r : List Todo) : (s.next r).visitor = s.visitor := rfl
@[simp] theorem State.next_flights (r : List Todo) : (s.next r).flights = s.flights := rfl
@[simp] theorem State.next_credits (r : List Todo) : (s.next r).credits = s.credits := rfl
@[simp] theorem State.next_packets (r : List Todo) : (s.next r).packets = s.packets := rfl
@[simp] theorem State.next_ops (r : List Todo) : (s.next r).ops = s.ops := rfl
@[simp] theorem State.next_armed (r : List Todo) : (s.next r).armed = s.armed := rfl
@[simp] theorem State.next_armedOf (r : List Todo) : (s.next r).armedOf = s.armedOf := rfl
@[simp] theorem State.next_pwalks (r : List Todo) : (s.next r).pwalks = s.pwalks := rfl
@[simp] theorem State.next_arbs (r : List Todo) : (s.next r).arbs = s.arbs := rfl
@[simp] theorem State.next_beacons (r : List Todo) : (s.next r).beacons = s.beacons := rfl
@[simp] theorem State.next_subs (r : List Todo) : (s.next r).subs = s.subs := rfl
@[simp] theorem State.next_unitRun (r : List Todo) : (s.next r).unitRun = s.unitRun := rfl
@[simp] theorem State.next_unitWait (r : List Todo) : (s.next r).unitWait = s.unitWait := rfl
@[simp] theorem State.next_links (r : List Todo) : (s.next r).links = s.links := rfl
@[simp] theorem State.next_boot (r : List Todo) : (s.next r).boot = s.boot := rfl
@[simp] theorem State.next_spdm (r : List Todo) : (s.next r).spdm = s.spdm := rfl
@[simp] theorem State.next_agenda (r : List Todo) : (s.next r).agenda = r := rfl
@[simp] theorem State.next_brkRuns (r : List Todo) : (s.next r).brkRuns = s.brkRuns := rfl
@[simp] theorem State.next_inputs (r : List Todo) : (s.next r).inputs = s.inputs := rfl
@[simp] theorem State.next_cur (r : List Todo) : (s.next r).cur = s.cur := rfl
@[simp] theorem State.next_lastRead (r : List Todo) : (s.next r).lastRead = s.lastRead := rfl
@[simp] theorem State.next_freeCtr (r : List Todo) : (s.next r).freeCtr = s.freeCtr := rfl
@[simp] theorem State.next_nextId (r : List Todo) : (s.next r).nextId = s.nextId := rfl
@[simp] theorem State.next_nextTag (r : List Todo) : (s.next r).nextTag = s.nextTag := rfl

/-! ## taken -/

@[simp] theorem State.taken_tick (r : List Instr) : (s.taken r).tick = s.tick := rfl
@[simp] theorem State.taken_timeOff (r : List Instr) : (s.taken r).timeOff = s.timeOff := rfl
@[simp] theorem State.taken_slew (r : List Instr) : (s.taken r).slew = s.slew := rfl
@[simp] theorem State.taken_synced (r : List Instr) : (s.taken r).synced = s.synced := rfl
@[simp] theorem State.taken_firstConsist (r : List Instr) : (s.taken r).firstConsist = s.firstConsist := rfl
@[simp] theorem State.taken_dies (r : List Instr) : (s.taken r).dies = s.dies := rfl
@[simp] theorem State.taken_usable (r : List Instr) : (s.taken r).usable = s.usable := rfl
@[simp] theorem State.taken_tiles (r : List Instr) : (s.taken r).tiles = s.tiles := rfl
@[simp] theorem State.taken_elems (r : List Instr) : (s.taken r).elems = s.elems := rfl
@[simp] theorem State.taken_ports (r : List Instr) : (s.taken r).ports = s.ports := rfl
@[simp] theorem State.taken_outs (r : List Instr) : (s.taken r).outs = s.outs := rfl
@[simp] theorem State.taken_islands (r : List Instr) : (s.taken r).islands = s.islands := rfl
@[simp] theorem State.taken_regions (r : List Instr) : (s.taken r).regions = s.regions := rfl
@[simp] theorem State.taken_walks (r : List Instr) : (s.taken r).walks = s.walks := rfl
@[simp] theorem State.taken_mem (r : List Instr) : (s.taken r).mem = s.mem := rfl
@[simp] theorem State.taken_spm (r : List Instr) : (s.taken r).spm = s.spm := rfl
@[simp] theorem State.taken_feEmpty (r : List Instr) : (s.taken r).feEmpty = s.feEmpty := rfl
@[simp] theorem State.taken_poisonLines (r : List Instr) : (s.taken r).poisonLines = s.poisonLines := rfl
@[simp] theorem State.taken_poisonRows (r : List Instr) : (s.taken r).poisonRows = s.poisonRows := rfl
@[simp] theorem State.taken_fc (r : List Instr) : (s.taken r).fc = s.fc := rfl
@[simp] theorem State.taken_visitor (r : List Instr) : (s.taken r).visitor = s.visitor := rfl
@[simp] theorem State.taken_flights (r : List Instr) : (s.taken r).flights = s.flights := rfl
@[simp] theorem State.taken_credits (r : List Instr) : (s.taken r).credits = s.credits := rfl
@[simp] theorem State.taken_packets (r : List Instr) : (s.taken r).packets = s.packets := rfl
@[simp] theorem State.taken_ops (r : List Instr) : (s.taken r).ops = s.ops := rfl
@[simp] theorem State.taken_armed (r : List Instr) : (s.taken r).armed = s.armed := rfl
@[simp] theorem State.taken_armedOf (r : List Instr) : (s.taken r).armedOf = s.armedOf := rfl
@[simp] theorem State.taken_pwalks (r : List Instr) : (s.taken r).pwalks = s.pwalks := rfl
@[simp] theorem State.taken_arbs (r : List Instr) : (s.taken r).arbs = s.arbs := rfl
@[simp] theorem State.taken_beacons (r : List Instr) : (s.taken r).beacons = s.beacons := rfl
@[simp] theorem State.taken_subs (r : List Instr) : (s.taken r).subs = s.subs := rfl
@[simp] theorem State.taken_unitRun (r : List Instr) : (s.taken r).unitRun = s.unitRun := rfl
@[simp] theorem State.taken_unitWait (r : List Instr) : (s.taken r).unitWait = s.unitWait := rfl
@[simp] theorem State.taken_links (r : List Instr) : (s.taken r).links = s.links := rfl
@[simp] theorem State.taken_boot (r : List Instr) : (s.taken r).boot = s.boot := rfl
@[simp] theorem State.taken_spdm (r : List Instr) : (s.taken r).spdm = s.spdm := rfl
@[simp] theorem State.taken_agenda (r : List Instr) : (s.taken r).agenda = s.agenda := rfl
@[simp] theorem State.taken_brkRuns (r : List Instr) : (s.taken r).brkRuns = s.brkRuns := rfl
@[simp] theorem State.taken_inputs (r : List Instr) : (s.taken r).inputs = r := rfl
@[simp] theorem State.taken_cur (r : List Instr) : (s.taken r).cur = s.cur := rfl
@[simp] theorem State.taken_lastRead (r : List Instr) : (s.taken r).lastRead = s.lastRead := rfl
@[simp] theorem State.taken_freeCtr (r : List Instr) : (s.taken r).freeCtr = s.freeCtr := rfl
@[simp] theorem State.taken_nextId (r : List Instr) : (s.taken r).nextId = s.nextId := rfl
@[simp] theorem State.taken_nextTag (r : List Instr) : (s.taken r).nextTag = s.nextTag := rfl

/-! ## fetched -/

@[simp] theorem State.fetched_tick (r : List Todo) (e : Nat) (pl : Plane) (n : Nat) : (s.fetched r e pl n).tick = s.tick := rfl
@[simp] theorem State.fetched_timeOff (r : List Todo) (e : Nat) (pl : Plane) (n : Nat) : (s.fetched r e pl n).timeOff = s.timeOff := rfl
@[simp] theorem State.fetched_slew (r : List Todo) (e : Nat) (pl : Plane) (n : Nat) : (s.fetched r e pl n).slew = s.slew := rfl
@[simp] theorem State.fetched_synced (r : List Todo) (e : Nat) (pl : Plane) (n : Nat) : (s.fetched r e pl n).synced = s.synced := rfl
@[simp] theorem State.fetched_firstConsist (r : List Todo) (e : Nat) (pl : Plane) (n : Nat) : (s.fetched r e pl n).firstConsist = s.firstConsist := rfl
@[simp] theorem State.fetched_dies (r : List Todo) (e : Nat) (pl : Plane) (n : Nat) : (s.fetched r e pl n).dies = s.dies := rfl
@[simp] theorem State.fetched_usable (r : List Todo) (e : Nat) (pl : Plane) (n : Nat) : (s.fetched r e pl n).usable = s.usable := rfl
@[simp] theorem State.fetched_tiles (r : List Todo) (e : Nat) (pl : Plane) (n : Nat) : (s.fetched r e pl n).tiles = s.tiles := rfl
@[simp] theorem State.fetched_elems (r : List Todo) (e : Nat) (pl : Plane) (n : Nat) : (s.fetched r e pl n).elems = s.elems := rfl
@[simp] theorem State.fetched_ports (r : List Todo) (e : Nat) (pl : Plane) (n : Nat) : (s.fetched r e pl n).ports = s.ports := rfl
@[simp] theorem State.fetched_outs (r : List Todo) (e : Nat) (pl : Plane) (n : Nat) : (s.fetched r e pl n).outs = s.outs := rfl
@[simp] theorem State.fetched_islands (r : List Todo) (e : Nat) (pl : Plane) (n : Nat) : (s.fetched r e pl n).islands = s.islands := rfl
@[simp] theorem State.fetched_regions (r : List Todo) (e : Nat) (pl : Plane) (n : Nat) : (s.fetched r e pl n).regions = s.regions := rfl
@[simp] theorem State.fetched_walks (r : List Todo) (e : Nat) (pl : Plane) (n : Nat) : (s.fetched r e pl n).walks = s.walks := rfl
@[simp] theorem State.fetched_mem (r : List Todo) (e : Nat) (pl : Plane) (n : Nat) : (s.fetched r e pl n).mem = s.mem := rfl
@[simp] theorem State.fetched_spm (r : List Todo) (e : Nat) (pl : Plane) (n : Nat) : (s.fetched r e pl n).spm = s.spm := rfl
@[simp] theorem State.fetched_feEmpty (r : List Todo) (e : Nat) (pl : Plane) (n : Nat) : (s.fetched r e pl n).feEmpty = s.feEmpty := rfl
@[simp] theorem State.fetched_poisonLines (r : List Todo) (e : Nat) (pl : Plane) (n : Nat) : (s.fetched r e pl n).poisonLines = s.poisonLines := rfl
@[simp] theorem State.fetched_poisonRows (r : List Todo) (e : Nat) (pl : Plane) (n : Nat) : (s.fetched r e pl n).poisonRows = s.poisonRows := rfl
@[simp] theorem State.fetched_fc (r : List Todo) (e : Nat) (pl : Plane) (n : Nat) : (s.fetched r e pl n).fc = s.fc := rfl
@[simp] theorem State.fetched_visitor (r : List Todo) (e : Nat) (pl : Plane) (n : Nat) : (s.fetched r e pl n).visitor = s.visitor := rfl
@[simp] theorem State.fetched_flights (r : List Todo) (e : Nat) (pl : Plane) (n : Nat) : (s.fetched r e pl n).flights = s.flights := rfl
@[simp] theorem State.fetched_credits (r : List Todo) (e : Nat) (pl : Plane) (n : Nat) : (s.fetched r e pl n).credits = s.credits := rfl
@[simp] theorem State.fetched_packets (r : List Todo) (e : Nat) (pl : Plane) (n : Nat) : (s.fetched r e pl n).packets = s.packets := rfl
@[simp] theorem State.fetched_ops (r : List Todo) (e : Nat) (pl : Plane) (n : Nat) : (s.fetched r e pl n).ops = s.ops := rfl
@[simp] theorem State.fetched_armed (r : List Todo) (e : Nat) (pl : Plane) (n : Nat) : (s.fetched r e pl n).armed = s.armed := rfl
@[simp] theorem State.fetched_armedOf (r : List Todo) (e : Nat) (pl : Plane) (n : Nat) : (s.fetched r e pl n).armedOf = s.armedOf := rfl
@[simp] theorem State.fetched_pwalks (r : List Todo) (e : Nat) (pl : Plane) (n : Nat) : (s.fetched r e pl n).pwalks = s.pwalks := rfl
@[simp] theorem State.fetched_arbs (r : List Todo) (e : Nat) (pl : Plane) (n : Nat) : (s.fetched r e pl n).arbs = s.arbs := rfl
@[simp] theorem State.fetched_beacons (r : List Todo) (e : Nat) (pl : Plane) (n : Nat) : (s.fetched r e pl n).beacons = s.beacons := rfl
@[simp] theorem State.fetched_subs (r : List Todo) (e : Nat) (pl : Plane) (n : Nat) : (s.fetched r e pl n).subs = s.subs := rfl
@[simp] theorem State.fetched_unitRun (r : List Todo) (e : Nat) (pl : Plane) (n : Nat) : (s.fetched r e pl n).unitRun = s.unitRun := rfl
@[simp] theorem State.fetched_unitWait (r : List Todo) (e : Nat) (pl : Plane) (n : Nat) : (s.fetched r e pl n).unitWait = s.unitWait := rfl
@[simp] theorem State.fetched_links (r : List Todo) (e : Nat) (pl : Plane) (n : Nat) : (s.fetched r e pl n).links = s.links := rfl
@[simp] theorem State.fetched_boot (r : List Todo) (e : Nat) (pl : Plane) (n : Nat) : (s.fetched r e pl n).boot = s.boot := rfl
@[simp] theorem State.fetched_spdm (r : List Todo) (e : Nat) (pl : Plane) (n : Nat) : (s.fetched r e pl n).spdm = s.spdm := rfl
@[simp] theorem State.fetched_agenda (r : List Todo) (e : Nat) (pl : Plane) (n : Nat) : (s.fetched r e pl n).agenda = r := rfl
@[simp] theorem State.fetched_brkRuns (r : List Todo) (e : Nat) (pl : Plane) (n : Nat) : (s.fetched r e pl n).brkRuns = s.brkRuns := rfl
@[simp] theorem State.fetched_inputs (r : List Todo) (e : Nat) (pl : Plane) (n : Nat) : (s.fetched r e pl n).inputs = s.inputs := rfl
@[simp] theorem State.fetched_cur (r : List Todo) (e : Nat) (pl : Plane) (n : Nat) : (s.fetched r e pl n).cur = ⟨e, pl, n⟩ := rfl
@[simp] theorem State.fetched_lastRead (r : List Todo) (e : Nat) (pl : Plane) (n : Nat) : (s.fetched r e pl n).lastRead = s.lastRead := rfl
@[simp] theorem State.fetched_freeCtr (r : List Todo) (e : Nat) (pl : Plane) (n : Nat) : (s.fetched r e pl n).freeCtr = s.freeCtr := rfl
@[simp] theorem State.fetched_nextId (r : List Todo) (e : Nat) (pl : Plane) (n : Nat) : (s.fetched r e pl n).nextId = s.nextId := rfl
@[simp] theorem State.fetched_nextTag (r : List Todo) (e : Nat) (pl : Plane) (n : Nat) : (s.fetched r e pl n).nextTag = s.nextTag := rfl

/-! ## modRegion -/

@[simp] theorem State.modRegion_tick (k : Nat) (f : Region → Region) : (s.modRegion k f).tick = s.tick := by unfold State.modRegion; split <;> rfl
@[simp] theorem State.modRegion_timeOff (k : Nat) (f : Region → Region) : (s.modRegion k f).timeOff = s.timeOff := by unfold State.modRegion; split <;> rfl
@[simp] theorem State.modRegion_slew (k : Nat) (f : Region → Region) : (s.modRegion k f).slew = s.slew := by unfold State.modRegion; split <;> rfl
@[simp] theorem State.modRegion_synced (k : Nat) (f : Region → Region) : (s.modRegion k f).synced = s.synced := by unfold State.modRegion; split <;> rfl
@[simp] theorem State.modRegion_firstConsist (k : Nat) (f : Region → Region) : (s.modRegion k f).firstConsist = s.firstConsist := by unfold State.modRegion; split <;> rfl
@[simp] theorem State.modRegion_dies (k : Nat) (f : Region → Region) : (s.modRegion k f).dies = s.dies := by unfold State.modRegion; split <;> rfl
@[simp] theorem State.modRegion_usable (k : Nat) (f : Region → Region) : (s.modRegion k f).usable = s.usable := by unfold State.modRegion; split <;> rfl
@[simp] theorem State.modRegion_tiles (k : Nat) (f : Region → Region) : (s.modRegion k f).tiles = s.tiles := by unfold State.modRegion; split <;> rfl
@[simp] theorem State.modRegion_elems (k : Nat) (f : Region → Region) : (s.modRegion k f).elems = s.elems := by unfold State.modRegion; split <;> rfl
@[simp] theorem State.modRegion_ports (k : Nat) (f : Region → Region) : (s.modRegion k f).ports = s.ports := by unfold State.modRegion; split <;> rfl
@[simp] theorem State.modRegion_outs (k : Nat) (f : Region → Region) : (s.modRegion k f).outs = s.outs := by unfold State.modRegion; split <;> rfl
@[simp] theorem State.modRegion_islands (k : Nat) (f : Region → Region) : (s.modRegion k f).islands = s.islands := by unfold State.modRegion; split <;> rfl
@[simp] theorem State.modRegion_walks (k : Nat) (f : Region → Region) : (s.modRegion k f).walks = s.walks := by unfold State.modRegion; split <;> rfl
@[simp] theorem State.modRegion_mem (k : Nat) (f : Region → Region) : (s.modRegion k f).mem = s.mem := by unfold State.modRegion; split <;> rfl
@[simp] theorem State.modRegion_spm (k : Nat) (f : Region → Region) : (s.modRegion k f).spm = s.spm := by unfold State.modRegion; split <;> rfl
@[simp] theorem State.modRegion_feEmpty (k : Nat) (f : Region → Region) : (s.modRegion k f).feEmpty = s.feEmpty := by unfold State.modRegion; split <;> rfl
@[simp] theorem State.modRegion_poisonLines (k : Nat) (f : Region → Region) : (s.modRegion k f).poisonLines = s.poisonLines := by unfold State.modRegion; split <;> rfl
@[simp] theorem State.modRegion_poisonRows (k : Nat) (f : Region → Region) : (s.modRegion k f).poisonRows = s.poisonRows := by unfold State.modRegion; split <;> rfl
@[simp] theorem State.modRegion_fc (k : Nat) (f : Region → Region) : (s.modRegion k f).fc = s.fc := by unfold State.modRegion; split <;> rfl
@[simp] theorem State.modRegion_visitor (k : Nat) (f : Region → Region) : (s.modRegion k f).visitor = s.visitor := by unfold State.modRegion; split <;> rfl
@[simp] theorem State.modRegion_flights (k : Nat) (f : Region → Region) : (s.modRegion k f).flights = s.flights := by unfold State.modRegion; split <;> rfl
@[simp] theorem State.modRegion_credits (k : Nat) (f : Region → Region) : (s.modRegion k f).credits = s.credits := by unfold State.modRegion; split <;> rfl
@[simp] theorem State.modRegion_packets (k : Nat) (f : Region → Region) : (s.modRegion k f).packets = s.packets := by unfold State.modRegion; split <;> rfl
@[simp] theorem State.modRegion_ops (k : Nat) (f : Region → Region) : (s.modRegion k f).ops = s.ops := by unfold State.modRegion; split <;> rfl
@[simp] theorem State.modRegion_armed (k : Nat) (f : Region → Region) : (s.modRegion k f).armed = s.armed := by unfold State.modRegion; split <;> rfl
@[simp] theorem State.modRegion_armedOf (k : Nat) (f : Region → Region) : (s.modRegion k f).armedOf = s.armedOf := by unfold State.modRegion; split <;> rfl
@[simp] theorem State.modRegion_pwalks (k : Nat) (f : Region → Region) : (s.modRegion k f).pwalks = s.pwalks := by unfold State.modRegion; split <;> rfl
@[simp] theorem State.modRegion_arbs (k : Nat) (f : Region → Region) : (s.modRegion k f).arbs = s.arbs := by unfold State.modRegion; split <;> rfl
@[simp] theorem State.modRegion_beacons (k : Nat) (f : Region → Region) : (s.modRegion k f).beacons = s.beacons := by unfold State.modRegion; split <;> rfl
@[simp] theorem State.modRegion_subs (k : Nat) (f : Region → Region) : (s.modRegion k f).subs = s.subs := by unfold State.modRegion; split <;> rfl
@[simp] theorem State.modRegion_unitRun (k : Nat) (f : Region → Region) : (s.modRegion k f).unitRun = s.unitRun := by unfold State.modRegion; split <;> rfl
@[simp] theorem State.modRegion_unitWait (k : Nat) (f : Region → Region) : (s.modRegion k f).unitWait = s.unitWait := by unfold State.modRegion; split <;> rfl
@[simp] theorem State.modRegion_links (k : Nat) (f : Region → Region) : (s.modRegion k f).links = s.links := by unfold State.modRegion; split <;> rfl
@[simp] theorem State.modRegion_boot (k : Nat) (f : Region → Region) : (s.modRegion k f).boot = s.boot := by unfold State.modRegion; split <;> rfl
@[simp] theorem State.modRegion_spdm (k : Nat) (f : Region → Region) : (s.modRegion k f).spdm = s.spdm := by unfold State.modRegion; split <;> rfl
@[simp] theorem State.modRegion_agenda (k : Nat) (f : Region → Region) : (s.modRegion k f).agenda = s.agenda := by unfold State.modRegion; split <;> rfl
@[simp] theorem State.modRegion_brkRuns (k : Nat) (f : Region → Region) : (s.modRegion k f).brkRuns = s.brkRuns := by unfold State.modRegion; split <;> rfl
@[simp] theorem State.modRegion_inputs (k : Nat) (f : Region → Region) : (s.modRegion k f).inputs = s.inputs := by unfold State.modRegion; split <;> rfl
@[simp] theorem State.modRegion_cur (k : Nat) (f : Region → Region) : (s.modRegion k f).cur = s.cur := by unfold State.modRegion; split <;> rfl
@[simp] theorem State.modRegion_lastRead (k : Nat) (f : Region → Region) : (s.modRegion k f).lastRead = s.lastRead := by unfold State.modRegion; split <;> rfl
@[simp] theorem State.modRegion_freeCtr (k : Nat) (f : Region → Region) : (s.modRegion k f).freeCtr = s.freeCtr := by unfold State.modRegion; split <;> rfl
@[simp] theorem State.modRegion_nextId (k : Nat) (f : Region → Region) : (s.modRegion k f).nextId = s.nextId := by unfold State.modRegion; split <;> rfl
@[simp] theorem State.modRegion_nextTag (k : Nat) (f : Region → Region) : (s.modRegion k f).nextTag = s.nextTag := by unfold State.modRegion; split <;> rfl

/-! ## modWalk -/

@[simp] theorem State.modWalk_tick (k : Nat) (f : Walk → Walk) : (s.modWalk k f).tick = s.tick := by unfold State.modWalk; split <;> rfl
@[simp] theorem State.modWalk_timeOff (k : Nat) (f : Walk → Walk) : (s.modWalk k f).timeOff = s.timeOff := by unfold State.modWalk; split <;> rfl
@[simp] theorem State.modWalk_slew (k : Nat) (f : Walk → Walk) : (s.modWalk k f).slew = s.slew := by unfold State.modWalk; split <;> rfl
@[simp] theorem State.modWalk_synced (k : Nat) (f : Walk → Walk) : (s.modWalk k f).synced = s.synced := by unfold State.modWalk; split <;> rfl
@[simp] theorem State.modWalk_firstConsist (k : Nat) (f : Walk → Walk) : (s.modWalk k f).firstConsist = s.firstConsist := by unfold State.modWalk; split <;> rfl
@[simp] theorem State.modWalk_dies (k : Nat) (f : Walk → Walk) : (s.modWalk k f).dies = s.dies := by unfold State.modWalk; split <;> rfl
@[simp] theorem State.modWalk_usable (k : Nat) (f : Walk → Walk) : (s.modWalk k f).usable = s.usable := by unfold State.modWalk; split <;> rfl
@[simp] theorem State.modWalk_tiles (k : Nat) (f : Walk → Walk) : (s.modWalk k f).tiles = s.tiles := by unfold State.modWalk; split <;> rfl
@[simp] theorem State.modWalk_elems (k : Nat) (f : Walk → Walk) : (s.modWalk k f).elems = s.elems := by unfold State.modWalk; split <;> rfl
@[simp] theorem State.modWalk_ports (k : Nat) (f : Walk → Walk) : (s.modWalk k f).ports = s.ports := by unfold State.modWalk; split <;> rfl
@[simp] theorem State.modWalk_outs (k : Nat) (f : Walk → Walk) : (s.modWalk k f).outs = s.outs := by unfold State.modWalk; split <;> rfl
@[simp] theorem State.modWalk_islands (k : Nat) (f : Walk → Walk) : (s.modWalk k f).islands = s.islands := by unfold State.modWalk; split <;> rfl
@[simp] theorem State.modWalk_regions (k : Nat) (f : Walk → Walk) : (s.modWalk k f).regions = s.regions := by unfold State.modWalk; split <;> rfl
@[simp] theorem State.modWalk_mem (k : Nat) (f : Walk → Walk) : (s.modWalk k f).mem = s.mem := by unfold State.modWalk; split <;> rfl
@[simp] theorem State.modWalk_spm (k : Nat) (f : Walk → Walk) : (s.modWalk k f).spm = s.spm := by unfold State.modWalk; split <;> rfl
@[simp] theorem State.modWalk_feEmpty (k : Nat) (f : Walk → Walk) : (s.modWalk k f).feEmpty = s.feEmpty := by unfold State.modWalk; split <;> rfl
@[simp] theorem State.modWalk_poisonLines (k : Nat) (f : Walk → Walk) : (s.modWalk k f).poisonLines = s.poisonLines := by unfold State.modWalk; split <;> rfl
@[simp] theorem State.modWalk_poisonRows (k : Nat) (f : Walk → Walk) : (s.modWalk k f).poisonRows = s.poisonRows := by unfold State.modWalk; split <;> rfl
@[simp] theorem State.modWalk_fc (k : Nat) (f : Walk → Walk) : (s.modWalk k f).fc = s.fc := by unfold State.modWalk; split <;> rfl
@[simp] theorem State.modWalk_visitor (k : Nat) (f : Walk → Walk) : (s.modWalk k f).visitor = s.visitor := by unfold State.modWalk; split <;> rfl
@[simp] theorem State.modWalk_flights (k : Nat) (f : Walk → Walk) : (s.modWalk k f).flights = s.flights := by unfold State.modWalk; split <;> rfl
@[simp] theorem State.modWalk_credits (k : Nat) (f : Walk → Walk) : (s.modWalk k f).credits = s.credits := by unfold State.modWalk; split <;> rfl
@[simp] theorem State.modWalk_packets (k : Nat) (f : Walk → Walk) : (s.modWalk k f).packets = s.packets := by unfold State.modWalk; split <;> rfl
@[simp] theorem State.modWalk_ops (k : Nat) (f : Walk → Walk) : (s.modWalk k f).ops = s.ops := by unfold State.modWalk; split <;> rfl
@[simp] theorem State.modWalk_armed (k : Nat) (f : Walk → Walk) : (s.modWalk k f).armed = s.armed := by unfold State.modWalk; split <;> rfl
@[simp] theorem State.modWalk_armedOf (k : Nat) (f : Walk → Walk) : (s.modWalk k f).armedOf = s.armedOf := by unfold State.modWalk; split <;> rfl
@[simp] theorem State.modWalk_pwalks (k : Nat) (f : Walk → Walk) : (s.modWalk k f).pwalks = s.pwalks := by unfold State.modWalk; split <;> rfl
@[simp] theorem State.modWalk_arbs (k : Nat) (f : Walk → Walk) : (s.modWalk k f).arbs = s.arbs := by unfold State.modWalk; split <;> rfl
@[simp] theorem State.modWalk_beacons (k : Nat) (f : Walk → Walk) : (s.modWalk k f).beacons = s.beacons := by unfold State.modWalk; split <;> rfl
@[simp] theorem State.modWalk_subs (k : Nat) (f : Walk → Walk) : (s.modWalk k f).subs = s.subs := by unfold State.modWalk; split <;> rfl
@[simp] theorem State.modWalk_unitRun (k : Nat) (f : Walk → Walk) : (s.modWalk k f).unitRun = s.unitRun := by unfold State.modWalk; split <;> rfl
@[simp] theorem State.modWalk_unitWait (k : Nat) (f : Walk → Walk) : (s.modWalk k f).unitWait = s.unitWait := by unfold State.modWalk; split <;> rfl
@[simp] theorem State.modWalk_links (k : Nat) (f : Walk → Walk) : (s.modWalk k f).links = s.links := by unfold State.modWalk; split <;> rfl
@[simp] theorem State.modWalk_boot (k : Nat) (f : Walk → Walk) : (s.modWalk k f).boot = s.boot := by unfold State.modWalk; split <;> rfl
@[simp] theorem State.modWalk_spdm (k : Nat) (f : Walk → Walk) : (s.modWalk k f).spdm = s.spdm := by unfold State.modWalk; split <;> rfl
@[simp] theorem State.modWalk_agenda (k : Nat) (f : Walk → Walk) : (s.modWalk k f).agenda = s.agenda := by unfold State.modWalk; split <;> rfl
@[simp] theorem State.modWalk_brkRuns (k : Nat) (f : Walk → Walk) : (s.modWalk k f).brkRuns = s.brkRuns := by unfold State.modWalk; split <;> rfl
@[simp] theorem State.modWalk_inputs (k : Nat) (f : Walk → Walk) : (s.modWalk k f).inputs = s.inputs := by unfold State.modWalk; split <;> rfl
@[simp] theorem State.modWalk_cur (k : Nat) (f : Walk → Walk) : (s.modWalk k f).cur = s.cur := by unfold State.modWalk; split <;> rfl
@[simp] theorem State.modWalk_lastRead (k : Nat) (f : Walk → Walk) : (s.modWalk k f).lastRead = s.lastRead := by unfold State.modWalk; split <;> rfl
@[simp] theorem State.modWalk_freeCtr (k : Nat) (f : Walk → Walk) : (s.modWalk k f).freeCtr = s.freeCtr := by unfold State.modWalk; split <;> rfl
@[simp] theorem State.modWalk_nextId (k : Nat) (f : Walk → Walk) : (s.modWalk k f).nextId = s.nextId := by unfold State.modWalk; split <;> rfl
@[simp] theorem State.modWalk_nextTag (k : Nat) (f : Walk → Walk) : (s.modWalk k f).nextTag = s.nextTag := by unfold State.modWalk; split <;> rfl

/-! ## modOp -/

@[simp] theorem State.modOp_tick (k : Nat) (f : MemOp → MemOp) : (s.modOp k f).tick = s.tick := by unfold State.modOp; split <;> rfl
@[simp] theorem State.modOp_timeOff (k : Nat) (f : MemOp → MemOp) : (s.modOp k f).timeOff = s.timeOff := by unfold State.modOp; split <;> rfl
@[simp] theorem State.modOp_slew (k : Nat) (f : MemOp → MemOp) : (s.modOp k f).slew = s.slew := by unfold State.modOp; split <;> rfl
@[simp] theorem State.modOp_synced (k : Nat) (f : MemOp → MemOp) : (s.modOp k f).synced = s.synced := by unfold State.modOp; split <;> rfl
@[simp] theorem State.modOp_firstConsist (k : Nat) (f : MemOp → MemOp) : (s.modOp k f).firstConsist = s.firstConsist := by unfold State.modOp; split <;> rfl
@[simp] theorem State.modOp_dies (k : Nat) (f : MemOp → MemOp) : (s.modOp k f).dies = s.dies := by unfold State.modOp; split <;> rfl
@[simp] theorem State.modOp_usable (k : Nat) (f : MemOp → MemOp) : (s.modOp k f).usable = s.usable := by unfold State.modOp; split <;> rfl
@[simp] theorem State.modOp_tiles (k : Nat) (f : MemOp → MemOp) : (s.modOp k f).tiles = s.tiles := by unfold State.modOp; split <;> rfl
@[simp] theorem State.modOp_elems (k : Nat) (f : MemOp → MemOp) : (s.modOp k f).elems = s.elems := by unfold State.modOp; split <;> rfl
@[simp] theorem State.modOp_ports (k : Nat) (f : MemOp → MemOp) : (s.modOp k f).ports = s.ports := by unfold State.modOp; split <;> rfl
@[simp] theorem State.modOp_outs (k : Nat) (f : MemOp → MemOp) : (s.modOp k f).outs = s.outs := by unfold State.modOp; split <;> rfl
@[simp] theorem State.modOp_islands (k : Nat) (f : MemOp → MemOp) : (s.modOp k f).islands = s.islands := by unfold State.modOp; split <;> rfl
@[simp] theorem State.modOp_regions (k : Nat) (f : MemOp → MemOp) : (s.modOp k f).regions = s.regions := by unfold State.modOp; split <;> rfl
@[simp] theorem State.modOp_walks (k : Nat) (f : MemOp → MemOp) : (s.modOp k f).walks = s.walks := by unfold State.modOp; split <;> rfl
@[simp] theorem State.modOp_mem (k : Nat) (f : MemOp → MemOp) : (s.modOp k f).mem = s.mem := by unfold State.modOp; split <;> rfl
@[simp] theorem State.modOp_spm (k : Nat) (f : MemOp → MemOp) : (s.modOp k f).spm = s.spm := by unfold State.modOp; split <;> rfl
@[simp] theorem State.modOp_feEmpty (k : Nat) (f : MemOp → MemOp) : (s.modOp k f).feEmpty = s.feEmpty := by unfold State.modOp; split <;> rfl
@[simp] theorem State.modOp_poisonLines (k : Nat) (f : MemOp → MemOp) : (s.modOp k f).poisonLines = s.poisonLines := by unfold State.modOp; split <;> rfl
@[simp] theorem State.modOp_poisonRows (k : Nat) (f : MemOp → MemOp) : (s.modOp k f).poisonRows = s.poisonRows := by unfold State.modOp; split <;> rfl
@[simp] theorem State.modOp_fc (k : Nat) (f : MemOp → MemOp) : (s.modOp k f).fc = s.fc := by unfold State.modOp; split <;> rfl
@[simp] theorem State.modOp_visitor (k : Nat) (f : MemOp → MemOp) : (s.modOp k f).visitor = s.visitor := by unfold State.modOp; split <;> rfl
@[simp] theorem State.modOp_flights (k : Nat) (f : MemOp → MemOp) : (s.modOp k f).flights = s.flights := by unfold State.modOp; split <;> rfl
@[simp] theorem State.modOp_credits (k : Nat) (f : MemOp → MemOp) : (s.modOp k f).credits = s.credits := by unfold State.modOp; split <;> rfl
@[simp] theorem State.modOp_packets (k : Nat) (f : MemOp → MemOp) : (s.modOp k f).packets = s.packets := by unfold State.modOp; split <;> rfl
@[simp] theorem State.modOp_armed (k : Nat) (f : MemOp → MemOp) : (s.modOp k f).armed = s.armed := by unfold State.modOp; split <;> rfl
@[simp] theorem State.modOp_armedOf (k : Nat) (f : MemOp → MemOp) : (s.modOp k f).armedOf = s.armedOf := by unfold State.modOp; split <;> rfl
@[simp] theorem State.modOp_pwalks (k : Nat) (f : MemOp → MemOp) : (s.modOp k f).pwalks = s.pwalks := by unfold State.modOp; split <;> rfl
@[simp] theorem State.modOp_arbs (k : Nat) (f : MemOp → MemOp) : (s.modOp k f).arbs = s.arbs := by unfold State.modOp; split <;> rfl
@[simp] theorem State.modOp_beacons (k : Nat) (f : MemOp → MemOp) : (s.modOp k f).beacons = s.beacons := by unfold State.modOp; split <;> rfl
@[simp] theorem State.modOp_subs (k : Nat) (f : MemOp → MemOp) : (s.modOp k f).subs = s.subs := by unfold State.modOp; split <;> rfl
@[simp] theorem State.modOp_unitRun (k : Nat) (f : MemOp → MemOp) : (s.modOp k f).unitRun = s.unitRun := by unfold State.modOp; split <;> rfl
@[simp] theorem State.modOp_unitWait (k : Nat) (f : MemOp → MemOp) : (s.modOp k f).unitWait = s.unitWait := by unfold State.modOp; split <;> rfl
@[simp] theorem State.modOp_links (k : Nat) (f : MemOp → MemOp) : (s.modOp k f).links = s.links := by unfold State.modOp; split <;> rfl
@[simp] theorem State.modOp_boot (k : Nat) (f : MemOp → MemOp) : (s.modOp k f).boot = s.boot := by unfold State.modOp; split <;> rfl
@[simp] theorem State.modOp_spdm (k : Nat) (f : MemOp → MemOp) : (s.modOp k f).spdm = s.spdm := by unfold State.modOp; split <;> rfl
@[simp] theorem State.modOp_agenda (k : Nat) (f : MemOp → MemOp) : (s.modOp k f).agenda = s.agenda := by unfold State.modOp; split <;> rfl
@[simp] theorem State.modOp_brkRuns (k : Nat) (f : MemOp → MemOp) : (s.modOp k f).brkRuns = s.brkRuns := by unfold State.modOp; split <;> rfl
@[simp] theorem State.modOp_inputs (k : Nat) (f : MemOp → MemOp) : (s.modOp k f).inputs = s.inputs := by unfold State.modOp; split <;> rfl
@[simp] theorem State.modOp_cur (k : Nat) (f : MemOp → MemOp) : (s.modOp k f).cur = s.cur := by unfold State.modOp; split <;> rfl
@[simp] theorem State.modOp_lastRead (k : Nat) (f : MemOp → MemOp) : (s.modOp k f).lastRead = s.lastRead := by unfold State.modOp; split <;> rfl
@[simp] theorem State.modOp_freeCtr (k : Nat) (f : MemOp → MemOp) : (s.modOp k f).freeCtr = s.freeCtr := by unfold State.modOp; split <;> rfl
@[simp] theorem State.modOp_nextId (k : Nat) (f : MemOp → MemOp) : (s.modOp k f).nextId = s.nextId := by unfold State.modOp; split <;> rfl
@[simp] theorem State.modOp_nextTag (k : Nat) (f : MemOp → MemOp) : (s.modOp k f).nextTag = s.nextTag := by unfold State.modOp; split <;> rfl

/-! ## What an accessor reads after an update -/

@[simp] theorem State.elem_setElem (e : Nat) (x : Elem) : (s.setElem e x).elem e = x := SMap.getD_put_same ..
@[simp] theorem State.elem_setElem_ne {e i : Nat} (h : i ≠ e) (x : Elem) : (s.setElem e x).elem i = s.elem i :=
  SMap.getD_put_ne _ h ..
@[simp] theorem State.tile_setTile (t : Nat) (x : Tile) : (s.setTile t x).tile t = x := SMap.getD_put_same ..
@[simp] theorem State.tile_setTile_ne {t i : Nat} (h : i ≠ t) (x : Tile) : (s.setTile t x).tile i = s.tile i :=
  SMap.getD_put_ne _ h ..
@[simp] theorem State.port_setPort (p : Nat) (x : Port) : (s.setPort p x).port p = x := SMap.getD_put_same ..
@[simp] theorem State.port_setPort_ne {p i : Nat} (h : i ≠ p) (x : Port) : (s.setPort p x).port i = s.port i :=
  SMap.getD_put_ne _ h ..
@[simp] theorem State.island_setIsland (i : Nat) (x : Island) : (s.setIsland i x).island i = x := SMap.getD_put_same ..
@[simp] theorem State.island_setIsland_ne {k i : Nat} (h : i ≠ k) (x : Island) :
    (s.setIsland k x).island i = s.island i := SMap.getD_put_ne _ h ..
@[simp] theorem State.arb_setArb (a : Nat) (x : Arb) : (s.setArb a x).arb a = x := SMap.getD_put_same ..
@[simp] theorem State.arb_setArb_ne {a i : Nat} (h : i ≠ a) (x : Arb) : (s.setArb a x).arb i = s.arb i :=
  SMap.getD_put_ne _ h ..
@[simp] theorem State.region_setRegion (r : Nat) (x : Region) : (s.setRegion r x).region? r = some x :=
  SMap.get_put_same ..
@[simp] theorem State.region_setRegion_ne {r i : Nat} (h : i ≠ r) (x : Region) :
    (s.setRegion r x).region? i = s.region? i := SMap.get_put_ne _ h ..
@[simp] theorem State.die_setDie {d : Nat} (h : d < 8) (x : Die) : (s.setDie d x).die d = x := Oct.get_set_same _ h _
@[simp] theorem State.die_setDie_ne {d i : Nat} (hd : d < 8) (hi : i < 8) (h : i ≠ d) (x : Die) :
    (s.setDie d x).die i = s.die i := Oct.get_set_ne _ hd hi h _

end Sys2Proof.Machine
end

