-- ==== Sys2Proof/Laws/Memory.lean ====
section
/-! SUPPORT. The laws of the two memories: read after write, writes that leave other bytes alone, and the canonical
form, which every memory operation keeps. -/
namespace Sys2Proof.Machine
namespace Mem

/-- Every key listed is above n. -/
theorem get_above {m : Mem} {n : Nat} (h : SMap.above n m = true) {a : Nat} (le : a ≤ n) : m.get a = 0 := by
  cases m with
  | nil => rfl
  | cons c m =>
    obtain ⟨k, v⟩ := c
    simp only [SMap.above, Bool.and_eq_true, decide_eq_true_eq] at h
    simp [get, show k ≠ a by omega, show a < k by omega]

theorem sorted_cons {k : Nat} {v : Byte} {m : Mem} (h : SMap.wf ((k, v) :: m) = true) :
    SMap.above k m = true ∧ SMap.wf m = true := by
  simpa [SMap.wf] using h

theorem get_put_same {m : Mem} (h : SMap.wf m = true) (a : Nat) (b : Byte) : (m.put a b).get a = b := by
  induction m with
  | nil => by_cases z : b = 0#8 <;> simp [put, z, get]
  | cons c m ih =>
    obtain ⟨k, v⟩ := c
    obtain ⟨ha, hm⟩ := sorted_cons h
    unfold put
    by_cases lt : a < k
    · by_cases z : b = 0#8
      · simp [lt, z, get, show k ≠ a by omega]
      · simp [lt, z, get]
    · by_cases e : a = k
      · subst e
        by_cases z : b = 0#8
        · simp [z, get_above ha (Nat.le_refl _)]
        · simp [z, get]
      · simp [lt, e, get, Ne.symm e, ih hm]

theorem get_put_ne {m : Mem} (h : SMap.wf m = true) {a x : Nat} (n : x ≠ a) (b : Byte) :
    (m.put a b).get x = m.get x := by
  induction m with
  | nil => by_cases z : b = 0#8 <;> simp [put, z, get, Ne.symm n]
  | cons c m ih =>
    obtain ⟨k, v⟩ := c
    obtain ⟨ha, hm⟩ := sorted_cons h
    unfold put
    by_cases lt : a < k
    · by_cases z : b = 0#8
      · simp [lt, z]
      · by_cases xa : x < a
        · simp [lt, z, get, Ne.symm n, xa, show k ≠ x by omega, show x < k by omega]
        · simp [lt, z, get, Ne.symm n, xa]
    · by_cases e : a = k
      · subst e
        by_cases z : b = 0#8
        · by_cases xa : x < a
          · simp [z, get, Ne.symm n, xa, get_above ha (by omega : x ≤ a)]
          · simp [z, get, Ne.symm n, xa]
        · simp [z, get, Ne.symm n]
      · simp [lt, e, get, ih hm]

theorem above_put {m : Mem} {n a : Nat} (h : SMap.above n m = true) (lt : n < a) (b : Byte) :
    SMap.above n (m.put a b) = true := by
  induction m with
  | nil => by_cases z : b = 0#8 <;> simp [put, z, SMap.above, lt]
  | cons c m ih =>
    obtain ⟨k, v⟩ := c
    simp only [SMap.above, Bool.and_eq_true, decide_eq_true_eq] at h
    unfold put
    by_cases l : a < k
    · by_cases z : b = 0#8 <;> simp [l, z, SMap.above, lt, h.1, h.2]
    · by_cases e : a = k
      · subst e
        by_cases z : b = 0#8 <;> simp [z, SMap.above, lt, h.2]
      · simp [l, e, SMap.above, h.1, ih h.2]

theorem wf_cons {k : Nat} {v : Byte} {m : Mem} :
    Mem.wf ((k, v) :: m) = true ↔ SMap.above k m = true ∧ v ≠ 0#8 ∧ m.wf = true := by
  simp only [wf, SMap.wf, List.all_cons, Bool.and_eq_true, decide_eq_true_eq]
  constructor
  · rintro ⟨⟨a, b⟩, c, d⟩; exact ⟨a, c, b, d⟩
  · rintro ⟨a, c, b, d⟩; exact ⟨⟨a, b⟩, c, d⟩

/-- Writing a byte keeps the canonical form. -/
theorem wf_put {m : Mem} (h : m.wf = true) (a : Nat) (b : Byte) : (m.put a b).wf = true := by
  induction m with
  | nil =>
    by_cases z : b = 0#8
    · simp [put, z, wf, SMap.wf]
    · simpa [put, z] using wf_cons.2 ⟨rfl, z, rfl⟩
  | cons c m ih =>
    obtain ⟨k, v⟩ := c
    obtain ⟨ha, hv, hm⟩ := wf_cons.1 h
    unfold put
    by_cases l : a < k
    · by_cases z : b = 0#8
      · simpa [l, z] using h
      · simpa [l, z] using wf_cons.2 ⟨by simp [SMap.above, l, SMap.above_mono ha (Nat.le_of_lt l)], z, h⟩
    · by_cases e : a = k
      · subst e
        by_cases z : b = 0#8
        · simpa [z] using hm
        · simpa [z] using wf_cons.2 ⟨ha, z, hm⟩
      · simpa [l, e] using wf_cons.2 ⟨above_put ha (by omega) b, hv, ih hm⟩

theorem sorted_of_wf {m : Mem} (h : m.wf = true) : SMap.wf m = true := by
  simp only [wf, Bool.and_eq_true] at h; exact h.1

/-- Writing a run of bytes keeps the canonical form. -/
theorem wf_write {m : Mem} (h : m.wf = true) (a : Nat) (bs : List Byte) : (m.write a bs).wf = true := by
  induction bs generalizing m a with
  | nil => exact h
  | cons b bs ih => exact ih (wf_put h a b) (a + 1)

/-- A byte outside the run that is written reads as before. -/
theorem get_write_out {m : Mem} (h : m.wf = true) {a x : Nat} (bs : List Byte) (out : x < a ∨ a + bs.length ≤ x) :
    (m.write a bs).get x = m.get x := by
  induction bs generalizing m a with
  | nil => rfl
  | cons b bs ih =>
    simp only [List.length_cons] at out
    rw [show m.write a (b :: bs) = (m.put a b).write (a + 1) bs from rfl, ih (wf_put h a b) (by omega),
      get_put_ne (sorted_of_wf h) (by omega)]

/-- Reading the run that was written gives the bytes written. -/
theorem read_write {m : Mem} (h : m.wf = true) (a : Nat) (bs : List Byte) :
    (m.write a bs).read a bs.length = bs := by
  induction bs generalizing m a with
  | nil => rfl
  | cons b bs ih =>
    simp only [List.length_cons, read]
    rw [show m.write a (b :: bs) = (m.put a b).write (a + 1) bs from rfl, ih (wf_put h a b) (a + 1),
      get_write_out (wf_put h a b) bs (by omega), get_put_same (sorted_of_wf h)]

theorem wf_filter {m : Mem} (h : m.wf = true) (p : Host.Cell → Bool) : Mem.wf (m.filter p) = true := by
  simp only [wf, Bool.and_eq_true] at h ⊢
  exact ⟨SMap.wf_filter h.1 p, by
    rw [List.all_eq_true] at h ⊢
    exact fun x hx => h.2 x ((List.mem_filter.1 hx).1)⟩

end Mem

/-! ## The canonical form of the state's memories -/

theorem State.memWf_iff (s : State) : s.memWf = true ↔ s.mem.wf = true ∧ s.spm.wf = true := by
  simp [State.memWf]

/-- An update that touches neither memory keeps both in their form. -/
theorem State.memWf_of_eq {s t : State} (hm : t.mem = s.mem) (hs : t.spm = s.spm) : t.memWf = s.memWf := by
  simp [State.memWf, hm, hs]

theorem memWf_write_mem {s : State} (h : s.memWf = true) (a : Nat) (bs : List Byte) :
    ({ s with mem := s.mem.write a bs } : State).memWf = true := by
  rw [State.memWf_iff] at h ⊢
  exact ⟨Mem.wf_write h.1 a bs, h.2⟩

theorem memWf_write_spm {s : State} (h : s.memWf = true) (a : Nat) (bs : List Byte) :
    ({ s with spm := s.spm.write a bs } : State).memWf = true := by
  rw [State.memWf_iff] at h ⊢
  exact ⟨h.1, Mem.wf_write h.2 a bs⟩

/-- What every member's action keeps, running over all members keeps. -/
theorem forAll_keeps {α : Type} {P : State → Prop} {f : State → α → State} (hf : ∀ s x, P s → P (f s x))
    (l : List α) (s : State) (h : P s) : P (forAll f l s) := by
  induction l generalizing s with
  | nil => exact h
  | cons x xs ih => exact ih (f s x) (hf s x h)

theorem memWf_trace {s : State} (h : s.memWf = true) (d ty sub : Nat) (elid : W) (node : Nat) (fires i0 i1 : W) :
    (s.trace d ty sub elid node fires i0 i1).memWf = true := by
  unfold State.trace
  dsimp only
  split
  · exact h
  · split
    · exact h
    · exact memWf_write_mem (s := s.setDie d _) h _ _

end Sys2Proof.Machine
end

