-- ==== Sys2Proof/Laws/Fire.lean ====
section
/-! SUPPORT. What a firing can do, said once for each shared operation of a firing: it fires, stops its element, or is
not eligible; none of the operations it is built of touches what `SameStore` names. -/
namespace Sys2Proof.Machine

/-! ## The three outcomes of a firing -/

/-- A slot that its element does not choose, or that fails a condition of R167, does not fire. -/
theorem fireWith_idle {i : Instr} {s : State} (h : ¬(s.choosing s.cur.elem s.cur.plane = true ∧ (Ctx.of s).firstFail i = 0))
    (body : Ctx → Res) (post : Ctx → State → State) : fireWith i s body post = .next s := by
  unfold fireWith
  dsimp only
  split
  · rfl
  · rename_i g
    refine absurd ?_ h
    simp only [Bool.or_eq_true, Bool.not_eq_true', decide_eq_true_eq, not_or, Bool.not_eq_false] at g
    exact ⟨g.1, by simpa using g.2⟩

/-- A run-time error takes the place of the effect. -/
theorem fireWith_error {i : Instr} {s t : State} (h : s.choosing s.cur.elem s.cur.plane = true ∧ (Ctx.of s).firstFail i = 0)
    (e : (Ctx.of s).error i = some t) (body : Ctx → Res) (post : Ctx → State → State) :
    fireWith i s body post = .next t := by
  have h1 : s.choosing (Ctx.of s).e (Ctx.of s).pl = true := h.1
  simp [fireWith, h1, h.2, e]

/-- Otherwise the firing is committed with its result, and `post` follows. -/
theorem fireWith_fires {i : Instr} {s : State} (h : s.choosing s.cur.elem s.cur.plane = true ∧ (Ctx.of s).firstFail i = 0)
    (e : ((Ctx.of s).error i).isNone = true) (body : Ctx → Res) (post : Ctx → State → State) :
    fireWith i s body post = .next (post (Ctx.of s) ((Ctx.of s).commit i (body (Ctx.of s)))) := by
  have h1 : s.choosing (Ctx.of s).e (Ctx.of s).pl = true := h.1
  simp [fireWith, h1, h.2, Option.isNone_iff_eq_none.1 e]

/-- A firing always answers a next state, and that state is one of three. -/
theorem fireWith_cases (i : Instr) (s : State) (body : Ctx → Res) (post : Ctx → State → State) :
    fireWith i s body post = .next s ∨
    (∃ t, (Ctx.of s).error i = some t ∧ fireWith i s body post = .next t) ∨
    (((Ctx.of s).error i).isNone = true ∧
      fireWith i s body post = .next (post (Ctx.of s) ((Ctx.of s).commit i (body (Ctx.of s))))) := by
  by_cases h : s.choosing s.cur.elem s.cur.plane = true ∧ (Ctx.of s).firstFail i = 0
  · cases e : (Ctx.of s).error i with
    | some t => exact .inr (.inl ⟨t, rfl, fireWith_error h e body post⟩)
    | none => exact .inr (.inr ⟨rfl, fireWith_fires h (by simp [e]) body post⟩)
  · exact .inl (fireWith_idle h body post)

/-! ## What the parts of a firing leave alone -/

/-- Everything but the dies, tiles, elements, channels, arbiters and regions, and the model's own counters. -/
structure SameStore (s t : State) : Prop where
  mem : t.mem = s.mem
  spm : t.spm = s.spm
  feEmpty : t.feEmpty = s.feEmpty
  poisonLines : t.poisonLines = s.poisonLines
  poisonRows : t.poisonRows = s.poisonRows
  fc : t.fc = s.fc
  visitor : t.visitor = s.visitor
  ops : t.ops = s.ops
  armed : t.armed = s.armed
  walks : t.walks = s.walks
  packets : t.packets = s.packets
  islands : t.islands = s.islands
  usable : t.usable = s.usable
  tick : t.tick = s.tick
  links : t.links = s.links

theorem SameStore.refl (s : State) : SameStore s s :=
  ⟨rfl, rfl, rfl, rfl, rfl, rfl, rfl, rfl, rfl, rfl, rfl, rfl, rfl, rfl, rfl⟩

theorem SameStore.trans {s t u : State} (a : SameStore s t) (b : SameStore t u) : SameStore s u :=
  ⟨b.mem.trans a.mem, b.spm.trans a.spm, b.feEmpty.trans a.feEmpty, b.poisonLines.trans a.poisonLines,
   b.poisonRows.trans a.poisonRows, b.fc.trans a.fc, b.visitor.trans a.visitor, b.ops.trans a.ops, b.armed.trans a.armed,
   b.walks.trans a.walks, b.packets.trans a.packets, b.islands.trans a.islands, b.usable.trans a.usable,
   b.tick.trans a.tick, b.links.trans a.links⟩

theorem SameStore.memWf {s t : State} (h : SameStore s t) : t.memWf = s.memWf := State.memWf_of_eq h.mem h.spm

theorem SameStore.forAll {α : Type} {f : State → α → State} (hf : ∀ s x, SameStore s (f s x)) (l : List α) (s : State) :
    SameStore s (Machine.forAll f l s) :=
  forAll_keeps (P := SameStore s) (fun t x h => h.trans (hf t x)) l s (.refl s)

theorem SameStore.ite {s t u : State} (p : Prop) [Decidable p] (a : SameStore s t) (b : SameStore s u) :
    SameStore s (if p then t else u) := by
  by_cases h : p
  · rwa [if_pos h]
  · rwa [if_neg h]

theorem sameStore_modElem (s : State) (e : Nat) (f : Elem → Elem) : SameStore s (s.modElem e f) :=
  ⟨rfl, rfl, rfl, rfl, rfl, rfl, rfl, rfl, rfl, rfl, rfl, rfl, rfl, rfl, rfl⟩
theorem sameStore_modTile (s : State) (t : Nat) (f : Tile → Tile) : SameStore s (s.modTile t f) :=
  ⟨rfl, rfl, rfl, rfl, rfl, rfl, rfl, rfl, rfl, rfl, rfl, rfl, rfl, rfl, rfl⟩
theorem sameStore_modDie (s : State) (d : Nat) (f : Die → Die) : SameStore s (s.modDie d f) :=
  ⟨rfl, rfl, rfl, rfl, rfl, rfl, rfl, rfl, rfl, rfl, rfl, rfl, rfl, rfl, rfl⟩
theorem sameStore_setPort (s : State) (p : Nat) (x : Port) : SameStore s (s.setPort p x) :=
  ⟨rfl, rfl, rfl, rfl, rfl, rfl, rfl, rfl, rfl, rfl, rfl, rfl, rfl, rfl, rfl⟩
theorem sameStore_modPort (s : State) (p : Nat) (f : Port → Port) : SameStore s (s.modPort p f) :=
  sameStore_setPort s p _
theorem sameStore_setRegion (s : State) (k : Nat) (x : Region) : SameStore s (s.setRegion k x) :=
  ⟨rfl, rfl, rfl, rfl, rfl, rfl, rfl, rfl, rfl, rfl, rfl, rfl, rfl, rfl, rfl⟩
theorem sameStore_setArb (s : State) (a : Nat) (x : Arb) : SameStore s (s.setArb a x) :=
  ⟨rfl, rfl, rfl, rfl, rfl, rfl, rfl, rfl, rfl, rfl, rfl, rfl, rfl, rfl, rfl⟩
theorem sameStore_modRegion (s : State) (k : Nat) (f : Region → Region) : SameStore s (s.modRegion k f) := by
  unfold State.modRegion
  split
  · exact sameStore_setRegion _ _ _
  · exact .refl s
theorem sameStore_stir (s : State) (r : Option Nat) : SameStore s (s.stir r) := by
  cases r
  · exact .refl s
  · exact sameStore_modRegion _ _ _
theorem sameStore_fresh (s : State) : SameStore s s.fresh.2 :=
  ⟨rfl, rfl, rfl, rfl, rfl, rfl, rfl, rfl, rfl, rfl, rfl, rfl, rfl, rfl, rfl⟩
theorem sameStore_draw (s : State) : SameStore s s.draw.2 :=
  ⟨rfl, rfl, rfl, rfl, rfl, rfl, rfl, rfl, rfl, rfl, rfl, rfl, rfl, rfl, rfl⟩
theorem sameStore_sketch (s : State) (d event : Nat) (node run : W) : SameStore s (s.sketch d event node run) :=
  sameStore_modDie _ _ _
theorem sameStore_queueTrap (s : State) (d : Nat) (b : List Byte) (tag : Nat) (node run : W) :
    SameStore s (s.queueTrap d b tag node run) := (sameStore_modDie _ _ _).trans (sameStore_sketch _ _ _ _ _)

/-- Taking a stall trap changes the element that stops and the trap queue and sketches of its die. -/
theorem sameStore_stall (s : State) (e cause : Nat) (pl : Plane) (slot : Nat) (effect : Bool) (fires : W) (round : Nat)
    (a b : W) : SameStore s (s.stall e cause pl slot effect fires round a b) :=
  ⟨rfl, rfl, rfl, rfl, rfl, rfl, rfl, rfl, rfl, rfl, rfl, rfl, rfl, rfl, rfl⟩
theorem sameStore_eventRecord (s : State) (e cause : Nat) (pl : Plane) (slot : Nat) (fires : W) (round : Nat) (a b : W) :
    SameStore s (s.eventRecord e cause pl slot fires round a b) :=
  ⟨rfl, rfl, rfl, rfl, rfl, rfl, rfl, rfl, rfl, rfl, rfl, rfl, rfl, rfl, rfl⟩

theorem sameStore_credit (s : State) (p t : Nat) : SameStore s (s.credit p t) :=
  ⟨rfl, rfl, rfl, rfl, rfl, rfl, rfl, rfl, rfl, rfl, rfl, rfl, rfl, rfl, rfl⟩
theorem sameStore_agingCredit (s : State) (p : Nat) : SameStore s (s.agingCredit p) :=
  ⟨rfl, rfl, rfl, rfl, rfl, rfl, rfl, rfl, rfl, rfl, rfl, rfl, rfl, rfl, rfl⟩
theorem sameStore_dequeue (s : State) (p : Nat) : SameStore s (s.dequeue p) := by
  unfold State.dequeue
  dsimp only
  split
  · exact .refl s
  · split
    · exact (SameStore.ite _ ((sameStore_setPort _ _ _).trans (sameStore_modElem _ _ _)) (sameStore_setPort _ _ _)).trans
        (sameStore_credit _ _ _)
    · exact (sameStore_setPort _ _ _).trans (sameStore_agingCredit _ _)
theorem sameStore_dequeueN (s : State) (p n : Nat) : SameStore s (s.dequeueN p n) := by
  induction n generalizing s with
  | zero => exact .refl s
  | succ n ih => exact (sameStore_dequeue s p).trans (ih _)
theorem sameStore_launchFor (s : State) (src extra f p : Nat) (t : Tok) (a : Option (Nat × Nat × BitVec 16)) :
    SameStore s (s.launchFor src extra f p t a) := by
  exact ⟨rfl, rfl, rfl, rfl, rfl, rfl, rfl, rfl, rfl, rfl, rfl, rfl, rfl, rfl, rfl⟩
theorem sameStore_launch (s : State) (f p : Nat) (t : Tok) : SameStore s (s.launch f p t) := by
  unfold State.launch
  split
  · exact .refl s
  · exact sameStore_launchFor _ _ _ _ _ _ _
theorem sameStore_takeSpace (s : State) (e vc o n : Nat) : SameStore s (s.takeSpace e vc o n) :=
  .forAll (fun _ _ => sameStore_modPort _ _ _) _ s
theorem sameStore_emit (s : State) (e vc o : Nat) (t : Tok) (st : Oct (BitVec 16)) : SameStore s (s.emit e vc o t st) :=
  .forAll (fun _ _ => sameStore_launch _ _ _ _) _ s
theorem sameStore_doDequeues (c : Ctx) (i : Instr) (s : State) : SameStore s (c.doDequeues i s) := by
  unfold Ctx.doDequeues
  split
  · exact .refl s
  · refine .forAll (fun s h => ?_) _ s
    split
    · exact .refl s
    · split
      · exact sameStore_modElem _ _ _
      · exact sameStore_dequeueN _ _ _
theorem sameStore_sendOuts (s : State) (e : Nat) (before : List Inflight) (f : Inflight) (after : List Inflight) :
    SameStore s (sendOuts s e before f after) := by
  unfold sendOuts
  exact (sameStore_modElem _ _ _).trans (.forAll (fun _ _ => sameStore_emit _ _ _ _ _ _) _ _)
theorem sameStore_land (s : State) (e : Nat) (before : List Inflight) (f : Inflight) (after : List Inflight) :
    SameStore s (land s e before f after) := by
  unfold land
  dsimp only
  split
  · exact (((sameStore_modElem _ _ _).trans (sameStore_sendOuts _ _ _ _ _)).trans (sameStore_stall _ _ _ _ _ _ _ _ _ _)).trans
      (sameStore_modElem _ _ _)
  · exact (sameStore_modElem _ _ _).trans (sameStore_sendOuts _ _ _ _ _)

/-! ## Other elements -/

theorem elem_setElem_same (s : State) (e : Nat) (x : Elem) : (s.setElem e x).elem e = x := SMap.getD_put_same _ _ _ _
theorem elem_setElem_ne (s : State) {e d : Nat} (h : d ≠ e) (x : Elem) : (s.setElem e x).elem d = s.elem d :=
  SMap.getD_put_ne _ h _ _
theorem elem_modRegion (s : State) (k : Nat) (f : Region → Region) (e : Nat) : (s.modRegion k f).elem e = s.elem e := by
  unfold State.modRegion; split <;> rfl
theorem elem_stir (s : State) (r : Option Nat) (e : Nat) : (s.stir r).elem e = s.elem e := by
  cases r
  · rfl
  · exact elem_modRegion _ _ _ _

/-- The element that a stall trap stops: nothing of it changes but the stop. -/
theorem stall_elem (s : State) (e cause : Nat) (pl : Plane) (slot : Nat) (effect : Bool) (fires : W) (round : Nat) (a b : W) :
    (s.stall e cause pl slot effect fires round a b).elem e =
      { s.elem e with stopped := some ⟨cause, slot, pl, s.freshTag.1⟩ } := elem_setElem_same _ _ _
theorem stall_elem_ne (s : State) {e d : Nat} (h : d ≠ e) (cause : Nat) (pl : Plane) (slot : Nat) (effect : Bool) (fires : W)
    (round : Nat) (a b : W) : (s.stall e cause pl slot effect fires round a b).elem d = s.elem d := elem_setElem_ne _ h _

/-! ## One step -/

theorem step_fire {s : State} {e slot : Nat} {pl : Plane} {rest : List Todo} {i : Instr} (a : s.agenda = .fire e pl slot :: rest)
    (d : decodeIn pl (slotOp (s.slotWord e pl slot)) = .ok i) : step s = exec i (s.fetched rest e pl slot) := by
  simp [step, a, d]
theorem step_act {s : State} {i : Instr} {rest : List Todo} (a : s.agenda = .act i :: rest) : step s = exec i (s.next rest) := by
  simp [step, a]
theorem step_input {s : State} {i : Instr} {rest : List Instr} (a : s.agenda = []) (b : s.inputs = i :: rest) :
    step s = exec i (s.taken rest) := by simp [step, a, b]

end Sys2Proof.Machine
end

