-- ==== Sys2Proof/Laws/Access.lean ====
section
/-! SUPPORT. The operations that write physical and tile memory keep the canonical form of both. -/
namespace Sys2Proof.Machine

theorem Mem.wf_puts {m : Mem} (h : m.wf = true) (bs : List (Nat × Byte)) :
    Mem.wf (bs.foldl (fun m b => Mem.put m b.1 b.2) m) = true := by
  induction bs generalizing m with
  | nil => exact h
  | cons b bs ih => exact ih (Mem.wf_put h b.1 b.2)

theorem sameStore_stopSaved (s : State) (c : Cut) : SameStore s (s.stopSaved c) :=
  (SameStore.forAll (fun _ _ => sameStore_modElem _ _ _) _ s).trans (.forAll (fun _ _ => sameStore_modTile _ _ _) _ _)

/-- Asking for a cut changes regions and nodes, and may draw a free value. -/
theorem sameStore_askCutOne (s : State) (r : Nat) (stop : Bool) (who : List CutFor) : SameStore s (s.askCutOne r stop who) := by
  have later (x : Region) : SameStore s (match x.cutAsked with
      | some (t, st, w) => s.setRegion r { x with cutAsked := some (t, st || stop, w ++ who) }
      | none => s.draw.2.setRegion r { x with cutAsked := some (s.draw.2.tick + 1 + s.draw.1.toNat % 16, stop, who) }) := by
    split
    · exact sameStore_setRegion _ _ _
    · exact (sameStore_draw s).trans (sameStore_setRegion _ _ _)
  unfold State.askCutOne
  split
  · exact .refl s
  · rename_i x _
    dsimp only
    split
    · split
      · exact (sameStore_setRegion _ _ _).trans (sameStore_stopSaved _ _)
      · exact sameStore_setRegion _ _ _
    · exact later x
theorem sameStore_askCut (s : State) (r : Nat) (stop : Bool) (who : List CutFor) : SameStore s (s.askCut r stop who) :=
  .forAll (fun _ _ => sameStore_askCutOne _ _ _ _) _ s
theorem sameStore_haltRun (s : State) (run : W) : SameStore s (s.haltRun run) :=
  .forAll (fun _ _ => .ite _ (sameStore_askCut _ _ _ _) (.refl _)) _ s

/-- A task packet on its way touches neither memory. -/
theorem sendPacket_mem (s : State) (f src rg label : Nat) (a b : W) (two : Bool) (round : Nat) :
    (s.sendPacket f src rg label a b two round).mem = s.mem ∧ (s.sendPacket f src rg label a b two round).spm = s.spm := by
  unfold State.sendPacket
  split
  · split <;> exact ⟨rfl, rfl⟩
  · exact ⟨rfl, rfl⟩

theorem memWf_watchPackets {s : State} (h : s.memWf = true) (pa : Nat) (b a : List Byte) : (s.watchPackets pa b a).memWf = true := by
  unfold State.watchPackets
  refine forAll_keeps (P := fun s => s.memWf = true) (fun s w hs => ?_) _ s h
  dsimp only
  split
  · exact hs
  · refine forAll_keeps (P := fun s => s.memWf = true) (fun s i hs => ?_) _ s hs
    split
    · exact hs
    · exact (State.memWf_of_eq (sendPacket_mem _ _ _ _ _ _ _ _ _).1 (sendPacket_mem _ _ _ _ _ _ _ _ _).2).trans hs

theorem memWf_ite {s t : State} (p : Prop) [Decidable p] (a : s.memWf = true) (b : t.memWf = true) :
    (if p then s else t).memWf = true := by
  by_cases h : p
  · rwa [if_pos h]
  · rwa [if_neg h]

theorem memWf_dwpHit {s : State} (h : s.memWf = true) (pa kind : Nat) (e : Option Who) (runs : List W) :
    (s.dwpHit pa kind e runs).memWf = true := by
  unfold State.dwpHit
  split
  · exact h
  · refine forAll_keeps (P := fun s => s.memWf = true) (fun s n hs => ?_) _ s h
    refine memWf_ite _ (memWf_ite _ ?_ (memWf_trace hs _ _ _ _ _ _ _ _)) hs
    exact (SameStore.forAll (fun _ _ => sameStore_haltRun _ _) _ _).memWf.trans (memWf_trace hs _ _ _ _ _ _ _ _)

/-- Bytes applied at a home keep the form. -/
theorem memWf_applyHome {s : State} (h : s.memWf = true) (kind : Nat) (e : Option Who) (runs : List W) (bs : List (Nat × Byte)) :
    (s.applyHome kind e runs bs).memWf = true := by
  unfold State.applyHome
  split
  · exact h
  · refine memWf_dwpHit (memWf_watchPackets ?_ _ _ _) _ _ _ _
    rw [State.memWf_iff] at h ⊢
    exact ⟨Mem.wf_puts h.1 _, h.2⟩

theorem memWf_undoLine {s : State} (h : s.memWf = true) (rg : Option Nat) (round key : Nat) (fc : Option (Nat × Nat)) (held : Option FcLine) :
    (s.undoLine rg round key fc held).memWf = true := by
  unfold State.undoLine
  split
  · exact h
  · split
    · exact h
    · dsimp only
      refine memWf_ite _ h (memWf_ite _ ((sameStore_askCut _ _ _ _).memWf.trans ?_) ?_) <;>
        exact memWf_ite _ (memWf_write_spm (s := s.setRegion _ _) h _ _) h

/-- Bytes written into tile memory, with their undo records, keep the form. -/
theorem memWf_writeSpm {s : State} (h : s.memWf = true) (rg : Option Nat) (round key : Nat) (bs : List Byte) (poison : Bool) :
    (s.writeSpm rg round key bs poison).memWf = true := by
  unfold State.writeSpm
  dsimp only
  split
  · exact h
  · have := forAll_keeps (P := fun s => s.memWf = true)
      (f := fun s row => if s.ringRow rg (row * 32) then s else s.undoLine rg round (row * 32) none none)
      (fun s i hs => memWf_ite _ hs (memWf_undoLine hs _ _ _ _ _))
      ((List.range ((key + bs.length - 1) / 32 - key / 32 + 1)).map fun i => key / 32 + i) s h
    rw [State.memWf_iff] at this ⊢
    exact ⟨this.1, Mem.wf_write this.2 _ _⟩

theorem reset_memWf : State.reset.memWf = true := by decide

end Sys2Proof.Machine
end

