-- ==== Sys2Proof/Tests/Slice0.lean ====
section
/-! SUPPORT. Tests: words of the spec decode, ill-formed terms are refused, single firings and steps give what the
spec's examples and tables say, and witnesses meet the hypotheses of the statements. -/
namespace Sys2Proof.Tests
open Sys2Proof Sys2Proof.Machine Sys2Proof.Claims
set_option Elab.async false

/-! ## Decoding. The first words are written out in the chapters named; the rest are put together from R26 to R31. -/

theorem test_decode_class0 :
    decode 0x06840400 = .ok (.steer 0 (.i 0) 2) ∧ decode 0x0929C7F8 = .ok (.plog 1 2 3 8 0xFF) ∧
    decode 0x082007F8 = .ok (.pset 1 0xFF) ∧ decode 0x018E8090 = .ok (.send (some 1) (.k 0) (some ⟨.set, 2⟩)) := by decide
theorem test_decode_class1 :
    decode 0x10847610 = .ok (.add (.o 0) (.i 1) (.k 1) (some ⟨.set, 0⟩) .w32) ∧
    decode 0x11847610 = .ok (.sub (.o 0) (.i 1) (.k 1) (some ⟨.set, 0⟩) .w32) ∧
    decode (0x1C#8 ++ 4#5 ++ 0#5 ++ 2#5 ++ 0#3 ++ 1#2 ++ 0#2 ++ 1#2) = .ok (.addc 4 (.v 0) (.v 2) ⟨.set, 0⟩ true) := by decide
theorem test_decode_class2 :
    decode (0x29#8 ++ 5#5 ++ 4#5 ++ 0#5 ++ 0#3 ++ 0#2 ++ 1#2 ++ 0#2) = .ok (.clz (.v 5) (.v 4) none .w16) ∧
    decode 0x2F384540 = .ok (.sel (.v 7) (.v 1) (.v 2) 5) ∧ decode 0x2D1044EC = .ok (.bfx (.v 2) (.v 1) 12 7 true) := by decide
theorem test_decode_class3 :
    decode 0x3F084044 = .ok (.shi (.v 1) (.v 1) .sar 4) ∧
    decode (0x32#8 ++ 24#5 ++ 3#5 ++ 4#5 ++ 1#3 ++ 1#2 ++ 2#2 ++ 0#2) = .ok (.cmplt .zr (.v 3) (.v 4) (some ⟨.set, 1⟩) .w8) := by decide
theorem test_decode_class4 :
    decode 0x408C04D0 = .ok (.fadd (.o 1) (.i 0) (.v 2) (some ⟨.set, 3⟩) .f32 .rn) ∧
    decode 0x42410800 = .ok (.fmul (.v 8) (.v 4) (.v 4) none .f32 .rn) := by decide
theorem test_decode_class5 : decode 0x50610000 = .ok (.fexp (.v 12) (.v 4) none .f32 .rn) := by decide
theorem test_decode_class6 : decode 0x68189200 = .ok (.qnt (.v 3) (.v 2) (.v 9) none .f32 .rn) := by decide
theorem test_decode_class7 :
    decode 0x70000003 = .ok (.jord 3) ∧ decode 0x71207400 = .ok (.jseed (.v 4) (.v 1) (.k 0) none .f32) ∧
    decode 0x7B1001FF = .ok (.jflag (.v 2) 0xF 0x1F) := by decide
theorem test_decode_class8 : decode 0x89314690 = .ok (.lcmpr (.v 6) (.v 5) 3 (some ⟨.set, 2⟩)) := by decide
theorem test_decode_class9 : decode 0x94180003 = .ok (.mfs (.v 3) 3) := by decide
theorem test_decode_classA :
    decode 0xA2FFE110 = .ok (.st 7 0xFF (.v 1) (.v 2) .word) ∧ decode 0xA2282390 = .ok (.st 1 0x41 (.v 3) (.i 2) .word) ∧
    decode 0xA0405025 = .ok (.ld 2 0x02 (.i 0) 4 .int32) ∧ decode 0xA3001280 = .ok (.stb 0 0 (.i 2) (.i 0)) := by decide
theorem test_decode_classB : decode 0xB1001191 = .ok (.aadds 0 0 (.i 1) (.i 2) (some 1)) := by decide
theorem test_decode_classC :
    decode 0xC0202310 = .ok (.copy 1 0x01 3 2) ∧ decode 0xC4A08818 = .ok (.strm 5 0x04 8 3 false) ∧
    decode 0xC5400228 = .ok (.mxmm 2 0 2 5) := by decide
theorem test_decode_classD :
    decode 0xD008B005 = .ok (.spawn (.v 1) (.v 2) .zr 5) ∧ decode 0xD3208650 = .ok (.watch (.v 2) (.v 3) (.v 4) (some ⟨.set, 1⟩)) ∧
    decode 0xD5160001 = .ok (.pginc 2 .zr 1) ∧ decode 0xD6060100 = .ok (.pgset 0 .zr 0x100) := by decide
theorem test_decode_classE :
    decode 0xE0000007 = .ok (.trap 7) ∧ decode 0xE2000000 = .ok .cutrq ∧ decode 0xE3000105 = .ok (.evnt 5 true) ∧
    decode 0xE4402111 = .ok (.l1wb 2 0x01 (.v 1) (.v 2) true) ∧ decode 0xE6000002 = .ok (.pwrh .high) := by decide
theorem test_decode_table_word : decodeTableWord 32 0x408C04D0 = some (.fadd (.o 1) (.i 0) (.v 2) (some ⟨.set, 3⟩) .f32 .rn) := by
  decide

/-! ## Words and terms that are refused -/

theorem test_reserved_opcodes_are_refused : decode 0x0E000000 = .bad .opcode ∧ decode 0xF0000000 = .bad .opcode ∧
    decode 0xFFFFFFFF = .bad .opcode ∧ decode 0xE7000000 = .bad .opcode := by decide
theorem test_reserved_fields_are_refused : decode 0x00000001 = .bad .rsvField ∧ decode 0xE6000003 = .bad .rsvField := by decide
theorem test_wf_shadow_register : (Instr.add (.v 4) (.v 0) (.v 0) none .w32).wf .s = false ∧
    (Instr.add (.v 0) (.v 4) (.v 0) none .w32).wf .s = false ∧ (Instr.add (.v 4) (.v 0) (.v 0) none .w32).wf .work = true := by
  decide
theorem test_wf_bit_fields : (Instr.bfx (.v 0) (.v 0) 31 1 false).wf .work = false ∧
    (Instr.bfi 0 (.v 0) 16 16).wf .work = false ∧ (Instr.bfx (.v 0) (.v 0) 31 0 false).wf .work = true := by decide
theorem test_wf_sparse_channels : (Instr.isect 0 1 1).wf .work = false ∧ (Instr.union 0 2 2).wf .work = false ∧
    (Instr.isect 0 1 2).wf .work = true := by decide
theorem test_decode_refuses_what_is_ill_formed :
    decodeIn .s (0x10#8 ++ 4#5 ++ 0#5 ++ 0#5 ++ 0#3 ++ 0#2 ++ 0#2 ++ 0#2) = .bad .shadowReg := by decide

/-! ## A word of every instruction, its fields placed as R26 draws the formats -/

/-- Formats A, I, L, M and E, P, T of R26, from OPC to the lowest field. -/
def fA (o d a b : Nat) (pd pu sz md : Nat := 0) : BitVec 32 :=
  BitVec.ofNat 8 o ++ BitVec.ofNat 5 d ++ BitVec.ofNat 5 a ++ BitVec.ofNat 5 b ++ BitVec.ofNat 3 pd ++ BitVec.ofNat 2 pu ++
    BitVec.ofNat 2 sz ++ BitVec.ofNat 2 md
def fI (o d a imm : Nat) : BitVec 32 := BitVec.ofNat 8 o ++ BitVec.ofNat 5 d ++ BitVec.ofNat 5 a ++ BitVec.ofNat 14 imm
def fL (o d sel imm : Nat) : BitVec 32 := BitVec.ofNat 8 o ++ BitVec.ofNat 5 d ++ BitVec.ofNat 3 sel ++ BitVec.ofNat 16 imm
def fM (o s mask a d v : Nat) : BitVec 32 :=
  BitVec.ofNat 8 o ++ BitVec.ofNat 3 s ++ BitVec.ofNat 8 mask ++ BitVec.ofNat 5 a ++ BitVec.ofNat 5 d ++ BitVec.ofNat 3 v
def fP (o pd pa pb fn imm : Nat) : BitVec 32 :=
  BitVec.ofNat 8 o ++ BitVec.ofNat 3 pd ++ BitVec.ofNat 3 pa ++ BitVec.ofNat 3 pb ++ BitVec.ofNat 4 fn ++ BitVec.ofNat 8 imm ++ 0#3
def fT (o a b c jc : Nat) : BitVec 32 :=
  BitVec.ofNat 8 o ++ BitVec.ofNat 5 a ++ BitVec.ofNat 5 b ++ BitVec.ofNat 5 c ++ BitVec.ofNat 9 jc

/-- Each word decodes to its instruction, and the instruction encodes to it. -/
abbrev AllWords (l : List (BitVec 32 × Instr)) : Prop := ∀ p ∈ l, decode p.1 = .ok p.2 ∧ encode p.2 = some p.1

theorem test_words_class0 : AllWords [(0, .nop), (fA 0x01 21 3 0 5 2, .send (some 5) (.v 3) (some ⟨.and, 5⟩)),
    (fA 0x01 24 3 0, .send none (.v 3) none), (fI 0x02 16 25 7, .sendt 0 .ln (.tag .raw)), (fI 0x02 16 25 11, .sendt 0 .ln (.cfg 3)),
    (fI 0x03 17 1 0x3FFF, .sende 1 (.v 1) 0x3FFF), (fA 0x04 18 2 0, .sendh 2 (.v 2)), (fA 0x05 19 20 0, .pass (some 3) 4),
    (fA 0x05 24 16 0, .pass none 0), (fA 0x06 20 2 7, .steer 2 (.v 2) 7), (fI 0x07 3 29 0xFF, .tagq 3 (.k 3) 0xFF),
    (fP 0x08 6 0 0 0 0x81, .pset 6 0x81), (fP 0x09 6 5 4 9 0x81, .plog 6 5 4 9 0x81), (fA 0x0A 1 7 0 2 3, .pget (.v 1) 7 (some ⟨.or, 2⟩)),
    (fA 0x0B 7 1 0, .pput 7 (.v 1)), (fP 0x0C 1 2 0 8 0x0F, .pcnt 1 2 8 0x0F), (fA 0x0D 0 0 0, .ende)] := by decide
theorem test_words_class1 : AllWords [(fA 0x10 21 22 23 1 1 2, .add (.o 5) .t0 .t1 (some ⟨.set, 1⟩) .w8),
    (fA 0x11 1 2 3, .sub (.v 1) (.v 2) (.v 3) none .w32), (fA 0x12 1 2 3, .adds (.v 1) (.v 2) (.v 3) none .w32),
    (fA 0x13 1 2 3, .addus (.v 1) (.v 2) (.v 3) none .w32), (fA 0x14 1 2 3, .subs (.v 1) (.v 2) (.v 3) none .w32),
    (fA 0x15 1 2 3, .subus (.v 1) (.v 2) (.v 3) none .w32), (fA 0x16 1 2 3, .mul (.v 1) (.v 2) (.v 3) none .w32),
    (fA 0x17 1 2 3, .mulh (.v 1) (.v 2) (.v 3) none .w32), (fA 0x18 1 2 3, .mulhu (.v 1) (.v 2) (.v 3) none .w32),
    (fA 0x19 1 2 3, .mad 1 (.v 2) (.v 3) none .w32), (fA 0x1A 1 2 0, .neg (.v 1) (.v 2) none .w32),
    (fA 0x1B 1 2 0 0 0 1, .abs (.v 1) (.v 2) none .w16), (0x1C200411, .addc 4 (.v 0) (.v 2) ⟨.set, 0⟩ true),
    (0x1C284610, .addc 5 (.v 1) (.v 3) ⟨.set, 0⟩ false), (fA 0x1D 1 2 3 6 3 0 0, .subb 1 (.v 2) (.v 3) ⟨.or, 6⟩ false),
    (fA 0x1E 24 2 3, .div .zr (.v 2) (.v 3) none .w32), (fA 0x1F 1 2 3 0 0 2, .divu (.v 1) (.v 2) (.v 3) none .w8)] := by decide
theorem test_words_class2 : AllWords [(fA 0x20 1 2 3, .and (.v 1) (.v 2) (.v 3) none), (fA 0x21 1 2 3, .or (.v 1) (.v 2) (.v 3) none),
    (fA 0x22 1 2 3, .xor (.v 1) (.v 2) (.v 3) none), (fA 0x23 1 2 3, .andn (.v 1) (.v 2) (.v 3) none),
    (fA 0x24 1 2 0, .not (.v 1) (.v 2) none), (fA 0x25 1 2 3, .shl (.v 1) (.v 2) (.v 3) none .w32),
    (fA 0x26 1 2 3, .shr (.v 1) (.v 2) (.v 3) none .w32), (fA 0x27 1 2 3, .sar (.v 1) (.v 2) (.v 3) none .w32),
    (fA 0x28 1 2 3, .rol (.v 1) (.v 2) (.v 3) none .w32), (fA 0x29 1 2 0, .clz (.v 1) (.v 2) none .w32),
    (fA 0x2A 1 2 0, .ctz (.v 1) (.v 2) none .w32), (fA 0x2B 1 2 0, .popc (.v 1) (.v 2) none .w32),
    (fA 0x2C 1 2 0, .brev (.v 1) (.v 2) none .w32), (0x2D1044EC, .bfx (.v 2) (.v 1) 12 7 true),
    (fI 0x2E 1 2 0x3E0, .bfi 1 (.v 2) 0 31), (fA 0x2F 1 2 3 4, .sel (.v 1) (.v 2) (.v 3) 4)] := by decide
theorem test_words_class3 : AllWords [(fA 0x30 1 2 3, .cmpeq (.v 1) (.v 2) (.v 3) none .w32), (fA 0x31 1 2 3, .cmpne (.v 1) (.v 2) (.v 3) none .w32),
    (0x32C0C858, .cmplt .zr (.v 3) (.v 4) (some ⟨.set, 1⟩) .w8), (fA 0x33 1 2 3, .cmple (.v 1) (.v 2) (.v 3) none .w32),
    (fA 0x34 1 2 3, .cmpltu (.v 1) (.v 2) (.v 3) none .w32), (fA 0x35 1 2 3, .cmpleu (.v 1) (.v 2) (.v 3) none .w32),
    (fA 0x36 1 2 3, .min (.v 1) (.v 2) (.v 3) none .w32), (fA 0x37 1 2 3, .max (.v 1) (.v 2) (.v 3) none .w32),
    (fA 0x38 1 2 3, .minu (.v 1) (.v 2) (.v 3) none .w32), (fA 0x39 1 2 3, .maxu (.v 1) (.v 2) (.v 3) none .w32),
    (fI 0x3A 1 2 0x3FFF, .addi (.v 1) (.v 2) 0x3FFF), (fI 0x3B 1 2 5, .muli (.v 1) (.v 2) 5), (fI 0x3C 1 1 0x3FF0, .andi (.v 1) (.v 1) 0x3FF0),
    (fI 0x3D 1 2 5, .ori (.v 1) (.v 2) 5), (fI 0x3E 1 2 5, .xori (.v 1) (.v 2) 5), (fI 0x3F 1 2 0x7F, .shi (.v 1) (.v 2) .rol 31)] := by decide
theorem test_words_class4 : AllWords [(fA 0x40 1 2 3, .fadd (.v 1) (.v 2) (.v 3) none .f32 .rn), (fA 0x41 1 2 3 0 0 1 1, .fsub (.v 1) (.v 2) (.v 3) none .f16 .rz),
    (fA 0x42 1 2 3 0 0 2 2, .fmul (.v 1) (.v 2) (.v 3) none .bf16 .rd), (fA 0x43 1 2 3 0 0 0 3, .fma 1 (.v 2) (.v 3) none .f32 .ru),
    (fA 0x44 1 2 3, .fms 1 (.v 2) (.v 3) none .f32 .rn), (fA 0x45 1 2 3, .fnma 1 (.v 2) (.v 3) none .f32 .rn),
    (fA 0x46 1 2 3, .fdiv (.v 1) (.v 2) (.v 3) none .f32 .rn), (fA 0x47 1 2 0, .frcp (.v 1) (.v 2) none .f32 .rn),
    (fA 0x48 1 2 0, .fsqrt (.v 1) (.v 2) none .f32 .rn), (fA 0x49 1 2 0, .frsq (.v 1) (.v 2) none .f32 .rn),
    (fA 0x4A 1 2 0, .fneg (.v 1) (.v 2) none .f32), (fA 0x4B 1 2 0, .fabs (.v 1) (.v 2) none .f32),
    (fA 0x4C 1 2 3, .fmin (.v 1) (.v 2) (.v 3) none .f32), (fA 0x4D 1 2 3, .fmax (.v 1) (.v 2) (.v 3) none .f32),
    (fA 0x4E 1 2 3, .fscale (.v 1) (.v 2) (.v 3) none .f32 .rn), (fA 0x4F 1 2 3, .fcpys (.v 1) (.v 2) (.v 3) none .f32)] := by decide
theorem test_words_class5 : AllWords [(fA 0x50 1 2 0, .fexp (.v 1) (.v 2) none .f32 .rn), (fA 0x51 1 2 0, .fexp2 (.v 1) (.v 2) none .f32 .rn),
    (fA 0x52 1 2 0, .flog (.v 1) (.v 2) none .f32 .rn), (fA 0x53 1 2 0, .flog2 (.v 1) (.v 2) none .f32 .rn),
    (fA 0x54 1 2 0, .fsin (.v 1) (.v 2) none .f32 .rn), (fA 0x55 1 2 0, .fcos (.v 1) (.v 2) none .f32 .rn),
    (fA 0x56 0 8 0, .fsincos 0 (.v 8) none .f32 .rn), (fA 0x57 1 2 0, .ftanh (.v 1) (.v 2) none .f32 .rn),
    (fA 0x58 1 2 0, .fsigm (.v 1) (.v 2) none .f32 .rn), (fA 0x59 1 2 0, .ferf (.v 1) (.v 2) none .f32 .rn),
    (fA 0x5A 1 2 3, .fpowi (.v 1) (.v 2) (.v 3) none .f32 .rn), (fA 0x5B 1 2 0, .flog1p (.v 1) (.v 2) none .f32 .rn),
    (fA 0x5C 1 2 0, .fexpm1 (.v 1) (.v 2) none .f32 .rn)] := by decide
theorem test_words_class6 : AllWords [(fA 0x60 1 2 3, .fcmpeq (.v 1) (.v 2) (.v 3) none .f32), (fA 0x61 1 2 3, .fcmplt (.v 1) (.v 2) (.v 3) none .f32),
    (fA 0x62 1 2 3, .fcmple (.v 1) (.v 2) (.v 3) none .f32), (fA 0x63 1 2 3, .fcmpun (.v 1) (.v 2) (.v 3) none .f32),
    (fA 0x64 1 2 0, .fclass (.v 1) (.v 2) none .f32), (fA 0x65 1 2 0, .cvtf (.v 1) (.v 2) none .f32 .rn),
    (fA 0x66 1 2 0, .cvtfi (.v 1) (.v 2) none .f32 .rn), (fA 0x67 1 2 0, .cvtif (.v 1) (.v 2) none .f32 .rn),
    (0x68189200, .qnt (.v 3) (.v 2) (.v 9) none .f32 .rn), (fA 0x69 1 2 3 0 0 0 3, .dqnt (.v 1) (.v 2) (.v 3) none 3),
    (fA 0x6A 1 2 0, .frnd (.v 1) (.v 2) none .f32 .rn), (fA 0x6B 1 2 3 0 0 1, .pack (.v 1) (.v 2) (.v 3) none false .rn),
    (fA 0x6B 1 2 3 0 0 2, .pack (.v 1) (.v 2) (.v 3) none true .rn), (fA 0x6C 1 2 0 0 0 0 2, .unpk (.v 1) (.v 2) none 2)] := by decide
theorem test_words_class7 : AllWords [(0x70000003, .jord 3), (fA 0x71 4 1 2, .jseed (.v 4) (.v 1) (.v 2) none .f32),
    (fA 0x72 4 1 0 0 0 2, .jconst (.v 4) (.v 1) none .bf16), (fI 0x73 1 4 3, .jext (.v 1) (.v 4) 3), (fI 0x74 4 1 2, .jins 4 (.v 1) 2),
    (fA 0x75 4 8 0, .jdiff (.v 4) (.v 8) none .f32 .rn), (fA 0x76 4 8 1, .jintg (.v 4) (.v 8) (.v 1) none .f32 .rn),
    (fA 0x77 4 8 1, .jeval (.v 4) (.v 8) (.v 1) none .f32 .rn), (fA 0x78 4 8 0, .jmov (.v 4) (.v 8) none),
    (fA 0x79 4 8 1, .jscal (.v 4) (.v 8) (.v 1) none .f32 .rn), (fI 0x7A 4 8 1, .jtrnc (.v 4) (.v 8) 1),
    (fI 0x7B 2 0 0x1FF, .jflag (.v 2) 0xF 0x1F)] := by decide
theorem test_words_class8 : AllWords [(fI 0x80 1 2 7, .lbc (.v 1) (.v 2) 7), (fI 0x81 1 2 0x3FF9, .lshf (.v 1) (.v 2) 0), (fI 0x81 1 2 7, .lshf (.v 1) (.v 2) 14),
    (fI 0x82 1 2 5, .lrot (.v 1) (.v 2) 5), (fA 0x83 1 2 0, .lsum (.v 1) (.v 2) none .f32 .rn), (fA 0x84 1 2 0 0 0 2 3, .lsumi (.v 1) (.v 2) none .w8 .usat),
    (fA 0x85 1 2 0, .lmax (.v 1) (.v 2) none (.s .w32)), (fA 0x86 1 2 0 0 0 1 1, .lmin (.v 1) (.v 2) none (.u .w16)),
    (fA 0x85 1 2 0 0 0 2 2, .lmax (.v 1) (.v 2) none (.f .bf16)), (fA 0x87 1 2 0 0 0 0 1, .lscan (.v 1) (.v 2) none .f32 .rz),
    (fA 0x88 1 2 0 0 0 0 2, .lscani (.v 1) (.v 2) none .w32 .usat), (fA 0x89 1 2 6, .lcmpr (.v 1) (.v 2) 6 none),
    (fA 0x8A 1 2 6, .lexpd (.v 1) (.v 2) 6 none), (fA 0x8B 1 2 3, .ldot (.v 1) (.v 2) (.v 3) none .f32 .rn)] := by decide
theorem test_words_class9 : AllWords [(fA 0x90 1 2 0, .mov (.v 1) (.v 2) none), (fI 0x91 1 0 0x2000, .movi (.v 1) 0x2000),
    (fL 0x92 6 0 0, .movl 6 .fp32 0), (fL 0x93 6 0 0x3FC0, .movh 6 .fp32 0x3FC0), (fI 0x94 3 0 14, .mfs (.v 3) 14),
    (fI 0x95 0 2 1, .mts 1 (.v 2))] := by decide
theorem test_words_classA : AllWords [(fM 0xA0 7 0x81 1 31 0, .ld 7 0x81 (.v 1) 31 .fp32), (fM 0xA1 0 0 1 2 7, .ldb 0 0 (.v 1) 2 .raw),
    (fM 0xA2 0 0 1 2 2, .st 0 0 (.v 1) (.v 2) .byte), (fM 0xA3 0 0 1 2 0, .stb 0 0 (.v 1) (.v 2)), (fM 0xA4 0 0 1 2 5, .lds 0 0 (.v 1) 2 .int32),
    (fM 0xA5 0 0 1 2 1, .sts 0 0 (.v 1) (.v 2) .half), (fM 0xA6 0 0 1 2 5, .ldf 0 0 (.v 1) 2 .int32), (fM 0xA7 0 0 1 2 5, .ldfe 0 0 (.v 1) 2 .int32),
    (fM 0xA8 0 0 1 2 0, .ste 0 0 (.v 1) (.v 2)), (fM 0xA9 0 0 1 2 0, .stff 0 0 (.v 1) (.v 2)), (fM 0xAA 0 0 1 0 0, .pref 0 0 (.v 1) .home)] := by decide
theorem test_words_classB : AllWords [(fM 0xB0 0 0 1 2 7, .aadd 0 0 (.v 1) (.v 2) none), (fM 0xB1 0 0 1 2 6, .aadds 0 0 (.v 1) (.v 2) (some 6)),
    (fM 0xB2 0 0 1 2 0, .afadd 0 0 (.v 1) (.v 2) (some 0)), (fM 0xB3 0 0 1 2 7, .amin 0 0 (.v 1) (.v 2) none), (fM 0xB4 0 0 1 2 7, .amax 0 0 (.v 1) (.v 2) none),
    (fM 0xB5 0 0 1 2 7, .aminu 0 0 (.v 1) (.v 2) none), (fM 0xB6 0 0 1 2 7, .amaxu 0 0 (.v 1) (.v 2) none), (fM 0xB7 0 0 1 2 7, .aand 0 0 (.v 1) (.v 2) none),
    (fM 0xB8 0 0 1 2 7, .aor 0 0 (.v 1) (.v 2) none), (fM 0xB9 0 0 1 2 7, .axor 0 0 (.v 1) (.v 2) none), (fM 0xBA 0 0 1 2 7, .axch 0 0 (.v 1) (.v 2) none),
    (fM 0xBB 0 0 1 14 7, .acas 0 0 (.v 1) 14 none), (fM 0xBC 0 0 1 2 7, .atas 0 0 (.v 1) (.v 2) none), (fM 0xBD 0 0 1 2 7, .aincw 0 0 (.v 1) (.v 2) none)] := by decide
theorem test_words_classC : AllWords [(fM 0xC0 1 2 3 31 0, .copy 1 2 3 31), (fM 0xC1 1 2 3 31 0, .copy2d 1 2 3 31), (fM 0xC2 1 2 3 4 4, .gath 1 2 3 4 4),
    (fM 0xC3 1 2 3 4 0, .scat 1 2 3 4 0), (fM 0xC4 1 2 3 4 1, .strm 1 2 3 4 true), (fM 0xC5 1 2 3 4 0, .mxmm 1 2 3 4), (fM 0xC6 1 2 3 4 0, .mxsort 1 2 3 4),
    (fM 0xC7 1 2 3 0 0, .ringi 1 2 3), (fM 0xC8 1 2 3 0 1, .ringa 1 2 3 true), (fM 0xC9 1 2 3 5 0, .spill 1 2 3 5),
    (fM 0xCA 0 0 3 7 3, .echk 3 7 (some .or)), (fM 0xCB 0 0 3 0 0, .ecan 3), (fM 0xCC 1 2 3 4 0, .linkx 1 2 3 4), (fM 0xCD 1 2 3 4 4, .redc 1 2 3 4 .f16)] := by decide
theorem test_words_classD : AllWords [(fT 0xD0 1 2 3 511, .spawn (.v 1) (.v 2) (.v 3) 511), (fT 0xD1 0 0 0 9, .tdone 9), (fT 0xD2 9 0 0 5, .jarm (.v 9) 5),
    (0xD3208650, .watch (.v 2) (.v 3) (.v 4) (some ⟨.set, 1⟩)), (fA 0xD4 4 2 0, .unwatch (.v 2) (.v 4) none),
    (fI 0xD5 3 1 0x3FFF, .pginc 3 (.v 1) 0x3FFF), (fI 0xD6 3 1 0, .pgset 3 (.v 1) 0), (fA 0xD7 16 17 18, .isect 0 1 2), (fA 0xD8 21 16 20, .union 5 0 4)] := by decide
theorem test_words_classE : AllWords [(fI 0xE0 0 0 0x3FFF, .trap 0x3FFF), (fI 0xE1 0 0 1, .brk 1), (0xE2000000, .cutrq), (fI 0xE3 0 0 0x1FF, .evnt 0xFF true),
    (fM 0xE4 0 0 1 2 0, .l1wb 0 0 (.v 1) (.v 2) false), (fM 0xE5 0 0 1 2 1, .l1inv 0 0 (.v 1) (.v 2) true), (0xE6000002, .pwrh .high),
    (fI 0xE6 0 0 1, .pwrh .low)] := by decide

/-! ## Witnesses of the statements about firings -/

/-- An element whose slot 0 may fire: an unconditional slot of the working plane, its tile started. -/
def at0 : State := (State.reset.withFetchWord 32 0).fetched [] 0 .work 0

/-- The same with a token on I0 and I1, and both tested and dequeued. -/
def atIn (x y : Tok) : State :=
  let e := at0.elem 0
  let trig : BitVec 32 := 0x00000497                 -- CHA 0, TSTA DATA, DQA; CHB 1, TSTB DATA, DQB; OUTQ 7
  let s := at0.setElem 0 { e with planeA := { e.planeA with slots := e.planeA.slots.set 0 (trig ++ 0#32) } }
  (s.setPort (portKey 0 0 0) { Port.empty with queue := [x], win := 1, known := 1 }).setPort (portKey 0 0 1)
    { Port.empty with queue := [y], win := 1, known := 1 }
def tok (v : Nat → W) (m : Mask := 0xFF) (k : Kind := .data) : Tok :=
  { kind := k, tag := .int32, lvm := m, data := Oct.of v, stamp := 0, round := 0 }

/-- The working plane's registers V0, V1, V2 set, and JORD. -/
def withV (s : State) (a b d : Nat → W) (k : BitVec 2 := 0) (ta : Tag := .int32) : State :=
  s.setElem 0 { s.elem 0 with wr := { (s.elem 0).wr with
    jord := k, v := (((s.elem 0).wr.v.set 0 ⟨Oct.of a, ta⟩).set 1 ⟨Oct.of b, ta⟩).set 2 ⟨Oct.of d, ta⟩ } }

abbrev Vz := Dst.v 8
abbrev A0 := Src.v 0
abbrev A4 := Src.v 4

theorem witness_class1_eligible : ∀ i ∈ ([.add Vz A0 A4 none .w32, .sub Vz A0 A4 none .w16, .adds Vz A0 A4 none .w8,
    .addus Vz A0 A4 none .w32, .subs Vz A0 A4 none .w32, .subus Vz A0 A4 none .w32, .mul Vz A0 A4 none .w32,
    .mulh Vz A0 A4 none .w32, .mulhu Vz A0 A4 none .w32, .mad 8 A0 A4 none .w32, .neg Vz A0 none .w32, .abs Vz A0 none .w32,
    .addc 8 A0 A4 ⟨.set, 0⟩ false, .subb 8 A0 A4 ⟨.and, 7⟩ true, .div Vz A0 A4 none .w32, .divu Vz A0 A4 (some ⟨.or, 3⟩) .w8] :
    List Instr), Eligible i at0 := by decide
theorem witness_class2_eligible : ∀ i ∈ ([.and Vz A0 A4 none, .or Vz A0 A4 none, .xor Vz A0 A4 none, .andn Vz A0 A4 none,
    .not Vz A0 none, .shl Vz A0 A4 none .w32, .shr Vz A0 A4 none .w32, .sar Vz A0 A4 none .w32, .rol Vz A0 A4 none .w32,
    .clz Vz A0 none .w32, .ctz Vz A0 none .w32, .popc Vz A0 none .w32, .brev Vz A0 none .w32, .bfx Vz A0 31 0 true,
    .bfi 8 A0 0 31, .sel Vz A0 A4 5] : List Instr), Eligible i at0 := by decide
theorem witness_class3_eligible : ∀ i ∈ ([.cmpeq Vz A0 A4 none .w32, .cmpne Vz A0 A4 none .w32, .cmplt Vz A0 A4 none .w32,
    .cmple Vz A0 A4 none .w32, .cmpltu Vz A0 A4 none .w32, .cmpleu Vz A0 A4 none .w32, .min Vz A0 A4 none .w32,
    .max Vz A0 A4 none .w32, .minu Vz A0 A4 none .w32, .maxu Vz A0 A4 none .w32, .addi Vz A0 0x3FFF, .muli Vz A0 0x2000,
    .andi Vz A0 1, .ori Vz A0 1, .xori Vz A0 1, .shi Vz A0 .rol 31] : List Instr), Eligible i at0 := by decide
theorem witness_class4_eligible : ∀ i ∈ ([.fadd Vz A0 A4 none .f32 .rn, .fsub Vz A0 A4 none .f16 .rz,
    .fmul Vz A0 A4 none .bf16 .rd, .fma 8 A0 A4 none .f32 .ru, .fms 8 A0 A4 none .f32 .rn, .fnma 8 A0 A4 none .f32 .rn,
    .fdiv Vz A0 A4 none .f32 .rn, .frcp Vz A0 none .f32 .rn, .fsqrt Vz A0 none .f32 .rn, .frsq Vz A0 none .f32 .rn,
    .fneg Vz A0 none .f32, .fabs Vz A0 none .f32, .fmin Vz A0 A4 none .f32, .fmax Vz A0 A4 none .f32,
    .fscale Vz A0 A4 none .f32 .rn, .fcpys Vz A0 A4 none .f32] : List Instr),
    Eligible i at0 ∧ Eligible i (withV at0 (fun _ => 0) (fun _ => 0) (fun _ => 0) 3) := by decide
theorem witness_class5_eligible : ∀ i ∈ ([.fexp Vz A0 none .f32 .rn, .fexp2 Vz A0 none .f32 .rn, .flog Vz A0 none .f32 .rn,
    .flog2 Vz A0 none .f32 .rn, .fsin Vz A0 none .f32 .rn, .fcos Vz A0 none .f32 .rn, .fsincos 8 A0 none .f32 .rn,
    .ftanh Vz A0 none .f32 .rn, .fsigm Vz A0 none .f32 .rn, .ferf Vz A0 none .f32 .rn, .fpowi Vz A0 A4 none .f32 .rn,
    .flog1p Vz A0 none .f32 .rn, .fexpm1 Vz A0 none .f32 .rn] : List Instr),
    Eligible i at0 ∧ Eligible i (withV at0 (fun _ => 0) (fun _ => 0) (fun _ => 0) 3) := by decide
theorem witness_class6_eligible : ∀ i ∈ ([.fcmpeq Vz A0 A4 none .f32, .fcmplt Vz A0 A4 none .f32, .fcmple Vz A0 A4 none .f32,
    .fcmpun Vz A0 A4 none .f32, .fclass Vz A0 none .f32, .cvtf Vz A0 none .f32 .rn, .cvtfi Vz A0 none .f32 .rn,
    .cvtif Vz A0 none .f32 .rn, .qnt Vz A0 A4 none .f32 .rn, .dqnt Vz A0 A4 none 3, .frnd Vz A0 none .f32 .rn,
    .pack Vz A0 A4 none true .rn, .unpk Vz A0 none 3] : List Instr), Eligible i at0 := by decide
theorem witness_class7_eligible : ∀ i ∈ ([.jord 3, .jseed Vz A0 A4 none .f32, .jconst Vz A0 none .f32, .jext Vz A0 3,
    .jins 8 A0 3, .jdiff Vz A0 none .f32 .rn, .jintg Vz A0 A4 none .f32 .rn, .jeval Vz A0 A4 none .f32 .rn, .jmov Vz A0 none,
    .jscal Vz A0 A4 none .f32 .rn, .jtrnc Vz A0 3, .jflag Vz 0xF 0x1F] : List Instr),
    Eligible i at0 ∧ Eligible i (withV at0 (fun _ => 0) (fun _ => 0) (fun _ => 0) 3) := by decide
theorem witness_class8_eligible : ∀ i ∈ ([.lbc Vz A0 7, .lshf Vz A0 14, .lrot Vz A0 7, .lsum Vz A0 none .f32 .rn,
    .lsumi Vz A0 none .w8 .usat, .lmax Vz A0 none (.s .w32), .lmin Vz A0 none (.u .w8), .lmax Vz A0 none (.f .f32),
    .lmin Vz A0 none (.f .f16), .lscan Vz A0 none .f32 .rn, .lscani Vz A0 none .w32 .wrap, .lcmpr Vz A0 3 none,
    .lexpd Vz A0 3 none, .ldot Vz A0 A4 none .f32 .rn] : List Instr), Eligible i at0 := by decide
theorem witness_class9_eligible : (∀ i ∈ ([.mov Vz A0 none, .movi Vz 0x2000, .movl 8 .fp32 0xFFFF, .movh 8 .fp32 0xFFFF] :
    List Instr), Eligible i at0) ∧ (∀ n, Eligible (.mfs Vz n) at0) ∧ ∀ n, Eligible (.mts n A0) at0 := by decide
theorem witness_class0_eligible : (∀ i ∈ ([.nop, .send (some 5) A0 none, .send none A0 none, .sendt 5 A0 (.tag .raw),
    .sendt 5 A0 (.cfg 3), .sende 5 A0 0x3FFF, .sendh 5 A0, .steer 2 A0 7, .tagq 7 A0 0xFF, .pset 7 0xFF, .plog 7 6 5 15 0xFF,
    .pget Vz 7 none, .pput 7 A0, .pcnt 7 6 8 0xFF, .ende] : List Instr), Eligible i at0) ∧
    (∀ i ∈ ([.pass (some 5) 1, .pass none 1] : List Instr), Eligible i (atIn (tok fun _ => 1) (tok fun _ => 2)) ∧
      ((Ctx.of (atIn (tok fun _ => 1) (tok fun _ => 2))).head 1).isSome = true) := by decide
theorem witness_classesAB_eligible : (∀ i ∈ ([.ld 7 0xFF A0 31 .raw, .ldb 7 0xFF A0 31 .raw, .lds 7 0 A0 0 .raw,
    .ldf 7 0 A0 0 .raw, .ldfe 7 0 A0 0 .raw, .st 7 0xFF A0 A4 .byte, .stb 7 0 A0 A4, .sts 7 0 A0 A4 .half, .ste 7 0 A0 A4,
    .stff 7 0 A0 A4, .pref 7 0 A0 .fabric, .l1wb 7 0 A0 A4 true, .l1inv 7 0 A0 A4 false, .aadd 7 0 A0 A4 (some 6),
    .aadds 7 0 A0 A4 none, .afadd 7 0 A0 A4 none, .amin 7 0 A0 A4 none, .amax 7 0 A0 A4 none, .aminu 7 0 A0 A4 none,
    .amaxu 7 0 A0 A4 none, .aand 7 0 A0 A4 none, .aor 7 0 A0 A4 none, .axor 7 0 A0 A4 none, .axch 7 0 A0 A4 none,
    .acas 7 0 A0 14 none, .atas 7 0 A0 A4 none, .aincw 7 0 A0 A4 none] : List Instr), Eligible i at0) ∧
    at0.regionOf at0.cur.elem = none := by decide
theorem witness_classC_eligible : (∀ i ∈ ([.copy 7 0xFF 15 31, .copy2d 7 0 15 31, .gath 7 0 15 31 4, .scat 7 0 15 31 4,
    .strm 7 0 15 31 true, .mxmm 7 0 15 31, .mxsort 7 0 15 31, .ringi 7 0 15, .ringa 7 0 15 true, .spill 7 0 15 5,
    .linkx 7 0 15 31, .redc 7 0 15 31 .f16, .echk 15 7 (some .set), .ecan 15] : List Instr), Eligible i at0) ∧
    (at0.elem 0).free = 0 :: [1, 2, 3, 4, 5, 6, 7] := by decide
theorem witness_classD_eligible : (∀ i ∈ ([.spawn A0 A4 .zr 511, .tdone 511, .watch A0 A4 (.v 5) none,
    .unwatch A0 A4 (some ⟨.or, 7⟩), .pginc 3 A0 0x3FFF, .pgset 3 A0 0x3FFF] : List Instr), Eligible i at0) ∧
    (∀ i ∈ ([.isect 0 0 1, .union 0 0 1] : List Instr), Eligible i (atIn (tok fun _ => 1) (tok fun _ => 2))) := by decide
theorem witness_classE_eligible : ∀ i ∈ ([.trap 0x3FFF, .brk 0x3FFF, .cutrq, .evnt 0xFF true, .evnt 0 false, .pwrh .low] : List Instr),
    Eligible i at0 := by decide

/-! ## A small machine: one region of one tile, with a walk, a ring, a route and a page table -/

def cons0 : Consist := consistOf []
def ring0 : Ring := { tile := 0, bank := 0, base := 0, size := 4096, head := 0, tail := 0, hpos := 0, spill := none, maker := none, popper := none }
def walk0 : Walk :=
  { die := 0, prio := 0, lsn := (0, 0, 0, 0), desc := 0, asid := 3, run := 7, result := 0x400, pc := 0x100, stack := []
    phase := .fetch, region := some 10, prev := none, gang := [10], consists := 0, trail := 0, abandon := 0, state := 0
    cause := 0, reason := 0, slot := 0, elem := 0, unit := 0, use := 0, seq := 0, record := [], gates := [], held := none, blocked := false }
def region0 : Region :=
  { freshRegion 5 walk0 0 0 0 1 1 cons0 [] .running 0 with rings := [ring0], routes := [(3, (0, 1))] }
/-- ASID 3 maps the 512 MiB from VA 0 to PA 0x2000_0000, readable, writable and executable, A and D set. -/
def table : Mem := Mem.write (Mem.write (Mem.write [] 24 [0x01, 0x02]) 0x200 [1, 0, 1]) 0x10000 [0xCF, 0, 0, 0x20]

/-- The region r on tile 0 and the walk w, over any state. -/
def withRegion (s : State) (r : Region) (w : Walk := walk0) : State :=
  { (s.setElem 0 { s.elem 0 with region := some 10 }).setTile 0 { s.tile 0 with region := some 10, started := true } with
    regions := [(10, r)], walks := [(5, w)], mem := table, nextId := 20 }
def inRegion : State := withRegion at0 region0
/-- The slices that own the first two pages hold their translation. -/
def ent0 : TlbEnt := ⟨3, 0, true, 0x200000CF, 0⟩
def warm (s : State) : State :=
  [0, 0x10000].foldl (fun s va => s.setTile (s.tlbTile 0 3 va) { s.tile (s.tlbTile 0 3 va) with tlb := [ent0] }) s

theorem regionOf_inRegion : inRegion.regionOf inRegion.cur.elem = some (10, region0) := by decide
theorem noReplay_inRegion : NoReplay inRegion := by
  intro r h; rw [regionOf_inRegion] at h; cases h; rfl
theorem noReplay_at0 : NoReplay at0 := by
  intro r h; rw [show at0.regionOf at0.cur.elem = none by decide] at h; cases h

theorem witness_EncodeOfDecode : decodeIn .s 0x10000010 = .ok (.add (.v 0) (.v 0) (.v 0) (some ⟨.set, 0⟩) .w32) := by decide
theorem witness_DecodeOfEncode : (Instr.add (.v 0) (.v 0) (.v 0) (some ⟨.set, 0⟩) .w32).wf .s = true ∧
    encode (.add (.v 0) (.v 0) (.v 0) (some ⟨.set, 0⟩) .w32) = some 0x10000010 := by decide
/-- CHA 0 and CHB 1 tested and dequeued, OUTQ 5; ADD O5, I0, I1. -/
theorem witness_ValidSlots : decodeSlot .work (0x00000495#32 ++ fA 0x10 21 16 17) = .ok (.add (.o 5) (.i 0) (.i 1) none .w32) := by
  decide
theorem witness_StepRuns : (State.reset.withFetchWord 32 0x10200400).agenda = [.fire 0 .work 0] ∧
    decodeIn .work (slotOp ((State.reset.withFetchWord 32 0x10200400).slotWord 0 .work 0)) = .ok (.add (.v 4) (.v 0) (.v 2) none .w32) ∧
    decodeIn .work (slotOp ((State.reset.withFetchWord 32 0xFF000000).slotWord 0 .work 0)) = .bad .opcode ∧
    (State.reset.next [.act (.tokenArrive 3)]).agenda = [.act (.tokenArrive 3)] ∧
    (State.reset.next [.due (.cutStart 3)]).agenda = [.due (.cutStart 3)] ∧ State.reset.agenda = [] ∧ State.reset.inputs = [] ∧
    ({ State.reset with inputs := [.tqheadWrite 0 1] } : State).inputs = [.tqheadWrite 0 1] := by decide
theorem witness_memory : table.wf = true ∧ inRegion.memWf = true := by decide

/-! ### The firing -/

theorem witness_Ineligible : IsInstruction .nop ∧ ¬Ready .nop State.reset := by decide
theorem witness_Ready : IsInstruction (.add Vz A0 A4 none .w32) ∧ Ready (.add Vz A0 A4 none .w32) at0 := by decide
def jets (k : BitVec 2) : State := withV at0 (fun _ => 0) (fun _ => 0) (fun _ => 0) k
theorem witness_misaligned : IsInstruction (.fadd (.v 1) A0 A4 none .f32 .rn) ∧ Ready (.fadd (.v 1) A0 A4 none .f32 .rn) (jets 1) ∧
    NoBreak (jets 1) ∧ ¬groupsAligned (.fadd (.v 1) A0 A4 none .f32 .rn) (jets 1) := by
  refine ⟨by decide, by decide, by unfold NoBreak; decide, by unfold groupsAligned; decide⟩
/-- An element whose stream 2 is an import stream. -/
def importer : State := at0.setElem 0 { at0.elem 0 with streams := (at0.elem 0).streams.set 2 { Stream.reset with src := some (1, 0) } }
theorem witness_import : IsInstruction (.ld 2 0 A0 0 .raw) ∧ Ready (.ld 2 0 A0 0 .raw) importer ∧ NoBreak importer ∧
    groupsAligned (.ld 2 0 A0 0 .raw) importer ∧ ownImport (.ld 2 0 A0 0 .raw) importer 2 :=
  ⟨by decide, by decide, by unfold NoBreak; decide, by unfold groupsAligned; decide, ⟨0, by decide⟩, by decide⟩
def poisoned : State := atIn (tok (fun _ => 1) 3 .poison) (tok fun _ => 2)
theorem witness_poison : IsInstruction .nop ∧ Ready .nop poisoned ∧ NoBreak poisoned ∧ groupsAligned .nop poisoned ∧
    noImport .nop poisoned ∧ ∃ h ∈ (Ctx.of poisoned).trig.a.toList ++ (Ctx.of poisoned).trig.b.toList, h.ch ≠ 6 ∧
      ∃ t ∈ ((Ctx.of poisoned).queue h.ch).take ((Ctx.of poisoned).need .nop h.ch), t.kind = .poison :=
  ⟨by decide, by decide, by unfold NoBreak; decide, by unfold groupsAligned; decide,
    fun _ h => (by obtain ⟨⟨m, h⟩, _⟩ := h; rw [show streamOf .nop = none by decide] at h; cases h), ⟨0, 0, true⟩, by decide, by decide, tok (fun _ => 1) 3 .poison,
    by decide, by decide⟩
/-- A group of two tokens on I0 and I1, the second of I0 POISON; and slot breakpoint 0 on slot 0 of the element. -/
def grouped : State := let s := jets 1
  let e := s.elem 0
  let s := s.setElem 0 { e with planeA := { e.planeA with slots := e.planeA.slots.set 0 (0x00000497#32 ++ 0#32) } }
  (s.setPort (portKey 0 0 0) { Port.empty with queue := [tok fun _ => 1, tok (fun _ => 1) 3 .poison], win := 2, known := 2 }).setPort
    (portKey 0 0 1) { Port.empty with queue := [tok fun _ => 1, tok fun _ => 1], win := 2, known := 2 }
def gAdd : Instr := .fadd Vz (.i 0) (.i 1) none .f32 .rn
theorem witness_poison_group : IsInstruction gAdd ∧ Ready gAdd grouped ∧ NoBreak grouped ∧ groupsAligned gAdd grouped ∧
    noImport gAdd grouped ∧ (∃ h ∈ (Ctx.of grouped).trig.a.toList ++ (Ctx.of grouped).trig.b.toList, h.ch ≠ 6 ∧
      ∃ t ∈ ((Ctx.of grouped).queue h.ch).take ((Ctx.of grouped).need gAdd h.ch), t.kind = .poison) :=
  ⟨by decide, by decide, by unfold NoBreak; decide, by unfold groupsAligned; decide,
    fun _ h => (by obtain ⟨⟨m, h⟩, _⟩ := h; rw [show streamOf gAdd = none by decide] at h; cases h), ⟨0, 0, true⟩, by decide, by decide,
    tok (fun _ => 1) 3 .poison, by decide, by decide⟩
def broken : State := at0.setDie 0 { at0.die 0 with
  sbpa := (at0.die 0).sbpa.set 0 (BitVec.ofNat 64 (2 ^ 63 + (elidOf 0).toNat / 512 * 512)) }
theorem witness_breakpoint : IsInstruction .nop ∧ Ready .nop broken ∧ (broken.elem broken.cur.elem).skipBrk = false ∧
    ∃ n < 8, BreakpointMatches broken n := ⟨by decide, by decide, by decide, 0, by decide, by unfold BreakpointMatches; decide⟩
def otherRec : LogRec := ⟨0, 1, 0, 0, 0xFF, 0, 0xB0, .int32, Oct.rep 0, 0⟩
def mismatching : State := withRegion at0 { region0 with replay := [otherRec] }
theorem witness_mismatch : let i : Instr := .ld 0 0 A0 0 .raw
    IsInstruction i ∧ Ready i mismatching ∧ NoBreak mismatching ∧ groupsAligned i mismatching ∧ noImport i mismatching ∧
      (Ctx.of mismatching).poison i = none ∧ Mismatched i mismatching :=
  ⟨by decide, by decide, by unfold NoBreak; decide, by unfold groupsAligned; decide,
    fun st h => (by obtain ⟨⟨m, h⟩, q⟩ := h; cases h; exact absurd q (by decide)), by decide,
    0, 0, otherRec, by decide, by decide, .inl (by decide)⟩
theorem witness_noRoute : IsInstruction (.jarm .zr 511) ∧ Ready (.jarm .zr 511) inRegion ∧ NoBreak inRegion ∧
    groupsAligned (.jarm .zr 511) inRegion ∧ (Ctx.of inRegion).poison (.jarm .zr 511) = none ∧ bit (Ctx.of inRegion).act 0 = true ∧
    region0.routes.get? (((lanesIn inRegion .zr).get 0).toNat % 128) = none :=
  ⟨by decide, by decide, by unfold NoBreak; decide, by unfold groupsAligned; decide, by decide, by decide, by decide⟩
/-- The same element with plane S active and choosing. -/
def atS : State := { at0.setElem 0 { at0.elem 0 with inS := true, planeS := (at0.elem 0).planeA } with cur := ⟨0, .s, 15⟩ }
theorem witness_FiringsAreCounted : at0.cur.slot < 16 ∧ at0.cur.plane = .work ∧ atS.cur.slot < 16 ∧ atS.cur.plane = .s := by decide
theorem witness_FiringsDequeue : ownDequeues .nop = false ∧
    let s := atIn (tok fun _ => 1) (tok fun _ => 2)
    (Ctx.of s).trig.a = some ⟨0, 0, true⟩ ∧ (Ctx.of s).trig.b = some ⟨1, 0, true⟩ := by decide
theorem witness_OneCycle : let r : Res := { regs := [(0, 0xFF, Oct.rep 1, .int32), (15, 0x01, Oct.rep 2, .fp32)] }
    r.lat ≤ 1 ∧ (r.regs.Pairwise fun a b => a.1 ≠ b.1) ∧ (∀ q ∈ r.regs, inPlane at0.cur.plane q.1) :=
  ⟨by decide, by decide, by intro q h; rw [show at0.cur.plane = .work by decide]; simp at h; rcases h with rfl | rfl <;> simp [inPlane]⟩
def flying : Inflight :=
  { left := 0, plane := .s, slot := 0, regs := [(3, 0xFF, Oct.rep 1, .fp32)], pred := none, outs := [], flags := 1, raiser := true
    stamps := Oct.rep 0, fires := 0, round := 0 }
/-- An element with a firing about to complete, and its trap on that flag enabled. -/
def completing : State := at0.setElem 0 { at0.elem 0 with inflight := [flying], estat := 0xFF }
theorem witness_LongFirings : 1 < ({ lat := 4 } : Res).lat ∧ (completing.elem 0).inflight[0]? = some flying ∧ flying.left = 0 ∧
    (flying.regs.Pairwise fun a b => a.1 ≠ b.1) ∧ (∀ q ∈ flying.regs, inPlane flying.plane q.1) ∧ flying.raiser = true ∧
    trapped (completing.elem 0).estat flying.flags = true :=
  ⟨by decide, by decide, by decide, by decide, by intro q h; simp [flying] at h; subst h; simp [inPlane, flying], by decide, by decide⟩
def branch0 : Branch :=
  { prod := 0, out := 5, back := false, stampS := some 2, imp := 0, accept := 0x7F, divert := none, gateway := false }
/-- Output O5 feeds two inputs of the next element. -/
def feeding : State := { (at0.setPort (portKey 1 0 0) { Port.empty with branch := some branch0 }).setPort (portKey 1 0 5)
  { Port.empty with branch := some { branch0 with stampS := none } } with outs := [(portKey 0 0 5, [portKey 1 0 0, portKey 1 0 5])] }
theorem witness_TokensLeave : (tok fun _ => 1).kind ≠ .cfg ∧ (∀ f ∈ (feeding.elem feeding.cur.elem).inflight, f.outs = []) ∧
    (feeding.outPorts (portKey (Ctx.of feeding).e (vcOf (Ctx.of feeding).pl) 5)).Nodup ∧
    portKey 1 0 0 ∈ feeding.outPorts (portKey (Ctx.of feeding).e (vcOf (Ctx.of feeding).pl) 5) := by decide
theorem witness_FiringFrame : at0.mem.wf = true ∧ (at0.die (dieOf at0.cur.elem)).trctl.toNat / 2 ^ 31 = 0 := by decide

/-! ### Firings with effects beyond their result -/

theorem witness_Issues : Eligible (.ld 7 0x81 A0 31 .raw) inRegion ∧ Eligible (.acas 0 0 A0 14 none) inRegion ∧ NoReplay inRegion :=
  ⟨by decide, by decide, noReplay_inRegion⟩
/-- An operation with lane 7 granted at a byte of tile memory. -/
def op0 (i : Instr) (x : LaneSt) : MemOp :=
  { instr := i, elem := 0, plane := .work, slot := 0, stream := 0, ord := 0, scope := .tile, skipBefore := none, gates := []
    a := Oct.rep 0, d := Oct.rep 5, d2 := Oct.rep 0, part := 0x80, ftz := false, reply := some 0, tag := .int32
    lanes := (Oct.rep .off).set 7 x, vals := Oct.rep 0, poison := none, gone := 0, logged := 0, fires := 0, round := 0, firedIn := 0, asked := []
    gated := true, performed := false, left := 0, due := 0, seq := 0, isWatch := false, watchPu := none, srv := none, extra := 0, far := none
    back := none, owed := false }
def withOp (i : Instr) (x : LaneSt) (s : State := inRegion) : State := { s with ops := [(1, op0 i x)] }
/-- The tile's UNDO area is smaller than a record. -/
def noUndo (s : State) : State := s.setTile 0 { s.tile 0 with undo := (0, 64) }
theorem witness_Nodes : ∀ i ∈ ([.ld 0 0 A0 0 .raw, .ldb 0 0 A0 0 .raw, .lds 0 0 A0 0 .raw, .st 0 0 A0 A4 .byte, .st 0 0 A0 A4 .word,
    .stb 0 0 A0 A4, .sts 0 0 A0 A4 .half, .aadd 0 0 A0 A4 none, .atas 0 0 A0 A4 (some 0)] : List Instr),
    let s := withOp i (.granted 4096 0)
    s.ops.get? 1 = some (op0 i (.granted 4096 0)) ∧ (op0 i (.granted 4096 0)).lanes.get 7 = .granted 4096 0 ∧ s.spm.wf = true ∧
      4096 % Instr.bytes i = 0 ∧ (op0 i (.granted 4096 0)).reply.isSome = true ∧ s.undoFull (some 10) 0 4096 = false ∧
      (noUndo s).undoFull (some 10) 0 4096 = true ∧ (noUndo s).ops = s.ops ∧ (noUndo s).spm.wf = true ∧
      (s.elem 0).region = some 10 ∧ ((noUndo s).elem 0).region = some 10 := by decide
theorem inBeat_op0 (i : Instr) (j x : Nat) : InBeat (op0 i (.granted 4096 0)) 4096 j x ↔ j = 7 ∧ x = 4096 := by
  constructor
  · rintro ⟨h, q, -⟩
    obtain h | h | h | h | h | h | h | h : j = 0 ∨ j = 1 ∨ j = 2 ∨ j = 3 ∨ j = 4 ∨ j = 5 ∨ j = 6 ∨ j = 7 := by omega
    all_goals
      subst h
      cases q
      try exact ⟨rfl, rfl⟩
  · rintro ⟨rfl, rfl⟩
    exact ⟨by decide, rfl, rfl⟩
theorem witness_Nodes_kinds : Instr.kind (.ld 0 0 A0 0 .raw) = .load ∧ Instr.kind (.stb 0 0 A0 A4) = .store ∧
    Instr.kind (.aadd 0 0 A0 A4 none) = .atomic := by decide
theorem witness_StartsCommand : (∀ i ∈ ([.copy 7 0xFF 15 31, .redc 7 0 15 31 .f16] : List Instr), Eligible i inRegion) ∧
    NoReplay inRegion ∧ (inRegion.elem inRegion.cur.elem).free = 0 :: [1, 2, 3, 4, 5, 6, 7] ∧ inRegion.cur.elem * 8 + 0 < 2 ^ 20 ∧
    inRegion.descOk 0 (.copy 7 0xFF 15 0) ((Oct.rep 0).set 2 64) = true ∧ inRegion.descOk 0 (.copy 7 0xFF 15 31) (Oct.rep 1) = false :=
  ⟨by decide, noReplay_inRegion, by decide, by decide, by decide, by decide⟩
/-- A command in entry 2 of element 0. -/
def withCmd (k : Cmd) (s : State := inRegion) : State :=
  s.setElem 0 { s.elem 0 with cmds := (s.elem 0).cmds.set 2 (some k), issuedOrder := [2], free := [0, 1, 3, 4, 5, 6, 7] }
theorem witness_Checks : ∀ st ∈ [CmdSt.waiting, .running, .done, .cancelled, .faulted],
    let k : Cmd := { freshCmd (.copy 0 0 0 0) with st := st }
    let s := withCmd k
    Eligible (.echk 15 7 (some .set)) s ∧ Eligible (.ecan 15) s ∧ (s.elem 0).issuedOrder = [] ++ 2 :: [] ∧
      (s.elem 0).cmds.get 2 = some k ∧ (k.desc.get 5).toNat % 2 ^ 16 = ((reg s 15).get 5).toNat % 2 ^ 16 := by decide
theorem witness_Checks_none : Eligible (.echk 15 7 (some .set)) inRegion ∧ Eligible (.ecan 15) inRegion ∧
    (inRegion.elem 0).issuedOrder = [] := by decide
/-- V0 holds label 3, which has a route, in its even lanes. -/
def routed : State := withRegion (withV at0 (fun l => if l % 2 = 0 then 3 else 4) (fun _ => 9) (fun _ => 1)) region0
theorem witness_Tasks : Eligible (.spawn A0 (.v 1) .zr 0) routed ∧ Eligible (.spawn A0 (.v 1) (.v 2) 511) routed ∧
    Eligible (.tdone 511) routed ∧ Eligible (.jarm A0 511) routed ∧ bit (Ctx.of routed).act 0 = true := by decide
def watching (a l : W) : State := withRegion (withV at0 (fun _ => a) (fun _ => 0xFF) (fun _ => l)) region0
theorem witness_Watches : (∀ s ∈ [watching 64 3, watching 0x80000000 3, watching 64 4], Eligible (.watch A0 (.v 1) (.v 2) none) s ∧
      Eligible (.unwatch A0 (.v 2) (some ⟨.set, 7⟩)) s) ∧
    ¬(2 ^ 31 ≤ ((lanesIn (watching 64 3) A0).get 0).toNat ∨ (routesOf (watching 64 3)).get? (3 % 128) = none) ∧
    2 ^ 31 ≤ ((lanesIn (watching 0x80000000 3) A0).get 0).toNat ∧ (routesOf (watching 64 4)).get? (4 % 128) = none ∧
    Eligible (.pginc 3 A0 0x3FFF) at0 ∧ Eligible (.pgset 0 A0 0) at0 ∧ Eligible (.pgset 3 A0 1) at0 := by decide
/-- Two sparse heads that share a coordinate, and one without coordinates. -/
def sparse (m n : Mask) : State := atIn (tok (fun l => if l < 4 then BitVec.ofNat 32 (2 * l) else 7) m) (tok (fun l => if l < 4 then BitVec.ofNat 32 (3 * l) else 9) n)
theorem witness_Sparse : ∀ m ∈ ([0, 0x11, 0xFF] : List Mask), ∀ n ∈ ([0, 0x33, 0xFF] : List Mask),
    Eligible (.isect 0 0 1) (sparse m n) ∧ Eligible (.union 5 0 1) (sparse m n) ∧
      ((Ctx.of (sparse m n)).queue 0).length = 1 ∧ ((Ctx.of (sparse m n)).queue 1).length = 1 := by decide
theorem witness_System : Eligible (.trap 0x3FFF) inRegion ∧ Eligible (.brk 0) inRegion ∧ (inRegion.elem 0).region.isSome = true ∧
    inRegion.runOf 0 ∉ inRegion.brkRuns ∧ Eligible (.brk 0) { inRegion with brkRuns := [7] } ∧
    ({ inRegion with brkRuns := [7] } : State).runOf 0 ∈ ([7] : List W) ∧ Eligible .cutrq inRegion ∧ region0.cut = none ∧
    region0.cutAsked = none ∧ region0.gangId = none ∧ Eligible (.evnt 0xFF true) inRegion ∧ Eligible (.evnt 0 false) inRegion ∧
    Eligible (.pwrh .normal) inRegion := by decide

set_option maxRecDepth 20000

/-! ### Steps of elements and channels -/

def fl0 (t : Tok) : Flight := { port := portKey 0 0 0, tok := t, left := 0, due := 0, ack := none }
/-- A token at the entry of I0, whose port is x. -/
def entering (x : Port) : State := { inRegion.setPort (portKey 0 0 0) x with flights := [(4, fl0 (tok fun _ => 1))] }
def full4 : List Tok := [tok fun _ => 1, tok fun _ => 2, tok fun _ => 3, tok fun _ => 4]
theorem witness_arrive : ∀ x ∈ [Port.empty, { Port.empty with queue := full4 }, { Port.empty with queue := full4, ring := some (10, 0) },
      { Port.empty with spilled := [0], ring := some (10, 0) }],
    (entering x).flights.get? 4 = some (fl0 (tok fun _ => 1)) ∧ (entering x).atEntry 4 (fl0 (tok fun _ => 1)) = true ∧
      (entering x).port (portKey 0 0 0) = x ∧ x.branch = none := by decide
/-- The channel accepts no INT32; it diverts to O5, which has room, or not at all. -/
def refusing (d : Option Nat) : State :=
  let s := entering { Port.empty with branch := some { branch0 with accept := 0xDF, divert := d } }
  { s.setPort (portKey 1 0 0) { Port.empty with branch := some branch0 } with outs := [(portKey 0 0 5, [portKey 1 0 0])] }
theorem witness_refused : ∀ d ∈ [some 5, none], let s := refusing d
    s.flights.get? 4 = some (fl0 (tok fun _ => 1)) ∧ s.atEntry 4 (fl0 (tok fun _ => 1)) = true ∧
      (s.port (portKey 0 0 0)).branch = some { branch0 with accept := 0xDF, divert := d } ∧ (tok fun _ => 1).kind = .data ∧
      (0xDF : Mask).getLsbD (E.tag .int32) = false ∧ s.outFree 0 0 5 = true ∧ (s.elem 0).stopped = none := by decide
theorem witness_refill : let s := inRegion.setPort (portKey 0 0 7) { Port.empty with ring := some (10, 0), spilled := [1, 1] }
    (s.port (portKey 0 0 7)).ring = some (10, 0) ∧ (s.port (portKey 0 0 7)).spilled = 1 :: [1] ∧
      (s.port (portKey 0 0 7)).queue.length < 4 ∧ (s.blockAt 10 0 0).2 = false ∧ (s.blockAt 10 0 32).2 = false := by decide
theorem witness_credit : let s : State := { inRegion with credits := [(6, ⟨portKey 0 0 0, 0, 0⟩)] }
    s.credits.get? 6 = some ⟨portKey 0 0 0, 0, 0⟩ ∧ 0 ≤ s.tick ∧ (s.port (portKey 0 0 0)).branch = none := by decide
theorem witness_cfg : let s := inRegion.setPort (portKey 0 1 7) { Port.empty with queue := [tok (fun _ => 1) 3 .cfg] }
    (s.port (portKey 0 1 7)).queue = tok (fun _ => 1) 3 .cfg :: [] ∧ (tok (fun _ => 1) 3 .cfg).kind = .cfg := by decide
def pkt0 : Packet := { label := 3, handler := 1, w0 := 9, w1 := 0, two := false }
theorem witness_packet : let s : State := { inRegion with packets := [(6, ⟨0, pkt0, 0, 1, 0⟩)] }
    s.packets.get? 6 = some ⟨0, pkt0, 0, 1, 0⟩ ∧ (s.elem 0).tport.length < 8 ∧
      (∀ g ∈ s.packets, g.1 < 6 → ¬(g.2.dest = 0 ∧ g.2.src = 1)) := by decide
theorem witness_join : inRegion.region? 10 = some region0 ∧ 0 < region0.w ∧ 0 < region0.h := by decide

/-! ### Memory steps -/

def granted : LaneSt → Bool | .granted _ _ => true | _ => false
/-- Lane 7 of the instruction stands granted at PA 0x2000_0040 under a leaf, and its home is ready for it. -/
def atHome (i : Instr) (leaf : BitVec 64) : Bool :=
  let x : LaneSt := .granted 0x20000040 leaf
  let s := withOp i x
  decide (s.ops.get? 1 = some (op0 i x)) && decide ((op0 i x).lanes.get 7 = x) &&
    ((List.range 7).all fun j => !granted ((op0 i x).lanes.get j)) &&
    ((List.range (Instr.bytes i)).all fun k => decide (s.place ((op0 i x).acc s) leaf ((op0 i x).addr 7 + k) (0x20000040 + k) = .home)) &&
    !s.homeFull (op0 i x) leaf ((op0 i x).addr 7) 0x20000040 && s.fc.isEmpty && s.visitor.isEmpty &&
    ((List.range 8).all fun d => (s.die d).trctl == 0) && s.mem.wf && (0x20000040 % Instr.bytes i == 0) && (s.elem 0).region.isSome &&
    (s.homeBytes (some 10) 0x20000040 4 == s.mem.read 0x20000040 4)
theorem witness_perform : (([.ld 0 0 A0 0 .raw, .ldb 0 0 A0 0 .raw, .lds 0 0 A0 0 .raw, .st 0 0 A0 A4 .byte, .stb 0 0 A0 A4,
    .aadd 0 0 A0 A4 none] : List Instr).all fun i => atHome i 0x200000CF && atHome i 0x200000EF) = true := by decide +kernel
theorem witness_homeBytes : 0x2000003C % 64 + 4 ≤ 64 ∧ (inRegion.tile (inRegion.homeTile 0x2000003C)).rnd = [] := by decide +kernel
def replyElem (s : State) : State := s.setElem 0 { s.elem 0 with reply := (s.elem 0).reply.set 0 (Oct.rep 0x80000000) }
def op1 : MemOp := { op0 (.ld 0 0 A0 0 .raw) .done with gated := true, performed := true }
/-- A reply for I0, whose window has room (w = 0) or none. -/
def replying (w : Nat) (po : Option Nat) : State :=
  { (replyElem inRegion).setPort (portKey 0 0 0) { Port.empty with replyFed := true, win := w, known := w } with
    ops := [(1, { op1 with poison := po })] }
theorem witness_reply : ∀ po ∈ [none, some 64], (∀ w ∈ [0, 4], let o : MemOp := { op1 with poison := po }
    (replying w po).ops.get? 1 = some o ∧ o.reply = some 0 ∧ o.gated = true ∧ o.lanesOver = true ∧
      (replying w po).replyBehind 1 o = false ∧ (replying w po).replyPort o.elem o.plane 0 = some (portKey 0 0 0)) ∧
    (replying 0 po).portSpace ((replying 0 po).replyTile { op1 with poison := po }) (portKey 0 0 0) = true ∧
    (replying 4 po).portSpace ((replying 4 po).replyTile { op1 with poison := po }) (portKey 0 0 0) = false := by decide
theorem witness_reissue : let s := withOp (.ldf 0 0 A0 0 .raw) (.returned 0)
    s.ops.get? 1 = some (op0 (.ldf 0 0 A0 0 .raw) (.returned 0)) ∧ (op0 (.ldf 0 0 A0 0 .raw) (.returned 0)).lanes.get 7 = .returned 0 := by
  decide
def sNode : MNode := { MNode.off with mode := .streaming, owner := 0, reply := 0, count := (2, 1, 1), stride1 := 32 }
/-- Node 3 streams to I0. -/
def streaming (n : MNode) : State :=
  let s := (replyElem inRegion).setPort (portKey 0 0 0) { Port.empty with nodeFed := some 3 }
  s.setTile 0 { s.tile 0 with nodes := (s.tile 0).nodes.set 3 n }
theorem witness_streamStart : ((streaming sNode).tile 0).started = true ∧ (((streaming sNode).tile 0).nodes.get 3).mode = .streaming ∧
    (((streaming sNode).tile 0).nodes.get 3).started = false := by decide
theorem witness_streamSend : ∀ n ∈ [{ sNode with markDue := true }, { sNode with started := true, buf := [tok fun _ => 1] },
      { sNode with started := true, pos := (0, 0, 2) }, { sNode with started := true, pos := (2, 0, 0) }],
    ((streaming n).tile 0).region = some 10 ∧ (streaming n).region? 10 = some region0 ∧
      (streaming n).replyPort (0 * 32 + (((streaming n).tile 0).nodes.get 3).owner) .work (((streaming n).tile 0).nodes.get 3).reply =
        some (portKey 0 0 0) ∧ (streaming n).portSpace 0 (portKey 0 0 0) = true ∧ n.stopCut = false ∧ n.done = false := by decide
theorem witness_streamEnd : ∃ p ∈ [(0, 0, 2), (2, 0, 0), (0, 2, 0)], ({ sNode with started := true, pos := p } : MNode).blocks ≤
    ({ sNode with started := true, pos := p } : MNode).index := by decide

/-! ### Translation -/

/-- A lane of an operation at VA 0, 32 bits of address 0. -/
def looking (t : List TlbEnt) : State :=
  let s := withOp (.ld 0 0 A0 0 .raw) .xlate
  let k := s.tlbTile 0 3 0
  s.setTile k { s.tile k with tlb := t }
theorem witness_lookup : (([[ent0], []] : List (List TlbEnt)).all fun t =>
    let s := looking t
    decide (s.ops.get? 1 = some (op0 (.ld 0 0 A0 0 .raw) .xlate)) && decide ((op0 (.ld 0 0 A0 0 .raw) .xlate).lanes.get 7 = .xlate) &&
      decide (s.regionOf 0 = some (10, region0)) &&
      decide (s.tlbFind 0 3 0 .load = if t.isEmpty then none else some ⟨0x200000CF, true⟩)) = true := by decide +kernel
def q0 (va : Nat) : Req := ⟨.lane 1 7, .store, va, 0, some 10⟩
def pw0 : PWalk := { die := 0, tile := 0, asid := 3, va := 0, acc := .store, waiters := [q0 0], fault := none, recorded := false, elid := 0, region := some 10 }
/-- A walk for VA 0; while the table is in transit it waits. -/
theorem witness_pageWalk : let s : State := { inRegion with pwalks := [(30, pw0)] }
    let u := s.setDie 7 { s.die 7 with transit := [⟨4, 0, 0, 0x10000⟩] }
    s.pwalks.get? 30 = some pw0 ∧ s.inTransit 0 3 0 = false ∧ (pw0.waiters.filter fun q => (s.fails 0 3 q).isSome) = [] ∧
      pw0.waiters = [q0 0] ∧ s.walkTables 0 3 0 = .ok ⟨0x200000CF, true⟩ 0x10000 ∧ accessFault 0x200000CF .store = none ∧
      s.mem.wf = true ∧ u.pwalks.get? 30 = some pw0 ∧ u.inTransit 0 3 0 = true := by decide +kernel
def pwBad : PWalk := { pw0 with va := 0x20000000, waiters := [q0 0x20000000] }
/-- A walk for a VA that the mid table does not map. -/
theorem witness_pageWalk_fault : let s : State := { inRegion with pwalks := [(31, pwBad)] }
    (s.pwalks.get? 31 = some pwBad ∧ pwBad.fault = none ∧ s.inTransit 0 3 0x20000000 = false ∧
      (pwBad.waiters.filter fun q => (s.fails 0 3 q).isSome).head? = some (q0 0x20000000) ∧
      s.fails 0 3 (q0 0x20000000) = some (.notvalid, 1) ∧ (∀ x ∈ s.pwalks, s.pwalks.get? x.1 = some x.2) ∧
      (pwBad.waiters.filter fun q => (s.fails 0 3 q).isNone) = []) ∧
    ∀ j y, s.pwalks.get? j = some y → j ≠ 31 → y.fault = none := by
  refine ⟨by decide +kernel, fun j y h n => ?_⟩
  simp [SMap.get?, Ne.symm n] at h
def faulted (log : W) (a : Access) (rg : Option Nat) : State :=
  let s : State := { inRegion with pwalks := [(30, { pw0 with fault := some (.notvalid, 1, 20), acc := a, region := rg })] }
  s.setDie 0 { s.die 0 with xlateQ := [30], fqctl := log }
theorem witness_fault : (([(4, Access.store, some 10), (16, .fetch, some 10), (4, .load, none), (3, .load, none), (17, .load, none)] :
    List (W × Access × Option Nat)).all fun x =>
    let s := faulted x.1 x.2.1 x.2.2
    decide ((s.die 0).xlateQ = [30]) && s.mem.wf &&
    decide (s.pwalks.get? 30 = some { pw0 with fault := some (.notvalid, 1, 20), acc := x.2.1, region := x.2.2 }) &&
    decide ((s.die 0).fqtail - (s.die 0).fqhead = 0) && decide (s.region? 10 = some region0)) = true := by decide +kernel
theorem witness_policies : region0.cons.flags.testBit 0 = false ∧ ({ region0 with cons := { cons0 with flags := 1 } } : Region).cons.flags.testBit 0 = true := by
  decide
def opRec1 : OpRec := ⟨0, 0, 0x80, 0, Oct.rep 0, Oct.rep 0, 0, 0, none, .work, 0, 0, none, some (op0 (.ldfe 0 0 A0 0 .raw) .wait)⟩
def saved1 : ElemSave :=
  { wr := WRegs.zero, k := Quad.rep (Oct.rep 0), g := Quad.rep 0, streams := Oct.rep Stream.reset, estat := 0, ended := false, stopped := false
    toks := [], pkts := [], ops := [opRec1] }
def pwHeld : PWalk := { pw0 with fault := some (.notvalid, 1, 20), recorded := true }
def held (ph : WPhase) : State :=
  { withRegion at0 region0 { walk0 with phase := ph } with
    pwalks := [(30, pwHeld)] }
theorem witness_fresume : (held .fetch).faultOf 0 20 = some (30, pwHeld) ∧
    (held .fetch).region? 10 = some region0 ∧ (held .fetch).walks.get? region0.walk = some walk0 ∧ walk0.phase ≠ .finished ∧
    walk0.phase ≠ .writing ∧ (∀ q ∈ (held .fetch).regions, q.2.voidTag ≠ some 20) ∧
    (pw0.waiters.all fun x => match x.who with | .shunter _ => false | _ => true) = true := by decide
/-- A rolled-back region waits for tag 20; it has an operation to issue again. -/
def rolled : Region := { region0 with voidTag := some 20, snap := some ⟨0, 0, [(0, saved1)], [], [], [], 0, [], []⟩ }
theorem witness_replay : let s : State := { withRegion at0 rolled with pwalks := [(30, pwHeld)] }
    s.regions = [(10, rolled)] ∧ rolled.voidTag = some 20 ∧ saved1.ops = [opRec1] ∧ opRec1.entry = none ∧ opRec1.cmd = none ∧
      opRec1.op = some (op0 (.ldfe 0 0 A0 0 .raw) .wait) ∧ rolled.replay = [] ∧
      s.faultOf 0 20 = some (30, pwHeld) ∧ pwHeld.waiters = [q0 0] ∧ (q0 0).who = .lane 1 7 ∧
      1 < s.nextId := by decide
/-- Die 7 with a change of its visitor ways and a shootdown under way. -/
def busy7 : State := at0.setDie 7 { at0.die 7 with visBusy := true, sdctl := 0x80000000, sdWait := [(1, 7)] }
theorem witness_registers : (at0.die 7).visBusy = false ∧ (busy7.die 7).visBusy = true ∧ (at0.die 7).sdctl.getLsbD 31 = false ∧
    (busy7.die 7).sdctl.getLsbD 31 = true ∧ ((busy7.die 7).sdWait.all fun x => !busy7.stillHolds x) = true := by decide
/-- VA 0x40 × 65536 of ASID 3 is a 64 KiB page of die 0 in LPDDR; the die's migrator may hold one frame. -/
def migrating : State :=
  let m := Mem.write (Mem.write table 0x10000 [1, 0, 2, 0]) 0x20200 [0xCF, 0, 0x50, 0]
  let s : State := { inRegion with mem := m }
  s.setDie 0 { s.die 0 with migEn := true, migquota := 1 }
theorem witness_migration : let s := migrating
    s.walkTables 0 3 (0x40 * 65536) = .ok ⟨0x5000CF, false⟩ 0x20200 ∧ lkind 0x5000CF = 0 ∧ lhome 0x5000CF = 0 ∧
      s.movablePage 0x5000CF = true ∧ populated (2 ^ 25 * 65536) = true ∧ isNear (2 ^ 25 * 65536) = true ∧
      isNear (pfn 0x5000CF * 65536) = false ∧ paDie (2 ^ 25 * 65536) = Config.pkg * 8 + 0 ∧
      (s.die 0).migUsed.length < (s.die 0).migquota.toNat ∧ (s.die 0).holds (2 ^ 25) = false ∧ (s.die 0).migEn = true ∧
      (s.die 0).transit.length < 16 ∧ (s.die 0).transit = [] ∧ s.wantedPages 0 = [] ∧ s.visitor = [] ∧ s.mem.wf = true ∧
      0x20200 + 8 ≤ 2 ^ 25 * 65536 ∧ s.lanesInto (pfn 0x5000CF) = [] ∧
      ({ s with ops := [(1, op0 (.ld 0 0 A0 0 .raw) (.port 0x500000 0x5000CF))] } : State).lanesInto (pfn 0x5000CF) ≠ [] := by
  decide +kernel

/-! ### Commands -/

/-- Tile 0 with bank 0 as scratchpad of a random node, and the region with its four edges and rings of two banks. -/
def ring1 : Ring := { ring0 with bank := 1 }
def region1 : Region := { region0 with cons := { cons0 with edges := 15 }, rings := [ring0, ring1] }
def tile1 (t : Tile) : Tile :=
  { t with cycle := true, banks := t.banks.set 0 { Bank.none with role := .scratch }, nodes := t.nodes.set 0 { MNode.off with mode := .random } }
def works (r : Region := region1) : State :=
  let s := replyElem (withRegion at0 r)
  s.setTile 0 (tile1 (s.tile 0))
def desc (ls : List W) : Oct W := Oct.of fun l => ls.getD l 0
def copy0 : Cmd := { freshCmd (.copy 0 0 0 0) with desc := desc [0x80000000, 0x80000100, 64] }
/-- A command c in entry 2 of element 0 (its id is 2) that runs at its unit u. -/
def runs (c : Cmd) (u : Nat) (r : Region := region1) : State := { withCmd { c with st := .running } (works r) with unitRun := [(u, [2])] }

theorem witness_start : let s := withCmd copy0 (works region1)
    s.cmd? 2 = some copy0 ∧ copy0.st = .waiting ∧ copy0.reached = false ∧ copy0.owed = false ∧ copy0.endStep = false ∧ copy0.gates = [] ∧
      s.openGates 0 copy0.gates = some s ∧ s.unitCause 2 copy0 = .none ∧ s.unitKey 2 copy0 = some 0 ∧
      (s.unitRun.getD 0 []).length < unitCap 0 ∧ s.unitWait.getD 0 [] = [] := by decide +kernel
/-- A store of stream 3 lies in a bank, and the round buffer of its home has no room for it. -/
def crowded (g : Gate) : State :=
  let s := withCmd { copy0 with gates := [g] } (works region1)
  let t := s.homeTile 0x20000000
  { s.setTile t { s.tile t with rnd := List.replicate 4096 ⟨1, 99, 0, []⟩ } with
    fc := [(0, ⟨0, 0x20000000, true, [0], some 0, [3], 0⟩)] }
theorem witness_start_crowded : let g : Gate := ⟨0, 3, 0, .die, none⟩
    (crowded g).cmd? 2 = some { copy0 with gates := [g] } ∧ (crowded g).gateDone g = true ∧ ((crowded g).openGates 0 [g]).isNone = true := by
  decide +kernel
/-- A STRM whose tender runs two already, and one that names no island. -/
def strm0 : Cmd := { freshCmd (.strm 0 0 0 0 false) with desc := desc [0, 0, 64, 0xFFFF0000, 0xFFFFFFFF] }
theorem witness_start_full : let s : State := { withCmd strm0 (works region1) with unitRun := [(2 ^ 20, [9, 10])] }
    s.cmd? 2 = some strm0 ∧ strm0.st = .waiting ∧ strm0.reached = false ∧ strm0.owed = false ∧ strm0.endStep = false ∧
      strm0.gates = [] ∧ s.openGates 0 [] = some s ∧ s.unitCause 2 strm0 = .none ∧
      s.unitKey 2 strm0 = some (2 ^ 20) ∧ unitCap (2 ^ 20) ≤ (s.unitRun.getD (2 ^ 20) []).length ∧
      (withCmd strm0 (works region0)).unitCause 2 strm0 = .nounit := by decide +kernel
theorem witness_accept : let s : State := { withCmd strm0 (works region1) with unitRun := [(2 ^ 20, [9])], unitWait := [(2 ^ 20, [2])] }
    s.unitWait.getD (2 ^ 20) [] = 2 :: [] ∧ s.cmd? 2 = some strm0 ∧ (s.unitRun.getD (2 ^ 20) []).length < unitCap (2 ^ 20) := by decide +kernel
def ringi0 : Cmd := { freshCmd (.ringi 0 0 0) with desc := desc [1, 32, 64], st := .running }
theorem witness_ringi : let s := runs ringi0 0
    s.cmd? 2 = some ringi0 ∧ s.cmdRegion 2 = some 10 ∧ ringi0.st = .running ∧ s.atWork 2 ringi0 = true ∧ ringi0.cause = .none ∧
      ringi0.left = 0 ∧ ringi0.out = 0 ∧ 1 = ringi0.lane 0 % 2 ^ 16 ∧ s.ring? 10 1 = some ring1 := by decide +kernel
def copyR : Cmd := { copy0 with st := .running, issPos := 32, ways := [0], src := { Pieces.empty with granted := [0] } }
theorem witness_copy_read : let s := runs copyR 0
    s.cmd? 2 = some copyR ∧ s.cmdRegion 2 = some 10 ∧ s.atWork 2 copyR = true ∧ copyR.cause = .none ∧ isSp (copyR.lane 0) = true ∧
      copyR.overlaps = false ∧ copyR.src = { Pieces.empty with granted := [0] } ∧ copyR.wr = .empty ∧ copyR.staged = [] ∧
      copyR.srcPos < copyR.issPos ∧ copyR.srcPos < copyR.lane 2 ∧ copyR.lane 2 < 2 ^ 31 ∧
      offAddr (copyR.lane 0) copyR.srcPos 1 = some 0x80000000 ∧ 32 = min (32 - 0x80000000 % 32) (copyR.lane 2 - copyR.srcPos) ∧
      offAddr (copyR.lane 1) copyR.srcPos 32 = some 0x80000100 ∧ s.engSp 2 0x80000000 32 .load = .inl 0 := by
  decide +kernel
def staged0 : Staged := ⟨2, 0, 0x80000100, List.replicate 32 7, false, none⟩
def copyW : Cmd := { copy0 with st := .running, staged := [staged0], srcPos := 64, issPos := 64, wr := { Pieces.empty with granted := [0] } }
/-- Bytes are written; and bytes that came less than two cycles ago wait. -/
theorem witness_copy_write : let s := runs copyW 0
    s.cmd? 2 = some copyW ∧ s.cmdRegion 2 = some 10 ∧ s.atWork 2 copyW = true ∧ copyW.src = .empty ∧ copyW.idx = .empty ∧
      copyW.issPos = copyW.srcPos ∧ copyW.srcPos = copyW.lane 2 ∧ s.spm.wf = true ∧ copyW.staged = [staged0] ∧ copyW.wr.granted = [0] ∧
      (portPieces staged0.dst staged0.bytes.length)[0]? = some (0x80000100, 32) ∧ (portPieces staged0.dst staged0.bytes.length).length = 1 ∧
      isSp 0x80000100 = true ∧ s.engSp 2 0x80000100 32 .store = .inl 256 ∧
      ((cut 256 32).any fun p => s.undoFull (some 10) (s.elem (2 / 8)).tokRound p.1) = false ∧
      (let c : Cmd := { copyW with wr := .empty, staged := [{ staged0 with age := 1 }] }
       (runs c 0).cmd? 2 = some c ∧ (runs c 0).atWork 2 c = true ∧ c.wr = .empty) := by decide +kernel
/-- A gather and a scatter of index 5, which stands in tile memory. -/
def gath0 : Cmd := { freshCmd (.gath 0 0 0 0 0) with st := .running, desc := desc [0x80000000, 0x80000800, 0x80000400, 4], acc := [5, 0, 0, 0], accPz := [] }
theorem witness_gather : let c : Cmd := { gath0 with instr := .scat 0 0 0 0 0 }
    (runs gath0 0).indexOf 2 gath0 false 0 = some (5, false) ∧ (runs c 0).indexOf 2 c false 0 = some (5, false) ∧
      offAddr (gath0.lane 2 / 4 * 4) ((0 * 4 : Nat)) 4 = some 0x80000400 ∧ offAddr (gath0.lane 0 / 4 * 4) ((5 * 4 : Nat)) 4 = some 0x80000014 := by
  decide +kernel
/-- A COPY from tile memory to a page that is logged, when the LOG area is full. -/
def copyL : Cmd := { copy0 with desc := desc [0x80000000, 0, 64], srcPos := 64, issPos := 64, st := .running }
def logFull0 : State := let s := runs copyL 0; s.setTile 0 { s.tile 0 with log := (0, 32) }
theorem witness_finish : let c : Cmd := { copy0 with srcPos := 64, issPos := 64, reply := some 1, st := .running }
    let e : Cmd := { copy0 with st := .running, endStep := true }
    let f : Cmd := { e with cause := .spaddr, endStep := false }
    let g : Cmd := { e with ackBy := some 1 }
    let s := runs c 0
    s.cmd? 2 = some c ∧ c.st = .running ∧ c.cause = .none ∧ c.complete = true ∧ (c.endStep && c.stopped) = false ∧
      s.endBlocked 2 c .none = false ∧ (runs e 0).cmd? 2 = some e ∧ e.stopped = true ∧ (runs e 0).endBlocked 2 e .none = false ∧
      (runs f 0).cmd? 2 = some f ∧ f.cause ≠ .none ∧ f.drained = true ∧ f.cause ≠ .xlate ∧ f.cause ≠ .abandon ∧ f.logged = false ∧
      (runs f 0).endBlocked 2 f f.cause = false ∧ logFull0.cmd? 2 = some copyL ∧ copyL.cause = .none ∧ copyL.complete = true ∧
      logFull0.endBlocked 2 copyL .none = true ∧
      c.ackBy = none ∧ c.endStep = false ∧ (runs g 0).cmd? 2 = some g ∧ g.st = .running ∧ (runs g 0).clock < 1 := by decide +kernel
def doneC : Cmd := { copy0 with st := .done, reply := some 0, tokenDue := true }
def doneS (w : Nat) : State := (withCmd doneC (works region1)).setPort (portKey 0 0 0) { Port.empty with replyFed := true, win := w, known := w }
theorem witness_token : ∀ w ∈ [0, 4], (doneS w).cmd? 2 = some doneC ∧ doneC.reply = some 0 ∧ doneC.over = true ∧ doneC.tokenDue = true ∧
    (((doneS w).elem 0).cmds.toList.all fun k => match k with | some k => decide (doneC.endSeq ≤ k.endSeq) | none => true) = true ∧
    (doneS w).replyPort 0 doneC.plane 0 = some (portKey 0 0 0) ∧
    ((doneS w).portSpace ((doneS w).unitTile 2 doneC) (portKey 0 0 0) = decide (w = 0)) := by decide +kernel
def strmW : Cmd := { strm0 with st := .running, staged := [⟨4, 0, 0, List.replicate 32 7, false, none⟩] }
/-- Ring 0 is full. -/
def fullRing : Region := { region1 with rings := [{ ring0 with tail := 4096 }, ring1] }
/-- The block asks, or is too young to, and is written where its branch has been granted and its ring has room. -/
theorem witness_tenderWrite : ([(region1, ring0, false, 4), (region1, ring0, false, 0), (region1, ring0, true, 4),
      (fullRing, { ring0 with tail := 4096 }, true, 4)].all fun p =>
    let w : Staged := ⟨p.2.2.2, 0, 0, List.replicate 32 7, false, none⟩
    let c : Cmd := { strmW with brGot := if p.2.2.1 then [(0, 0)] else [], staged := [w] }
    let s := runs c (2 ^ 20) p.1
    decide (s.cmd? 2 = some c) && decide (s.cmdRegion 2 = some 10) && decide (c.st = .running) && s.atWork 2 c && !c.endStep &&
      decide (c.cause = .none) && decide (c.lane 5 / 2 ^ 16 % 2 = 0) && decide (c.branches = [0]) && decide (c.brAsk = []) &&
      decide (c.staged = w :: []) && (decide (s.branchLag 2 c c.out 0 ≤ w.age) == (p.2.2.2 == 4)) &&
      decide (0 = groupRing 0 c.wide c.out) && decide (s.ring? 10 0 = some p.2.1) && s.spm.wf &&
      decide (w.bytes.length = 32) && (s.groupRoom 10 0 c.wide c.out 1 == (p.2.1.tail == 0))) = true := by decide +kernel
def chan0 : Cmd := { freshCmd (.strm 0 0 0 0 true) with desc := desc [0, 0, 64, 0], st := .running }
theorem witness_tenderToken : ([{ chan0 with endStep := true }, { chan0 with out := 2 }, chan0, { chan0 with grR := true }].all fun c =>
    let s := (runs c (2 ^ 20) fullRing).setPort (portKey 0 0 0) { Port.empty with replyFed := true }
    decide (s.cmd? 2 = some c) && decide (s.cmdRegion 2 = some 10) && s.atWork 2 c && decide (c.cause = .none) && !c.eosSent &&
      decide (s.replyPort 0 c.plane (c.lane 3 % 32) = some (portKey 0 0 0)) && s.portSpace (s.unitTile 2 c) (portKey 0 0 0) &&
      s.groupHolds 10 (c.lane 1 % 2 ^ 16) c.wide c.out 1 && !(s.blockAt 10 (groupRing 0 c.wide c.out) 0).2) = true ∧
    (let c : Cmd := { chan0 with endStep := true, st := .waiting }
     let s := (withCmd c (works region1)).setPort (portKey 0 0 0) { Port.empty with replyFed := true }
     s.cmd? 2 = some c ∧ c.owed = false ∧ c.cause = .none ∧ c.eosSent = false ∧ s.cmdRegion 2 = some 10 ∧
       s.replyPort 0 c.plane (c.lane 3 % 32) = some (portKey 0 0 0) ∧ s.portSpace (s.unitTile 2 c) (portKey 0 0 0) = true) := by
  decide +kernel
/-- An MXMM of one tile of 8 rows: K = 32 and N = 8, INT8, A in ring 0, B and C in ring 1. -/
def mx0 : Cmd := { freshCmd (.mxmm 0 0 0 0) with st := .running, count := 1, desc := desc [0, 0x00010000, 0xFFFF0001, 0x00080001, 0x00040820] }
theorem witness_bLoad : ([(region1, false), ({ region1 with rings := [ring0, { ring1 with tail := 4096 }] }, true)].all fun p =>
    let c : Cmd := { mx0 with loading := true }
    let s := runs c (2 ^ 21) p.1
    decide (s.cmd? 2 = some c) && decide (s.cmdRegion 2 = some 10) && s.atWork 2 c && !c.begun && c.loading && decide (c.left = 0) &&
      decide (c.cause = .none) && !c.mx.coded && (match s.bBlocks 10 c.mx with | .ok _ => p.2 | .wait => !p.2 | .bad => false)) = true := by decide +kernel
def mxB : Cmd := { mx0 with begun := true }
theorem witness_tileBegin : ([(region1, false, 1), (fullRing, true, 0), (fullRing, true, 1)].all fun p =>
    let s := (runs mxB (2 ^ 21) p.1).setIsland 0 { Island.reset with pool := p.2.2 }
    decide (s.cmd? 2 = some mxB) && s.atWork 2 mxB && mxB.begun && !mxB.busy && !mxB.endStep && decide (mxB.tile < mxB.count) &&
      !s.sideBand 10 && decide (s.unitKey 2 mxB = some (2 ^ 21)) && decide ((s.island (2 ^ 21 % 2 ^ 20)).pool = p.2.2) &&
      (s.groupHolds 10 mxB.mx.a.1 mxB.mx.a.2 0 (mxB.rows 0 * mxB.mx.rbA / 32) == p.2.1) &&
      s.groupRoom 10 mxB.mx.c.1 mxB.mx.c.2 0 (mxB.rows 0 * mxB.mx.rbC / 32) && mxB.mx.cin.isNone) = true := by decide +kernel
theorem witness_tileEnd : let c : Cmd := { mxB with busy := true }
    (runs c (2 ^ 21)).cmd? 2 = some c ∧ (runs c (2 ^ 21)).cmdRegion 2 = some 10 ∧ c.busy = true ∧ c.left = 0 ∧ mxB.mx.fmt = 4 ∧ 0 < mxB.mx.n := by
  decide +kernel
def ringa0 (n : W) (t : Bool) : Cmd := { freshCmd (.ringa 0 0 0 t) with st := .running, desc := desc [0, n] }
theorem witness_ringa : ([(4096, true), (4128, true), (0, false), (32, false)].all fun p =>
    let c := ringa0 p.1 p.2
    let s := runs c 0
    decide (s.cmd? 2 = some c) && decide (s.cmdRegion 2 = some 10) && decide (c.left = 0) && decide (c.out = 0) && decide (c.cause = .none) &&
      decide (s.ring? 10 (c.lane 0 % 2 ^ 16) = some ring0)) = true ∧ ring0.occ + 4096 ≤ ring0.size ∧ ¬ring0.occ + 4128 ≤ ring0.size ∧
    0 ≤ ring0.occ ∧ ¬32 ≤ ring0.occ := by decide +kernel
def spill0 (n : W) : Cmd := { freshCmd (.spill 0 0 0 5) with st := .running, desc := desc [n] }
theorem witness_spill : ([0, 0xFFFF].all fun n => let s := runs (spill0 n) 0
    decide (s.cmd? 2 = some (spill0 n)) && decide (s.cmdRegion 2 = some 10) && decide ((spill0 n).left = 0) && decide ((spill0 n).out = 0) &&
      s.spillEmpty (portKey 0 (vcOf (spill0 n).plane) 5)) = true := by decide +kernel
/-- A scale list of one entry for the island (0x0000) or the tender (0x8000) of the north edge, which has had it or not. -/
def scaled (hi : Byte) (had : Bool) : State :=
  let r : Region := { region1 with cons := { region1.cons with scount := 1, slist := 0x800 } }
  let s := { warm (works r) with mem := Mem.write table 0x20000800 [0, hi, 3, 0, 9] }
  s.setIsland 0 { Island.reset with iseq := if had then 1 else 0, tseq := if had then 1 else 0 }
theorem witness_scale : ([(0, false), (0, true), (0x80, false), (0x80, true)].all fun p => let s := scaled p.1 p.2
    match s.region? 10 with
    | some r =>
      let u := p.1.toNat * 256
      let given := if 32768 ≤ u then (s.island 0).tseq.toNat + (s.island 0).tband.length else (s.island 0).iseq.toNat + (s.island 0).iband.length
      decide (r.slpos < r.cons.scount) && decide (r.slHeld = none) && decide (s.fetchScale 10 r = (some (u, 3, 9), s)) &&
        decide (r.island? (u % 4096) = some (0, 0)) && (decide (s.scaleOrd r u r.slpos < given) == p.2) &&
        decide ((s.island 0).iband.length < 4) && decide ((s.island 0).tband.length < 4)
    | none => false) = true := by decide +kernel

/-! ### Arbitration and power -/

/-- An entry of the beacon cache of port 0 for counter 0 of element 0, with a rate. -/
def bent : BeaconEnt := ⟨0x8, true, 10, 64, 32, 0⟩
def xfer0 : Xfer := { what := .read 2, region := some 10, needid := some 0x8, mark := 20, n := 1, late := false, age := 0, inPort := 0 }
def xferL : Xfer := { xfer0 with what := .lane 1 7, needid := none, age := 3 }
def arbs0 (l : List Xfer) : State := (withOp (.ld 0 0 A0 0 .raw) (.node 64) (works region1)).setArb 0 { Arb.empty with cache := [bent], xfers := l }
theorem witness_slack : (arbs0 []).slack 0 xferL = none ∧ ((arbs0 []).slack 0 xfer0).isSome = true ∧ xfer0.needid = some 0x8 ∧
    (((arbs0 []).arb 0).cache.find? fun b => b.needid == 0x8) = some bent ∧ bent.got = true ∧ 0 < max bent.rShort.toNat bent.rLong.toNat := by
  decide +kernel
theorem witness_pick : (arbs0 []).pick 0 [xferL, xfer0, { xferL with late := true }] = some { xferL with late := true } := by decide +kernel
theorem witness_choose : (arbs0 []).choose 0 = none ∧ (arbs0 [xferL]).choose 0 = some xferL ∧
    (arbs0 [xferL]).ops.get? 1 = some (op0 (.ld 0 0 A0 0 .raw) (.node 64)) ∧ (op0 (.ld 0 0 A0 0 .raw) (.node 64)).lanes.get 7 = .node 64 ∧
    (let s := withCmd copyR (arbs0 [{ xferL with what := .read 2 }])
     s.choose 0 = some { xferL with what := .read 2 } ∧ s.cmd? 2 = some copyR ∧ s.portOpen 0 = true) ∧
    (arbs0 []).portOpen 0 = true ∧ (arbs0 [xferL]).portOpen 0 = true ∧
    ((arbs0 []).setArb 0 { Arb.empty with moved := 1 }).portOpen 0 = false := by decide +kernel
/-- A read of a run, a write, and a block of a tender have asked at the port. -/
def copyB : Cmd := { copyR with src := { Pieces.empty with asked := [0] } }
def copyC : Cmd := { copyW with wr := { Pieces.empty with asked := [0] } }
def strmB : Cmd := { strmW with brAsk := [(0, 0)] }
theorem witness_beats : ([(copyB, XWhat.beat 2 .source 0, 0), (copyC, .beat 2 .write 0, 0), (strmB, .branch 2 0 0, 2 ^ 20)].all fun p =>
    let x : Xfer := { xferL with what := p.2.1 }
    let r := runs p.1 p.2.2
    let s := r.setArb 0 { Arb.empty with xfers := [x] }
    decide (s.choose 0 = some x) && decide (s.cmd? 2 = some p.1) && s.portOpen 0) = true := by decide +kernel
/-- Link port 2^22 in tick 0, when region 10 owns its first beat alone and nobody the second; a transfer of no region asks. -/
def linkX : Xfer := { xfer0 with what := .read 2, region := none, needid := none }
def linked (l : List Xfer) : State :=
  let r := { region0 with cons := { cons0 with arbw := 0x800F0800 }, wheel := [Config.wheelPhase (2 ^ 22) % 64] }
  (withRegion at0 r).setArb (2 ^ 22) { Arb.empty with xfers := l }
def passedOne (l : List Xfer) : State := (linked l).setArb (2 ^ 22) { (linked l).arb (2 ^ 22) with moved := ((linked l).arb (2 ^ 22)).moved + 1 }
theorem owner_linked (l : List Xfer) (h : (linked l).beatNo (2 ^ 22) = 0) : (linked l).owner (2 ^ 22) = some 10 := by
  have r : (linked l).regions = (linked []).regions := rfl
  have p : ownPort (2 ^ 22) = false := by decide
  simp only [State.owner, p, h, r]
  simp [linked, withRegion, State.setArb]
theorem owner_passed (l : List Xfer) (h : (passedOne l).beatNo (2 ^ 22) = 1) : (passedOne l).owner (2 ^ 22) = none := by
  have r : (passedOne l).regions = (linked []).regions := rfl
  have p : ownPort (2 ^ 22) = false := by decide
  simp only [State.owner, p, h, r]
  simp [linked, withRegion, State.setArb]
  omega
theorem witness_second_beat : (linked [linkX]).choose (2 ^ 22) = none ∧ (linked [linkX]).beatsLeft (2 ^ 22) = 2 ∧
    (linked [linkX]).portOpen (2 ^ 22) = true ∧ (passedOne [linkX]).choose (2 ^ 22) = some linkX ∧ (linked []).choose (2 ^ 22) = none ∧
    (passedOne []).choose (2 ^ 22) = none := by
  simp only [State.choose, State.chooseOf, owner_linked [linkX] (by decide +kernel), owner_linked [] (by decide +kernel),
    owner_passed [linkX] (by decide +kernel), owner_passed [] (by decide +kernel)]
  decide +kernel
theorem witness_known : ∀ x ∈ ((arbs0 [xferL, xfer0]).arb 0).xfers, ∀ w, x.needid = some w → ∃ b ∈ ((arbs0 [xferL, xfer0]).arb 0).cache, b.needid = w := by
  have h : ((arbs0 [xferL, xfer0]).arb 0).xfers = [xferL, xfer0] ∧ ((arbs0 [xferL, xfer0]).arb 0).cache = [bent] := by decide +kernel
  rw [h.1, h.2]
  simp only [List.mem_cons, List.not_mem_nil, or_false]
  rintro x (rfl | rfl) w hw
  · cases hw
  · cases hw
    exact ⟨bent, rfl, rfl⟩
theorem witness_beacons : (State.reset.usable.get 7).getLsbD 255 = true ∧
    (let s : State := { State.reset with usable := Oct.rep 0 }
     (s.usable.get (dieOf 0)).getLsbD (tileOf 0 % 256) = false) ∧
    (let b : BeaconFlight := ⟨0, 0x8, 5, 1, 1, 0, false⟩
     let s : State := { arbs0 [] with beacons := [(3, b), (4, { b with subscribe := true })] }
     s.beacons.get? 3 = some b ∧ b.subscribe = false ∧ s.beacons.get? 4 = some { b with subscribe := true } ∧
       (∃ x ∈ (s.arb b.arb).cache, x.needid = b.needid)) := by decide +kernel
theorem witness_refillPools : (let s := State.reset.setTile 511 { Tile.reset with tokens := 0, hint := .low }
     s.tiles.get? 511 = some { Tile.reset with tokens := 0, hint := .low } ∧ dieOfTile 511 = 1 ∧ s.regions = []) ∧
    (inRegion.regions = [(10, region0)] ∧ region0.die = 0 ∧ ∀ t ∈ region0.tiles, (inRegion.tile t).hint = .normal) ∧
    (State.reset.setIsland 63 { Island.reset with pool := 0 }).islands.get? 63 = some { Island.reset with pool := 0 } := by decide +kernel

/-! ### Graph records -/

def launch0 (p d : Nat) : Launch := ⟨(0, 0, 0, 0), p, d⟩
def queued (l : List Launch) : State := at0.setDie 7 { at0.die 7 with launchQ := l }
theorem witness_launch : ((queued []).die 7).launchQ = [] ∧
    16 ≤ (((queued (List.replicate 16 (launch0 3 0))).die 7).launchQ.filter fun l => l.prio == 3).length := by decide
/-- Descriptors: all 0, a misaligned RESULT, a reserved field. -/
def startAt (d : Nat) : State :=
  { queued [launch0 0 64, launch0 3 d] with mem := Mem.write (Mem.write [] 0x308 [1]) 0x338 [1] }
theorem witness_walkStart : ([0x200, 0x300, 0x320].all fun d => let s := startAt d
    decide (nextLaunch (s.die 7).launchQ = some (launch0 3 d)) && !(s.die 7).shunterGated && decide (s.boot.failure = 0) &&
      decide ((s.walks.filter fun w => w.2.die == 7 && !isOver w.2).length < 32)) = true ∧
    natAt ((startAt 0x200).mem.read 0x200 32) 8 8 = 0 ∧ natAt ((startAt 0x300).mem.read 0x300 32) 8 8 = 1 ∧
    natAt ((startAt 0x320).mem.read 0x320 32) 8 8 = 0 ∧ natAt ((startAt 0x320).mem.read 0x320 32) 24 8 = 1 := by decide +kernel
/-- The walk stands at this record. -/
def rec32 (b : List Byte) : List Byte := b ++ List.replicate (32 - b.length) 0
def atRecord (b : List Byte) (w : Walk := walk0) (r : Region := region0) : State :=
  { warm (withRegion at0 r w) with mem := Mem.write table 0x20000100 b }
def stands (kind : Nat) (b : List Byte) (w : Walk := walk0) (r : Region := region0) : Bool :=
  decide ((atRecord b w r).recordAt 5 kind = some (w, rec32 b, atRecord b w r))
def alone : Walk := { walk0 with region := none, gang := [] }
/-- The image of one tile with no records but a data segment for its tile map, at VA 0x1000. -/
def header : List Byte := [0x49, 0x43, 0x50, 0x51, 1, 0, 0, 0, 1, 1, 0, 0, 0x70, 1, 0, 0] ++ List.replicate 56 0 ++
  [96, 0, 0, 0, 1, 0, 0, 0] ++ List.replicate 16 0 ++ [0, 0, 0, 0, 0, 1, 0, 0, 112, 0, 0, 0, 0x40]
def consist (b : List Byte) (w : Walk := alone) : State :=
  { atRecord b w with mem := Mem.write (Mem.write table 0x20000100 b) 0x20001000 header }
theorem witness_consist : ([[1, 4], [1, 0, 0, 0, 4, 16], [1, 0, 0, 0, 0, 16, 0, 0, 0, 0, 0, 0, 1]].all fun b =>
      decide (((consist b).recordAt 5 1) = some (alone, rec32 b, consist b))) = true ∧
    (consistOf (rec32 [1, 4])).reservedOk = false ∧ (consistOf (rec32 [1, 0, 0, 0, 4, 16])).reservedOk = true ∧
    (consistOf (rec32 [1, 0, 0, 0, 4, 16])).limitsOk none = false ∧
    (let b := rec32 [1, 0, 0, 0, 0, 16, 0, 0, 0, 0, 0, 0, 1]
     let s := consist b
     let y := { alone with record := b }
     (consistOf b).reservedOk = true ∧ (consistOf b).isGang = false ∧ s.runInTransit 0 3 0x100 32 = false ∧
       s.fetchVirt 0 3 0x100 32 = some (b, s) ∧ (y.cons 0).reservedOk = true ∧ natAt b 0 1 = 1 ∧
       (s.modWalk 5 fun z => { z with record := b }).headInTransit y (y.cons 0) = false ∧
       (y.cons 0).limitsOk none = true ∧ alone.region = none ∧
       (s.modWalk 5 fun z => { z with record := b }).shapesOf y [y.cons 0] = .inr ([(1, 1)], s.modWalk 5 fun z => { z with record := b })) := by
  decide +kernel
/-- ARM of one MXMM whose descriptor stands at VA 0x800, with JC 511. -/
def armB : List Byte := [2, 1, 0xFF, 0x81, 0, 8, 0, 0, 1]
def mxBytes : List Byte := [0, 0, 0, 0, 0, 0, 1, 0, 1, 0, 0xFF, 0xFF, 1, 0, 8, 0, 0x20, 8, 4]
theorem witness_arm : let s : State := { atRecord armB with mem := Mem.write (Mem.write table 0x20000100 armB) 0x20000800 mxBytes }
    s.recordAt 5 2 = some (walk0, rec32 armB, s) ∧ recordOk (rec32 armB) = true ∧ walk0.region = some 10 ∧ s.region? 10 = some region0 ∧
      s.runInTransit 0 3 (region0.cons.dbase + natAt (rec32 armB) 4 4) (32 * natAt (rec32 armB) 1 1) = false ∧
      s.fetchVirt 0 3 (region0.cons.dbase + natAt (rec32 armB) 4 4) (32 * natAt (rec32 armB) 1 1) = some (rec32 mxBytes, s) ∧
      mxmmOk ((Oct.of fun l => BitVec.ofNat 32 (natAt (rec32 mxBytes) (4 * l) 4)).set 3
        (BitVec.ofNat 32 (natAt (rec32 mxBytes) 12 4 / 65536 * 65536 + 1))) = true ∧ 32768 ≤ natAt (rec32 armB) 2 2 := by decide +kernel
theorem witness_waitRecord : stands 3 [3, 4] = true ∧ recordOk (rec32 [3, 4]) = false ∧ stands 3 [3, 0] alone = true ∧
    ((atRecord [3, 0] alone).current alone).isNone = true ∧ stands 3 [3, 3] alone = true ∧ recordOk (rec32 [3, 3]) = true ∧
    stands 3 [3, 2] = true ∧ recordOk (rec32 [3, 2]) = true ∧ ((atRecord [3, 2]).current walk0).isSome = true := by decide +kernel
def waiting (b : List Byte) (ready : Bool) : Walk := { walk0 with phase := .waiting 0 ready, record := rec32 b }
def waits1 (b : List Byte) (ready : Bool) : State := atRecord [] (waiting b ready)
theorem witness_waitPoll : let s := waits1 [3, 1] false
    s.walks.get? 5 = some (waiting [3, 1] false) ∧ natAt (rec32 [3, 1]) 1 1 = 1 ∧ 0 ≤ s.tick ∧
      s.shunterRead 5 (waiting [3, 1] false) (natAt (rec32 [3, 1]) 16 8) 4 = (some [0, 0, 0, 0], s) := by decide +kernel
theorem witness_waitRelease : (waits1 [3, 1] true).waitOver (waiting [3, 1] true) true = true ∧
    (waits1 [3, 1] false).waitOver (waiting [3, 1] false) false = false ∧
    (waits1 [3, 2] false).waitOver (waiting [3, 2] false) false = false ∧
    (let s := atRecord [] (waiting [3, 2, 0, 0, 0, 0, 0, 0, 0, 0, 0, 0, 0, 255] false) { region0 with events := BitVec.allOnes 256 }
     s.waitOver (waiting [3, 2, 0, 0, 0, 0, 0, 0, 0, 0, 0, 0, 0, 255] false) false = true ∧ s.region? 10 = some { region0 with events := BitVec.allOnes 256 }) := by
  decide +kernel
theorem witness_cutRecord : stands 4 [4, 1] = true ∧ recordOk (rec32 [4, 1]) = true ∧ region0.phase = .running ∧ region0.cut = none ∧
    region0.cutAsked = none ∧ region0.gangId = none ∧ stands 4 [4, 0] walk0 { region0 with phase := .complete } = true ∧
    ({ region0 with phase := .complete } : Region).phase = .complete := by decide +kernel
theorem witness_signal : stands 5 [5, 0] = true ∧ stands 5 [5, 2] = true ∧ recordOk (rec32 [5, 2]) = true ∧
    (let s := atRecord [5, 3]
     stands 5 [5, 3] = true ∧ recordOk (rec32 [5, 3]) = true ∧ s.inTransit 0 3 (natAt (rec32 [5, 3]) 16 8) = false ∧
       s.slicePass 0 3 (natAt (rec32 [5, 3]) 16 8) .store = .inr (⟨0x200000CF, true⟩, s) ∧ s.mem.wf = true ∧ (∀ d < 8, (s.die d).trctl = 0)) := by
  decide +kernel
theorem witness_branch : stands 6 [6, 6] = true ∧ recordOk (rec32 [6, 6]) = true ∧
    (atRecord [6, 6]).shunterRead 5 walk0 (natAt (rec32 [6, 6]) 16 8) 4 = (some [0, 0, 0, 0], atRecord [6, 6]) := by decide +kernel
def deep (n : Nat) : Walk := { walk0 with stack := List.replicate n 0x100 }
theorem witness_calls : stands 7 [7] (deep 15) = true ∧ stands 7 [7] (deep 16) = true ∧ recordOk (rec32 [7]) = true ∧
    stands 8 [8] (deep 1) = true ∧ (deep 1).stack = 0x100 :: [] ∧ stands 8 [8] = true ∧ walk0.stack = [] ∧ recordOk (rec32 [8]) = true ∧
    stands 9 [9] = true ∧ recordOk (rec32 [9]) = true ∧ stands 9 [9, 1] = true ∧ recordOk (rec32 [9, 1]) = false := by decide +kernel
theorem witness_end : (let w := { alone with phase := .ending }; (atRecord [] w).walks.get? 5 = some w ∧ w.region = none) ∧
    (let w : Walk := { alone with phase := .writing, state := 1 }
     (atRecord [] w).walks.get? 5 = some w ∧ w.held = none ∧ (atRecord [] w).inTransit 0 3 w.result = false ∧
       (atRecord [] w).slicePass 0 3 w.result .store = .inr (⟨0x200000CF, true⟩, atRecord [] w) ∧ (atRecord [] w).mem.wf = true ∧
       ∀ d < 8, ((atRecord [] w).die d).trctl = 0) := by decide +kernel

/-! ### Loading -/

theorem witness_findRect : State.reset.findRect 7 16 16 15 (fun _ => true) = some (0, 0) ∧
    inRegion.findRect 0 1 1 0 (fun _ => true) = some (0, 1) := by decide +kernel
/-- A walk that places the consist of this record; its image has the header at VA 0x1000, its data area at VA 0x10000. -/
def consB : List Byte := rec32 [1, 0, 0, 0, 0, 16, 0, 0, 0, 0, 0, 0, 1]
def loader (ph : WPhase) : Walk := { alone with phase := ph, record := consB }
def loads (w : Walk) (r : Region) (regs : Bool) : State :=
  { warm (withRegion at0 r w) with mem := Mem.write table 0x20001000 header, regions := if regs then [(10, r)] else [] }
/-- Every tile of the die is taken. -/
def wide : Region := { region0 with w := 16, h := 16 }
theorem witness_placement : (let w : Walk := { loader .placing with region := some 10 }
      (loads w { region0 with phase := .complete } true).walks.get? 5 = some w ∧ w.region.isSome = true ∧
        (loads w { region0 with phase := .complete } true).consistOver w = true ∧ (loads w region0 true).consistOver w = false) ∧
    (let w := loader .placing
     let s := loads w region0 false
     s.walks.get? 5 = some w ∧ w.phase = .placing ∧ w.region = none ∧ (w.cons 0).isGang = false ∧ (w.cons 0).fixed = false ∧
       s.headInTransit w (w.cons 0) = false ∧ s.shapeOf w (w.cons 0) = .inr ((1, 1), s) ∧ (s.takeRect 5 w 0 .loading (1, 1) (fun _ => true)).map (·.1) = some 20 ∧
       (loads w wide true).shapeOf w (w.cons 0) = .inr ((1, 1), loads w wide true) ∧
       ((loads w wide true).takeRect 5 w 0 .loading (1, 1) (fun _ => true)).isNone = true) := by decide +kernel
/-- A gang of two members, of which member 1 is to be reserved. -/
def gangB : List Byte := rec32 [1, 2, 0, 0x80, 0, 16, 0, 0, 0, 0, 0, 0, 1, 0, 0, 0, 0, 0, 0, 0, 0, 0, 0, 0, 0, 0x40, 0, 0] ++
  rec32 [1, 2, 0, 0x80, 0, 16, 0, 0, 0, 0, 0, 0, 1, 0, 0, 0, 0, 0, 0, 0, 0, 0, 0, 0, 0, 0x40, 0x10, 0]
theorem witness_gang : let w : Walk := { alone with phase := .gang [0, 1], record := gangB }
    let s := loads w region0 false
    s.walks.get? 5 = some w ∧ 1 ∈ [0, 1] ∧ (∃ j ∈ [0, 1], j ≠ 1) ∧ (w.cons 1).pkg = Config.pkg ∧ w.blocked = false ∧
      s.headInTransit w (w.cons 1) = false ∧ s.shapeOf w (w.cons 1) = .inr ((1, 1), s) ∧
      (s.takeRect 5 w 1 .reserved (1, 1) (fun _ => true)).map (·.1) = some 20 := by decide +kernel
def banked : Region := { region0 with phase := .banks, gangId := some 5 }
theorem witness_commit : let s := (withRegion at0 banked).setTile 0 { (withRegion at0 banked).tile 0 with banks := Hex.rep { Bank.none with token := true } }
    s.walks.get? 5 = some walk0 ∧ walk0.gang = [10] ∧ s.region? 10 = some banked ∧ banked.phase = .banks ∧ banked.gangId.isSome = true ∧
      s.banksHeld banked = true := by decide +kernel
def fetching : Region := { region0 with phase := .loading }
def loaderR : Walk := { loader (.loading 10) with region := none, gang := [10] }
theorem witness_prefetch : let s := loads loaderR fetching true
    s.walks.get? 5 = some loaderR ∧ loaderR.phase = .loading 10 ∧ loaderR.gang = [10] ∧ s.region? 10 = some fetching ∧ fetching.phase = .loading ∧
      fetching.next = none ∧ fetching.image = none ∧ fetching.gangId = none ∧ (loaderR.cons 0).isGang = false ∧ s.loadInTransit loaderR = false ∧
      (match s.fetchImage fetching (loaderR.cons 0) [] with | .inr _ => true | .inl _ => false) = true ∧
      (match (loads loaderR { fetching with w := 2 } true).fetchImage { fetching with w := 2 } (loaderR.cons 0) [] with
       | .inl f => f.reason == .shape | .inr _ => false) = true := by decide +kernel
/-- An image of one tile with a record of element (0, 0). -/
def image1 : ImageRec :=
  ⟨1, 1, [0x49, 0x43, 0x50, 0x51, 1, 0, 0, 0, 1, 1, 0, 0, 0xF8, 1, 0, 0, 96, 0, 0, 0, 1] ++ List.replicate 483 0, []⟩
def imaged (ph : Phase) : Region := { region0 with phase := ph, image := some image1 }
theorem witness_planeReady : (withRegion at0 (imaged .loading)).region? 10 = some (imaged .loading) ∧
    ((withRegion at0 (imaged .loading)).tile (tileOf 0)).region = some 10 ∧
    (imaged .loading).coming = some (cons0, image1) ∧ (∃ m ∈ (imaged .loading).members image1.bytes, m.1 = 0) := by decide +kernel
theorem witness_swap : let s := (withRegion at0 (imaged .swapping)).setElem 0 { at0.elem 0 with ready := true, region := some 10 }
    let u := s.setElem 31 { Elem.reset with ready := true }
    (s.tile (tileOf 0)).region = some 10 ∧ s.region? 10 = some (imaged .swapping) ∧ (s.elem 0).ready = true ∧ (s.elem 0).inS = false ∧
      (imaged .swapping).next = none ∧ (∃ m ∈ (imaged .swapping).members (imaged .swapping).newBytes, m.1 = 0) ∧
      (u.elem 31).ready = true ∧ (u.elem 31).inS = false ∧ (∀ m ∈ (imaged .swapping).members (imaged .swapping).newBytes, m.1 ≠ 31) := by
  decide +kernel
theorem witness_bank : let s := withRegion at0 (imaged .banks)
    let u := s.setTile 0 { s.tile 0 with banks := (s.tile 0).banks.set 15 { Bank.none with run := some 5, clean := true } }
    s.region? 10 = some (imaged .banks) ∧ 0 ∈ (imaged .banks).tiles ∧ ((s.tile 0).banks.get 15).token = false ∧
      ((s.tile 0).banks.get 15).clean = false ∧ ((u.tile 0).banks.get 15).token = false ∧ ((u.tile 0).banks.get 15).clean = true ∧
      ((u.tile 0).banks.get 15).run = some (imaged .banks).walk ∧ u.region? 10 = some (imaged .banks) := by decide +kernel
theorem witness_startToken : let s := withRegion at0 { region0 with phase := .starting }
    (s.setTile 0 { s.tile 0 with startDue := some 0 }).region? 10 = some { region0 with phase := .starting } ∧ 0 ∈ region0.tiles ∧
      ((s.setTile 0 { s.tile 0 with startDue := some 0 }).tile 0).startDue = some 0 ∧ 0 ≤ s.tick := by decide +kernel
def endedAll : State := inRegion.setElem 0 { inRegion.elem 0 with ended := true }
theorem witness_complete : endedAll.region? 10 = some region0 ∧ region0.phase = .running ∧ region0.voidAsked = [] ∧ region0.voidTag = none ∧
    endedAll.consistDone 10 region0 = true ∧ 0 ∈ region0.tiles ∧
    (withRegion at0 { region0 with phase := .completing }).region? 10 = some { region0 with phase := .completing } ∧
    ((withRegion at0 { region0 with phase := .completing }).tile 0).passed = false := by decide +kernel
theorem witness_gabort : inRegion.walks.get? 5 = some walk0 ∧ walk0.die = 0 ∧ walk0.run = 7 ∧ walk0.phase ≠ .finished ∧ walk0.phase ≠ .writing ∧
    (let w : Walk := { walk0 with phase := .writing, state := 1 }; (withRegion at0 region0 w).walks.get? 5 = some w ∧ w.state ≠ 2) := by
  decide
theorem witness_urgent : (at0.die 0).lurg.getLsbD 31 = false ∧ (0x8000FF00 : W).getLsbD 31 = true ∧
    (15 + 0 + 1 ≤ 16 ∧ (0x8000FF00 : W).toNat / 2 ^ 12 % 16 = 15) ∧ (0x8000FF11 : W).toNat / 2 ^ 4 % 16 = 1 ∧
    ((at0.setElem 8160 { Elem.reset with planeS := { PlaneMem.empty with valid := 1 } }).elem (elemAt (15 * 16 + 15) 0 0)).planeS.valid ≠ 0 ∧
    ((at0.setElem 3 { Elem.reset with urgent := true }).elem 3).urgent = true ∧
    ((at0.setElem 3 { Elem.reset with urgent := true }).elem 3).inS = false := by decide

/-! ### Cuts, voids and pre-emption -/

theorem witness_timer : ([0, 2 ^ 17].all fun n => let s : State := { inRegion with tick := n }
    decide (s.region? 10 = some region0) && s.running region0 && region0.voidTag.isNone && !s.quiet 10 && region0.cut.isNone &&
      region0.cutAsked.isNone && region0.gangId.isNone && (decide (region0.lastCut + 2 ^ 17 ≤ s.tick) == (n == 2 ^ 17))) = true ∧
    region0.cons.flags / 8 % 32 = 0 := by decide
def cut0 : Cut := { start := 0, stop := false, waits := [], elems := [], nodes := [], rings := region0.rings, time := 0, slpos := 0, seqs := [], armed := [], timedOut := false, full := false }
theorem witness_cutStart : let r : Region := { region0 with cutAsked := some (0, true, [.halt]) }
    (withRegion at0 r).region? 10 = some r ∧ r.cut = none ∧ r.voidTag = none ∧ (withRegion at0 r).running r = true ∧ 0 ∈ r.tiles := by decide
def cutting : Region := { region0 with cut := some cut0 }
theorem witness_save : (withRegion at0 cutting).regionOf 0 = some (10, cutting) ∧ (withRegion at0 cutting).canSave 0 = true ∧
    (let s : State := { withRegion at0 cutting with tick := 65536 }
     s.region? 10 = some cutting ∧ cut0.timedOut = false ∧ s.quiet 10 = false ∧
       cut0.start + max 1 ((s.die cutting.die).cutcfg.toNat % 2 ^ 16) * 1024 ≤ s.tick ∧ 0 ∈ s.regionElems 10 ∧ cut0.elems.get? 0 = none) := by decide
def saved0 : ElemSave :=
  { wr := WRegs.zero, k := Quad.rep (Oct.rep 0), g := Quad.rep 0, streams := Oct.rep Stream.reset, estat := 0, ended := false, stopped := false
    toks := [], pkts := [], ops := [] }
theorem witness_cutComplete : let c : Cut := { cut0 with elems := [(0, saved0)] }
    let r : Region := { region0 with cut := some c }
    let s := (withRegion at0 r).setTile 0 { (withRegion at0 r).tile 0 with save := (0, 8192) }
    s.region? 10 = some r ∧ r.gangId = none ∧ r.voidAsked = [] ∧ c.waits = [] ∧ s.cutDone 10 r c = true := by decide
def snap0 : Snapshot := { round := 0, time := 0, elems := [(0, saved0)], nodes := [], rings := region0.rings, joins := [], slpos := 0, seqs := [], armed := [] }
def undo0 : Undo := ⟨4032, none, [], [], 0, List.replicate 64 1, 0, 0⟩
theorem witness_void : let r : Region := { region0 with voidAsked := [(32, 20, 0, some 20)], snap := some snap0, undo := [undo0], rings := [{ ring0 with size := 4064 }] }
    let s := withRegion at0 r
    s.region? 10 = some r ∧ r.gangId = none ∧ r.voidAsked ≠ [] ∧ s.running r = true ∧ (∀ e ∈ s.regionElems 10, (s.elem e).inS = false) ∧
      snap0.elems.get? 0 = some saved0 ∧ (∀ y ∈ snap0.elems, y.1 = 0 → y.2 = saved0) ∧ undo0.bytes.length = 64 ∧ s.spm.wf = true ∧
      r.inRing (4032 + 31) = true ∧ r.inRing (4032 + 32) = false := by decide
theorem witness_pctl : (let s := inRegion.setDie 0 { inRegion.die 0 with prun := 7 }
      (s.die 0).pctlBusy = false ∧ s.runRegion 0 (s.die 0).prun = some 10 ∧ s.region? 10 = some region0) ∧ region0.cut = none ∧
    region0.cutAsked = none ∧ region0.gangId = none ∧ (inRegion.die 0).pctlBusy = false ∧ inRegion.runRegion 0 (inRegion.die 0).prun = none := by decide
/-- Die 0 restores run 7: none is suspended, every tile is taken, or the consist comes back from the image at 0x40000. -/
def restoring (w : Walk) (r : Region) (regs : Bool) : State :=
  let img : List Byte := [0x56, 0x53, 0x50, 0x51, 1, 0, 0, 0, 1, 1, 3, 0, 7, 0, 0, 0, 0, 16, 0, 0, 0, 0, 0, 0, 1]
  let s := loads w r regs
  { s.setDie 0 { s.die 0 with pctlBusy := true, pctlOp := 1, prun := 7, psave := 0x40000 } with mem := Mem.write s.mem 0x40000 img }
def suspended : Walk := { alone with phase := .suspended }
def askOf (s : State) : Option (Nat × Walk) := s.walks.find? fun w => w.2.die == 0 && w.2.run == (s.die 0).prun &&
  (match w.2.phase with | .suspended => true | _ => false)
theorem witness_restore : askOf (restoring walk0 region0 true) = none ∧
    (([(region0, false), (wide, true)] : List (Region × Bool)).all fun p => let s := restoring suspended p.1 p.2
      decide ((s.die 0).pctlBusy = true) && decide ((s.die 0).pctlOp = 1) && decide (askOf s = some (5, suspended)) &&
      (match s.imgChain ((s.die 0).psave.toNat / 64 % 2 ^ 46 * 64) 64 with
       | some l => l.all (fun x => x.run == 7 && !x.cons.fixed) &&
          (match s.restoreMany 5 suspended (s.imgGates 0 l) l with
           | .inr none => p.2
           | .inr (some (_, s2)) => !p.2 && (s2.walks.get? 5).isSome
           | .inl _ => false)
       | none => false)) = true := by decide +kernel

/-! ### Traps and debugging -/

def rec0 : TrapRec := ⟨List.replicate 64 0, 20⟩
def trapping (log : W) : State := at0.setDie 7 { at0.die 7 with trapQ := [rec0], tqctl := log }
theorem witness_trapQueue : ((trapping 3).die 7).trapQ = rec0 :: [] ∧ ((trapping 3).die 7).tqctl.toNat % 256 < 4 ∧
    16 < ((trapping 17).die 7).tqctl.toNat % 256 ∧ ((trapping 16).die 7).tqctl.toNat % 256 = 16 ∧
    (((trapping 16).die 7).tqtail - ((trapping 16).die 7).tqhead).toNat ≠ 2 ^ 16 ∧ (trapping 4).mem.wf = true := by decide
def stop0 (slot : Nat) : StopInfo := ⟨12, slot, .work, 20⟩
/-- An element stopped at slot 0, which tests a POISON head at I0, or at no slot. -/
def stoppedAt (slot : Nat) (late : List (Nat × Nat)) : State :=
  let s := (withRegion at0 region0).setPort (portKey 0 0 0) { Port.empty with queue := [tok (fun _ => 1) 3 .poison], win := 1, known := 1 }
  s.setElem 0 { s.elem 0 with
    stopped := some (stop0 slot), lateQ := late
    planeA := { (s.elem 0).planeA with slots := (s.elem 0).planeA.slots.set 0 (0x00000787#32 ++ 0#32) } }
theorem witness_tresume : inRegion.stoppedBy 0 20 = none ∧ (stoppedAt 0 []).stoppedBy 0 20 = some (0, stop0 0) ∧
    ((stoppedAt 0 []).elem 0).lateQ = [] ∧ ((stoppedAt 0 [(1, 5)]).elem 0).lateQ = (1, 5) :: [] ∧
    (stoppedAt 0 [(1, 5)]).stoppedBy 0 20 = some (0, stop0 0) ∧ (stoppedAt 31 []).stoppedBy 0 20 = some (0, stop0 31) ∧ 16 ≤ (stop0 31).slot ∧
    ((stoppedAt 0 []).elem 0).region = some 10 ∧ (stoppedAt 0 []).region? 10 = some region0 ∧ (stoppedAt 0 []).walks.get? region0.walk = some walk0 ∧
    walk0.phase ≠ .finished ∧ walk0.phase ≠ .writing := by decide
theorem witness_clearPoison : let s := stoppedAt 0 []
    decodeSlot .work (((s.elem 0).plane .work).slots.get 0) = .ok .nop ∧
      (Ctx.of { s with cur := ⟨0, .work, 0⟩ }).tests = [⟨0, 0, true⟩] ∧ (Ctx.of { s with cur := ⟨0, .work, 0⟩ }).need .nop 0 = 1 ∧
      (s.port (portKey 0 (vcOf .work) 0)).queue = tok (fun _ => 1) 3 .poison :: [] ∧ (tok (fun _ => 1) 3 .poison).kind = .poison := by decide
theorem witness_deadlock : ([0, 1048576].all fun n => let s : State := { stoppedAt 0 [] with tick := n }
    decide (s.region? 10 = some region0) && s.running region0 && !region0.dlRaised && !s.quiet 10 && decide (s.regionElems 10 = [0]) &&
      s.ports.any (fun p => (s.regionElems 10).contains (portElem p.1) && !p.2.queue.isEmpty) && !(s.elem 0).inS &&
      (decide (region0.lastMove + max 4 ((s.die region0.die).cutcfg.toNat / 2 ^ 16) * 1024 ≤ s.tick) == (n != 0))) = true := by decide
theorem witness_uncorrectable : inRegion.region? 10 = some region0 ∧ inRegion.walks.get? region0.walk = some walk0 ∧
    (let s := at0.setDie 0 { at0.die 0 with uvctl := Quad.rep 0xC0000005 }; ((s.die 0).uvctl.get 3).toNat % 16 ≠ 0) ∧
    2 ^ 52 - 1 < 2 ^ 52 ∧ inRegion.openUndo 4096 = none ∧
    (withRegion at0 { region0 with undo := [{ undo0 with key := 4096 }] }).openUndo 4096 = some 10 := by decide
/-- The quadrant's UVCTL has been taken to STEP 0 four microseconds ago, or just now. -/
theorem witness_uvTrip : ([0, 2 ^ 16].all fun n =>
    let s : State := { at0.setDie 0 { at0.die 0 with uvctl := Quad.rep 0xC0000000, uvTrip := Quad.rep (some 0) } with tick := n }
    decide (dieKey 0 < 8) && decide (dieOfTile (s.homeTile 0) = 0) && decide (2 * (s.homeTile 0 % 256 / 16 / 8) + s.homeTile 0 % 16 / 8 < 4) &&
      decide (((s.die 0).uvctl.get (2 * (s.homeTile 0 % 256 / 16 / 8) + s.homeTile 0 % 16 / 8)).toNat % 16 = 0) &&
      decide ((s.die 0).uvTrip.get (2 * (s.homeTile 0 % 256 / 16 / 8) + s.homeTile 0 % 16 / 8) = some 0) &&
      (decide (s.clock < 17 * 4000) == (n == 0))) = true := by decide +kernel
/-- A halted run has a stop cut open: resumed, it has none. -/
theorem witness_resume : let r : Region := { region0 with halted := true, cut := some { cut0 with stop := true, waits := [.halt] } }
    let s := withRegion at0 r
    (s.die 0).dbgBusy = false ∧ s.region? 10 = some r ∧ s.regions = [(10, r)] ∧ s.regionElems 10 = [0] ∧
      ({ cut0 with stop := true, waits := [.halt] } : Cut).waits = [.halt] := by decide
theorem witness_halt : (at0.die 0).dbgBusy = false ∧ inRegion.region? 10 = some region0 ∧
    (let s := inRegion.setDie 3 { inRegion.die 3 with dbgrun := 7 }
     region0.run = (s.die 3).dbgrun ∧ region0.halted = false ∧ region0.cut = none ∧ region0.cutAsked = none ∧ region0.gangId = none) ∧
    (let r : Region := { region0 with halted := true }; (withRegion at0 r).region? 10 = some r ∧ r.halted = true) ∧
    ((at0.setDie 0 { at0.die 0 with dbgBusy := true }).die 0).dbgBusy = true := by decide
def walking (x : SWalk) : State := inRegion.setDie 0 { inRegion.die 0 with swctl := 0x8000000F, swalk := some x }
/-- O5 of element 0 leads to element 1, which has no room. -/
theorem witness_stallWalk : (at0.die 7).swctl.getLsbD 31 = false ∧ ((walking ⟨0, [], 0⟩).die 0).swctl.getLsbD 31 = true ∧
    ((walking ⟨0, [], 0⟩).die 0).swalk = some ⟨0, [], 0⟩ ∧ ((walking ⟨0, [], 0⟩).hopIn [] 0).1.next = none ∧
    ((walking ⟨0, [], 15⟩).die 0).swctl.toNat % 16 + 1 ≤ 15 + 1 ∧
    (let s := (walking ⟨0, [], 0⟩).setPort (portKey 0 0 0) { Port.empty with branch := some { branch0 with prod := 1 } }
     let s := s.setElem 1 { Elem.reset with region := some 10 }
     let s := s.setElem 0 { s.elem 0 with planeA := { (s.elem 0).planeA with slots := (s.elem 0).planeA.slots.set 0 (0x00000787#32 ++ 0#32) } }
     (s.hopIn [] 0).1.next = some 1 ∧ 0 + 1 < (s.die 0).swctl.toNat % 16 + 1) := by decide
theorem witness_hop : ((stoppedAt 0 []).elem 0).stopped.isSome = true ∧
    (let s := at0.setElem 0 { at0.elem 0 with planeA := PlaneMem.empty }
     (s.elem 0).stopped = none ∧ (s.elem 0).ended = false ∧ (s.elem 0).cutStopped = false ∧ s.guardSlot 0 = none) := by decide

/-! ### Clocks, power, links and the control cores -/

theorem witness_spines : (0xF0000190 : W).toNat % 2 ^ 12 = 400 ∧ (2100 : W).toNat % 2 ^ 12 = 2100 ∧ (399 : W).toNat % 2 ^ 12 < 400 ∧
    2100 < (2101 : W).toNat % 2 ^ 12 ∧
    ((at0.setDie 0 { at0.die 0 with spine := (at0.die 0).spine.set 7 (1700, some 400) }).die 0).spine.get 7 = (1700, some 400) := by decide
theorem witness_tclk : ((State.reset.tile 2047).nextSpine.getD (State.reset.spineOf 2047)) = 0 ∧ (0x70000000 : W).toNat / 2 ^ (4 * 7) % 8 = 7 ∧
    ((State.reset.setTile 2047 { Tile.reset with nextSpine := some 3 }).tile (7 * 256 + 255)).nextSpine = some 3 := by decide
theorem witness_shunterGate : ([0, 170000].all fun n => let s : State := { State.reset with tick := n }
      s.shunterIdle 7 && (decide ((s.die 7).idleSince + 17 * 100000 ≤ s.clock) == (n != 0))) = true ∧ inRegion.shunterIdle 0 = false := by decide
theorem witness_ptp : State.reset.grandmaster = false ∧ State.reset.firstConsist = false ∧
    ({ State.reset with firstConsist := true } : State).grandmaster = false ∧
    (State.reset.setDie 7 { Die.reset with tbGm := true }).grandmaster = true := by decide
def up1 : RlPort := { RlPort.down with up := true, peer := 3 }
/-- A port trains; its peer has this package's version and domain, or another version. -/
theorem witness_linkUp : let s : State := { inRegion with links := [(15, { RlPort.down with train := true })] }
    15 < 16 ∧ (Config.pkg + 1) % 64 ≠ Config.pkg ∧ (s.link 15).train = true ∧ Config.linkVersion + 1 ≠ Config.linkVersion :=
  ⟨by decide, by decide, by decide, by omega⟩
theorem witness_links : (1 : Nat) ≠ Config.pkg ∧ (let s : State := { inRegion with links := [(0, up1), (15, up1), (7, RlPort.down)] }
     s.links.get? 0 = some up1 ∧ up1.up = true ∧ s.lowerPort 0 up1.peer = false ∧ s.links.get? 7 = some RlPort.down ∧
       RlPort.down.up = false ∧ RlPort.down.train = false ∧ s.lowerPort 15 up1.peer = true) ∧
    (let r : Region := { region0 with peers := [(1, 3)], gates := [3], gangId := some 5 }
     let s : State := { withRegion at0 r with links := [(15, up1)] }
     s.regions = [(10, r)] ∧ up1.peer ∈ r.gates ∧ s.walks.get? r.walk = some walk0 ∧ walk0.phase = .fetch ∧ s.lowerPort 15 3 = false) := by
  decide
theorem witness_boot : State.reset.boot.failure = 0 ∧ State.reset.boot.phase < 7 ∧ ({ State.reset with boot := ⟨5, 0, Oct.rep 0⟩ } : State).boot.phase = 5 ∧
    ({ State.reset with boot := ⟨6, 0, Oct.rep 0⟩ } : State).boot.phase = 6 := by decide
theorem witness_spdm : State.reset.spdm.stage < 1 ∧ ({ State.reset with spdm := ⟨3, [], [], [], []⟩ } : State).spdm.stage = 3 ∧ 8 ≤ 8 ∧
    8 = 7 + 1 := by decide
theorem witness_cores : (populated (2 ^ 38) = false ∧ inWindow (2 ^ 38) = false) ∧ 2 ^ 52 ≤ 2 ^ 52 ∧
    (2 ^ 38 - 8 + 8 ≤ 2 ^ 52 ∧ populated (2 ^ 38 - 8) = true ∧ populated (2 ^ 38 - 8 + 8 - 1) = true ∧ inWindow (2 ^ 38 - 8) = false) ∧
    (∀ k < 8, (State.reset.die k).trctl = 0) ∧ State.reset.mem.wf = true ∧ (0x202 % 4 ≠ 0 ∨ 2 ^ 20 ≤ 0x202) := by decide

-- FIPS 180-4's example: the message "abc".
theorem test_sha384 : sha384 [0x61, 0x62, 0x63] =
    0xCB00753F45A35E8BB5A03D699AC65007272C32AB0EDED1631A8B605A43FF5BED8086072BA1E7CC2358BAECA134C825A7 := by decide +kernel

/-! ## Single firings: the spec's worked examples and tables -/

/-- Registers of element 0 with one word in every lane, and JORD. -/
def regs (l : List (Nat × W)) (k : BitVec 2 := 0) (s : State := at0) : State :=
  s.setElem 0 { s.elem 0 with wr := { (s.elem 0).wr with
    jord := k, v := l.foldl (fun v x => v.set x.1 ⟨Oct.rep x.2, .fp32⟩) (s.elem 0).wr.v } }
def after (i : Instr) (s : State) : State := match exec i s with | .next t => t | _ => s
/-- Lane l of register n once the firing has landed, and the flags it raises. -/
def landed (i : Instr) (s : State) (n : Nat) (l : Nat := 0) : W :=
  let t := after i s
  match (t.elem 0).inflight.getLast? with
  | some f => (match f.regs.find? fun q => q.1 == n with | some q => q.2.2.1.get l | none => ((t.elem 0).vreg .work n).lane.get l)
  | none => ((t.elem 0).vreg .work n).lane.get l
def flagged (i : Instr) (s : State) : BitVec 20 :=
  match ((after i s).elem 0).inflight.getLast? with | some f => f.flags | none => ((after i s).elem 0).fflags .work
def vs (n : Fin 16) : Src := .v n
def vd (n : Fin 16) : Dst := .v n

-- R197: CLZ at three widths.
theorem test_clz : let s := regs [(4, 0x00000F00)]
    landed (.clz (vd 5) (vs 4) none .w32) s 5 = 0x14 ∧ landed (.clz (vd 5) (vs 4) none .w16) s 5 = 0x00100004 ∧
      landed (.clz (vd 5) (vs 4) none .w8) s 5 = 0x08080408 := by decide +kernel
-- R202: the 64-bit add.
theorem test_addc : let s := regs [(0, 0xFFFFFFFF), (1, 1), (2, 1), (3, 0)]
    let t := after (.addc 4 (vs 0) (vs 2) ⟨.set, 0⟩ true) s
    landed (.addc 4 (vs 0) (vs 2) ⟨.set, 0⟩ true) s 4 = 0 ∧ ((t.elem 0).wr.p.get 0).getLsbD 0 = true ∧
      landed (.addc 5 (vs 1) (vs 3) ⟨.set, 0⟩ false) t 5 = 2 := by decide +kernel
-- R203: the table of quotients.
def quot (signed : Bool) (z : ISz) (a b : W) : W :=
  landed (if signed then .div (vd 2) (vs 0) (vs 1) none z else .divu (vd 2) (vs 0) (vs 1) none z) (regs [(0, a), (1, b)]) 2
theorem test_div : quot true .w32 7 0xFFFFFFFE = 0xFFFFFFFD ∧ quot true .w32 0xFFFFFFF9 2 = 0xFFFFFFFD ∧
    quot true .w32 0x80000000 0xFFFFFFFF = 0x80000000 ∧ (quot true .w8 0x80 0xFF).toNat % 256 = 0x80 ∧ quot true .w32 5 0 = 0xFFFFFFFF := by
  decide +kernel
theorem test_divu : quot false .w32 0xFFFFFFFE 0xFFFFFFFF = 0 ∧ (quot false .w16 0x1234 0).toNat % 65536 = 0xFFFF := by decide +kernel
-- R201, R204: saturation, and counts of the width or more.
theorem test_abs_neg : (landed (.abs (vd 2) (vs 0) none .w8) (regs [(0, 0x80)]) 2).toNat = 0x80 ∧
    (landed (.neg (vd 2) (vs 0) none .w16) (regs [(0, 0x8000)]) 2).toNat = 0x8000 := by decide +kernel
theorem test_shifts : (landed (.shl (vd 2) (vs 0) (vs 1) none .w8) (regs [(0, 1), (1, 9)]) 2).toNat % 256 = 0 ∧
    (landed (.rol (vd 2) (vs 0) (vs 1) none .w8) (regs [(0, 0x81), (1, 9)]) 2).toNat % 256 = 3 := by decide +kernel
-- R205, R207: BFX V2, V1, 12, 8, sx; CMPLT.8 against CMPLTU.8.
theorem test_bfx : landed (.bfx (vd 2) (vs 1) 12 7 true) (regs [(1, 0x000F8000)]) 2 = 0xFFFFFFF8 := by decide +kernel
theorem test_cmplt : let s := regs [(3, 0x0580FF02), (4, 0x057F0001)]
    landed (.cmplt (vd 5) (vs 3) (vs 4) (some ⟨.set, 1⟩) .w8) s 5 = 0x00FFFF00 ∧
      (((after (.cmplt (vd 5) (vs 3) (vs 4) (some ⟨.set, 1⟩) .w8) s).elem 0).wr.p.get 1) = 0xFF ∧
      landed (.cmpltu (vd 5) (vs 3) (vs 4) (some ⟨.set, 1⟩) .w8) s 5 = 0 ∧
      (((after (.cmpltu (vd 5) (vs 3) (vs 4) (some ⟨.set, 1⟩) .w8) s).elem 0).wr.p.get 1) = 0 := by decide +kernel
-- R211: LCMPR V6, V5, P3 and its LEXPD.
def packing (v : Nat → W) : State :=
  at0.setElem 0 { at0.elem 0 with wr := { (at0.elem 0).wr with v := (at0.elem 0).wr.v.set 5 ⟨Oct.of v, .int32⟩, p := (at0.elem 0).wr.p.set 3 0xA6 } }
theorem test_lcmpr : (List.range 8).map (fun l => landed (.lcmpr (vd 6) (vs 5) 3 none) (packing fun l => BitVec.ofNat 32 (10 + l)) 6 l) =
    [11, 12, 15, 17, 0, 0, 0, 0] := by decide +kernel
theorem test_lexpd : (List.range 8).map (fun l => landed (.lexpd (vd 6) (vs 5) 3 none) (packing fun l => ([11, 12, 15, 17] : List W).getD l 0) 6 l) =
    [0, 11, 12, 0, 0, 15, 0, 17] := by decide +kernel
-- R196: the tree and the scan over 2^24, 1, 1, 1, 1, 1, 1, 1.
def ones : State := withV at0 (fun l => if l = 0 then 0x4B800000 else 0x3F800000) (fun _ => 0) (fun _ => 0)
theorem test_lsum : landed (.lsum (vd 2) (vs 0) none .f32 .rn) ones 2 = 0x4B800003 := by decide +kernel
theorem test_lscan : landed (.lscan (vd 2) (vs 0) none .f32 .rn) ones 2 7 = 0x4B800000 := by decide +kernel
-- The opening example of the chapter on jets: 3 + h, its square and its exponential, at order 3.
def jet3 : State := regs [(1, 0x40400000), (2, 0x3F800000), (4, 0x40400000), (5, 0x3F800000)] 3
theorem test_jseed : (List.range 4).map (fun n => landed (.jseed (vd 4) (vs 1) (vs 2) none .f32) jet3 (4 + n)) = [0x40400000, 0x3F800000, 0, 0] := by
  decide +kernel
theorem test_fmul : (List.range 4).map (fun n => landed (.fmul (vd 8) (vs 4) (vs 4) none .f32 .rn) jet3 (8 + n)) =
    [0x41100000, 0x40C00000, 0x3F800000, 0] := by decide +kernel
-- R242, R216: at order 2 JINS clears the fourth register of its group.
def jet2 : State := regs [(1, 5), (7, 9)] 2
theorem test_jins : (landed (.jins 4 (.v 1) 1) jet2 5, landed (.jins 4 (.v 1) 1) jet2 7) = (5, 0) := by decide +kernel
-- R224: FDIV V8, V0, V4 at order 2.
def quotient : State := regs [(0, 0x3F800000), (1, 0x3F800000), (4, 0x40400000), (5, 0x3F800000)] 2
theorem test_fdiv : (List.range 4).map (fun n => landed (.fdiv (vd 8) (vs 0) (vs 4) none .f32 .rn) quotient (8 + n)) =
    [0x3EAAAAAB, 0x3E638E38, 0xBD97B425, 0] ∧ flagged (.fdiv (vd 8) (vs 0) (vs 4) none .f32 .rn) quotient = 0x00421 := by decide +kernel
-- R239: QNT V3, V2, V9 with SCALE 0x80.
def quant (x : W) : W × BitVec 20 := let s := regs [(2, x), (9, 0x80)]
  (landed (.qnt (vd 3) (vs 2) (vs 9) none .f32 .rn) s 3, flagged (.qnt (vd 3) (vs 2) (vs 9) none .f32 .rn) s)
theorem test_qnt : quant 0x43960000 = (0x71, 1) ∧ quant 0x447A0000 = (0x7E, 5) ∧ quant 0xBA83126F = (0x80, 3) := by decide +kernel

end Sys2Proof.Tests
end

section
/-! PROOFS. The canonical form of a byte memory: memories of that form with equal bytes are equal data (log entry 4),
and the two statements about it, O15 and O17. -/
namespace Sys2Proof.Machine
namespace Mem

@[simp] theorem get_nil (a : Nat) : Mem.get [] a = 0 := rfl

@[simp] theorem get_cons_same (k : Nat) (v : Byte) (m : Mem) : Mem.get ((k, v) :: m) k = v := by
  simp [get]

theorem get_cons_of_lt {k a : Nat} (lt : a < k) (v : Byte) (m : Mem) : Mem.get ((k, v) :: m) a = 0 := by
  simp [get, lt, Nat.ne_of_gt lt]

theorem get_cons_of_gt {k a : Nat} (lt : k < a) (v : Byte) (m : Mem) : Mem.get ((k, v) :: m) a = m.get a := by
  simp [get, Nat.ne_of_lt lt, Nat.lt_asymm lt]

/-- The lowest key is the lowest address with a byte other than 0, so equal bytes bound one lowest key by the other. -/
theorem head_key_le {k j : Nat} {v u : Byte} {m n : Mem} (hv : v ≠ 0#8)
    (bytes : ∀ x, Mem.get ((k, v) :: m) x = Mem.get ((j, u) :: n) x) : j ≤ k := by
  refine Nat.le_of_not_lt fun lt => hv ?_
  have zero := bytes k
  rwa [get_cons_same, get_cons_of_lt lt] at zero

/-- Two memories with equal bytes and the same lowest key agree past that entry too. -/
theorem tail_bytes {k : Nat} {v u : Byte} {m n : Mem} (hm : SMap.above k m = true) (hn : SMap.above k n = true)
    (bytes : ∀ x, Mem.get ((k, v) :: m) x = Mem.get ((k, u) :: n) x) (x : Nat) : m.get x = n.get x := by
  rcases Nat.lt_or_ge k x with gt | le
  · simpa only [get_cons_of_gt gt] using bytes x
  · rw [get_above hm le, get_above hn le]

/-- Memories in canonical form with equal bytes are equal data: an entry that only one of them lists would be a byte
other than 0 where the other reads 0. -/
theorem eq_of_get_eq {m n : Mem} (hm : m.wf = true) (hn : n.wf = true) (bytes : ∀ x, m.get x = n.get x) : m = n := by
  induction m generalizing n with
  | nil =>
    cases n with
    | nil => rfl
    | cons d n =>
      obtain ⟨j, u⟩ := d
      obtain ⟨-, hu, -⟩ := wf_cons.1 hn
      exact absurd (by simpa using (bytes j).symm) hu
  | cons c m ih =>
    obtain ⟨k, v⟩ := c
    obtain ⟨am, hv, wm⟩ := wf_cons.1 hm
    cases n with
    | nil => exact absurd (by simpa using bytes k) hv
    | cons d n =>
      obtain ⟨j, u⟩ := d
      obtain ⟨an, hu, wn⟩ := wf_cons.1 hn
      obtain rfl : k = j := Nat.le_antisymm (head_key_le hu fun x => (bytes x).symm) (head_key_le hv bytes)
      obtain rfl : v = u := by simpa using bytes k
      rw [ih wm wn (tail_bytes am an bytes)]

end Mem

@[simp] theorem reset_mem : State.reset.mem = [] := rfl

@[simp] theorem reset_spm : State.reset.spm = [] := rfl

end Sys2Proof.Machine

namespace Sys2Proof.Proofs
open Sys2Proof.Machine

/-- Settles O17: the laws of `Mem.write`, and extensionality by induction on the two sorted lists. -/
theorem memoryWritesAndReads : Obligations.MemoryWritesAndReads := by
  intro m a bs hm
  refine ⟨Mem.wf_write hm a bs, Mem.read_write hm a bs, fun x out => Mem.get_write_out hm bs out, ?_⟩
  exact fun k hk bytes => Mem.eq_of_get_eq hk hm bytes

/-- Settles O15: both memories of the reset state are the empty list. -/
theorem resetMemoryIsCanonical : Obligations.ResetMemoryIsCanonical := by
  refine ⟨reset_memWf, fun a => ⟨?_, ?_⟩⟩
  · rw [reset_mem, Mem.get_nil]
  · rw [reset_spm, Mem.get_nil]

end Sys2Proof.Proofs
end

section
/-! PROOFS. Placing, loading, starting and completing a consist, GABORT and urgent launches (R16, R85, R271, R276,
R279 to R283, R285, R313): O55. Three frames say once what the shared operations leave alone: `WalksKept` of a release and
an abort, `LoadFrame` of the swap of planes with the tables it sets, and `HomeFrame` of bytes applied at a home. -/
namespace Sys2Proof

/-! ## Lists of steps, updates and what they read back -/

/-- Replacing the values of a key list under their keys replaces what each key reads. -/
theorem SMap.get_map {α β : Type} (m : SMap α) (f : Nat × α → Nat × β) (hf : ∀ x ∈ m, (f x).1 = x.1) (i : Nat) :
    SMap.get? (m.map f) i = (m.get? i).map fun v => (f (i, v)).2 := by
  induction m with
  | nil => rfl
  | cons a m ih =>
    obtain ⟨k, v⟩ := a
    have hk : (f (k, v)).1 = k := hf _ List.mem_cons_self
    simp only [List.map_cons, SMap.get?, hk, ih fun x hx => hf x (List.mem_cons_of_mem _ hx)]
    by_cases e : k = i
    · subst e; simp
    · simp [e]

theorem SMap.mem_of_get {α : Type} {m : SMap α} {i : Nat} {x : α} (h : m.get? i = some x) : (i, x) ∈ m := by
  induction m with
  | nil => cases h
  | cons a m ih =>
    obtain ⟨k, v⟩ := a
    simp only [SMap.get?] at h
    split at h
    · rename_i same
      subst same
      cases h
      exact List.mem_cons_self
    · exact List.mem_cons_of_mem _ (ih h)

/-- A lane number above 7 names lane 7 in a read and a write alike. -/
theorem Oct.get_set_self {α : Type} (o : Oct α) (l : Nat) (x : α) : (o.set l x).get l = x := by
  match l with
  | 0 | 1 | 2 | 3 | 4 | 5 | 6 => rfl
  | _ + 7 => rfl

end Sys2Proof

namespace Sys2Proof.Machine
open Sys2Proof.Claims

@[simp] theorem State.die_setDie_self (s : State) (d : Nat) (x : Die) : (s.setDie d x).die d = x := Oct.get_set_self _ _ _

theorem State.walk_modWalk {s : State} {w : Nat} {x : Walk} (h : s.walks.get? w = some x) (f : Walk → Walk) :
    (s.modWalk w f).walks.get? w = some (f x) := by
  simp [State.modWalk, h, SMap.get_put_same]

theorem State.walk_modWalk_ne {s : State} {w v : Nat} (n : v ≠ w) (f : Walk → Walk) :
    (s.modWalk w f).walks.get? v = s.walks.get? v := by
  unfold State.modWalk
  split
  · exact SMap.get_put_ne _ n _
  · rfl

theorem State.region_modRegion {s : State} {k : Nat} {r : Region} (h : s.region? k = some r) (f : Region → Region) :
    (s.modRegion k f).region? k = some (f r) := by
  simp [State.modRegion, h]

theorem State.region_modRegion_ne {s : State} {k i : Nat} (n : i ≠ k) (f : Region → Region) :
    (s.modRegion k f).region? i = s.region? i := by
  unfold State.modRegion
  split
  · exact State.region_setRegion_ne _ n _
  · rfl

/-- What one member's step brings about and every step keeps holds once all members have been run over. -/
theorem forAll_reaches {α : Type} {f : State → α → State} {P Q : State → Prop} {a : α} {l : List α} {s : State} (ha : a ∈ l)
    (keepP : ∀ s x, P s → P (f s x)) (hit : ∀ s, P s → Q (f s a)) (keepQ : ∀ s x, Q s → Q (f s x)) (h : P s) :
    Q (forAll f l s) := by
  induction l generalizing s with
  | nil => cases ha
  | cons b l ih =>
    rcases List.mem_cons.1 ha with rfl | hb
    · exact forAll_keeps keepQ l _ (hit s h)
    · exact ih hb (keepP s b h)

/-- A field that no member's step changes is as before once all members have been run over. -/
theorem forAll_same {α β : Type} {f : State → α → State} {g : State → β} (hf : ∀ s x, g (f s x) = g s) (l : List α) (s : State) :
    g (forAll f l s) = g s :=
  forAll_keeps (P := fun t => g t = g s) (fun t x h => (hf t x).trans h) l s rfl

/-! ## Rectangles (R276) -/

/-- The index of a rectangle found is the lowest that qualifies. -/
theorem State.findRect_eq_some {s : State} {d w h edges tr tc : Nat} {blocks : Region → Bool}
    (found : s.findRect d w h edges blocks = some (tr, tc)) :
    ∃ i < 256, tr = i / 16 ∧ tc = i % 16 ∧ s.rectOk d w h edges blocks (i / 16) (i % 16) = true ∧
      ∀ j < i, s.rectOk d w h edges blocks (j / 16) (j % 16) = false := by
  simp only [State.findRect, Option.map_eq_some_iff, List.find?_range_eq_some] at found
  obtain ⟨i, ⟨ok, hi, below⟩, e⟩ := found
  obtain ⟨rfl, rfl⟩ := Prod.mk.inj e
  exact ⟨i, List.mem_range.1 hi, rfl, rfl, ok, fun j hj => by simpa using below j hj⟩

theorem findRect_lowest {s : State} {d w h edges tr tc : Nat} {blocks : Region → Bool}
    (found : s.findRect d w h edges blocks = some (tr, tc)) :
    tr < 16 ∧ tc < 16 ∧ s.rectOk d w h edges blocks tr tc = true ∧
    ∀ a b, a < 16 → b < 16 → a * 16 + b < tr * 16 + tc → s.rectOk d w h edges blocks a b = false := by
  obtain ⟨i, hi, rfl, rfl, ok, below⟩ := State.findRect_eq_some found
  refine ⟨by omega, by omega, ok, fun a b _ hb lt => ?_⟩
  have := below (a * 16 + b) (by omega)
  rwa [show (a * 16 + b) / 16 = a by omega, show (a * 16 + b) % 16 = b by omega] at this

/-! ## Walks through a release -/

/-- Every walk is as before but for its count of abandoned commands and its leave to reserve again. -/
def WalksKept (s t : State) : Prop :=
  ∀ w x, s.walks.get? w = some x → ∃ a b, t.walks.get? w = some { x with abandon := a, blocked := b }

theorem WalksKept.of_eq {s t : State} (h : t.walks = s.walks) : WalksKept s t := by
  intro w x hx
  exact ⟨x.abandon, x.blocked, by rw [h, hx]⟩

theorem WalksKept.trans {s t u : State} (a : WalksKept s t) (b : WalksKept t u) : WalksKept s u := by
  intro w x hx
  obtain ⟨_, _, ht⟩ := a w x hx
  obtain ⟨n, l, hu⟩ := b w _ ht
  exact ⟨n, l, hu⟩

theorem WalksKept.forAll {α : Type} {f : State → α → State} (hf : ∀ s x, WalksKept s (f s x)) (l : List α) (s : State) :
    WalksKept s (forAll f l s) :=
  forAll_keeps (P := WalksKept s) (fun t x h => h.trans (hf t x)) l s (.of_eq rfl)

theorem WalksKept.walk_modWalk {s t : State} {w : Nat} {x : Walk} (kept : WalksKept s t) (hw : s.walks.get? w = some x)
    (f : Walk → Walk) : ∃ a b, (t.modWalk w f).walks.get? w = some (f { x with abandon := a, blocked := b }) := by
  obtain ⟨a, b, h⟩ := kept w x hw
  exact ⟨a, b, State.walk_modWalk h f⟩

theorem dropWalks_walks (s : State) : s.dropWalks.walks = s.walks := by
  unfold State.dropWalks
  exact (forAll_same (g := State.walks) (by intros; rfl) _ _).trans rfl

theorem settleUrgent_walks (s : State) (d : Nat) : (s.settleUrgent d).walks = s.walks := by
  unfold State.settleUrgent; split <;> rfl

theorem unblock_keeps_walks (s : State) : WalksKept s s.unblock := by
  intro w x hx
  refine ⟨x.abandon, false, ?_⟩
  refine (SMap.get_map s.walks _ (by intros; rfl) w).trans ?_
  rw [hx]
  rfl

theorem release_keeps_walks (s : State) (rg : Nat) (clean : Bool) : WalksKept s (s.release rg clean) := by
  unfold State.release
  split
  · exact .of_eq rfl
  · refine WalksKept.trans (.of_eq ?_) (unblock_keeps_walks _)
    rw [settleUrgent_walks, dropWalks_walks]
    rfl

/-- A command that is dropped leaves the walks alone, armed or not. -/
theorem dropCmd_walks (s : State) (id : Nat) : (s.dropCmd id).walks = s.walks := by
  have leave (c : Cmd) : (s.leaveUnit id c).walks = s.walks := by
    unfold State.leaveUnit State.dropBeats
    dsimp only
    split <;> rfl
  unfold State.dropCmd State.freeEntry
  split
  · by_cases h : id < 2 ^ 20
    · simp only [h, if_true]; exact leave _
    · simp only [h, if_false]; exact leave _
  · rfl

theorem modCmd_walks (s : State) (id : Nat) (f : Cmd → Cmd) : (s.modCmd id f).walks = s.walks := by
  unfold State.modCmd State.setCmd
  split
  · split <;> rfl
  · rfl

theorem modWalk_keeps_walks {s : State} {w : Nat} {f : Walk → Walk}
    (hf : ∀ x, ∃ a b, f x = { x with abandon := a, blocked := b }) : WalksKept s (s.modWalk w f) := by
  intro v x hx
  by_cases e : v = w
  · subst e
    obtain ⟨a, b, h⟩ := hf x
    exact ⟨a, b, by rw [State.walk_modWalk hx, h]⟩
  · exact ⟨x.abandon, x.blocked, by rw [State.walk_modWalk_ne e, hx]⟩

theorem flush_keeps_walks (s : State) (rg : Nat) : WalksKept s (s.flush rg) := by
  unfold State.flush
  split
  · exact .of_eq rfl
  · dsimp only
    refine (WalksKept.trans ?_ (WalksKept.forAll (fun t id => ?_) _ _)).trans (release_keeps_walks _ _ _)
    · exact modWalk_keeps_walks fun x => ⟨_, x.blocked, rfl⟩
    · exact .of_eq ((dropCmd_walks _ _).trans (modCmd_walks _ _ _))

/-! ## Fetches leave the walks alone -/

theorem slicePass_walks {s t : State} {die asid va : Nat} {a : Access} {lf : Leaf}
    (h : s.slicePass die asid va a = .inr (lf, t)) : t.walks = s.walks := by
  unfold State.slicePass at h
  split at h
  · cases h; rfl
  · split at h
    · rename_i walked
      cases h
      unfold State.walkFor at walked
      split at walked
      · cases walked
      · split at walked
        · cases walked
        · simp only [Sum.inr.injEq, Prod.mk.injEq] at walked
          obtain ⟨-, rfl⟩ := walked
          exact (apply_ite State.walks _ _ _).trans (ite_self _)
    · cases h

theorem readVirt_walks {die asid : Nat} {a : Access} {fuel : Nat} {s t : State} {va n : Nat} {b : List Byte}
    (h : s.readVirt die asid va a fuel n = some (b, t)) : t.walks = s.walks := by
  induction fuel generalizing s va n b with
  | zero => cases h; rfl
  | succ fuel ih =>
    unfold State.readVirt at h
    split at h
    · cases h; rfl
    · dsimp only at h
      split at h
      · cases h
      · rename_i pass
        split at h
        · rename_i rest
          cases h
          exact (ih rest).trans (slicePass_walks pass)
        · cases h

theorem shapeOf_walks {s t : State} {x : Walk} {c : Consist} {wh : Nat × Nat} (h : s.shapeOf x c = .inr (wh, t)) :
    t.walks = s.walks := by
  unfold State.shapeOf at h
  dsimp only at h
  split at h
  · cases h
  · rename_i fetched
    split at h
    · cases h
    · cases h
      exact readVirt_walks fetched

/-! ## A rectangle taken (R276) -/

theorem placeRegion_walks (s : State) (r : Region) : (s.placeRegion r).2.walks = s.walks := by
  unfold State.placeRegion
  exact (forAll_same (g := State.walks) (by intros; rfl) _ _).trans rfl

theorem placeRegion_region (s : State) (r : Region) : (s.placeRegion r).2.region? (s.placeRegion r).1 = some r := by
  unfold State.placeRegion
  exact (forAll_same (g := fun t => t.region? s.nextId) (by intros; rfl) _ _).trans (State.region_setRegion _ _ _)

theorem placeRegion_tile (s : State) (r : Region) {u : Nat} (hu : u ∈ r.tiles) :
    ((s.placeRegion r).2.tile u).region = some (s.placeRegion r).1 := by
  refine forAll_reaches (P := fun _ => True) (Q := fun t => (t.tile u).region = some s.nextId) hu (fun _ _ _ => trivial)
    (fun t _ => ?_) (fun t v ht => ?_) trivial
  · simp
  · by_cases e : u = v
    · subst e; simp
    · simpa [e] using ht

/-- The region of a rectangle taken: where it lies, which tiles are its own, and that the walks are as before. -/
theorem takeRect_eq_some {s t : State} {w m k : Nat} {x : Walk} {phase : Phase} {wh : Nat × Nat} {blocks : Region → Bool}
    (h : s.takeRect w x m phase wh blocks = some (k, t)) :
    t.walks = s.walks ∧ ∃ r, t.region? k = some r ∧ r.walk = w ∧ r.w = wh.1 ∧ r.h = wh.2 ∧ r.phase = phase ∧
      ∀ u ∈ r.tiles, (t.tile u).region = some k := by
  unfold State.takeRect at h
  dsimp only at h
  split at h
  · split at h
    · simp only [Option.some.injEq] at h
      have hk := congrArg Prod.fst h
      have ht := congrArg Prod.snd h
      dsimp only at hk ht
      subst hk ht
      exact ⟨placeRegion_walks _ _, _, placeRegion_region _ _, rfl, rfl, rfl, rfl, fun u hu => placeRegion_tile _ _ hu⟩
    · cases h
  · cases h

/-! ## Placement (R16, R276) -/

/-- Releasing the current consist takes its region from the walk and leaves the walk in its phase. -/
theorem releaseCurrent_walk {s : State} {w : Nat} {x : Walk} (hw : s.walks.get? w = some x) (hr : x.region.isSome = true) :
    ∃ a b, (s.releaseCurrent w x).walks.get? w = some { x with region := none, abandon := a, blocked := b } := by
  obtain ⟨r, hr⟩ := Option.isSome_iff_exists.1 hr
  unfold State.releaseCurrent
  rw [hr]
  exact (WalksKept.forAll (fun _ _ => release_keeps_walks _ _ _) _ _).walk_modWalk hw _

section
variable {s : State} {w : Nat} {x : Walk} (hw : s.walks.get? w = some x) (hp : x.phase = .placing)
include hw hp

theorem placementAttempt_releases (hr : x.region.isSome = true) (ended : s.consistOver x = true) :
    Completes (.placementAttempt w) s fun t => WalkIs t w fun y => y.phase = .placing ∧ y.region = none := by
  obtain ⟨a, b, h⟩ := releaseCurrent_walk hw hr
  refine ⟨s.releaseCurrent w x, ?_, _, h, hp, rfl⟩
  show execPlacementAttempt w s = _
  simp [execPlacementAttempt, hw, hp, hr, ended]

theorem placementAttempt_waits_for_consist (hr : x.region.isSome = true) (runs : s.consistOver x = false) :
    Completes (.placementAttempt w) s fun t => t = s := by
  refine ⟨s, ?_, rfl⟩
  show execPlacementAttempt w s = _
  simp [execPlacementAttempt, hw, hp, hr, runs]

section
variable {wh : Nat × Nat} {s1 : State} (hr : x.region = none) (single : (x.cons 0).isGang = false)
  (here : (x.cons 0).fixed = false ∨ (x.cons 0).pkg = Config.pkg) (still : s.headInTransit x (x.cons 0) = false)
  (shape : s.shapeOf x (x.cons 0) = .inr (wh, s1))
include hr single here still shape

theorem placementAttempt_takes {k : Nat} {s2 : State} (taken : s1.takeRect w x 0 .loading wh (fun _ => true) = some (k, s2)) :
    Completes (.placementAttempt w) s fun t =>
      (WalkIs t w fun y => y.phase = .loading k ∧ y.gang = [k]) ∧ RegionIs t k fun r => r.walk = w ∧
        r.w = wh.1 ∧ r.h = wh.2 ∧ r.phase = .loading ∧ ∀ tile ∈ r.tiles, (t.tile tile).region = some k := by
  obtain ⟨walks, r, region, rw, rest⟩ := takeRect_eq_some taken
  have hw2 : s2.walks.get? w = some x := by rw [walks, shapeOf_walks shape, hw]
  refine ⟨s2.modWalk w fun y => { y with phase := .loading k, gang := [k] }, ?_, ⟨_, State.walk_modWalk hw2 _, rfl, rfl⟩, r, ?_, rw, ?_⟩
  · show execPlacementAttempt w s = _
    rcases here with h | h <;> simp [execPlacementAttempt, hw, hp, hr, single, h, still, shape, taken]
  · simpa [State.region?] using region
  · simpa [State.tile] using rest

theorem placementAttempt_waits_for_room (full : s1.takeRect w x 0 .loading wh (fun _ => true) = none) :
    Completes (.placementAttempt w) s fun t => WalkIs t w fun y => y.phase = .placing ∧ y.region = none := by
  refine ⟨s1, ?_, x, by rw [shapeOf_walks shape, hw], hp, hr⟩
  show execPlacementAttempt w s = _
  rcases here with h | h <;> simp [execPlacementAttempt, hw, hp, hr, single, h, still, shape, full]

end
end

/-! ## Gangs (R279) -/

theorem gangReserve_reserves {s s1 s2 : State} {w m k : Nat} {x : Walk} {left : List Nat} {wh : Nat × Nat}
    (hw : s.walks.get? w = some x) (hp : x.phase = .gang left) (hm : m ∈ left) (more : ∃ j ∈ left, j ≠ m)
    (own : (x.cons m).pkg = Config.pkg) (free : x.blocked = false) (still : s.headInTransit x (x.cons m) = false)
    (shape : s.shapeOf x (x.cons m) = .inr (wh, s1))
    (taken : s1.takeRect w x m .reserved wh (fun _ => true) = some (k, s2)) :
    Completes (.gangReserve w m) s fun t =>
      (WalkIs t w fun y => y.phase = .gang (left.filter fun j => decide (j ≠ m)) ∧ y.gang = x.gang ++ [k]) ∧
      RegionIs t k fun r => r.phase = .reserved ∧ r.walk = w := by
  obtain ⟨walks, r, region, rw, -, -, phase, -⟩ := takeRect_eq_some taken
  have hw2 : s2.walks.get? w = some x := by rw [walks, shapeOf_walks shape, hw]
  have rest : (left.filter fun j => decide (j ≠ m)).isEmpty = false := by
    obtain ⟨j, hj, ne⟩ := more
    exact List.isEmpty_eq_false_iff_exists_mem.2 ⟨j, List.mem_filter.2 ⟨hj, decide_eq_true ne⟩⟩
  refine ⟨s2.modWalk w fun y => { y with phase := .gang (left.filter fun j => decide (j ≠ m)), gang := x.gang ++ [k] }, ?_,
    ⟨_, State.walk_modWalk hw2 _, rfl, rfl⟩, r, ?_, phase, rw⟩
  · show execGangReserve w m s = _
    simp only [execGangReserve, hw, hp, List.contains_iff_mem.2 hm, free, still, own, shape, taken, rest]
    rfl
  · simpa [State.region?] using region

theorem startRamp_region {s : State} {k : Nat} {r : Region} (h : s.region? k = some r) (t0 : Nat) (at0 : Int) :
    (s.startRamp k t0 at0).region? k = some { r with phase := .starting, t0 := t0, t0At := at0 } :=
  State.region_modRegion h _

/-- Fixing a start instant passes no time. -/
theorem startRamp_time (s : State) (k t0 : Nat) (at0 : Int) (n : Nat) :
    (s.startRamp k t0 at0).tick = s.tick ∧ (s.startRamp k t0 at0).afterNs n = s.afterNs n := by
  simp [State.startRamp, State.afterNs, State.clock]

/-- The instant that the members of a gang start at is that of the state in which they are committed. -/
theorem startRamps_eq (l : List Nat) (s : State) :
    forAll (fun u k => u.startRamp k u.tick (u.afterNs 2000)) l s = forAll (fun u k => u.startRamp k s.tick (s.afterNs 2000)) l s := by
  suffices h : ∀ u : State, u.tick = s.tick → u.afterNs 2000 = s.afterNs 2000 →
      forAll (fun u k => u.startRamp k u.tick (u.afterNs 2000)) l u = forAll (fun u k => u.startRamp k s.tick (s.afterNs 2000)) l u
    from h s rfl rfl
  induction l with
  | nil => intros; rfl
  | cons k l ih =>
    intro u tick after
    obtain ⟨ht, ha⟩ := startRamp_time u k s.tick (s.afterNs 2000) 2000
    simp only [forAll, tick, after]
    exact ih _ (ht.trans tick) (ha.trans after)

theorem gangCommit_starts {s : State} {w : Nat} {x : Walk} (hw : s.walks.get? w = some x) (gang : x.gang ≠ [])
    (ready : ∀ k ∈ x.gang, ∃ r, s.region? k = some r ∧ r.phase = .banks ∧ r.gangId.isSome = true ∧ s.banksHeld r = true) :
    Completes (.gangCommit w) s fun t => ∀ k ∈ x.gang, RegionIs t k fun r => r.phase = .starting ∧
      r.t0 = s.tick ∧ r.t0At = s.afterNs 2000 := by
  refine ⟨forAll (fun u k => u.startRamp k s.tick (s.afterNs 2000)) x.gang s, ?_, fun k hk => ?_⟩
  · show execGangCommit w s = _
    simp only [execGangCommit, hw, ← startRamps_eq]
    refine if_neg ?_
    simp only [Bool.or_eq_true, List.isEmpty_iff, gang, false_or, Bool.not_eq_true', Bool.not_eq_false]
    refine List.all_eq_true.2 fun k hk => ?_
    obtain ⟨r, hr, phase, id, held⟩ := ready k hk
    simp [hr, phase, id, held]
  · obtain ⟨r, hr, -⟩ := ready k hk
    have step {P : Region → Prop} (keep : ∀ y, P y → P { y with phase := .starting, t0 := s.tick, t0At := s.afterNs 2000 })
        (u : State) (v : Nat) (h : RegionIs u k P) : RegionIs (u.startRamp v s.tick (s.afterNs 2000)) k P := by
      obtain ⟨y, hy, p⟩ := h
      by_cases e : k = v
      · subst e
        exact ⟨_, startRamp_region hy _ _, keep y p⟩
      · exact ⟨y, (State.region_modRegion_ne e _).trans hy, p⟩
    refine forAll_reaches (P := fun u => RegionIs u k fun _ => True) hk (step fun _ _ => trivial) (fun u hu => ?_)
      (step fun _ _ => ⟨rfl, rfl, rfl⟩) ⟨r, hr, trivial⟩
    obtain ⟨y, hy, -⟩ := hu
    exact ⟨_, startRamp_region hy _ _, rfl, rfl, rfl⟩

/-! ## What a swap leaves alone (R280, R281)

When the last element has swapped, the tables of the step's regions are set. That binds import streams and reports planes
ready, but changes nothing else of an element, no bank and no cached line, and no image that a region already holds. -/

/-- A region that awaits no further image keeps the one it has. -/
def ImageKept (r q : Region) : Prop := r.next = none → q.next = none ∧ q.image = r.image ∧ q.cons = r.cons

/-- An element is as before but for its streams, and a plane that was ready still is. -/
def ElemKept (x y : Elem) : Prop := ∃ st rd, y = { x with streams := st, ready := rd } ∧ (x.ready = true → rd = true)

structure LoadFrame (s t : State) : Prop where
  elems : ∀ e, ElemKept (s.elem e) (t.elem e)
  banks : ∀ u, (t.tile u).banks = (s.tile u).banks
  fc : t.fc = s.fc
  images : ∀ k r, s.region? k = some r → ∃ q, t.region? k = some q ∧ ImageKept r q

theorem ElemKept.refl (x : Elem) : ElemKept x x := ⟨x.streams, x.ready, rfl, id⟩

theorem ElemKept.trans {x y z : Elem} (a : ElemKept x y) (b : ElemKept y z) : ElemKept x z := by
  obtain ⟨_, _, rfl, ha⟩ := a
  obtain ⟨st, rd, rfl, hb⟩ := b
  exact ⟨st, rd, rfl, fun h => hb (ha h)⟩

theorem ImageKept.refl (r : Region) : ImageKept r r := fun h => ⟨h, rfl, rfl⟩

theorem ImageKept.trans {r q p : Region} (a : ImageKept r q) (b : ImageKept q p) : ImageKept r p := by
  intro h
  obtain ⟨hn, hi, hc⟩ := a h
  obtain ⟨hn', hi', hc'⟩ := b hn
  exact ⟨hn', hi'.trans hi, hc'.trans hc⟩

namespace LoadFrame

/-- Updates of channels, tokens, islands, walks and the model's own counters are within the frame. -/
theorem of_eq {s t : State} (elems : t.elems = s.elems) (tiles : t.tiles = s.tiles) (fc : t.fc = s.fc)
    (regions : t.regions = s.regions) : LoadFrame s t where
  elems e := by simpa only [State.elem, elems] using ElemKept.refl _
  banks u := by simp only [State.tile, tiles]
  fc := fc
  images k r h := ⟨r, by rw [State.region?, regions]; exact h, .refl r⟩

theorem refl (s : State) : LoadFrame s s := of_eq rfl rfl rfl rfl

theorem trans {s t u : State} (a : LoadFrame s t) (b : LoadFrame t u) : LoadFrame s u where
  elems e := (a.elems e).trans (b.elems e)
  banks v := (b.banks v).trans (a.banks v)
  fc := b.fc.trans a.fc
  images k r h := by
    obtain ⟨q, hq, kq⟩ := a.images k r h
    obtain ⟨p, hp, kp⟩ := b.images k q hq
    exact ⟨p, hp, kq.trans kp⟩

theorem forAll {α : Type} {f : State → α → State} (hf : ∀ s x, LoadFrame s (f s x)) (l : List α) (s : State) :
    LoadFrame s (Machine.forAll f l s) :=
  forAll_keeps (P := LoadFrame s) (fun t x h => h.trans (hf t x)) l s (refl s)

theorem ite {s t u : State} (p : Prop) [Decidable p] (a : LoadFrame s t) (b : LoadFrame s u) :
    LoadFrame s (if p then t else u) := by
  by_cases h : p
  · rwa [if_pos h]
  · rwa [if_neg h]

theorem modElem (s : State) (e : Nat) {f : Elem → Elem} (hf : ∀ x, ElemKept x (f x)) : LoadFrame s (s.modElem e f) :=
  { of_eq (s := s) (t := s) rfl rfl rfl rfl with
    elems := fun i => by
      by_cases h : i = e
      · subst h; simpa using hf _
      · simpa [h] using ElemKept.refl _ }

theorem modTile (s : State) (u : Nat) {f : Tile → Tile} (hf : ∀ x, (f x).banks = x.banks) : LoadFrame s (s.modTile u f) :=
  { of_eq (s := s) (t := s) rfl rfl rfl rfl with
    banks := fun v => by
      by_cases h : v = u
      · subst h; simpa using hf _
      · simp [h] }

theorem setRegion {s : State} {k : Nat} {r q : Region} (hr : s.region? k = some r) (hq : ImageKept r q) :
    LoadFrame s (s.setRegion k q) :=
  { of_eq (s := s) (t := s) rfl rfl rfl rfl with
    images := fun i p hp => by
      by_cases h : i = k
      · subst h
        obtain rfl : r = p := Option.some.inj (hr.symm.trans hp)
        exact ⟨q, State.region_setRegion _ _ _, hq⟩
      · exact ⟨p, (State.region_setRegion_ne _ h _).trans hp, .refl p⟩ }

theorem modRegion (s : State) (k : Nat) {f : Region → Region} (hf : ∀ r, ImageKept r (f r)) : LoadFrame s (s.modRegion k f) := by
  unfold State.modRegion
  split
  · rename_i r hr
    exact setRegion hr (hf r)
  · exact refl s

theorem modPort (s : State) (p : Nat) (f : Port → Port) : LoadFrame s (s.modPort p f) := of_eq rfl rfl rfl rfl

theorem setPort (s : State) (p : Nat) (x : Port) : LoadFrame s (s.setPort p x) := of_eq rfl rfl rfl rfl

theorem modIsland (s : State) (i : Nat) (f : Island → Island) : LoadFrame s (s.modIsland i f) := of_eq rfl rfl rfl rfl

theorem modWalk (s : State) (w : Nat) (f : Walk → Walk) : LoadFrame s (s.modWalk w f) := by
  refine of_eq ?_ ?_ ?_ ?_ <;> simp

theorem launch (s : State) (u p : Nat) (t : Tok) : LoadFrame s (s.launch u p t) := by
  unfold State.launch
  split
  · exact refl s
  · exact of_eq rfl rfl rfl rfl

theorem sendRecon (s : State) (e : Nat) : LoadFrame s (s.sendRecon e) := by
  refine forAll (fun s ch => ?_) _ s
  dsimp only
  split
  · exact (modPort _ _ _).trans (launch _ _ _ _)
  · exact modPort _ _ _

theorem bindImport (s : State) (c imp p st : Nat) : LoadFrame s (s.bindImport c imp p st) :=
  modElem _ _ fun x => ⟨_, x.ready, rfl, id⟩

theorem bindResident (s : State) (es : List Nat) : LoadFrame s (s.bindResident es) := by
  refine forAll (fun s p => ?_) _ s
  split
  · split
    · exact ite _ (bindImport _ _ _ _ _) (refl s)
    · exact refl s
  · exact refl s

theorem installChan (s : State) (x : ChanRec) (p c rg : Nat) (gateway : Bool) : LoadFrame s (s.installChan x p c rg gateway) := by
  unfold State.installChan
  dsimp only
  have joined (t : State) (ht : LoadFrame s t) : LoadFrame s (if x.stamp = true then t.bindImport c x.imps p x.stamps else t) :=
    ite _ (ht.trans (bindImport _ _ _ _ _)) ht
  refine joined _ (ite _ (trans ?_ (modRegion _ _ fun r => ?_)) (of_eq rfl rfl rfl rfl))
  · exact of_eq rfl rfl rfl rfl
  · split <;> exact .refl r

theorem installFar (s : State) (g : ChanRec) (i x : Nat) : LoadFrame s (s.installFar g i x) := of_eq rfl rfl rfl rfl

theorem installGates (s : State) (rs : List Nat) (gates : List ChanRec) : LoadFrame s (s.installGates rs gates) := by
  unfold State.installGates
  dsimp only
  refine trans (forAll (fun s k => modRegion _ _ fun r => ?_) _ _) (forAll (fun s x => ?_) _ _)
  · exact fun h => ⟨h, rfl, rfl⟩
  · split
    · exact installChan _ _ _ _ _ _
    · exact installFar _ _ _ _
    · exact modPort _ _ _
    · exact refl s

theorem installTables (s : State) (rg : Nat) : LoadFrame s (s.installTables rg) := by
  unfold State.installTables
  split
  · exact refl s
  · rename_i r hr
    split
    · exact refl s
    · rename_i im him
      dsimp only
      refine trans ?_ (forAll (fun s x => ?_) _ _)
      · refine trans ?_ (forAll (fun s m => forAll (fun s n => ?_) _ _) _ _)
        · refine trans ?_ (forAll (fun s x => ?_) _ _)
          · refine trans ?_ (bindResident _ _)
            refine trans ?_ (forAll (fun s t => modTile _ _ (by intros; rfl)) _ _)
            refine trans ?_ (forAll (fun s i => modIsland _ _ _) _ _)
            refine trans ?_ (setRegion (r := r) hr fun h => ⟨h, rfl, rfl⟩)
            exact of_eq rfl rfl rfl rfl
          · split
            · exact installChan _ _ _ _ _ _
            · exact refl s
        · split
          · exact refl s
          · split
            · exact forAll (fun s vc => ite _ (refl s) (setPort _ _ _)) _ _
            · exact refl s
      · split
        · split
          · exact modPort _ _ _
          · exact refl s
        · exact refl s

theorem finishSwap (s : State) (w : Nat) : LoadFrame s (s.finishSwap w) := by
  unfold State.finishSwap
  split
  · exact refl s
  · dsimp only
    split
    · exact refl s
    · refine trans ?_ (installGates _ _ _)
      refine forAll (fun s k => ?_) _ _
      split
      · exact refl s
      · rename_i r hr
        refine trans ?_ (installTables _ _)
        refine trans ?_ (forAll (fun s t => modTile _ _ (by intros; rfl)) _ _)
        refine setRegion (r := r) hr fun h => ?_
        simp [h]

/-- A region starts to swap and reports planes ready. -/
theorem swapBegins {s : State} {k : Nat} {r : Region} (hr : s.region? k = some r) (es : List Nat) :
    LoadFrame s (Machine.forAll (fun s e => s.modElem e fun y => { y with ready := true }) es
      (s.setRegion k { r with phase := .swapping })) := by
  refine trans (t := s.setRegion k { r with phase := .swapping }) (setRegion hr fun h => ⟨h, rfl, rfl⟩) (forAll (fun s e => ?_) _ _)
  exact modElem _ _ fun x => ⟨x.streams, true, rfl, fun _ => rfl⟩

theorem beginSwap (s : State) (w : Nat) : LoadFrame s (s.beginSwap w) := by
  unfold State.beginSwap
  split
  · exact refl s
  · split
    · dsimp only
      split
      · exact refl s
      · refine trans ?_ (finishSwap _ _)
        refine forAll (fun s k => ?_) _ _
        split
        · exact refl s
        · rename_i r hr
          have marked := swapBegins hr (s.regionElems k ++ (r.members r.newBytes).map (·.1))
          exact ite _ (trans marked (forAll (fun s e => sendRecon _ _) _ _)) marked
    · exact refl s

theorem readyCheck (s : State) (w : Nat) : LoadFrame s (s.readyCheck w) := by
  unfold State.readyCheck
  split
  · exact refl s
  · split
    · split
      · exact refl s
      · refine trans ?_ (beginSwap _ _)
        refine trans ?_ (modWalk _ _ _)
        refine forAll (fun s k => modRegion _ _ fun r => ?_) _ _
        split <;> exact .refl r
    · exact refl s

end LoadFrame

/-! ## Image fetch (R41, R42, R280) -/

theorem fetchAll_one {s s1 : State} {w k : Nat} {x : Walk} {r : Region} {gates : List ChanRec} {im : ImageRec}
    (hr : s.region? k = some r) (alone : r.gangId = none) (fresh : r.phase = .loading)
    (fetched : s.fetchImage r (x.cons 0) gates = .inr (im, s1)) :
    s.fetchAll w x gates [k] = (s1.setRegion k { r with cons := x.cons 0, image := some im }).writePlanes r im.bytes := by
  simp [State.fetchAll, hr, alone, isFresh, fresh, fetched]

theorem fetchAll_fault {s : State} {w k : Nat} {x : Walk} {r : Region} {gates : List ChanRec} {f : LoadFault}
    (hr : s.region? k = some r) (alone : r.gangId = none) (fault : s.fetchImage r (x.cons 0) gates = .inl f)
    (found : f.reason ≠ .fetch) : s.fetchAll w x gates [k] = s.loadFailed w f := by
  simp [State.fetchAll, hr, alone, fault, found]

theorem writePlanes_region (s : State) (r : Region) (img : List Byte) (k : Nat) :
    (s.writePlanes r img).region? k = s.region? k :=
  forAll_same (g := fun t => t.region? k) (by intros; rfl) _ _

/-- A load that fails ends the run with STATE 3 and the fault that it met. -/
theorem loadFailed_walk {s : State} {w : Nat} {x : Walk} (hw : s.walks.get? w = some x) (f : LoadFault) :
    ∃ a b, (s.loadFailed w f).walks.get? w = some { x with
      phase := .ending, state := 3, reason := f.reason.code, slot := f.slot, elem := f.col + 256 * f.row, gang := []
      abandon := a, blocked := b } := by
  unfold State.loadFailed
  refine WalksKept.walk_modWalk (WalksKept.forAll (fun s k => ?_) _ _) hw _
  split
  · split
    · exact .trans (t := s.clearIdle _) (.of_eq rfl) (release_keeps_walks _ _ _)
    · split <;> exact .of_eq rfl
  · exact .of_eq rfl

theorem readyCheck_idle {s : State} {w : Nat} {x : Walk} (hw : s.walks.get? w = some x) (hp : ∀ q, x.phase ≠ .loading q) :
    s.readyCheck w = s := by
  unfold State.readyCheck
  rw [hw]
  dsimp only
  split
  · rename_i q h
    exact absurd h (hp q)
  · rfl

section
variable {s : State} {w k q : Nat} {x : Walk} {r : Region} (hw : s.walks.get? w = some x) (hp : x.phase = .loading q)
  (gang : x.gang = [k]) (hr : s.region? k = some r) (fresh : r.phase = .loading) (last : r.next = none)
  (bare : r.image = none) (alone : r.gangId = none) (single : (x.cons 0).isGang = false) (still : s.loadInTransit x = false)
include hw hp gang hr fresh last bare single still

/-- The one region of a step is fetched, and the step goes on when its planes are ready. -/
theorem exec_imagePrefetch_one : exec (.imagePrefetch w) s =
    .next (((s.fetchAll w x [] [k]).modWalk w fun y => { y with gates := [] }).readyCheck w) := by
  show execImagePrefetch w s = _
  simp [execImagePrefetch, hw, hp, gang, hr, Region.coming, fresh, last, bare, still, State.gateList, single, gateRecs]

include alone

theorem imagePrefetch_loads {im : ImageRec} {s1 : State} (fetched : s.fetchImage r (x.cons 0) [] = .inr (im, s1)) :
    Completes (.imagePrefetch w) s fun t => RegionIs t k fun r' => r'.image = some im ∧ r'.cons = x.cons 0 := by
  refine ⟨_, exec_imagePrefetch_one hw hp gang hr fresh last bare single still, ?_⟩
  rw [fetchAll_one hr alone fresh fetched]
  have loaded := (writePlanes_region (s1.setRegion k { r with cons := x.cons 0, image := some im }) r im.bytes k).trans
    (State.region_setRegion _ _ _)
  obtain ⟨q, hq, kept⟩ := ((LoadFrame.modWalk _ w fun y => { y with gates := [] }).trans (.readyCheck _ w)).images k _ loaded
  exact ⟨q, hq, (kept last).2⟩

theorem imagePrefetch_faults {f : LoadFault} (fault : s.fetchImage r (x.cons 0) [] = .inl f) (found : f.reason ≠ .fetch) :
    Completes (.imagePrefetch w) s fun t =>
      WalkIs t w fun y => y.phase = .ending ∧ y.state = 3 ∧ y.reason = f.reason.code ∧ y.slot = f.slot := by
  refine ⟨_, exec_imagePrefetch_one hw hp gang hr fresh last bare single still, ?_⟩
  rw [fetchAll_fault hr alone fault found]
  obtain ⟨a, b, failed⟩ := loadFailed_walk hw f
  have ended := State.walk_modWalk failed fun y => { y with gates := [] }
  rw [readyCheck_idle ended (by simp)]
  exact ⟨_, ended, rfl, rfl, rfl, rfl⟩

end

/-! ## Planes ready, and the swap (R280, R281) -/

theorem LoadFrame.ready {s t : State} (f : LoadFrame s t) {e : Nat} (h : (s.elem e).ready = true) : (t.elem e).ready = true := by
  obtain ⟨st, rd, eq, keep⟩ := f.elems e
  rw [eq]
  exact keep h

theorem planeReady_reports {s : State} {e k : Nat} {r : Region} {y : Consist × ImageRec}
    (ht : (s.tile (tileOf e)).region = some k) (hr : s.region? k = some r) (hy : r.coming = some y)
    (member : ∃ m ∈ r.members y.2.bytes, m.1 = e) :
    Completes (.planeReady e) s fun t => (t.elem e).ready = true := by
  have found : ((r.members y.2.bytes).any fun m => m.1 == e) = true := by
    simpa only [List.any_eq_true, beq_iff_eq] using member
  refine ⟨(s.modElem e fun x => { x with ready := true }).readyCheck r.walk, ?_, (LoadFrame.readyCheck _ _).ready ?_⟩
  · show execPlaneReady e s = _
    simp only [execPlaneReady, ht, hr, hy, found, if_true]
  · simp

theorem swapElem_member {s : State} {k e : Nat} {r : Region} {img : List Byte} (member : ∃ m ∈ r.members img, m.1 = e) :
    ∃ index o, (s.swapElem k r img e).elem e = Elem.init { s.elem e with
      onB := !(s.elem e).onB, planeS := (s.elem e).staged.getD (s.elem e).planeS, staged := none, ready := false } k index o img := by
  unfold State.swapElem
  cases found : (r.members img).find? fun m => m.1 == e with
  | none =>
    obtain ⟨m, hm, he⟩ := member
    exact absurd he (by simpa using List.find?_eq_none.1 found m hm)
  | some m => exact ⟨m.2.2, m.2.1, by simp⟩

theorem swapElem_idle {s : State} {k e : Nat} {r : Region} {img : List Byte} (outside : ∀ m ∈ r.members img, m.1 ≠ e) :
    (s.swapElem k r img e).elem e = { s.elem e with region := none, ended := true, ready := false, stopped := none } := by
  unfold State.swapElem
  rw [List.find?_eq_none.2 fun m hm => by simpa using outside m hm]
  simp

/-- The RECON heads that a swap takes leave every element as it is. -/
theorem dropHeads_elem (s : State) (e i : Nat) :
    (forAll (fun s ch => s.modPort (portKey e 0 ch) fun p => { p with queue := p.queue.drop 1 }) (List.range 6) s).elem i = s.elem i :=
  forAll_same (g := fun t => t.elem i) (by intros; rfl) _ _

theorem exec_planeSwap {s : State} {e k : Nat} {r : Region} (ht : (s.tile (tileOf e)).region = some k)
    (hr : s.region? k = some r) (hp : r.phase = .swapping) (ready : (s.elem e).ready = true) (work : (s.elem e).inS = false)
    (quiet : r.next = none ∨ (s.reconReady e = true ∧ (s.elem e).inflight = [])) :
    ∃ u : State, u.elem e = s.elem e ∧ exec (.planeSwap e) s = .next ((u.swapElem k r r.newBytes e).finishSwap r.walk) := by
  cases hn : r.next with
  | none =>
    refine ⟨s, rfl, ?_⟩
    show execPlaneSwap e s = _
    simp [execPlaneSwap, ht, hr, hp, ready, work, hn]
  | some y =>
    obtain ⟨recon, still⟩ := quiet.resolve_left (by simp [hn])
    refine ⟨_, dropHeads_elem s e e, ?_⟩
    show execPlaneSwap e s = _
    simp [execPlaneSwap, ht, hr, hp, ready, work, hn, recon, still]

theorem planeSwap_swaps {s : State} {e k : Nat} {r : Region} (ht : (s.tile (tileOf e)).region = some k)
    (hr : s.region? k = some r) (hp : r.phase = .swapping) (ready : (s.elem e).ready = true) (work : (s.elem e).inS = false)
    (quiet : r.next = none ∨ (s.reconReady e = true ∧ (s.elem e).inflight = [])) :
    Completes (.planeSwap e) s fun t =>
      ((∃ m ∈ r.members r.newBytes, m.1 = e) → (t.elem e).onB = !(s.elem e).onB ∧ (t.elem e).region = some k ∧
        (t.elem e).fires = 0 ∧ (t.elem e).estat = 0 ∧ (t.elem e).wr.v = Hex.rep VReg.zero ∧ (t.elem e).wr.p = Oct.rep 0 ∧
        (t.elem e).g = Quad.rep Counter.zero ∧ (t.elem e).ended = false ∧ (t.elem e).sr = (s.elem e).sr) ∧
      ((∀ m ∈ r.members r.newBytes, m.1 ≠ e) → (t.elem e).region = none ∧ (t.elem e).ended = true) := by
  obtain ⟨u, hu, run⟩ := exec_planeSwap ht hr hp ready work quiet
  obtain ⟨st, rd, eq, -⟩ := (LoadFrame.finishSwap (u.swapElem k r r.newBytes e) r.walk).elems e
  refine ⟨_, run, fun member => ?_, fun outside => ?_⟩
  · obtain ⟨index, o, swapped⟩ := swapElem_member (s := u) (k := k) member
    rw [eq, swapped, hu]
    exact ⟨rfl, rfl, rfl, rfl, rfl, rfl, rfl, rfl, rfl⟩
  · rw [eq, swapElem_idle outside]
    exact ⟨rfl, rfl⟩

/-! ## Banks and start tokens (R85, R285) -/

theorem Mem.get_eq_zero {m : Mem} {a : Nat} (h : ∀ c ∈ m, c.1 ≠ a) : m.get a = 0 := by
  induction m with
  | nil => rfl
  | cons c m ih =>
    obtain ⟨k, v⟩ := c
    have hk : k ≠ a := h _ List.mem_cons_self
    simp only [Mem.get, hk, if_false, ih fun c hc => h c (List.mem_cons_of_mem _ hc), ite_self]

theorem zeroBank_get (m : Mem) (u b : Nat) {off : Nat} (lt : off < 65536) : Mem.get (zeroBank m u b) (spmKey u b off) = 0 := by
  refine Mem.get_eq_zero fun c hc e => ?_
  obtain ⟨-, other⟩ := List.mem_filter.1 hc
  rw [e, spmKey] at other
  simp [show ((u * 16 + b) * 65536 + off) / 65536 = u * 16 + b by omega] at other

section
variable {s : State} {r : Region} {im : ImageRec} (hi : r.image = some im)
include hi

theorem takeBank_token (u : Nat) {b : Nat} (hb : b < 16) : (((s.takeBank r u b).tile u).banks.get b).token = true := by
  simp [State.takeBank, hi, Hex.get_set_same _ hb]

theorem takeBank_spm_kept {u b : Nat} (clean : ((s.tile u).banks.get b).clean = true)
    (own : ((s.tile u).banks.get b).run = some r.walk) : (s.takeBank r u b).spm = s.spm := by
  simp [State.takeBank, hi, clean, own]

theorem takeBank_spm_zeroed {u b : Nat}
    (other : ¬(((s.tile u).banks.get b).clean = true ∧ ((s.tile u).banks.get b).run = some r.walk)) :
    (s.takeBank r u b).spm = zeroBank s.spm u b := by
  simp [State.takeBank, hi, other]

end

/-- A bank passes; the start instant that may follow changes neither tiles nor tile memory. -/
theorem exec_bankTokenGrant {s : State} {k u b : Nat} {r : Region} (hb : b < 16) (hr : s.region? k = some r) (hp : r.phase = .banks)
    (mine : u ∈ r.tiles) (token : ((s.tile u).banks.get b).token = false) :
    ∃ t, exec (.bankTokenGrant k u b) s = .next t ∧ t.tiles = (s.takeBank r u b).tiles ∧ t.spm = (s.takeBank r u b).spm := by
  have go : exec (.bankTokenGrant k u b) s =
      if r.gangId.isNone && (s.takeBank r u b).banksHeld r then
        .next ((s.takeBank r u b).startRamp k ((s.takeBank r u b).tick + 1) (s.takeBank r u b).clock)
      else .next (s.takeBank r u b) := by
    show execBankTokenGrant k u b s = _
    simp [execBankTokenGrant, hr, hp, mine, Nat.mod_eq_of_lt hb, token]
  rw [go]
  split
  · exact ⟨_, rfl, by simp [State.startRamp], by simp [State.startRamp]⟩
  · exact ⟨_, rfl, rfl, rfl⟩

theorem bankTokenGrant_passes {s : State} {k u b : Nat} {r : Region} {im : ImageRec} (hb : b < 16) (hr : s.region? k = some r)
    (hp : r.phase = .banks) (hi : r.image = some im) (mine : u ∈ r.tiles) (token : ((s.tile u).banks.get b).token = false) :
    Completes (.bankTokenGrant k u b) s fun t => ((t.tile u).banks.get b).token = true ∧
      (¬(((s.tile u).banks.get b).clean = true ∧ ((s.tile u).banks.get b).run = some r.walk) →
        ∀ off < 65536, t.spm.get (spmKey u b off) = 0) ∧
      (((s.tile u).banks.get b).clean = true → ((s.tile u).banks.get b).run = some r.walk → t.spm = s.spm) := by
  obtain ⟨t, run, tiles, spm⟩ := exec_bankTokenGrant hb hr hp mine token
  refine ⟨t, run, ?_, fun other off lt => ?_, fun clean own => ?_⟩
  · have := takeBank_token (s := s) hi u hb
    rwa [State.tile, ← tiles] at this
  · rw [spm, takeBank_spm_zeroed hi other, zeroBank_get _ _ _ lt]
  · rw [spm, takeBank_spm_kept hi clean own]

theorem resumeWalk_tiles (s : State) (w : Nat) (x : Walk) : (s.resumeWalk w x).tiles = s.tiles := by
  simp [State.resumeWalk]

theorem nextRecord_tiles (s : State) (w n : Nat) : (s.nextRecord w n).tiles = s.tiles := by
  simp [State.nextRecord]

/-- Once the tile has started, what follows concerns the region and its walk alone. -/
theorem exec_startTokenArrive {s : State} {k u due : Nat} {r : Region} (hr : s.region? k = some r) (hp : r.phase = .starting)
    (mine : u ∈ r.tiles) (hd : (s.tile u).startDue = some due) (le : due ≤ s.tick) :
    ∃ t, exec (.startTokenArrive k u) s = .next t ∧
      t.tiles = (s.modTile u fun x => { x with started := true, startDue := none }).tiles := by
  show ∃ t, execStartTokenArrive k u s = _ ∧ _
  unfold execStartTokenArrive
  rw [hr, hd]
  simp -zeta only [hp]
  extract_lets d first started marked begun running up
  rw [if_neg (by simp [d, mine, le])]
  have hb : begun.tiles = started.tiles := by
    simp only [begun, marked]
    split <;> simp
  have hrun : running.tiles = started.tiles := by rw [← hb]; exact State.modRegion_tiles _ _ _
  split
  · exact ⟨_, rfl, hb⟩
  · split
    · exact ⟨_, rfl, hrun⟩
    · split
      · refine ⟨_, rfl, ?_⟩
        split
        · rw [resumeWalk_tiles, hrun]
        · exact hrun
      · split
        · exact ⟨_, rfl, by rw [nextRecord_tiles, State.modWalk_tiles, hrun]⟩
        · exact ⟨_, rfl, hrun⟩

theorem startTokenArrive_starts {s : State} {k u due : Nat} {r : Region} (hr : s.region? k = some r) (hp : r.phase = .starting)
    (mine : u ∈ r.tiles) (hd : (s.tile u).startDue = some due) (le : due ≤ s.tick) :
    Completes (.startTokenArrive k u) s fun t => (t.tile u).started = true ∧ (t.tile u).startDue = none := by
  obtain ⟨t, run, tiles⟩ := exec_startTokenArrive hr hp mine hd le
  have started : t.tile u = { s.tile u with started := true, startDue := none } := by
    rw [State.tile, tiles]
    exact State.tile_setTile _ _ _
  exact ⟨t, run, by rw [started], by rw [started]⟩

/-! ## What bytes applied at a home leave alone (R163, R298, R334) -/

/-- No round buffer and no cached line changes: what a write at a home brings about are packets, trace records and cuts. -/
structure HomeFrame (s t : State) : Prop where
  rnd : ∀ u, (t.tile u).rnd = (s.tile u).rnd
  fc : t.fc = s.fc

namespace HomeFrame

theorem of_eq {s t : State} (tiles : t.tiles = s.tiles) (fc : t.fc = s.fc) : HomeFrame s t :=
  ⟨fun u => by simp only [State.tile, tiles], fc⟩

theorem refl (s : State) : HomeFrame s s := of_eq rfl rfl

theorem trans {s t u : State} (a : HomeFrame s t) (b : HomeFrame t u) : HomeFrame s u :=
  ⟨fun v => (b.rnd v).trans (a.rnd v), b.fc.trans a.fc⟩

theorem forAll {α : Type} {f : State → α → State} (hf : ∀ s x, HomeFrame s (f s x)) (l : List α) (s : State) :
    HomeFrame s (Machine.forAll f l s) :=
  forAll_keeps (P := HomeFrame s) (fun t x h => h.trans (hf t x)) l s (refl s)

theorem ite {s t u : State} (p : Prop) [Decidable p] (a : HomeFrame s t) (b : HomeFrame s u) :
    HomeFrame s (if p then t else u) := by
  by_cases h : p
  · rwa [if_pos h]
  · rwa [if_neg h]

theorem modElem (s : State) (e : Nat) (f : Elem → Elem) : HomeFrame s (s.modElem e f) := of_eq rfl rfl

theorem modTile (s : State) (u : Nat) {f : Tile → Tile} (hf : ∀ x, (f x).rnd = x.rnd) : HomeFrame s (s.modTile u f) where
  rnd v := by
    by_cases h : v = u
    · subst h; simpa using hf _
    · simp [h]
  fc := rfl

theorem setRegion (s : State) (k : Nat) (r : Region) : HomeFrame s (s.setRegion k r) := of_eq rfl rfl

theorem stopSaved (s : State) (c : Cut) : HomeFrame s (s.stopSaved c) := by
  unfold State.stopSaved
  refine trans ?_ (forAll (fun _ _ => modTile _ _ (by intros; rfl)) _ _)
  exact forAll (fun _ _ => modElem _ _ _) _ s

theorem askCutOne (s : State) (r : Nat) (stop : Bool) (who : List CutFor) : HomeFrame s (s.askCutOne r stop who) := by
  unfold State.askCutOne
  split
  · exact refl s
  · dsimp only
    split
    · split
      · exact (setRegion _ _ _).trans (stopSaved _ _)
      · exact setRegion _ _ _
    · split <;> exact of_eq rfl rfl

theorem haltRun (s : State) (run : W) : HomeFrame s (s.haltRun run) :=
  forAll (fun _ _ => ite _ (forAll (fun _ _ => askCutOne _ _ _ _) _ _) (refl _)) _ s

theorem trace (s : State) (d ty sub : Nat) (elid : W) (node : Nat) (fires i0 i1 : W) :
    HomeFrame s (s.trace d ty sub elid node fires i0 i1) := by
  unfold State.trace
  dsimp only
  split
  · exact refl s
  · split <;> exact of_eq rfl rfl

theorem dwpHit (s : State) (pa kind : Nat) (who : Option Who) (runs : List W) : HomeFrame s (s.dwpHit pa kind who runs) := by
  unfold State.dwpHit
  split
  · exact refl s
  · refine forAll (fun s n => ite _ ?_ (refl s)) _ s
    exact ite _ ((trace _ _ _ _ _ _ _ _ _).trans (forAll (fun _ _ => haltRun _ _) _ _)) (trace _ _ _ _ _ _ _ _ _)

theorem sendPacket (s : State) (f src rg label : Nat) (a b : W) (two : Bool) (round : Nat) :
    HomeFrame s (s.sendPacket f src rg label a b two round) := by
  unfold State.sendPacket
  split
  · split <;> exact of_eq rfl rfl
  · exact refl s

theorem watchPackets (s : State) (pa : Nat) (before after : List Byte) : HomeFrame s (s.watchPackets pa before after) :=
  forAll (fun _ _ => ite _ (refl _) (forAll (fun _ _ => ite _ (refl _) (sendPacket _ _ _ _ _ _ _ _ _)) _ _)) _ s

theorem applyHome (s : State) (kind : Nat) (who : Option Who) (runs : List W) (bs : List (Nat × Byte)) :
    HomeFrame s (s.applyHome kind who runs bs) := by
  unfold State.applyHome
  split
  · exact refl s
  · dsimp only
    refine trans ?_ (dwpHit _ _ _ _ _)
    refine trans ?_ (watchPackets _ _ _ _)
    exact of_eq rfl rfl

theorem refreshVisitor (s : State) (d : Nat) (bs : List (Nat × Byte)) : HomeFrame s (s.refreshVisitor d bs) := by
  unfold State.refreshVisitor
  split
  · exact refl s
  · split <;> exact of_eq rfl rfl

end HomeFrame

/-! ## Completion (R282, R302) -/

/-- What is read of a tile when every listed tile changes in the same way, an unlisted one reading alike before and after. -/
theorem tile_mapTiles {β : Type} (s : State) (f : Tile → Tile) (g : Tile → β) (hf : g (f Tile.reset) = g Tile.reset) (u : Nat) :
    g (State.tile { s with tiles := s.tiles.map fun t => (t.1, f t.2) } u) = g (f (s.tile u)) := by
  simp only [State.tile, SMap.getD, SMap.get_map s.tiles (fun t => (t.1, f t.2)) fun _ _ => rfl]
  cases s.tiles.get? u
  · exact hf.symm
  · rfl

theorem commitRound_rnd (s : State) (k n u : Nat) :
    ((s.commitRound k n).tile u).rnd = (s.tile u).rnd.filter fun l => !(l.region == k && l.round == n) := by
  unfold State.commitRound
  refine (HomeFrame.rnd (HomeFrame.forAll (fun t l => ?_) _ _) u).trans ?_
  · split
    · exact (HomeFrame.applyHome _ _ _ _ _).trans (HomeFrame.refreshVisitor _ _ _)
    · exact HomeFrame.applyHome _ _ _ _ _
  · exact tile_mapTiles s (fun x => { x with rnd := x.rnd.filter fun l => !(l.region == k && l.round == n) }) Tile.rnd rfl u

theorem nextRecord_regions (s : State) (w n : Nat) : (s.nextRecord w n).regions = s.regions := by
  simp [State.nextRecord]

/-- The walks that a cut holds go on; neither regions nor tiles change by that. -/
theorem wakeWalks_keeps {f : State → CutFor → State} (hf : ∀ s c, f s c = s ∨ ∃ w, f s c = s.nextRecord w 1) (l : List CutFor)
    (s : State) (k : Nat) : (forAll f l s).region? k = s.region? k ∧ (forAll f l s).tiles = s.tiles := by
  constructor
  · refine forAll_same (g := fun t => t.region? k) (fun t c => ?_) l s
    rcases hf t c with h | ⟨w, h⟩ <;> rw [h]
    rw [State.region?, nextRecord_regions, ← State.region?]
  · refine forAll_same (g := State.tiles) (fun t c => ?_) l s
    rcases hf t c with h | ⟨w, h⟩ <;> rw [h]
    exact nextRecord_tiles _ _ _

theorem exec_consistComplete {s : State} {k : Nat} {r : Region} (hr : s.region? k = some r) (hp : r.phase = .running)
    (va : r.voidAsked = []) (vt : r.voidTag = none) (done : s.consistDone k r = true) :
    ∃ t asked, exec (.consistComplete k) s = .next t ∧
      t.region? k = some { r with phase := .completing, round := r.round + 1, undo := [], log := [], replay := [], arms := []
                                  cut := none, cutAsked := asked } ∧
      t.tiles = ((s.commitRound k r.round).commitRound k (r.round + 1)).tiles.map fun t =>
        (t.1, { t.2 with watches := t.2.watches.filter fun w => w.region != k }) := by
  show ∃ t asked, execConsistComplete k s = _ ∧ _
  unfold execConsistComplete
  rw [hr]
  simp -zeta only [hp]
  extract_lets free committed isWalk waits asked completing es cleared
  rw [if_neg (by simp [free, va, vt, done])]
  refine ⟨_, asked, rfl, (wakeWalks_keeps (fun s c => ?_) waits cleared k).imp (·.trans (State.region_setRegion _ _ _)) id⟩
  cases c with
  | walk w => exact .inr ⟨w, rfl⟩
  | _ => exact .inl rfl

theorem consistComplete_completes {s : State} {k : Nat} {r : Region} (hr : s.region? k = some r) (hp : r.phase = .running)
    (va : r.voidAsked = []) (vt : r.voidTag = none) (done : s.consistDone k r = true) :
    Completes (.consistComplete k) s fun t =>
      (RegionIs t k fun q => q.phase = .completing ∧ q.round = r.round + 1 ∧ q.undo = [] ∧ q.log = [] ∧ q.cut = none) ∧
      ∀ tile, (∀ l ∈ (t.tile tile).rnd, ¬(l.region = k ∧ (l.round = r.round ∨ l.round = r.round + 1))) ∧
        ∀ w ∈ (t.tile tile).watches, w.region ≠ k := by
  obtain ⟨t, asked, run, region, tiles⟩ := exec_consistComplete hr hp va vt done
  refine ⟨t, run, ⟨_, region, rfl, rfl, rfl, rfl, rfl⟩, fun u => ⟨fun l hl => ?_, fun w hw => ?_⟩⟩
  · have rnd : (t.tile u).rnd = (((s.commitRound k r.round).commitRound k (r.round + 1)).tile u).rnd := by
      rw [State.tile, tiles]
      exact tile_mapTiles _ (fun x => { x with watches := x.watches.filter fun w => w.region != k }) Tile.rnd rfl u
    rw [rnd, commitRound_rnd, commitRound_rnd, List.mem_filter, List.mem_filter] at hl
    rintro ⟨rfl, e | e⟩ <;> simp [e] at hl
  · have watches : (t.tile u).watches =
        (((s.commitRound k r.round).commitRound k (r.round + 1)).tile u).watches.filter fun w => w.region != k := by
      rw [State.tile, tiles]
      exact tile_mapTiles _ (fun x => { x with watches := x.watches.filter fun w => w.region != k }) Tile.watches rfl u
    rw [watches, List.mem_filter] at hw
    simpa using hw.2

/-! ## The completion token (R82, R85, R259, R282) -/

theorem settleRound_fc (s : State) (rg : Option Nat) (bs : List (Nat × Byte)) : (s.settleRound rg bs).fc = s.fc := by
  unfold State.settleRound
  split <;> rfl

theorem vWriteBack_fc (s : State) (k : Nat) : (s.vWriteBack k).fc = s.fc := by
  unfold State.vWriteBack
  split
  · split
    · rfl
    · exact (HomeFrame.applyHome _ _ _ _ _).fc.trans (forAll_same (g := State.fc) (fun _ _ => settleRound_fc _ _ _) _ _)
  · rfl

theorem flushVisitors_fc (s : State) (mine : Nat → Bool) : (s.flushVisitors mine).fc = s.fc :=
  forAll_same (g := State.fc) (fun _ _ => vWriteBack_fc _ _) _ _

theorem Hex.get_mk_map {α β : Type} (f : α → β) (h : Hex α) (n : Nat) : Hex.get ⟨h.lo.map f, h.hi.map f⟩ n = f (h.get n) := by
  unfold Hex.get
  split <;> exact Oct.get_map _ _ _

theorem exec_completionTokenPass {s : State} {k u : Nat} {r : Region} (hr : s.region? k = some r) (hp : r.phase = .completing)
    (mine : u ∈ r.tiles) (ahead : (s.tile u).passed = false) :
    ∃ v t : State, exec (.completionTokenPass k u) s = .next t ∧ LoadFrame v t ∧ (∀ l ∈ v.fc, l.1 / 16384 ≠ u) ∧
      ∀ b, ((v.tile u).banks.get b) = { Bank.none with run := some r.walk, clean := true } := by
  show ∃ v t : State, execCompletionTokenPass k u s = _ ∧ _
  unfold execCompletionTokenPass
  rw [hr]
  simp -zeta only [hp]
  rw [if_neg (by simp [mine, ahead])]
  extract_lets here written gone flushed bare give passed
  have fc : ∀ l ∈ passed.fc, l.1 / 16384 ≠ u := by
    intro l hl
    have hf : passed.fc = written.fc.filter fun l => l.1 / 16384 != u := flushVisitors_fc gone _
    rw [hf, List.mem_filter] at hl
    simpa using hl.2
  have banks (b : Nat) : (passed.tile u).banks.get b = { Bank.none with run := some r.walk, clean := true } := by
    have given : (passed.tile u).banks = ⟨(flushed.tile u).banks.lo.map give, (flushed.tile u).banks.hi.map give⟩ := by
      simp [passed]
    rw [given, Hex.get_mk_map]
    simp [give, bare, Bank.none]
  refine ⟨passed, ?_⟩
  split
  · exact ⟨_, rfl, .refl _, fc, banks⟩
  · refine ⟨_, rfl, ?_, fc, banks⟩
    refine .trans ?_ (.beginSwap _ _)
    refine .trans ?_ (.modWalk _ _ _)
    exact .modRegion _ _ fun r h => ⟨h, rfl, rfl⟩

theorem completionTokenPass_passes {s : State} {k u : Nat} {r : Region} (hr : s.region? k = some r) (hp : r.phase = .completing)
    (mine : u ∈ r.tiles) (ahead : (s.tile u).passed = false) :
    Completes (.completionTokenPass k u) s fun t =>
      (∀ l ∈ t.fc, l.1 / 16384 ≠ u) ∧ ∀ b < 16, ((t.tile u).banks.get b).clean = true ∧
        ((t.tile u).banks.get b).run = some r.walk ∧ ((t.tile u).banks.get b).role = .unused := by
  obtain ⟨v, t, run, frame, fc, banks⟩ := exec_completionTokenPass hr hp mine ahead
  refine ⟨t, run, by rwa [frame.fc], fun b _ => ?_⟩
  rw [frame.banks, banks]
  exact ⟨rfl, rfl, rfl⟩

/-! ## GABORT (R283) -/

/-- A run that GABORT reaches, or that it has already ended. -/
def Abortable (s : State) (w : Nat) : Prop :=
  WalkIs s w fun y => y.phase ≠ .finished ∧ (y.phase = .writing → y.state = 2 → y.cause = 1)

theorem abortable_of_aborted {s : State} {w : Nat} (h : Aborted s w 1) : Abortable s w := by
  obtain ⟨y, hy, phase, -, cause⟩ := h
  exact ⟨y, hy, by simp [phase], fun _ _ => cause⟩

/-- Up to the record of its own run, an abort changes of the walks what the release of regions does. -/
theorem abortWalk_eq {s : State} {w : Nat} {x : Walk} (hw : s.walks.get? w = some x) (cause : Nat) (active : x.phase ≠ .finished)
    (due : x.phase ≠ .writing) : ∃ u : State, WalksKept s u ∧ s.abortWalk w cause = u.modWalk w fun y => { y with
      state := 2, cause := cause, reason := 0, slot := 0, elem := 0, phase := .writing, held := none, region := none
      prev := none, gang := [] } := by
  unfold State.abortWalk
  rw [hw]
  dsimp only
  rw [if_neg active, if_neg due]
  refine ⟨_, ?_, rfl⟩
  refine .trans ?_ (.of_eq (dropWalks_walks _))
  refine .trans ?_ (.of_eq rfl)
  exact WalksKept.forAll (fun _ _ => flush_keeps_walks _ _) _ _

theorem abortWalk_self {s : State} {w : Nat} (h : Abortable s w) : Aborted (s.abortWalk w 1) w 1 := by
  obtain ⟨y, hy, active, ended⟩ := h
  by_cases due : y.phase = .writing
  · unfold State.abortWalk
    rw [hy]
    dsimp only
    rw [if_neg active, if_pos due]
    by_cases before : y.state = 2
    · rw [if_pos before]
      exact ⟨y, hy, due, before, ended due before⟩
    · rw [if_neg before]
      exact ⟨_, State.walk_modWalk hy _, due, rfl, rfl⟩
  · obtain ⟨u, kept, eq⟩ := abortWalk_eq hy 1 active due
    obtain ⟨a, b, h⟩ := kept.walk_modWalk hy fun y => { y with
      state := 2, cause := 1, reason := 0, slot := 0, elem := 0, phase := .writing, held := none, region := none
      prev := none, gang := [] }
    rw [eq]
    exact ⟨_, h, rfl, rfl, rfl⟩

theorem abortWalk_other {s : State} {v w : Nat} (ne : w ≠ v) (cause : Nat) {x : Walk} (hw : s.walks.get? w = some x) :
    ∃ a b, (s.abortWalk v cause).walks.get? w = some { x with abandon := a, blocked := b } := by
  cases hv : s.walks.get? v with
  | none =>
    refine ⟨x.abandon, x.blocked, ?_⟩
    unfold State.abortWalk
    rw [hv]
    exact hw
  | some y =>
    by_cases idle : y.phase = .finished ∨ y.phase = .writing
    · refine ⟨x.abandon, x.blocked, ?_⟩
      unfold State.abortWalk
      rw [hv]
      dsimp only
      split
      · exact hw
      · rw [if_pos (idle.resolve_left ‹_›)]
        split
        · exact hw
        · exact (State.walk_modWalk_ne ne _).trans hw
    · obtain ⟨active, due⟩ := not_or.1 idle
      obtain ⟨u, kept, eq⟩ := abortWalk_eq hv cause active due
      obtain ⟨a, b, h⟩ := kept w x hw
      exact ⟨a, b, by rw [eq, State.walk_modWalk_ne ne, h]⟩

/-- What is said of a walk, but for its abandoned commands and its leave to reserve, outlasts the abort of another. -/
theorem abortWalk_keeps {s : State} {v w : Nat} (ne : w ≠ v) {P : Walk → Prop}
    (hP : ∀ (x : Walk) a b, P x → P { x with abandon := a, blocked := b }) (h : WalkIs s w P) : WalkIs (s.abortWalk v 1) w P := by
  obtain ⟨x, hx, p⟩ := h
  obtain ⟨a, b, hy⟩ := abortWalk_other ne 1 hx
  exact ⟨_, hy, hP x a b p⟩

theorem gabort_aborts {s : State} {d w : Nat} {run : W} {x : Walk} (hw : s.walks.get? w = some x) (hd : x.die = d) (hr : x.run = run)
    (active : x.phase ≠ .finished) (due : x.phase = .writing → x.state ≠ 2) :
    Completes (.gabort d run) s fun t => Aborted t w 1 := by
  refine ⟨_, rfl, ?_⟩
  have unfinished : isOver x = false := by
    unfold isOver
    split
    · contradiction
    · rfl
  have listed : w ∈ (s.walks.filter fun w => w.2.die == d && w.2.run == run && !isOver w.2).map (·.1) :=
    List.mem_map.2 ⟨(w, x), List.mem_filter.2 ⟨SMap.mem_of_get hw, by simp [hd, hr, unfinished]⟩, rfl⟩
  refine forAll_reaches (P := fun u => Abortable u w) listed (fun u v h => ?_) (fun u h => abortWalk_self h) (fun u v h => ?_)
    ⟨x, hw, active, fun p q => absurd q (due p)⟩
  · by_cases e : w = v
    · subst e; exact abortable_of_aborted (abortWalk_self h)
    · exact abortWalk_keeps e (fun _ _ _ p => p) h
  · by_cases e : w = v
    · subst e; exact abortWalk_self (abortable_of_aborted h)
    · exact abortWalk_keeps e (fun _ _ _ p => p) h

/-! ## Urgent launches (R271, R313) -/

theorem mem_rectElems {d tr tc h w i j er ec : Nat} (hi : i < h) (hj : j < w) (hr : er < 4) (hc : ec < 8) :
    elemAt (d * 256 + (tr + i) * 16 + tc + j) er ec ∈ rectElems d tr tc h w := by
  refine List.mem_flatMap.2 ⟨i * w + j, List.mem_range.2 ?_, List.mem_map.2 ⟨er * 8 + ec, List.mem_range.2 (by omega), ?_⟩⟩
  · calc i * w + j < i * w + w := Nat.add_lt_add_left hj _
      _ = (i + 1) * w := (Nat.succ_mul i w).symm
      _ ≤ h * w := Nat.mul_le_mul_right w hi
      _ = w * h := Nat.mul_comm h w
  · have row : (i * w + j) / w = i := by
      rw [Nat.mul_comm, Nat.mul_add_div (by omega), Nat.div_eq_of_lt hj, Nat.add_zero]
    have col : (i * w + j) % w = j := by rw [Nat.mul_comm, Nat.mul_add_mod, Nat.mod_eq_of_lt hj]
    rw [row, col, elemAt]
    omega

theorem urgent_of_mem {e : Nat} {es : List Nat} (he : e ∈ es) (s : State) :
    ((forAll (fun s e => s.modElem e fun x => { x with urgent := true }) es s).elem e).urgent = true := by
  refine forAll_reaches (P := fun _ => True) (Q := fun t => (t.elem e).urgent = true) he (fun _ _ _ => trivial)
    (fun t _ => ?_) (fun t v ht => ?_) trivial
  · simp
  · by_cases h : e = v
    · subst h; simp
    · simpa [h] using ht

theorem urgentLaunch_outside {s : State} {d : Nat} {v : W}
    (outside : ¬(v.toNat / 2 ^ 12 % 16 + v.toNat / 2 ^ 4 % 16 + 1 ≤ 16 ∧ v.toNat / 2 ^ 8 % 16 + v.toNat % 16 + 1 ≤ 16)) :
    Completes (.urgentLaunch d v) s fun t => (t.die d).lurg = (s.die d).lurg ∧ t.elems = s.elems := by
  refine ⟨s.setDie d { s.die d with shunterGated := false }, ?_, by simp, rfl⟩
  show execUrgentLaunch d v s = _
  unfold execUrgentLaunch
  dsimp only
  refine if_pos ?_
  simp only [fld]
  omega

theorem urgentLaunch_inside {s : State} {d : Nat} {v : W} (idle : (s.die d).lurg.getLsbD 31 = false) (busy : v.getLsbD 31 = true)
    (inside : v.toNat / 2 ^ 12 % 16 + v.toNat / 2 ^ 4 % 16 + 1 ≤ 16 ∧ v.toNat / 2 ^ 8 % 16 + v.toNat % 16 + 1 ≤ 16) :
    Completes (.urgentLaunch d v) s fun t => ∀ i j er ec, i ≤ v.toNat / 2 ^ 4 % 16 → j ≤ v.toNat % 16 → er < 4 → ec < 8 →
      (s.elem (elemAt (d * 256 + (v.toNat / 2 ^ 12 % 16 + i) * 16 + v.toNat / 2 ^ 8 % 16 + j) er ec)).planeS.valid ≠ 0 →
      (t.elem (elemAt (d * 256 + (v.toNat / 2 ^ 12 % 16 + i) * 16 + v.toNat / 2 ^ 8 % 16 + j) er ec)).urgent = true ∧
        (t.die d).lurg.getLsbD 31 = true := by
  show ∃ t, execUrgentLaunch d v s = _ ∧ _
  unfold execUrgentLaunch
  extract_lets x n woken fields
  dsimp -zeta only
  rw [if_neg (by simp only [fld, n]; omega), if_neg (by simp only [x, idle, Bool.false_eq_true, not_false_eq_true]), if_neg (by simp [busy])]
  extract_lets es marked
  refine ⟨_, rfl, fun i j er ec hi hj hr hc work => ?_⟩
  have listed : elemAt (d * 256 + (fld n 12 4 + i) * 16 + fld n 8 4 + j) er ec ∈ es :=
    List.mem_filter.2 ⟨mem_rectElems (by simp only [fld, n]; omega) (by simp only [fld, n]; omega) hr hc, bne_iff_ne.2 work⟩
  constructor
  · exact urgent_of_mem listed marked
  · have nonempty : es.isEmpty = false := List.isEmpty_eq_false_iff_exists_mem.2 ⟨_, listed⟩
    have lurg : (marked.die d).lurg = fields ||| 0x80000000#32 := by simp [marked, nonempty]
    rw [forAll_same (g := fun t => (t.die d).lurg) (by intros; rfl), lurg]
    simp

/-- Ending the urgent launch of a die changes no element. -/
theorem settleUrgent_elem (s : State) (d e : Nat) : (s.settleUrgent d).elem e = s.elem e := by
  unfold State.settleUrgent; split <;> rfl

theorem planeSSwitch_switches {s : State} {e : Nat} (urgent : (s.elem e).urgent = true) :
    Completes (.planeSSwitch e) s fun t => (t.elem e).urgent = false ∧
      (t.elem e).inS = true ∧ (t.elem e).wr = (s.elem e).wr ∧
      ((s.elem e).inS = false → (t.elem e).sr.jord = (s.elem e).planeS.order ∧ (t.elem e).sr.v = (s.elem e).sr.v) := by
  show ∃ t, execPlaneSSwitch e s = _ ∧ _
  cases work : (s.elem e).inS with
  | true =>
    refine ⟨(s.setElem e { s.elem e with urgent := false }).settleUrgent (dieOf e), by simp [execPlaneSSwitch, urgent, work], ?_⟩
    rw [settleUrgent_elem, State.elem_setElem]
    exact ⟨rfl, work, rfl, by simp⟩
  | false =>
    refine ⟨(s.setElem e { s.elem e with
      urgent := false, inS := true, sr := { (s.elem e).sr with jord := (s.elem e).planeS.order } }).settleUrgent (dieOf e),
      by simp [execPlaneSSwitch, urgent, work], ?_⟩
    rw [settleUrgent_elem, State.elem_setElem]
    exact ⟨rfl, rfl, rfl, fun _ => ⟨rfl, rfl⟩⟩

end Sys2Proof.Machine

namespace Sys2Proof.Proofs
open Sys2Proof.Machine

/-- Settles O55: each step by its own lemma; what follows a step is within the frames of a release, a swap and a write at a
home. -/
theorem loadingSteps : Obligations.LoadingSteps := by
  refine ⟨?_, ?_, ?_, ?_, ?_, ?_, ?_, ?_, ?_, ?_, ?_, ?_, ?_, ?_⟩
  · exact fun s d w h edges tr tc found => findRect_lowest found
  · intro s w x hw hp
    refine ⟨placementAttempt_releases hw hp, placementAttempt_waits_for_consist hw hp, fun wh s1 hr single here still shape => ?_⟩
    exact ⟨fun k s2 => placementAttempt_takes hw hp hr single here still shape,
      placementAttempt_waits_for_room hw hp hr single here still shape⟩
  · exact fun s s1 s2 w m k x left wh => gangReserve_reserves
  · exact fun s w x => gangCommit_starts
  · intro s w k q x r hw hp gang hr fresh last bare alone single still
    exact ⟨fun im s1 => imagePrefetch_loads hw hp gang hr fresh last bare alone single still,
      fun f => imagePrefetch_faults hw hp gang hr fresh last bare alone single still⟩
  · exact fun s e k r y => planeReady_reports
  · exact fun s e k r => planeSwap_swaps
  · exact fun s k tile b r im => bankTokenGrant_passes
  · exact fun s k tile due r => startTokenArrive_starts
  · exact fun s k r => consistComplete_completes
  · exact fun s k tile r => completionTokenPass_passes
  · exact fun s d w run x => gabort_aborts
  · exact fun s d v idle busy => ⟨urgentLaunch_outside, urgentLaunch_inside idle busy⟩
  · exact fun s e => planeSSwitch_switches

end Sys2Proof.Proofs
end
